-- ==== Sys2Proof/Word.lean ====
section
/-! DEFINITION. Word.lean: the words the block moves and compares, by their widths. -/

namespace Sys2Proof

/-- One byte of a parcel, a packet, a report record or a pixel index. -/
abbrev Byte := BitVec 8

/-- A frame number, 0 to 65535, which wraps (00_scope.md, Conventions). -/
abbrev Frame := BitVec 16

/-- A proposal sequence number, 0 to 255, which wraps. -/
abbrev Seq := BitVec 8

/-- A parcel tag, 0 to 255, which wraps. -/
abbrev Tag := BitVec 8

/-- A station number as it stands in a parcel's byte; 1 to 30 are stations (R34). -/
abbrev StationNo := BitVec 8

/-- The CRC-32 of the table's value bytes (R16). -/
abbrev Digest := BitVec 32

/-- One of the six counts of the Report Unit, 0 to 65535 (R171). -/
abbrev Count := BitVec 16

/-- The high byte of a two-byte field. -/
def hiByte (w : BitVec 16) : Byte := w.extractLsb' 8 8

/-- The low byte of a two-byte field. -/
def loByte (w : BitVec 16) : Byte := w.extractLsb' 0 8

/-- Two bytes, most significant first, as one field (R175). -/
def word16 (hi lo : Byte) : BitVec 16 := hi ++ lo

/-- The four bytes of a digest, most significant first (R175). -/
def bytes32 (w : BitVec 32) : List Byte :=
  [w.extractLsb' 24 8, w.extractLsb' 16 8, w.extractLsb' 8 8, w.extractLsb' 0 8]

/-- Four bytes, most significant first, as one field (R175). -/
def word32 (a b c d : Byte) : BitVec 32 := ((a ++ b) ++ c) ++ d

end Sys2Proof
end

