-- ==== Sys2Proof/Syntax.lean ====
section
/-! DEFINITION. Syntax.lean: what the commands carry (parcels of the tile ring, packets of the image source,
straps) and the commands themselves, one constructor for each row of spec/opcode_table.json. -/

namespace Sys2Proof

/-- The eight station states (R55), in the order of their codes (R177). -/
inductive StationState where
  | offRing | listening | joining | catchingUp | inService | ringHold | resync | isolated
  deriving DecidableEq, Repr

/-- The four lock states (R80), in the order of their codes (R177). -/
inductive LockState where
  | reference | free | slewing | locked
  deriving DecidableEq, Repr

/-- The strapped raster profile (R22). -/
inductive Profile where
  | p0 | p1 | p2 | p3
  deriving DecidableEq, Repr

/-- The strapped commit lead: 2, 3, 4 or 6 frames (R176). -/
inductive Lead where
  | two | three | four | six
  deriving DecidableEq, Repr

/-- A colour: three 8-bit components. -/
structure Colour where
  red : Byte
  green : Byte
  blue : Byte
  deriving DecidableEq, Repr

/-- A stamp: null, or the effective frame, origin and sequence of the update that wrote the entry (R4). -/
inductive Stamp where
  | null
  | mark (frame : Frame) (origin : StationNo) (seq : Seq)
  deriving DecidableEq, Repr

/-- One change to one entry. The index is two bytes on the ring and is not checked there (R37). -/
structure Edit where
  index : BitVec 16
  colour : Colour
  deriving DecidableEq, Repr

/-- One entry as a SNAPSHOT part carries it (R35). -/
structure SnapEntry where
  index : BitVec 16
  value : Colour
  stamp : Stamp
  deriving DecidableEq, Repr

/-- The seven parcel kinds, in the order of their codes 1 to 7 (R34, R177). -/
inductive Kind where
  | beacon | join | propose | commit | withdraw | snapshotReq | snapshot
  deriving DecidableEq, Repr

/-- The parcel header less the kind (R34). The hop count is a byte as carried (R177). -/
structure Header where
  origin : StationNo
  target : StationNo
  tag : Tag
  hop : Byte
  deriving DecidableEq, Repr

/-- The body of a BEACON (R65). -/
structure BeaconBody where
  frame : Frame
  state : StationState
  lock : LockState
  digest : Option (Frame × Digest)
  room : Byte
  deriving DecidableEq, Repr

/-- The body of a JOIN (R59). A join attempt outside 1 to 3 passes the check (R177, note 3). -/
structure JoinBody where
  profile : Profile
  lead : Lead
  attempt : Byte
  mismatch : Bool
  deriving DecidableEq, Repr

/-- The body of a PROPOSE (R96). -/
structure ProposeBody where
  seq : Seq
  edits : List Edit
  holders : Byte
  refusals : Byte
  deriving DecidableEq, Repr

/-- The body of a SNAPSHOT part (R132). -/
structure SnapshotBody where
  part : Byte
  build : Frame
  entries : List SnapEntry
  deriving DecidableEq, Repr

/-- A parcel's body, by its kind (R35). -/
inductive Body where
  | beacon (b : BeaconBody)
  | join (b : JoinBody)
  | propose (b : ProposeBody)
  | commit (seq : Seq) (effective : Frame)
  | withdraw (seq : Seq)
  | snapshotReq
  | snapshot (b : SnapshotBody)
  deriving DecidableEq, Repr

/-- A parcel of the tile ring, less its CRC-16, which is formed anew for every send (R34, R48). -/
structure Parcel where
  header : Header
  body : Body
  deriving DecidableEq, Repr

/-- One record of a PARAM_SET packet (R156). -/
structure ParamRecord where
  control : Byte
  colour : Colour
  deriving DecidableEq, Repr

/-- The pieces of frame-start work that the table lists as rows of their own: what a FRAME_START command may leave
to such a command after it (log entry 4). -/
inductive FrameWork where
  | listenGuard | inFlightAgeing
  | holdExpiry | retentionExpiry
  | originDeadlines | collectorDeadline
  | stationAgeing | transition | backoff
  deriving DecidableEq, Repr

/-- The commands: one constructor for each row of spec/opcode_table.json. -/
inductive Instr where
  /-- RESET_ASSERT (R25): RESET# is asserted. -/
  | resetAssert
  /-- RESET_RELEASE (R55): RESET# is released with these levels on the strap pins SN, PRF and LEAD (R176). -/
  | resetRelease (sn : BitVec 5) (prf : BitVec 2) (lead : BitVec 2)
  /-- LINE_ADVANCE (R23): an ordinary line ends. -/
  | lineAdvance
  /-- FRAME_START (R24): line T - 1 ends. The pieces of frame-start work in `later` are left to the commands of their
  own rows that follow; every other piece is done in this step (log entry 4). `mid` says that a parcel is partway in on RIN
  (R36; log entry 10); without it none is. -/
  | frameStart (later : List FrameWork) (mid : Bool := false)
  /-- LISTEN_GUARD_CLEAR (R40). -/
  | listenGuardClear
  /-- LISTEN_COUNT_EXPIRY (R58). -/
  | listenCountExpiry
  /-- JOIN_DEADLINE (R62). -/
  | joinDeadline
  /-- IN_FLIGHT_AGEING (R49). -/
  | inFlightAgeing
  /-- STATION_ENTRY_AGE_OUT (R69). -/
  | stationEntryAgeOut
  /-- MISS_STREAK_LIMIT (R71). -/
  | missStreakLimit
  /-- RETURN_STREAK_LIMIT (R72). -/
  | returnStreakLimit
  /-- HOLD_COUNT_LIMIT (R73). -/
  | holdCountLimit
  /-- REJOIN (R74). -/
  | rejoin
  /-- BACKOFF_EXPIRY (R77). -/
  | backoffExpiry
  /-- RESYNC_DUE_MARK_TEST (R76). -/
  | resyncDueMarkTest
  /-- PROPOSE_DEADLINE (R100). -/
  | proposeDeadline
  /-- WITHDRAWN_DEADLINE (R101). -/
  | withdrawnDeadline
  /-- COMMIT_DEADLINE (R104). -/
  | commitDeadline
  /-- HOLD_EXPIRY (R122). -/
  | holdExpiry
  /-- RETENTION_EXPIRY (R124). -/
  | retentionExpiry
  /-- SNAPSHOT_DEADLINE (R138). -/
  | snapshotDeadline
  /-- APPLY_WINDOW_OPEN (R8): the start of line 1. -/
  | applyWindowOpen
  /-- INSTALL_END (R10). -/
  | installEnd
  /-- APPLY_END (R21). -/
  | applyEnd
  /-- CONTROL_WINDOW_OPEN (R27): the start of line 2. -/
  | controlWindowOpen
  /-- CONTROL_WINDOW_CLOSE (R153): the end of line V - 5. -/
  | controlWindowClose
  /-- LINE_REQUEST_POINT (R145): the start of line V - 2. -/
  | lineRequestPoint
  /-- FIRST_ACTIVE_LINE (R26): the start of line V. -/
  | firstActiveLine
  /-- ACTIVE_LINE (R150): the start of active line V + j. -/
  | activeLine (j : Nat)
  /-- FRAME_END (R17): the end of line T - 1. -/
  | frameEnd
  /-- PMARK (R147): a PMARK from the image source. -/
  | pmark
  /-- PIXEL_BYTE (R148): a byte strobed on PD. -/
  | pixelByte (b : Byte)
  /-- TABLE_LOAD (R155): a complete TABLE_LOAD packet, its start index and component bytes. -/
  | tableLoad (start : Byte) (components : List Byte)
  /-- PARAM_SET (R156): a complete PARAM_SET packet, its records. -/
  | paramSet (records : List ParamRecord)
  /-- READBACK (R158): a complete READBACK packet. -/
  | readback (start : BitVec 16) (count : Byte)
  /-- STATUS_REQ (R159): a complete STATUS_REQ packet, its clear flag. -/
  | statusReq (clear : Byte)
  /-- BEACON (R66): a BEACON parcel arrives on RIN with a good CRC. -/
  | beacon (h : Header) (b : BeaconBody)
  /-- JOIN (R60). -/
  | join (h : Header) (b : JoinBody)
  /-- PROPOSE (R113). -/
  | propose (h : Header) (b : ProposeBody)
  /-- COMMIT (R117). -/
  | commit (h : Header) (seq : Seq) (effective : Frame)
  /-- WITHDRAW (R120). -/
  | withdraw (h : Header) (seq : Seq)
  /-- SNAPSHOT_REQ (R129). -/
  | snapshotReq (h : Header)
  /-- SNAPSHOT (R136). -/
  | snapshot (h : Header) (b : SnapshotBody)
  /-- SNAPSHOT_PART_BUILD (R132). -/
  | snapshotPartBuild
  /-- SEND_BEGIN (R45). -/
  | sendBegin
  /-- SEND_END (R48). -/
  | sendEnd
  /-- REPORT_SEND_BEGIN (R167). -/
  | reportSendBegin
  /-- REPORT_SEND_END (R167): the send in progress ends now, or, with `after` above 0, once that many more records have been
  formed (log entry 11); without it, now. -/
  | reportSendEnd (after : Nat := 0)
  /-- FAILED_PARCEL_ARRIVAL (R37): a run of bytes between the delimiters of RIN. -/
  | failedParcelArrival (run : List Byte)
  deriving DecidableEq, Repr

end Sys2Proof
end

