-- ==== Sys2Proof/Config.lean ====
section
/-! DEFINITION. Config.lean: the sizes the spec fixes and the values it leaves free. -/

namespace Sys2Proof

/-- Places of the insertion buffer (R43). -/
abbrev Config.insertionPlaces : Nat := 4
/-- Places of the transmit queue (R44). -/
abbrev Config.transmitPlaces : Nat := 8
/-- Places of the in-flight list (R47). -/
abbrev Config.inFlightPlaces : Nat := 8
/-- Forwarded sends in a row after which an own parcel that is ready goes first (R45). -/
abbrev Config.streakLimit : Nat := 8
/-- Records of the Proposal Store (R110). -/
abbrev Config.storePlaces : Nat := 12
/-- Records of the origin list (R91). -/
abbrev Config.originPlaces : Nat := 4
/-- Requesters of the responder queue (R130). -/
abbrev Config.responderPlaces : Nat := 4
/-- READBACKs that may wait (R158). -/
abbrev Config.readbackPlaces : Nat := 4
/-- Records of the report queue (R166). -/
abbrev Config.reportPlaces : Nat := 16
/-- Pairs of the digest history (R17). -/
abbrev Config.historyPlaces : Nat := 4
/-- The slots of the line buffer (R146). -/
abbrev Config.slots : Nat := 2

/-- Active pixels per line, W (R22). -/
def Profile.width : Profile → Nat
  | .p0 => 640
  | .p1 => 800
  | .p2 => 1024
  | .p3 => 1280

/-- Active lines per frame, A (R22). -/
def Profile.lines : Profile → Nat
  | .p0 => 400
  | .p1 => 480
  | .p2 => 600
  | .p3 => 768

/-- Nominal vertical blanking, V (R22). -/
def Profile.blanking : Profile → Nat
  | .p0 => 44
  | .p1 => 46
  | .p2 => 48
  | .p3 => 50

/-- The lead as a number of frames (R176). -/
def Lead.frames : Lead → Frame
  | .two => 2
  | .three => 3
  | .four => 4
  | .six => 6

/-- FREE VALUE. At a rejoin the Origin Engine's reports and the Membership Unit's STATE_CHANGE are handed over at the
same moment and enter in either order (R166): which is first in the n-th such draw (log entry 12). -/
opaque Config.originReportsFirst : Nat → Bool

/-- FREE VALUE. Of a resync-due mark and a missed commit's frame exactly 32768 apart each is later than the other
(R32), and R76 keeps "whichever is later": whether the new frame replaces the mark (log entry 13). -/
opaque Config.markReplaced : Frame → Frame → Bool

end Sys2Proof
end

