-- ==== Sys2Proof/Machine/State.lean ====
section
/-! DEFINITION. Machine/State.lean: everything the spec gives one ZLV2630, as plain data, grouped by the block that owns it,
and its value under a device reset. -/

namespace Sys2Proof.Machine

/-! ## Reports -/

/-- Why a station is ISOLATED (R170). -/
inductive IsolationReason where
  | invalidStrap | duplicate | mismatch | noReturn
  deriving DecidableEq, Repr

/-- Why a resynchronisation began (R170). -/
inductive ResyncCause where
  | digest | mark
  deriving DecidableEq, Repr

/-- Why a load or an update was rejected (R93, R106). -/
inductive RejectReason where
  | notInService | busy | storeFull | ring | refused
  deriving DecidableEq, Repr

/-- Why a packet failed (R154, R158). -/
inductive PacketReason where
  | check | kind | length | empty | truncated | outside | busy
  deriving DecidableEq, Repr

/-- The events and their fields (R170). -/
inductive Event where
  | lateCommit (origin : StationNo) (seq : Seq) (effective applied : Frame)
  | frameSlip (before adopted : Frame) (offset : Int)
  | holdExpired (origin : StationNo) (seq : Seq) (arrival frame : Frame)
  | duplicateStation (kind : Kind) (tag : Tag)
  | ringHold
  | ringClosed
  | resyncStart (cause : ResyncCause)
  | resyncDone
  | resyncFailed
  | stateChange (state : StationState) (reason : Option IsolationReason)
  deriving DecidableEq, Repr

/-- The six counts of the Report Unit (R171). -/
structure Counts where
  crc : Count
  overflow : Count
  stray : Count
  underrun : Count
  late : Count
  frameSlip : Count
  deriving DecidableEq, Repr

/-- The fields of a STATUS report (R172). -/
structure StatusFields where
  station : StationNo
  state : StationState
  lock : LockState
  frame : Frame
  tableRef : Option StationNo
  timingRef : Option StationNo
  present : Nat
  openRecords : Nat
  retained : Nat
  originRecords : Nat
  seeded : Bool
  counts : Counts
  deriving DecidableEq, Repr

/-- A report's kind with the fields of that kind (R169, R170). -/
inductive Report where
  | updateQueued (seq : Seq) (edits : Nat) (partialLoad : Bool) (round : Nat) (replaced : Option Seq)
  | updateCommitted (seq : Seq) (effective : Frame) (holders : Byte)
  | updateRejected (reason : RejectReason) (seq : Option Seq)
  | updateUnconfirmed (seq : Seq) (effective : Frame)
  | entry (index : Nat) (value : Colour) (stamp : Stamp)
  | packetError (reason : PacketReason) (kind : Option Byte)
  | status (fields : StatusFields)
  | event (e : Event)
  deriving DecidableEq, Repr

/-- A record of the report queue (R166). -/
structure ReportRecord where
  report : Report
  lost : Bool
  frame : Frame
  deriving DecidableEq, Repr

/-- The Report Unit (chapter 11). `endsAfter` is the model's own: above 0, the send in progress ends once that many more
records have been formed (log entry 11). -/
structure ReportUnit where
  queue : List ReportRecord
  sending : Option ReportRecord
  endsAfter : Nat
  lost : Bool
  counts : Counts
  deriving DecidableEq, Repr

/-! ## Straps and raster -/

/-- The straps as sampled (R176). -/
structure Straps where
  station : StationNo
  profile : Profile
  lead : Lead
  deriving DecidableEq, Repr

/-- The Raster Generator (chapter 2). `active` holds from the start of line V to the end of line T - 1 (R26). -/
structure Raster where
  frame : Frame
  line : Nat
  blanking : Nat
  request : Nat
  active : Bool
  deriving DecidableEq, Repr

/-! ## Table Store -/

/-- One entry of the colour table (R1). -/
structure Entry where
  value : Colour
  stamp : Stamp
  deriving DecidableEq, Repr

/-- The colour table in canonical form: (index, entry) pairs, indices strictly rising and below 260, none equal to the
reset entry that an unlisted index reads as (R2). -/
abbrev Table := List (Nat × Entry)

/-- One part of a snapshot as gathered: its number, its build frame and its entries (R127). -/
structure Part where
  number : Nat
  build : Frame
  entries : List SnapEntry
  deriving DecidableEq, Repr

/-- A proposal record as the Table Store takes it at a hand-over (R123). -/
structure DueRecord where
  origin : StationNo
  seq : Seq
  effective : Frame
  edits : List Edit
  deriving DecidableEq, Repr

/-- How far the apply operation of the frame is: not in progress; its items taken at the frame start; its install running;
its edits judged and its end not yet reached (R8, R10, R14; log entry 8). -/
inductive ApplyPhase where
  | idle | taken | installing | judging
  deriving DecidableEq, Repr

/-- The apply operation: its F, the first line in which it judges edits (R14) and the three items of R8. -/
structure Apply where
  phase : ApplyPhase
  frame : Frame
  since : Nat
  staged : Option (List Part)
  reapply : List DueRecord
  due : List DueRecord
  deriving DecidableEq, Repr

/-- The Table Store (chapter 1). The digest history has its newest pair last. -/
structure TableStore where
  entries : Table
  seeded : Bool
  slot : Option (List Part)
  history : List (Frame × Digest)
  digest : Option (Frame × Digest)
  apply : Apply
  deriving DecidableEq, Repr

/-! ## Ring Interface -/

/-- A parcel in the insertion buffer or in sending; `notice` says that the end of its send tells the Membership Unit of a
duplicate station number (R40). -/
structure Waiting where
  parcel : Parcel
  notice : Bool
  deriving DecidableEq, Repr

/-- An entry of the in-flight list (R47). -/
structure InFlight where
  tag : Tag
  kind : Kind
  seq : Option Seq
  frame : Frame
  deriving DecidableEq, Repr

/-- The Ring Interface (chapter 3). `cut` says that the parcel coming in on RIN began while BYPASS was asserted (R36). -/
structure Ring where
  insertion : List Waiting
  transmit : List Parcel
  inFlight : List InFlight
  tag : Tag
  streak : Nat
  guard : Bool
  duplicateSeen : Bool
  cut : Bool
  rout : Option Waiting
  deriving DecidableEq, Repr

/-! ## Membership Unit and Lock Unit -/

/-- A present entry of the station table (R68). -/
structure StationEntry where
  state : StationState
  missed : Nat
  heard : Bool
  digest : Option (Frame × Digest)
  deriving DecidableEq, Repr

/-- The Membership Unit (chapter 4). `stations` lists the present peers by rising station number; the own entry follows from
`state` (R68; log entry 15). -/
structure Member where
  state : StationState
  stations : List (StationNo × StationEntry)
  tableRef : Option StationNo
  timingRef : Option StationNo
  outstanding : Option Frame
  returned : Bool
  miss : Nat
  ret : Nat
  listen : Nat
  hold : Nat
  attempt : Option Nat
  joinDeadline : Option Frame
  snapshotNeeded : Bool
  installed : Bool
  rejoinPending : Bool
  mark : Option Frame
  mismatch : Nat
  backoff : Nat
  deriving DecidableEq, Repr

/-- The Lock Unit (chapter 5). -/
structure Lock where
  state : LockState
  ref : Option StationNo
  offset : Option Int
  deriving DecidableEq, Repr

/-! ## Origin Engine and Proposal Store -/

/-- The phase of an origin record, with what it carries in that phase only (R91). `waiting` in WITHDRAWN: the deadline has been
reached and the new round waits for IN_SERVICE (R102). -/
inductive Phase where
  | proposing
  | withdrawn (waiting : Bool)
  | committing (effective : Frame) (holders : Byte)
  deriving DecidableEq, Repr

/-- A record of the origin list (R91). -/
structure OriginRecord where
  seq : Seq
  edits : List Edit
  phase : Phase
  attempt : Nat
  round : Nat
  deadline : Frame
  partialLoad : Bool
  deriving DecidableEq, Repr

/-- The Origin Engine (chapter 6); the list oldest first. -/
structure Origin where
  list : List OriginRecord
  nextSeq : Seq
  deriving DecidableEq, Repr

/-- The state of a proposal record with the frame it holds in that state (R110). -/
inductive RecordState where
  | held (arrival : Frame)
  | scheduled (effective : Frame)
  | applied (effective : Frame)
  deriving DecidableEq, Repr

/-- A proposal record (R110). -/
structure Proposal where
  origin : StationNo
  seq : Seq
  edits : List Edit
  state : RecordState
  deriving DecidableEq, Repr

/-! ## Snapshot Unit -/

/-- A collecting collector (R127); a part's flag is set when the part is listed. -/
structure Collector where
  target : Option StationNo
  attempt : Nat
  deadline : Frame
  parts : List Part
  deriving DecidableEq, Repr

/-- The Snapshot Unit (chapter 8). -/
structure Snap where
  queue : List StationNo
  progress : Option Nat
  collector : Option Collector
  deriving DecidableEq, Repr

/-! ## Pixel Port and Panel Output -/

/-- The state of a bound slot of the line buffer (R146). -/
inductive SlotState where
  | awaiting | receiving | complete | short | abandoned
  deriving DecidableEq, Repr

/-- A bound slot: its line, its state, the bytes kept and how many bytes of the line have come (R146, R151). -/
structure Slot where
  line : Nat
  state : SlotState
  bytes : List Byte
  count : Nat
  deriving DecidableEq, Repr

/-- The receiver state (R144); a packet in progress stands in PACKET. -/
inductive Rx where
  | wait
  | line (n : Nat)
  | packet (bytes : List Byte)
  | discard
  | drain
  deriving DecidableEq, Repr

/-- A READBACK packet's fields (R158). -/
structure ReadbackReq where
  start : Nat
  count : Nat
  deriving DecidableEq, Repr

/-- The Pixel Port (chapter 9). `slots` lists the bound slots. `requested` counts the LREQ pulses of the frame and `begun`
the active lines of the frame whose start has passed. -/
structure Pixel where
  outstanding : List Nat
  slots : List Slot
  rx : Rx
  readbacks : List ReadbackReq
  cwin : Bool
  requested : Nat
  begun : Nat
  deriving DecidableEq, Repr

/-- What the panel pins show (chapter 10): VSYNC, the HSYNC pulses since the reset release, whether the frame is black, and the colours
driven at the active pixel positions of the line in progress, none where DE is inactive. -/
structure Panel where
  vsync : Bool
  hsync : Nat
  black : Bool
  pixels : List Colour
  deriving DecidableEq, Repr

/-! ## The whole -/

/-- The model's own: frame-start work still due at the frame start in progress, its F, and the origin records (by seq) whose
deadline this frame start has not yet tested (log entry 4). -/
structure StartWork where
  frame : Frame
  due : List FrameWork
  origin : List Seq
  deriving DecidableEq, Repr

/-- One ZLV2630 and the commands that wait for it. -/
structure State where
  inReset : Bool
  straps : Straps
  raster : Raster
  table : TableStore
  ring : Ring
  member : Member
  lock : Lock
  origin : Origin
  store : List Proposal
  snap : Snap
  pixel : Pixel
  panel : Panel
  report : ReportUnit
  startWork : StartWork
  freeDraws : Nat
  pending : List Instr
  deriving DecidableEq, Repr

/-- The machine never stops with a fault: the spec counts and reports what goes wrong and goes on (safe: nothing raises one). -/
inductive Fault where
  deriving DecidableEq, Repr

/-- Why a command is refused. -/
inductive Refusal where
  /-- A row of the table without a meaning; raised by `exec` alone. Safe: the machine stops where the hardware goes on. No arm
  of this model raises it. -/
  | notModelled (mnemonic : String)
  deriving DecidableEq, Repr

/-! ## Reset values, block by block -/

/-- R174. -/
def ReportUnit.reset : ReportUnit :=
  { queue := [], sending := none, endsAfter := 0, lost := false, counts := ⟨0, 0, 0, 0, 0, 0⟩ }

/-- R25, for the sampled profile. -/
def Raster.reset (p : Profile) : Raster :=
  { frame := 0, line := 0, blanking := p.blanking, request := p.blanking, active := false }

/-- R2. The F and the line of an apply operation, where there is none yet, are the model's choice (log entry 42). -/
def TableStore.reset : TableStore :=
  { entries := [], seeded := false, slot := none, history := [], digest := none,
    apply := { phase := .idle, frame := 0, since := 0, staged := none, reapply := [], due := [] } }

/-- R52; `cut` is the model's choice (log entry 42). -/
def Ring.reset : Ring :=
  { insertion := [], transmit := [], inFlight := [], tag := 0, streak := 0, guard := false, duplicateSeen := false,
    cut := false, rout := none }

/-- R55, in the station state given. -/
def Member.reset (st : StationState) : Member :=
  { state := st, stations := [], tableRef := none, timingRef := none, outstanding := none, returned := false, miss := 0,
    ret := 0, listen := 0, hold := 0, attempt := none, joinDeadline := none, snapshotNeeded := false, installed := false,
    rejoinPending := false, mark := none, mismatch := 0, backoff := 0 }

/-- R80. -/
def Lock.reset : Lock := { state := .free, ref := none, offset := none }

/-- R108. -/
def Origin.reset : Origin := { list := [], nextSeq := 0 }

/-- R143. -/
def Snap.reset : Snap := { queue := [], progress := none, collector := none }

/-- R144. -/
def Pixel.reset : Pixel :=
  { outstanding := [], slots := [], rx := .wait, readbacks := [], cwin := false, requested := 0, begun := 0 }

/-- R160: the syncs and DE inactive, RGB (0, 0, 0). -/
def Panel.reset : Panel := { vsync := false, hsync := 0, black := true, pixels := [] }

/-- Nothing of a frame start is due. -/
def StartWork.reset : StartWork := { frame := 0, due := [], origin := [] }

/-- The machine under a device reset with RESET# asserted (R25), which a power-on reset is too (section 12.5). The straps are
sampled at the release only; before the first release they hold the values of log entry 1. -/
def State.reset : State :=
  { inReset := true
    straps := { station := 0, profile := .p0, lead := .two }
    raster := Raster.reset .p0
    table := TableStore.reset
    ring := Ring.reset
    member := Member.reset .offRing
    lock := Lock.reset
    origin := Origin.reset
    store := []
    snap := Snap.reset
    pixel := Pixel.reset
    panel := Panel.reset
    report := ReportUnit.reset
    startWork := StartWork.reset
    freeDraws := 0
    pending := [] }

end Sys2Proof.Machine
end

