-- ==== Sys2Proof/Machine/Flags.lean ====
section
/-! DEFINITION. Machine/Flags.lean: the six counts, the lost flag with the report queue it belongs to, and the flags read from
more than one field (BYPASS, the classes of station states). -/

namespace Sys2Proof.Machine

/-! ## Station-state classes and BYPASS -/

/-- The on-ring states (R55). -/
def onRing : StationState → Bool
  | .joining | .catchingUp | .inService | .ringHold | .resync => true
  | .offRing | .listening | .isolated => false

/-- The receiving states: LISTENING and the on-ring states (R36). -/
def receiving : StationState → Bool
  | .listening => true
  | .joining | .catchingUp | .inService | .ringHold | .resync => true
  | .offRing | .isolated => false

/-- The states in which a COMMIT for an unknown record is a missed commit (R118). -/
def takesMissedCommit : StationState → Bool
  | .catchingUp | .inService | .ringHold | .resync => true
  | .offRing | .listening | .joining | .isolated => false

/-- BYPASS is asserted when, and only when, the station is in reset, OFF_RING or ISOLATED (R50). -/
def bypass (s : State) : Bool := s.inReset || !receiving s.member.state

/-! ## The six counts (R171) -/

/-- One more, but a count at 65535 stays there (R171). -/
def countUp (c : Count) : Count := if c = 65535#16 then c else c + 1

/-- Raise the CRC count (R37). -/
def countCrc (s : State) : State := { s with report.counts.crc := countUp s.report.counts.crc }

/-- Raise the overflow count (R43, R147, R148). -/
def countOverflow (s : State) : State := { s with report.counts.overflow := countUp s.report.counts.overflow }

/-- Raise the stray count (R41). -/
def countStray (s : State) : State := { s with report.counts.stray := countUp s.report.counts.stray }

/-- Raise the underrun count (R150). -/
def countUnderrun (s : State) : State := { s with report.counts.underrun := countUp s.report.counts.underrun }

/-- Raise the late count (R13). -/
def countLate (s : State) : State := { s with report.counts.late := countUp s.report.counts.late }

/-- Raise the frame-slip count (R84). -/
def countFrameSlip (s : State) : State := { s with report.counts.frameSlip := countUp s.report.counts.frameSlip }

/-! ## The report queue and the lost flag -/

/-- With the line idle and the queue not empty the send of the head record begins (R167). -/
def nextSend (u : ReportUnit) : ReportUnit :=
  match u.sending, u.queue with
  | none, r :: rest => { u with sending := some r, queue := rest }
  | none, [] => u
  | some _, _ => u

/-- The record in sending leaves the line, and the next head begins at once (R167). -/
def sendOver (u : ReportUnit) : ReportUnit := nextSend { u with sending := none, endsAfter := 0 }

/-- A record formed of the report at the current frame joins the tail, and begins its send where the line is idle; or it meets a
full queue, is discarded and sets the lost flag. A record that joins carries the flag as its mark and clears it (R166 to R168). -/
def recordJoin (r : Report) (frame : Frame) (u : ReportUnit) : ReportUnit :=
  if u.queue.length < Config.reportPlaces then
    nextSend { u with queue := u.queue ++ [{ report := r, lost := u.lost, frame := frame }], lost := false }
  else { u with lost := true }

/-- One more record has been formed: a send whose end was announced for then ends (log entry 11). -/
def recordFormed (u : ReportUnit) : ReportUnit :=
  if u.endsAfter = 0 then u
  else if u.endsAfter = 1 then sendOver u
  else { u with endsAfter := u.endsAfter - 1 }

/-- A record is formed of the report at the current frame (R166). -/
def reportJoin (r : Report) (frame : Frame) (u : ReportUnit) : ReportUnit := recordFormed (recordJoin r frame u)

/-- A block hands a report over (R166). -/
def report (r : Report) (s : State) : State :=
  { s with report := reportJoin r s.raster.frame s.report }

/-- A block raises an event (R170). -/
def event (e : Event) (s : State) : State := report (.event e) s

end Sys2Proof.Machine
end

