-- ==== Sys2Proof/Machine/Ops.lean ====
section
/-! DEFINITION. Machine/Ops.lean: the named operations the blocks share: frame-number arithmetic, ordering, the colour table read
and written, the transmit queue. -/

namespace Sys2Proof.Machine

/-! ## Frame numbers (R32, R33) -/

/-- Frame a is at or before frame b (R32). -/
def atOrBefore (a b : Frame) : Bool := decide ((b - a).toNat < 32768)

/-- Frame a is later than frame b (R32). -/
def later (a b : Frame) : Bool := !atOrBefore a b

/-- The recorded frame x is n or more frames before f: the age test of R33. -/
def aged (n : Nat) (x f : Frame) : Bool := decide (n ≤ (f - x).toNat) && decide ((f - x).toNat ≤ 32767)

/-- The deadline d is reached at the frame start f (R33). -/
def reached (d f : Frame) : Bool := atOrBefore d f

/-! ## Sorting -/

/-- Insert before the first element that the new one precedes. -/
def insertBefore {α : Type} (before : α → α → Bool) (x : α) : List α → List α
  | [] => [x]
  | y :: ys => if before x y then x :: y :: ys else y :: insertBefore before x ys

/-- The list in the order `before` gives. -/
def sortBy {α : Type} (before : α → α → Bool) (xs : List α) : List α := xs.foldr (insertBefore before) []

/-! ## Fields by name -/

/-- The own station number (R55). -/
def own (s : State) : StationNo := s.straps.station

/-- The current frame number (R31). -/
def now (s : State) : Frame := s.raster.frame

/-- The total lines T of the frame in progress (R23). -/
def totalLines (s : State) : Nat := s.raster.blanking + s.straps.profile.lines

/-- A station number that names a station (R34). -/
def isStation (n : StationNo) : Bool := decide (1 ≤ n.toNat) && decide (n.toNat ≤ 30)

/-- A parcel's target addresses this station: 0, or the own number (R34). -/
def addressed (target : StationNo) (s : State) : Bool := target == 0#8 || target == own s

/-! ## The colour table (R1, R2) -/

/-- The indices of the control entries (R1). -/
abbrev borderIndex : Nat := 256
abbrev maskIndex : Nat := 257
abbrev blankIndex : Nat := 258
abbrev offsetIndex : Nat := 259
/-- The entries of the table (R1). -/
abbrev tableSize : Nat := 260

/-- Black. -/
abbrev black : Colour := ⟨0, 0, 0⟩

/-- An entry's value and stamp after a device reset (R2): what an unlisted index reads as. -/
def resetEntry (i : Nat) : Entry :=
  if i = maskIndex then { value := ⟨255, 0, 0⟩, stamp := .null } else { value := black, stamp := .null }

/-- The entry at an index. -/
def Memory.read : Table → Nat → Entry
  | [], i => resetEntry i
  | (j, e) :: rest, i => if j = i then e else Memory.read rest i

/-- Write an entry, keeping the canonical form: an entry equal to the reset entry is not listed. -/
def Memory.write : Table → Nat → Entry → Table
  | [], i, e => if e = resetEntry i then [] else [(i, e)]
  | (j, f) :: rest, i, e =>
    if i < j then (if e = resetEntry i then (j, f) :: rest else (i, e) :: (j, f) :: rest)
    else if i = j then (if e = resetEntry i then rest else (i, e) :: rest)
    else (j, f) :: Memory.write rest i e

/-- The canonical form from index `lo` on. -/
def Memory.wfFrom : Nat → Table → Bool
  | _, [] => true
  | lo, (i, e) :: rest =>
    decide (lo ≤ i) && decide (i < tableSize) && decide (e ≠ resetEntry i) && Memory.wfFrom (i + 1) rest

/-- The canonical form of the table: indices strictly rising and below 260, no entry equal to the reset entry. -/
def Memory.wf (t : Table) : Bool := Memory.wfFrom 0 t

/-! ## Stamps and edits (R5 to R7) -/

/-- A stamp after the ageing-out test at frame F (R5). -/
def stampAt (F : Frame) : Stamp → Stamp
  | .null => .null
  | .mark f o q => if (F - f).toNat ≤ 63 then .mark f o q else .null

/-- The sequence qa is later than qb (R6). -/
def seqLater (qa qb : Seq) : Bool := decide (1 ≤ (qa - qb).toNat) && decide ((qa - qb).toNat ≤ 127)

/-- Stamp a is later than stamp b; the null stamp is earlier than every other (R6). -/
def stampLater : Stamp → Stamp → Bool
  | .null, _ => false
  | .mark _ _ _, .null => true
  | .mark fa oa qa, .mark fb ob qb =>
    later fa fb || (fa == fb && (decide (ob.toNat < oa.toNat) || (oa == ob && seqLater qa qb)))

/-- An edit brought to its entry by the apply operation of frame F: written, or dropped (R7). -/
def judgeEdit (F : Frame) (stamp : Stamp) (t : Table) (e : Edit) : Table :=
  if tableSize ≤ e.index.toNat then t
  else
    let old := stampAt F (Memory.read t e.index.toNat).stamp
    if old = .null ∨ stampLater stamp old = true then
      Memory.write t e.index.toNat { value := e.colour, stamp := stamp }
    else t

/-- Record a is taken before record b of the same frame and origin, by sequence (R6, last sentences). -/
def seqBefore (qa qb : Seq) : Bool := seqLater qb qa || (decide ((qa - qb).toNat = 128) && decide (qa.toNat < qb.toNat))

/-- The order of the apply set: by effective frame, then origin, then sequence (R12). -/
def dueBefore (a b : DueRecord) : Bool :=
  if a.effective = b.effective then
    decide (a.origin.toNat < b.origin.toNat) || (a.origin == b.origin && seqBefore a.seq b.seq)
  else atOrBefore a.effective b.effective

/-- The stamp every edit of a record carries (R4). -/
def DueRecord.stamp (r : DueRecord) : Stamp := .mark r.effective r.origin r.seq

/-! ## The transmit queue (R44) -/

/-- The kind of a body (R34). -/
def Body.kind : Body → Kind
  | .beacon _ => .beacon
  | .join _ => .join
  | .propose _ => .propose
  | .commit _ _ => .commit
  | .withdraw _ => .withdraw
  | .snapshotReq => .snapshotReq
  | .snapshot _ => .snapshot

/-- The seq a body carries, for PROPOSE, COMMIT and WITHDRAW (R47). -/
def Body.seq : Body → Option Seq
  | .propose b => some b.seq
  | .commit q _ => some q
  | .withdraw q => some q
  | .beacon _ | .join _ | .snapshotReq | .snapshot _ => none

/-- An own parcel as it is queued: hop count 0; its tag is written when its send begins (R34, R47). -/
def ownParcel (s : State) (target : StationNo) (b : Body) : Parcel :=
  { header := { origin := own s, target := target, tag := 0, hop := 0 }, body := b }

/-- Whether the parcel is a BEACON. -/
def isBeacon (p : Parcel) : Bool := Body.kind p.body == Kind.beacon

/-- The queue with the parcel in it, or nothing where it is dropped (R44). -/
def transmitJoin (p : Parcel) (q : List Parcel) : Option (List Parcel) :=
  if isBeacon p then
    if q.any isBeacon then some (p :: q.filter (fun x => !isBeacon x))
    else if q.length < Config.transmitPlaces then some (p :: q) else none
  else if q.length < Config.transmitPlaces then some (q ++ [p]) else none

/-- Whether the transmit queue would accept the parcel now (R44). -/
def transmitAccepts (p : Parcel) (s : State) : Bool := !bypass s && (transmitJoin p s.ring.transmit).isSome

/-- A block queues an own parcel; a parcel that finds no place, or finds BYPASS asserted, is dropped (R44). -/
def queueParcel (p : Parcel) (s : State) : State :=
  if bypass s then s
  else match transmitJoin p s.ring.transmit with
    | some q => { s with ring.transmit := q }
    | none => s

/-- Queue an own parcel of this body. -/
def queueBody (target : StationNo) (b : Body) (s : State) : State := queueParcel (ownParcel s target b) s

/-! ## The queue of commands -/

/-- A command's effect, which is none while RESET# is asserted (R25, R36, R55, R110, R127, R144, R174). -/
def whenReleased (f : State → State) (s : State) : State := if s.inReset then s else f s

end Sys2Proof.Machine
end

