-- ==== Sys2Proof/Machine/Operands.lean ====
section
/-! DEFINITION. Machine/Operands.lean: the byte layouts of parcels, packets and report records (chapter 12), both CRCs, and the
checks made on what arrives. -/

namespace Sys2Proof.Machine

/-! ## CRCs -/

/-- One bit into a CRC register shifted toward its most significant end. -/
def crcBit {w : Nat} (generator : BitVec w) (reg : BitVec w) (bit : Bool) : BitVec w :=
  if reg.msb != bit then (reg <<< 1) ^^^ generator else reg <<< 1

/-- The bits of a byte, most significant first. -/
def bitsMsb (b : Byte) : List Bool := [b[7], b[6], b[5], b[4], b[3], b[2], b[1], b[0]]

/-- The bits of a byte, least significant first. -/
def bitsLsb (b : Byte) : List Bool := [b[0], b[1], b[2], b[3], b[4], b[5], b[6], b[7]]

/-- The CRC-16 of a parcel's header and body (R37). -/
def crc16 (bytes : List Byte) : BitVec 16 :=
  bytes.foldl (fun r b => (bitsMsb b).foldl (crcBit 0x1021#16) r) 0xFFFF#16

/-- The CRC-32 of the digest (R16): bytes least significant bit first, the final register reflected and complemented. -/
def crc32 (bytes : List Byte) : Digest :=
  ~~~ (bytes.foldl (fun r b => (bitsLsb b).foldl (crcBit 0x04C11DB7#32) r) 0xFFFFFFFF#32).reverse

/-! ## Codes of named values (R177) -/

def StationState.code : StationState → Byte
  | .offRing => 0 | .listening => 1 | .joining => 2 | .catchingUp => 3
  | .inService => 4 | .ringHold => 5 | .resync => 6 | .isolated => 7

def StationState.ofCode (b : Byte) : Option StationState :=
  if b = 0 then some .offRing else if b = 1 then some .listening else if b = 2 then some .joining
  else if b = 3 then some .catchingUp else if b = 4 then some .inService else if b = 5 then some .ringHold
  else if b = 6 then some .resync else if b = 7 then some .isolated else none

def LockState.code : LockState → Byte
  | .reference => 0 | .free => 1 | .slewing => 2 | .locked => 3

def LockState.ofCode (b : Byte) : Option LockState :=
  if b = 0 then some .reference else if b = 1 then some .free else if b = 2 then some .slewing
  else if b = 3 then some .locked else none

def Profile.code : Profile → Byte
  | .p0 => 0 | .p1 => 1 | .p2 => 2 | .p3 => 3

def Profile.ofCode (b : Byte) : Option Profile :=
  if b = 0 then some .p0 else if b = 1 then some .p1 else if b = 2 then some .p2 else if b = 3 then some .p3 else none

def Lead.code : Lead → Byte
  | .two => 2 | .three => 3 | .four => 4 | .six => 6

def Lead.ofCode (b : Byte) : Option Lead :=
  if b = 2 then some .two else if b = 3 then some .three else if b = 4 then some .four
  else if b = 6 then some .six else none

def flagCode (f : Bool) : Byte := if f then 1 else 0

def flagOfCode (b : Byte) : Option Bool := if b = 0 then some false else if b = 1 then some true else none

def Kind.code : Kind → Byte
  | .beacon => 1 | .join => 2 | .propose => 3 | .commit => 4 | .withdraw => 5 | .snapshotReq => 6 | .snapshot => 7

/-- PRF[1:0] (R176). -/
def profileOfStrap (b : BitVec 2) : Profile :=
  if b = 0 then .p0 else if b = 1 then .p1 else if b = 2 then .p2 else .p3

/-- LEAD[1:0] (R176). -/
def leadOfStrap (b : BitVec 2) : Lead :=
  if b = 0 then .two else if b = 1 then .three else if b = 2 then .four else .six

/-! ## Parcels to bytes (R177) -/

def frameBytes (f : Frame) : List Byte := [hiByte f, loByte f]

def colourBytes (c : Colour) : List Byte := [c.red, c.green, c.blue]

/-- The null stamp is sent as four bytes of 0. -/
def stampBytes : Stamp → List Byte
  | .null => [0, 0, 0, 0]
  | .mark f o q => [hiByte f, loByte f, o, q]

def editBytes (e : Edit) : List Byte := [hiByte e.index, loByte e.index] ++ colourBytes e.colour

def snapEntryBytes (e : SnapEntry) : List Byte :=
  [hiByte e.index, loByte e.index] ++ (colourBytes e.value ++ stampBytes e.stamp)

/-- A digest pair with its present byte: absent fields are sent as 0 (R175). -/
def digestPairBytes : Option (Frame × Digest) → List Byte
  | none => [0, 0, 0, 0, 0, 0, 0]
  | some (f, d) => [1, hiByte f, loByte f] ++ bytes32 d

def bodyBytes : Body → List Byte
  | .beacon b =>
    [hiByte b.frame, loByte b.frame, StationState.code b.state, LockState.code b.lock]
      ++ (digestPairBytes b.digest ++ [b.room])
  | .join b => [Profile.code b.profile, Lead.code b.lead, b.attempt, flagCode b.mismatch]
  | .propose b => [b.seq, BitVec.ofNat 8 b.edits.length, b.holders, b.refusals] ++ b.edits.flatMap editBytes
  | .commit q f => [q, hiByte f, loByte f]
  | .withdraw q => [q]
  | .snapshotReq => []
  | .snapshot b =>
    [b.part, hiByte b.build, loByte b.build, BitVec.ofNat 8 b.entries.length] ++ b.entries.flatMap snapEntryBytes

/-- Header and body, as the CRC-16 covers them. -/
def parcelBytes (p : Parcel) : List Byte :=
  [Kind.code (Body.kind p.body), p.header.origin, p.header.target, p.header.tag, p.header.hop] ++ bodyBytes p.body

/-- The run of bytes between the delimiters of the link: header, body, CRC-16 (R177). -/
def runOf (p : Parcel) : List Byte :=
  parcelBytes p ++ [hiByte (crc16 (parcelBytes p)), loByte (crc16 (parcelBytes p))]

/-! ## Bytes on a serial link (R175) -/

/-- The bits of a run of bytes on a serial link: each byte least significant bit first (R175). -/
def linkBits (run : List Byte) : List Bool := run.flatMap bitsLsb

/-- The byte that eight bits of a link hold, the first of them least significant (R175). -/
def byteOfBits (b0 b1 b2 b3 b4 b5 b6 b7 : Bool) : Byte :=
  BitVec.ofBool b7 ++ BitVec.ofBool b6 ++ BitVec.ofBool b5 ++ BitVec.ofBool b4
    ++ BitVec.ofBool b3 ++ BitVec.ofBool b2 ++ BitVec.ofBool b1 ++ BitVec.ofBool b0

/-- The whole bytes that the bits between two delimiters of a link hold (R175). -/
def bytesOfBits : List Bool → List Byte
  | b0 :: b1 :: b2 :: b3 :: b4 :: b5 :: b6 :: b7 :: rest => byteOfBits b0 b1 b2 b3 b4 b5 b6 b7 :: bytesOfBits rest
  | _ => []

/-! ## The check on arrival (R37) -/

/-- How many entries a part carries (R35). -/
def partSize (part : Nat) : Nat := if part < 8 then 32 else 4

/-- A stamp's origin is at most 30 (R37). -/
def stampOk : Stamp → Bool
  | .null => true
  | .mark _ o _ => decide (o.toNat ≤ 30)

/-- A received stamp with origin 0 is the null stamp, whatever its other bytes hold (R177). -/
def stampNorm : Stamp → Stamp
  | .null => .null
  | .mark f o q => if o = 0 then .null else .mark f o q

/-- The counts, the part number and the stamps of a body are as R37 asks; the coded fields are so by their types. -/
def bodyOk : Body → Bool
  | .propose b => decide (1 ≤ b.edits.length) && decide (b.edits.length ≤ 32)
  | .snapshot b =>
    decide (b.part.toNat ≤ 8) && decide (b.entries.length = partSize b.part.toNat) && b.entries.all (fun e => stampOk e.stamp)
  | .beacon _ | .join _ | .commit _ _ | .withdraw _ | .snapshotReq => true

/-- The form check of R37 on a parcel whose CRC is good. -/
def parcelOk (p : Parcel) : Bool :=
  isStation p.header.origin && decide (p.header.target.toNat ≤ 30) && bodyOk p.body

/-- The parcel as the part holds it: stamps of origin 0 held as null (R177). -/
def parcelNorm (p : Parcel) : Parcel :=
  match p.body with
  | .snapshot b =>
    { p with body := .snapshot { b with entries := b.entries.map (fun e => { e with stamp := stampNorm e.stamp }) } }
  | .beacon _ | .join _ | .propose _ | .commit _ _ | .withdraw _ | .snapshotReq => p

/-! ## Bytes to parcels (R177) -/

/-- n edits of 5 bytes each and nothing after them. -/
def readEdits : Nat → List Byte → Option (List Edit)
  | 0, [] => some []
  | n + 1, ih :: il :: r :: g :: b :: rest =>
    (readEdits n rest).map (fun es => { index := word16 ih il, colour := ⟨r, g, b⟩ } :: es)
  | _, _ => none

/-- The stamp that four bytes hold; origin 0 is null. -/
def readStamp (fh fl o q : Byte) : Stamp := if o = 0 then .null else .mark (word16 fh fl) o q

/-- n entries of 9 bytes each and nothing after them. -/
def readEntries : Nat → List Byte → Option (List SnapEntry)
  | 0, [] => some []
  | n + 1, ih :: il :: r :: g :: b :: fh :: fl :: o :: q :: rest =>
    (readEntries n rest).map
      (fun es => { index := word16 ih il, value := ⟨r, g, b⟩, stamp := readStamp fh fl o q } :: es)
  | _, _ => none

/-- A BEACON's digest fields, by the present byte. -/
def readDigestPair (present fh fl a b c d : Byte) : Option (Option (Frame × Digest)) :=
  (flagOfCode present).map (fun p => if p then some (word16 fh fl, word32 a b c d) else none)

/-- A body of the kind whose code is given; nothing where the code, a coded field or the length is not one of R177. -/
def readBody (kind : Byte) (bs : List Byte) : Option Body :=
  if kind = 1 then
    match bs with
    | [fh, fl, st, lk, pr, dh, dl, a, b, c, d, room] => do
      let st ← StationState.ofCode st
      let lk ← LockState.ofCode lk
      let dg ← readDigestPair pr dh dl a b c d
      some (.beacon { frame := word16 fh fl, state := st, lock := lk, digest := dg, room := room })
    | _ => none
  else if kind = 2 then
    match bs with
    | [pf, ld, att, mm] => do
      let pf ← Profile.ofCode pf
      let ld ← Lead.ofCode ld
      let mm ← flagOfCode mm
      some (.join { profile := pf, lead := ld, attempt := att, mismatch := mm })
    | _ => none
  else if kind = 3 then
    match bs with
    | q :: n :: h :: r :: rest => do
      let es ← readEdits n.toNat rest
      some (.propose { seq := q, edits := es, holders := h, refusals := r })
    | _ => none
  else if kind = 4 then
    match bs with
    | [q, fh, fl] => some (.commit q (word16 fh fl))
    | _ => none
  else if kind = 5 then
    match bs with
    | [q] => some (.withdraw q)
    | _ => none
  else if kind = 6 then
    match bs with
    | [] => some .snapshotReq
    | _ => none
  else if kind = 7 then
    match bs with
    | p :: fh :: fl :: n :: rest => do
      let es ← readEntries n.toNat rest
      some (.snapshot { part := p, build := word16 fh fl, entries := es })
    | _ => none
  else none

/-- The parcel a run of bytes holds, where its CRC-16 and its form pass the check of R37. -/
def readRun (run : List Byte) : Option Parcel :=
  let covered := run.take (run.length - 2)
  if run.drop (run.length - 2) = [hiByte (crc16 covered), loByte (crc16 covered)] then
    match covered with
    | k :: o :: t :: g :: h :: bs =>
      match readBody k bs with
      | some b =>
        let p : Parcel := { header := { origin := o, target := t, tag := g, hop := h }, body := b }
        if parcelOk p then some p else none
      | none => none
    | _ => none
  else none

/-! ## Control packets (R154 to R156, R178) -/

/-- The 8-bit sum of the bytes. -/
def sum8 (bs : List Byte) : Byte := bs.foldl (· + ·) 0

/-- What a packet that passes the five tests asks for. -/
inductive PacketAction where
  | load (edits : List Edit) (partialLoad : Bool)
  | readback (req : ReadbackReq)
  | status (clear : Bool)
  deriving DecidableEq, Repr

/-- Whole triplets become edits of consecutive palette entries, wrapping from 255 to 0; trailing bytes are left (R155). -/
def tripletEdits : Byte → List Byte → List Edit
  | s, r :: g :: b :: rest => { index := s.setWidth 16, colour := ⟨r, g, b⟩ } :: tripletEdits (s + 1) rest
  | _, _ => []

/-- The records of a PARAM_SET body, four bytes each (R156). -/
def paramRecords : List Byte → List ParamRecord
  | k :: r :: g :: b :: rest => { control := k, colour := ⟨r, g, b⟩ } :: paramRecords rest
  | _ => []

/-- The control entry a control number names (R156). -/
def controlIndex (k : Byte) : BitVec 16 := 256#16 + k.setWidth 16

/-- One edit for each control number, at the place of its first record with the colour of its last (R156). -/
def addControl (es : List Edit) (r : ParamRecord) : List Edit :=
  if es.any (fun e => e.index == controlIndex r.control) then
    es.map (fun e => if e.index = controlIndex r.control then { e with colour := r.colour } else e)
  else es ++ [{ index := controlIndex r.control, colour := r.colour }]

/-- The load of a PARAM_SET (R156). -/
def controlEdits (rs : List ParamRecord) : List Edit := rs.foldl addControl []

/-- Tests 2 to 5 of R154 on a packet of good check, in order, and what the packet asks for. -/
def judgeBody (kind : Byte) (body : List Byte) : Except PacketReason PacketAction :=
  if kind = 0x01#8 then
    if body.length < 2 ∨ 97 < body.length then .error .length
    else if body.length < 4 then .error .empty
    else .ok (.load (tripletEdits (body.headD 0) body.tail) (decide ((body.length - 1) % 3 ≠ 0)))
  else if kind = 0x02#8 then
    if body.length < 4 ∨ 16 < body.length ∨ body.length % 4 ≠ 0 then .error .length
    else if (paramRecords body).all (fun r => decide (r.control.toNat ≤ 3)) then
      .ok (.load (controlEdits (paramRecords body)) false)
    else .error .length
  else if kind = 0x03#8 then
    match body with
    | [sh, sl, n] =>
      if (word16 sh sl).toNat < tableSize ∧ 1 ≤ n.toNat ∧ n.toNat ≤ 16 then
        .ok (.readback { start := (word16 sh sl).toNat, count := n.toNat })
      else .error .length
    | _ => .error .length
  else if kind = 0x04#8 then
    match body with
    | [c] => match flagOfCode c with
      | some f => .ok (.status f)
      | none => .error .length
    | _ => .error .length
  else .error .kind

/-- The packet in progress is complete at its (length + 3)-th byte (R153). -/
def packetComplete (bytes : List Byte) : Bool :=
  match bytes with
  | _ :: len :: _ => decide (bytes.length = len.toNat + 3)
  | _ => false

/-- All five tests on a complete packet of kind, length, body and check byte (R154). -/
def judgePacket (bytes : List Byte) : Except PacketReason PacketAction :=
  if sum8 bytes ≠ 0 then .error .check
  else judgeBody (bytes.headD 0) ((bytes.drop 2).dropLast)

/-- The body bytes of a PARAM_SET of these records (R178). -/
def paramBody (rs : List ParamRecord) : List Byte := rs.flatMap (fun r => r.control :: colourBytes r.colour)

/-! ## Report records to bytes (R179) -/

def RejectReason.code : RejectReason → Byte
  | .notInService => 1 | .busy => 2 | .storeFull => 3 | .ring => 4 | .refused => 5

def PacketReason.code : PacketReason → Byte
  | .check => 1 | .kind => 2 | .length => 3 | .empty => 4 | .truncated => 5 | .outside => 6 | .busy => 7

def IsolationReason.code : Option IsolationReason → Byte
  | none => 0 | some .invalidStrap => 1 | some .duplicate => 2 | some .mismatch => 3 | some .noReturn => 4

def ResyncCause.code : ResyncCause → Byte
  | .digest => 1 | .mark => 2

def optByte : Option Byte → List Byte
  | none => [0, 0]
  | some b => [1, b]

def byteOf (n : Nat) : Byte := BitVec.ofNat 8 n

/-- An event's kind and fields. The offset of FRAME_SLIP is two's complement. -/
def eventBytes : Event → List Byte
  | .lateCommit o q e a => [1, o, q] ++ frameBytes e ++ frameBytes a
  | .frameSlip b a d => [2] ++ frameBytes b ++ frameBytes a ++ frameBytes (BitVec.ofInt 16 d)
  | .holdExpired o q a f => [3, o, q] ++ frameBytes a ++ frameBytes f
  | .duplicateStation k t => [4, Kind.code k, t]
  | .ringHold => [5]
  | .ringClosed => [6]
  | .resyncStart c => [7, ResyncCause.code c]
  | .resyncDone => [8]
  | .resyncFailed => [9]
  | .stateChange st r => [10, StationState.code st, IsolationReason.code r]

/-- The fields of a report's kind (R179). -/
def reportFields : Report → List Byte
  | .updateQueued q n p r old => [q, byteOf n, flagCode p, byteOf r] ++ optByte old
  | .updateCommitted q f h => [q] ++ frameBytes f ++ [h]
  | .updateRejected r q => [RejectReason.code r] ++ optByte q
  | .updateUnconfirmed q f => [q] ++ frameBytes f
  | .entry i v st => frameBytes (BitVec.ofNat 16 i) ++ colourBytes v ++ stampBytes st
  | .packetError r k => [PacketReason.code r] ++ optByte k
  | .status f =>
    [f.station, StationState.code f.state, LockState.code f.lock] ++ frameBytes f.frame
      ++ [f.tableRef.getD 0, f.timingRef.getD 0, byteOf f.present, byteOf f.openRecords, byteOf f.retained,
          byteOf f.originRecords, flagCode f.seeded]
      ++ frameBytes f.counts.crc ++ frameBytes f.counts.overflow ++ frameBytes f.counts.stray
      ++ frameBytes f.counts.underrun ++ frameBytes f.counts.late ++ frameBytes f.counts.frameSlip
  | .event e => eventBytes e

def reportCode : Report → Byte
  | .updateQueued _ _ _ _ _ => 1
  | .updateCommitted _ _ _ => 2
  | .updateRejected _ _ => 3
  | .updateUnconfirmed _ _ => 4
  | .entry _ _ _ => 5
  | .packetError _ _ => 6
  | .status _ => 7
  | .event _ => 8

/-- Bytes 0 to 4 + L of a record. -/
def recordHead (r : ReportRecord) : List Byte :=
  [byteOf (reportFields r.report).length, reportCode r.report, flagCode r.lost] ++ frameBytes r.frame
    ++ reportFields r.report

/-- The run of bytes a record is sent as on RPT, its check byte last (R179). -/
def recordBytes (r : ReportRecord) : List Byte := recordHead r ++ [- sum8 (recordHead r)]

/-! ## The digest (R16) -/

/-- The value bytes of the table in index order. -/
def valueBytes (t : Table) : List Byte :=
  (List.range tableSize).flatMap (fun i => colourBytes (Memory.read t i).value)

/-- The table's digest (R16). -/
def tableDigest (t : Table) : Digest := crc32 (valueBytes t)

end Sys2Proof.Machine
end

