-- ==== Sys2Proof/Machine/Store.lean ====
section
/-! DEFINITION. Machine/Store.lean: the Proposal Store (chapter 7): its counts, its parcels, what the Origin Engine asks of it, and
its three steps of frame-start work. -/

namespace Sys2Proof.Machine

/-! ## Records and counts -/

/-- Whether a record is the one of this origin and seq (R110). -/
def isRecord (o : StationNo) (q : Seq) (p : Proposal) : Bool := p.origin == o && p.seq == q

/-- A record in state HELD. -/
def isHeld (p : Proposal) : Bool :=
  match p.state with
  | .held _ => true
  | .scheduled _ | .applied _ => false

/-- A record in state APPLIED: a retained record (R110). -/
def isRetained (p : Proposal) : Bool :=
  match p.state with
  | .applied _ => true
  | .held _ | .scheduled _ => false

/-- An open record: HELD or SCHEDULED (R110). -/
def isOpen (p : Proposal) : Bool := !isRetained p

/-- The number of open records (R111). -/
def openCount (st : List Proposal) : Nat := st.countP isOpen

/-- The number of retained records (R111). -/
def retainedCount (st : List Proposal) : Nat := st.countP isRetained

/-- The store can take a record: fewer than 12 open records (R111). -/
def canTake (st : List Proposal) : Bool := decide (openCount st < Config.storePlaces)

/-- 12 minus the number of open records (R65, R111). -/
def openRoom (st : List Proposal) : Byte := BitVec.ofNat 8 (Config.storePlaces - openCount st)

/-- The record of this origin and seq. -/
def findRecord (o : StationNo) (q : Seq) (st : List Proposal) : Option Proposal := st.find? (isRecord o q)

/-- A record as the Table Store takes it, with its effective frame (R123). -/
def dueOf (e : Frame) (p : Proposal) : DueRecord := { origin := p.origin, seq := p.seq, effective := e, edits := p.edits }

/-- The retained records as the Table Store would take them. -/
def retainedDue (st : List Proposal) : List DueRecord :=
  st.filterMap (fun p => match p.state with
    | .applied e => some (dueOf e p)
    | .held _ | .scheduled _ => none)

/-! ## Room (R112) -/

/-- Retained record a gives way before b at the current frame: the greater age, and of equal ages the one the apply set would take
first (R112). -/
def evictedBefore (cur : Frame) (a b : DueRecord) : Bool :=
  if (cur - a.effective).toNat = (cur - b.effective).toNat then dueBefore a b
  else decide ((cur - b.effective).toNat < (cur - a.effective).toNat)

/-- Evict the oldest retained record, where there is one (R112). -/
def evictOldest (cur : Frame) (st : List Proposal) : List Proposal :=
  match sortBy (evictedBefore cur) (retainedDue st) with
  | d :: _ => st.filter (fun p => !isRecord d.origin d.seq p)
  | [] => st

/-- Enter a HELD record, evicting first where the store holds 12 (R112, R115, R121). -/
def insertHeld (cur : Frame) (o : StationNo) (q : Seq) (es : List Edit) (st : List Proposal) : List Proposal :=
  (if st.length < Config.storePlaces then st else evictOldest cur st)
    ++ [{ origin := o, seq := q, edits := es, state := .held cur }]

/-- Change the state of the record of this origin and seq where it is HELD. -/
def setHeld (o : StationNo) (q : Seq) (new : RecordState) (st : List Proposal) : List Proposal :=
  st.map (fun p => if isRecord o q p && isHeld p then { p with state := new } else p)

/-- Remove the record of this origin and seq where it is HELD. -/
def removeHeld (o : StationNo) (q : Seq) (st : List Proposal) : List Proposal :=
  st.filter (fun p => !(isRecord o q p && isHeld p))

/-- A HELD record of this origin and seq is in the store. -/
def hasHeld (o : StationNo) (q : Seq) (st : List Proposal) : Bool := st.any (fun p => isRecord o q p && isHeld p)

/-! ## Parcels -/

/-- Raise a holder or refusal count by one, to at most 29; a count carried at 30 or more is left (R35, R177). -/
def raiseMark (c : Byte) : Byte := if c.toNat < 29 then c + 1 else c

/-- A PROPOSE offered to the store (R113 to R115): the body as it goes on, and the store. -/
def offerPropose (h : Header) (b : ProposeBody) (s : State) : ProposeBody × State :=
  if onRing s.member.state && addressed h.target s then
    match findRecord h.origin b.seq s.store with
    | some _ =>
      ({ b with holders := raiseMark b.holders },
        { s with store := setHeld h.origin b.seq (.held (now s)) s.store })
    | none =>
      if canTake s.store then
        ({ b with holders := raiseMark b.holders },
          { s with store := insertHeld (now s) h.origin b.seq b.edits s.store })
      else ({ b with refusals := raiseMark b.refusals }, s)
  else (b, s)

/-- The resync-due mark after a missed commit of frame F (R76, R118). -/
def markAfter (m : Option Frame) (F : Frame) : Frame :=
  match m with
  | none => F
  | some M => if later F M then (if later M F then (if Config.markReplaced M F then F else M) else F) else M

/-- A COMMIT offered to the store (R117, R118). -/
def offerCommit (h : Header) (q : Seq) (F : Frame) (s : State) : State :=
  if onRing s.member.state && addressed h.target s then
    match findRecord h.origin q s.store with
    | some _ => { s with store := setHeld h.origin q (.scheduled F) s.store }
    | none =>
      if takesMissedCommit s.member.state then { s with member.mark := some (markAfter s.member.mark F) } else s
  else s

/-- A WITHDRAW offered to the store (R120). -/
def offerWithdraw (h : Header) (q : Seq) (s : State) : State :=
  if addressed h.target s then { s with store := removeHeld h.origin q s.store } else s

/-! ## Frame-start work (R122 to R124) -/

/-- A HELD record whose arrival frame is 8 or more frames before F (R122). -/
def heldTooLong (F : Frame) (p : Proposal) : Bool :=
  match p.state with
  | .held a => aged 8 a F
  | .scheduled _ | .applied _ => false

/-- Ascending order of origin, then of seq (R122). -/
def keyBefore (a b : Proposal) : Bool :=
  decide (a.origin.toNat < b.origin.toNat) || (a.origin == b.origin && decide (a.seq.toNat < b.seq.toNat))

/-- The event of an expired record (R122). -/
def expiryEvent (F : Frame) (p : Proposal) : List Event :=
  match p.state with
  | .held a => [.holdExpired p.origin p.seq a F]
  | .scheduled _ | .applied _ => []

/-- First step: hold expiry (R122). -/
def expireHeld (F : Frame) (s : State) : State :=
  let gone := sortBy keyBefore (s.store.filter (heldTooLong F))
  (gone.flatMap (expiryEvent F)).foldl (fun s e => event e s)
    { s with store := s.store.filter (fun p => !heldTooLong F p) }

/-- A record of the apply set of frame start F, as the Table Store takes it (R123). -/
def dueAt (F : Frame) (p : Proposal) : Option DueRecord :=
  match p.state with
  | .scheduled e => if atOrBefore e F then some (dueOf e p) else none
  | .held _ | .applied _ => none

/-- A record after the hand-over (R123). -/
def handedOver (F : Frame) (p : Proposal) : Proposal :=
  match p.state with
  | .scheduled e => if atOrBefore e F then { p with state := .applied e } else p
  | .held _ | .applied _ => p

/-- Second step: the apply set of the operation's F and the records already APPLIED go to the Table Store, and the apply set becomes
APPLIED (R8, R123; log entry 30). With neither a snapshot nor an apply set the operation takes no time and is over (log entry 8); in
the active lines none begins (R14). -/
def giveApplySet (s : State) : State :=
  let due := s.store.filterMap (dueAt s.table.apply.frame)
  { s with table.apply.due := due, table.apply.reapply := retainedDue s.store,
           table.apply.phase :=
             if s.raster.active || (s.table.apply.staged.isNone && due.isEmpty) then .idle else .taken,
           store := s.store.map (handedOver s.table.apply.frame) }

/-- A retained record whose effective frame is 8 or more frames before F (R124). -/
def retainedTooLong (F : Frame) (p : Proposal) : Bool :=
  match p.state with
  | .applied e => aged 8 e F
  | .held _ | .scheduled _ => false

/-- Third step: retention expiry; and the re-apply list keeps what is still retained (R124). -/
def expireRetained (F : Frame) (s : State) : State :=
  let st := s.store.filter (fun p => !retainedTooLong F p)
  { s with store := st, table.apply.reapply := s.table.apply.reapply.filter (fun d => (retainedDue st).contains d) }

end Sys2Proof.Machine
end

