-- ==== Sys2Proof/Machine/Engine.lean ====
section
/-! DEFINITION. Machine/Engine.lean: the Origin Engine (chapter 6): loads, returns, deadlines. -/

namespace Sys2Proof.Machine

/-! ## Sequence numbers (R92) -/

/-- The seqs a new round may not take: those of the origin list, the one just taken, and every own record of the store. -/
def usedSeqs (taken : Seq) (s : State) : List Seq :=
  taken :: s.origin.list.map (·.seq) ++ (s.store.filter (fun p => p.origin == own s)).map (·.seq)

/-- The first value from q on that is not used, within the values tried. -/
def nextFree (used : List (BitVec 8)) : Nat → BitVec 8 → BitVec 8
  | 0, q => q
  | n + 1, q => if used.contains q then nextFree used n (q + 1) else q

/-- Take next-seq and advance it (R92). -/
def takeSeq (s : State) : Seq × State :=
  (s.origin.nextSeq,
    { s with origin.nextSeq := nextFree (usedSeqs s.origin.nextSeq s) 256 (s.origin.nextSeq + 1) })

/-! ## The origin list -/

/-- The record of this seq. -/
def findOrigin (q : Seq) (s : State) : Option OriginRecord := s.origin.list.find? (fun r => r.seq == q)

/-- Change the record of this seq, which keeps its place (R91). -/
def setOrigin (q : Seq) (f : OriginRecord → OriginRecord) (s : State) : State :=
  { s with origin.list := s.origin.list.map (fun r => if r.seq = q then f r else r) }

/-- The record of this seq leaves the list (R91). -/
def dropOrigin (q : Seq) (s : State) : State :=
  { s with origin.list := s.origin.list.filter (fun r => !(r.seq == q)) }

/-- The PROPOSE of a round, both transit counts at 0 (R96). -/
def proposeBody (q : Seq) (es : List Edit) : Body := .propose { seq := q, edits := es, holders := 0, refusals := 0 }

/-! ## Loads (R93, R94) -/

/-- Why a load would be refused now, the first condition that fails; nothing where it is accepted (R93). -/
def loadRefusal (s : State) : Option RejectReason :=
  if s.member.state ≠ .inService then some .notInService
  else if Config.originPlaces ≤ s.origin.list.length then some .busy
  else if canTake s.store then none else some .storeFull

/-- A load meeting the three conditions (R94). -/
def acceptLoad (es : List Edit) (part : Bool) (s : State) : State :=
  let q := s.origin.nextSeq
  let s := (takeSeq s).2
  let s := { s with store := insertHeld (now s) (own s) q es s.store }
  let s := queueBody 0 (proposeBody q es) s
  let s := report (.updateQueued q es.length part 1 none) s
  { s with origin.list := s.origin.list ++
      [{ seq := q, edits := es, phase := .proposing, attempt := 1, round := 1, deadline := now s + 2, partialLoad := part }] }

/-- A complete load handed over by the Pixel Port (R93, R157). -/
def judgeLoad (es : List Edit) (part : Bool) (s : State) : State :=
  match loadRefusal s with
  | some r => report (.updateRejected r none) s
  | none => acceptLoad es part s

/-! ## Returns (R96 to R99, R103) -/

/-- An update abandoned: WITHDRAW queued, the own HELD record removed, UPDATE_REJECTED with RING, the record gone (R100). -/
def abandon (q : Seq) (s : State) : State :=
  let s := queueBody 0 (.withdraw q) s
  let s := { s with store := removeHeld (own s) q s.store }
  dropOrigin q (report (.updateRejected .ring (some q)) s)

/-- A PROPOSE return with no refusal (R97). -/
def commitRound (q : Seq) (holders : Byte) (s : State) : State :=
  if hasHeld (own s) q s.store then
    let F := now s + s.straps.lead.frames
    let s := { s with store := setHeld (own s) q (.scheduled F) s.store }
    let s := queueBody 0 (.commit q F) s
    setOrigin q (fun r => { r with phase := .committing F holders, attempt := 1, deadline := now s + 2 }) s
  else abandon q s

/-- A PROPOSE return with a refusal (R98). -/
def withdrawRound (q : Seq) (s : State) : State :=
  let s := queueBody 0 (.withdraw q) s
  let s := { s with store := removeHeld (own s) q s.store }
  setOrigin q (fun r => { r with phase := .withdrawn false, deadline := now s + 2 }) s

/-- The own PROPOSE returns with these counts (R96 to R99). -/
def proposeReturn (b : ProposeBody) (s : State) : State :=
  match findOrigin b.seq s with
  | some r =>
    if r.phase = .proposing then
      (if b.refusals = 0 then commitRound b.seq b.holders s else withdrawRound b.seq s)
    else s
  | none => s

/-- The own COMMIT returns (R103). -/
def commitReturn (q : Seq) (F : Frame) (s : State) : State :=
  match findOrigin q s with
  | some r => match r.phase with
    | .committing _ holders => dropOrigin q (report (.updateCommitted q F holders) s)
    | .proposing | .withdrawn _ => s
  | none => s

/-! ## Deadlines (R100 to R105) -/

/-- The deadline of a PROPOSING record is reached (R100). -/
def proposingDue (r : OriginRecord) (s : State) : State :=
  if r.attempt < 3 ∧ hasHeld (own s) r.seq s.store = true then
    let s := queueBody 0 (proposeBody r.seq r.edits) s
    let s := { s with store := setHeld (own s) r.seq (.held (now s)) s.store }
    setOrigin r.seq (fun x => { x with attempt := x.attempt + 1, deadline := now s + 2 }) s
  else abandon r.seq s

/-- A new round (R101). -/
def newRound (r : OriginRecord) (s : State) : State :=
  let q := s.origin.nextSeq
  let s := (takeSeq s).2
  let s := { s with store := insertHeld (now s) (own s) q r.edits s.store }
  let s := queueBody 0 (proposeBody q r.edits) s
  let s := report (.updateQueued q r.edits.length r.partialLoad (r.round + 1) (some r.seq)) s
  setOrigin r.seq (fun x => { x with seq := q, round := x.round + 1, phase := .proposing, attempt := 1, deadline := now s + 2 }) s

/-- The deadline of a WITHDRAWN record is reached, or it waits with its deadline reached (R101, R102). -/
def withdrawnDue (r : OriginRecord) (s : State) : State :=
  if 3 ≤ r.round then dropOrigin r.seq (report (.updateRejected .refused (some r.seq)) s)
  else if s.member.state = .inService then
    (if canTake s.store then newRound r s
     else dropOrigin r.seq (report (.updateRejected .refused (some r.seq)) s))
  else setOrigin r.seq (fun x => { x with phase := .withdrawn true }) s

/-- The deadline of a COMMITTING record is reached (R104). -/
def committingDue (r : OriginRecord) (F : Frame) (s : State) : State :=
  if r.attempt < 3 then
    let s := queueBody 0 (.commit r.seq F) s
    setOrigin r.seq (fun x => { x with attempt := x.attempt + 1, deadline := now s + 2 }) s
  else dropOrigin r.seq (report (.updateUnconfirmed r.seq F) s)

/-- The record's deadline is reached at frame start F; a waiting record's has been reached for good (R33, R102). -/
def originReached (F : Frame) (r : OriginRecord) : Bool := r.phase == .withdrawn true || reached r.deadline F

/-- What a record whose deadline is reached does, by its phase (R105). -/
def originDue (r : OriginRecord) (s : State) : State :=
  match r.phase with
  | .proposing => proposingDue r s
  | .withdrawn _ => withdrawnDue r s
  | .committing F _ => committingDue r F s

/-- One record's deadline is tested at frame start F (R105). -/
def testOrigin (F : Frame) (s : State) (q : Seq) : State :=
  match findOrigin q s with
  | some r => if originReached F r then originDue r s else s
  | none => s

/-- Every record not yet tested at this frame start is tested, oldest first (R105). -/
def testOrigins (s : State) : State :=
  let todo := s.startWork.origin
  todo.foldl (testOrigin s.startWork.frame) { s with startWork.origin := [] }

/-- The oldest record not yet tested whose deadline is reached, with the records behind it. -/
def nextOrigin (F : Frame) (s : State) : List Seq → Option (OriginRecord × List Seq)
  | [] => none
  | q :: rest =>
    match findOrigin q s with
    | some r => if originReached F r then some (r, rest) else nextOrigin F s rest
    | none => nextOrigin F s rest

/-! ## A rejoin (R107) -/

/-- The final report of a record dropped at a rejoin (R107). -/
def rejoinReport (r : OriginRecord) : Report :=
  match r.phase with
  | .proposing | .withdrawn _ => .updateRejected .ring (some r.seq)
  | .committing F _ => .updateUnconfirmed r.seq F

/-- The reports of a rejoin, in list order (R107). -/
def rejoinReports (s : State) : State := s.origin.list.foldl (fun s r => report (rejoinReport r) s) s

end Sys2Proof.Machine
end

