-- ==== Sys2Proof/Machine/Snapshot.lean ====
section
/-! DEFINITION. Machine/Snapshot.lean: the Snapshot Unit (chapter 8): the responder's queue and part building, the collector's
requests, staging and attempts. What follows at the Membership Unit from a third failure stands in Membership.lean. -/

namespace Sys2Proof.Machine

/-! ## Responder (R129 to R135) -/

/-- The progress a changed queue has: part 0 for a new head, absent for an empty queue (R130, R135). -/
def headProgress (q : List StationNo) : Option Nat := if q = [] then none else some 0

/-- The queue cleared (R135). -/
def clearResponder (s : State) : State := { s with snap.queue := [], snap.progress := none }

/-- A requester leaves the queue (R135). -/
def dropRequester (n : StationNo) (s : State) : State :=
  let q := s.snap.queue.filter (fun x => !(x == n))
  { s with snap.queue := q
           snap.progress := if s.snap.queue.head? = some n then headProgress q else s.snap.progress }

/-- Whether a station's entry is present (R68), the own one by the own state. -/
def isPresent (n : StationNo) (s : State) : Bool :=
  s.member.stations.any (fun e => e.1 == n) || (n == own s && onRing s.member.state)

/-- A SNAPSHOT_REQ offered to the responder side (R129). -/
def offerSnapshotReq (h : Header) (s : State) : State :=
  if s.member.state = .inService ∧ h.target = own s then
    if isPresent h.origin s = false then s
    else if s.snap.queue.contains h.origin then s
    else if Config.responderPlaces ≤ s.snap.queue.length then s
    else
      { s with snap.queue := s.snap.queue ++ [h.origin]
               snap.progress := if s.snap.queue = [] then some 0 else s.snap.progress }
  else s

/-- The indices of a part, in ascending order (R132). -/
def partIndices (p : Nat) : List Nat := (List.range (partSize p)).map (32 * p + ·)

/-- The entries of a part as the table holds them (R19). -/
def partEntries (t : Table) (p : Nat) : List SnapEntry :=
  (partIndices p).map (fun i =>
    { index := BitVec.ofNat 16 i, value := (Memory.read t i).value, stamp := (Memory.read t i).stamp })

/-- The SNAPSHOT parcel of part p for a requester (R132). -/
def partParcel (s : State) (requester : StationNo) (p : Nat) : Parcel :=
  ownParcel s requester
    (.snapshot { part := BitVec.ofNat 8 p, build := s.table.apply.frame, entries := partEntries s.table.entries p })

/-- The responder side may build (R131). -/
def mayBuild (s : State) : Bool :=
  decide (s.member.state = .inService) && !s.snap.queue.isEmpty && s.raster.active
    && decide (s.ring.transmit.length < 4)

/-- The progress and the queue after a part was accepted (R133). -/
def advanceResponder (p : Nat) (s : State) : State :=
  if p < 8 then { s with snap.progress := some (p + 1) }
  else { s with snap.queue := s.snap.queue.tail, snap.progress := headProgress s.snap.queue.tail }

/-- The building of one part for the head requester, where the conditions hold (R131 to R133). -/
def buildPart (s : State) : State :=
  if mayBuild s then
    match s.snap.queue, s.snap.progress with
    | r :: _, some p =>
      if transmitAccepts (partParcel s r p) s then advanceResponder p (queueParcel (partParcel s r p) s) else s
    | _, _ => s
  else s

/-! ## Collector (R127, R128, R136 to R140) -/

/-- A SNAPSHOT_REQ to the target, where there is one (R128, R138, R139). -/
def requestSnapshot (target : Option StationNo) (s : State) : State :=
  match target with
  | some t => queueBody t .snapshotReq s
  | none => s

/-- A collection begun at attempt 1 from the table reference as it stands (R128). -/
def beginCollection (s : State) : State :=
  requestSnapshot s.member.tableRef
    { s with snap.collector := some { target := s.member.tableRef, attempt := 1, deadline := now s + 6, parts := [] } }

/-- An attempt has failed: the next one asks the given reference; or attempt 3 was the third failure, and the collector is idle
(R138 to R140). The flag says that it was the third failure. -/
def failAttempt (c : Collector) (ref : Option StationNo) (s : State) : State × Bool :=
  if c.attempt < 3 then
    (requestSnapshot ref
      { s with snap.collector := some { target := ref, attempt := c.attempt + 1, deadline := now s + 6, parts := [] } }, false)
  else ({ s with snap.collector := none }, true)

/-- A change of table reference passed to the collector (R139). -/
def collectorRefChange (ref : Option StationNo) (s : State) : State × Bool :=
  match s.snap.collector with
  | none => (s, false)
  | some c => match c.target, ref with
    | some t, some r => if t = r then (s, false) else failAttempt c ref s
    | some _, none => failAttempt c none s
    | none, some r =>
      (requestSnapshot (some r)
        { s with snap.collector := some { c with target := some r, deadline := now s + 6 } }, false)
    | none, none => (s, false)

/-- The collector's deadline tested at frame start F (R138). -/
def collectorDeadline (F : Frame) (s : State) : State × Bool :=
  match s.snap.collector with
  | none => (s, false)
  | some c => if reached c.deadline F then failAttempt c s.member.tableRef s else (s, false)

/-- The part is staged already. -/
def staged (p : Nat) (c : Collector) : Bool := c.parts.any (fun x => x.number == p)

/-- The conditions under which a part is staged (R136). -/
def mayStage (h : Header) (b : SnapshotBody) (c : Collector) (s : State) : Bool :=
  decide (h.target = own s) && decide (c.target = some h.origin) && !staged b.part.toNat c
    && decide (b.entries.map (·.index.toNat) = partIndices b.part.toNat)

/-- A part among those gathered, by its number. -/
def addPart (x : Part) (ps : List Part) : List Part := insertBefore (fun a b => decide (a.number < b.number)) x ps

/-- A SNAPSHOT offered to the collector side; the ninth part completes the collection (R136, R137). -/
def offerSnapshot (h : Header) (b : SnapshotBody) (s : State) : State :=
  match s.snap.collector with
  | none => s
  | some c =>
    if mayStage h b c s then
      let ps := addPart { number := b.part.toNat, build := b.build, entries := b.entries } c.parts
      if ps.length = 9 then { s with snap.collector := none, table.slot := some ps }
      else { s with snap.collector := some { c with parts := ps } }
    else s

end Sys2Proof.Machine
end

