-- ==== Sys2Proof/Machine/Membership.lean ====
section
/-! DEFINITION. Machine/Membership.lean: the Membership Unit and the Lock Unit (chapters 4 and 5): the references, the changes of
station state, the measurement of the timing reference, the digest comparison. -/

namespace Sys2Proof.Machine

/-! ## The station table (R68) -/

/-- The entry of a peer. -/
def findStation (n : StationNo) (l : List (StationNo × StationEntry)) : Option StationEntry :=
  (l.find? (fun e => e.1 == n)).map (·.2)

/-- Make a peer's entry present with this content, keeping the rising order. -/
def putStation (n : StationNo) (e : StationEntry) : List (StationNo × StationEntry) → List (StationNo × StationEntry)
  | [] => [(n, e)]
  | (m, f) :: rest =>
    if n.toNat < m.toNat then (n, e) :: (m, f) :: rest
    else if n = m then (n, e) :: rest
    else (m, f) :: putStation n e rest

/-- The own entry as a one-entry table, present in the on-ring states with the own state (R68). -/
def ownEntry (s : State) : List (StationNo × StationState) :=
  if onRing s.member.state then [(own s, s.member.state)] else []

/-- The present stations with their states, the own one included when present (R68, R70). -/
def presentStations (s : State) : List (StationNo × StationState) :=
  s.member.stations.map (fun e => (e.1, e.2.state)) ++ ownEntry s

/-- The present count of a STATUS report (R68, R172). -/
def presentCount (s : State) : Nat := (presentStations s).length

/-- The lowest of the station numbers. -/
def lowest : List StationNo → Option StationNo
  | [] => none
  | n :: rest => match lowest rest with
    | none => some n
    | some m => if n.toNat ≤ m.toNat then some n else some m

/-- The table reference: the lowest present station in IN_SERVICE (R70). -/
def computeTableRef (s : State) : Option StationNo :=
  lowest (((presentStations s).filter (fun e => e.2 == .inService)).map (·.1))

/-- The timing reference: the table reference, or the lowest present station (R70). -/
def computeTimingRef (s : State) : Option StationNo :=
  match computeTableRef s with
  | some n => some n
  | none => lowest ((presentStations s).map (·.1))

/-! ## References and what follows from their changes (R70, R81, R139) -/

/-- The requested blanking length set by the Lock Unit (R29). -/
def requestBlanking (n : Nat) (s : State) : State := { s with raster.request := n }

/-- The nominal blanking length of the profile (R22). -/
def nominal (s : State) : Nat := s.straps.profile.blanking

/-- A change of timing reference taken by the Lock Unit (R81). -/
def lockRefChange (ref : Option StationNo) (s : State) : State :=
  if ref = some (own s) then
    requestBlanking (nominal s) { s with lock := { state := .reference, ref := ref, offset := none } }
  else { s with lock := { state := .free, ref := ref, offset := none } }

/-- What a recomputation of the references passed on: whether the lock state changed (R86), and whether the collector failed for
the third time (R140). -/
structure RefNews where
  state : State
  lockChanged : Bool
  thirdFailure : Bool

/-- The references computed anew; a changed timing reference goes to the Lock Unit, a changed table reference sets the mismatch
streak to 0 and goes to the collector (R70). -/
def recomputeOnce (s : State) : RefNews :=
  let t := computeTableRef s
  let m := computeTimingRef s
  let s1 := { s with member.tableRef := t, member.timingRef := m,
                     member.mismatch := if t = s.member.tableRef then s.member.mismatch else 0 }
  let s2 := if m = s.member.timingRef then s1 else lockRefChange m s1
  let r := if t = s.member.tableRef then (s2, false) else collectorRefChange t s2
  { state := r.1, lockChanged := decide (r.1.lock.state ≠ s.lock.state), thirdFailure := r.2 }

/-- The station enters IN_SERVICE: the state, the mismatch streak at 0 (R75), the references anew with the own station as a
candidate (R70). No further change of state can follow from these (log entry 20). -/
def enterInService (s : State) : State :=
  (recomputeOnce { s with member.state := .inService, member.mismatch := 0 }).state

/-- The install is done for R64. -/
def installDone (s : State) : Bool := !s.member.snapshotNeeded || s.member.installed

/-- The lock state lets a station into service (R64). -/
def lockServes (l : LockState) : Bool := l == .locked || l == .reference

/-- The test of R64, which may bring CATCHING_UP into IN_SERVICE and make the seeded flag true (R3). -/
def testService (s : State) : State :=
  if s.member.state = .catchingUp ∧ installDone s = true ∧ lockServes s.lock.state = true then
    event (.stateChange .inService none) (enterInService { s with table.seeded := true })
  else s

/-- The collector's third failure at the Membership Unit (R140). -/
def thirdFailure (s : State) : State :=
  match s.member.state with
  | .catchingUp => { s with member.rejoinPending := true }
  | .resync => event .resyncFailed (enterInService { s with member.backoff := 16 })
  | .ringHold => event .resyncFailed { s with member.backoff := 16 }
  | .offRing | .listening | .joining | .inService | .isolated => s

/-- The references computed anew with everything that follows (R70, R86, R140). -/
def recompute (s : State) : State :=
  let r := recomputeOnce s
  let s := if r.lockChanged then testService r.state else r.state
  if r.thirdFailure then thirdFailure s else s

/-! ## Changes of station state (R56) -/

/-- Entry to RESYNC by a mismatch or by the mark (R77); the responder queue is cleared (R135). -/
def enterResync (cause : ResyncCause) (s : State) : State :=
  let s := event (.resyncStart cause) (clearResponder { s with member.state := .resync, member.mismatch := 0 })
  beginCollection (recompute s)

/-- Entry to RING_HOLD (R71); the responder queue is cleared (R135). -/
def enterRingHold (s : State) : State :=
  recompute (event .ringHold (clearResponder { s with member.state := .ringHold, member.hold := 0 }))

/-- A resynchronisation is unfinished: the collector is collecting, or a staged snapshot waits in the install slot or was taken by
an apply operation that has not yet installed it (R72). -/
def resyncUnfinished (s : State) : Bool :=
  s.snap.collector.isSome || s.table.slot.isSome
    || (s.table.apply.staged.isSome
        && (decide (s.table.apply.phase = .taken) || decide (s.table.apply.phase = .installing)))

/-- The end of a hold by two beacon returns (R72). -/
def leaveRingHold (s : State) : State :=
  if resyncUnfinished s then
    recompute (event .ringClosed { s with member.state := .resync, member.mismatch := 0 })
  else
    recompute (event .ringClosed { s with member.state := .inService, member.mismatch := 0 })

/-- Entry to LISTENING: the listen count at 0 and the listen guard set (R40, R57). -/
def enterListening (s : State) : State :=
  { s with member.state := .listening, member.listen := 0, ring.guard := true, ring.duplicateSeen := false }

/-- The body of the own JOIN of an attempt (R59). -/
def joinBody (s : State) (attempt : Nat) : Body :=
  .join { profile := s.straps.profile, lead := s.straps.lead, attempt := BitVec.ofNat 8 attempt, mismatch := false }

/-- Entry to JOINING (R59); the first beacon follows at the end of the frame-start work. -/
def enterJoining (s : State) : State :=
  let s := event (.stateChange .joining none)
    { s with member.state := .joining, member.miss := 0, member.ret := 0, member.outstanding := none,
             member.returned := false, member.attempt := some 1, member.joinDeadline := some (now s + 2) }
  recompute (queueBody 0 (joinBody s 1) s)

/-- Both references gone, passed on as any change of reference (R74, R78, R90). -/
def loseReferences (s : State) : State :=
  if s.member.timingRef = none then s else lockRefChange none s

/-- Entry to ISOLATED (R54, R78). -/
def enterIsolated (reason : IsolationReason) (s : State) : State :=
  let s := loseReferences s
  event (.stateChange .isolated (some reason))
    { s with member := Member.reset .isolated,
             ring.insertion := [], ring.transmit := [], ring.inFlight := [], ring.streak := 0, ring.rout := none }

/-- A notice of a duplicate station number (R63). A notice that a listener's parcel brings only after the station has reached CATCHING_UP
or a later state has no effect (log entry 38). -/
def duplicateNotice (s : State) : State :=
  if s.member.state = .listening ∨ s.member.state = .joining then enterIsolated .duplicate s else s

/-- What a rejoin leaves of the blocks, less its reports (R53, R74, R107, R126, R143). The loss of the table reference is not passed to
the collector, which R143 makes idle at the same moment: a collection at attempt 3 so ends without RESYNC_FAILED (log entry 40). -/
def rejoinReset (s : State) : State :=
  let s := loseReferences s
  { s with member := Member.reset .listening,
           store := s.store.filter (fun p => !isHeld p),
           origin.list := [],
           snap := Snap.reset,
           ring.transmit := [], ring.inFlight := [], ring.streak := 0, ring.guard := true, ring.duplicateSeen := false }

/-- A rejoin (R74): the Origin Engine's reports and STATE_CHANGE enter in either order (R166; log entry 12). -/
def doRejoin (s : State) : State :=
  let d := s.freeDraws
  let s := { s with freeDraws := d + 1 }
  if Config.originReportsFirst d then event (.stateChange .listening none) (rejoinReset (rejoinReports s))
  else
    let t := rejoinReports (event (.stateChange .listening none) s)
    rejoinReset t

/-! ## Returns (R61, R67) -/

/-- The own JOIN returns with its mismatch flag (R61). -/
def joinReturn (mismatch : Bool) (s : State) : State :=
  if s.member.state = .joining then
    if mismatch then enterIsolated .mismatch s
    else
      let needed := s.member.stations.any (fun e => e.2.state == .inService)
      let s := event (.stateChange .catchingUp none)
        { s with member.state := .catchingUp, member.attempt := none, member.joinDeadline := none,
                 member.snapshotNeeded := needed, member.installed := false }
      let s := recompute s
      testService (if needed then beginCollection s else s)
  else s

/-- The own BEACON returns (R67). -/
def beaconReturn (F : Frame) (s : State) : State :=
  if s.member.outstanding = some F then { s with member.returned := true } else s

/-! ## Measurement (R82 to R86) -/

/-- The offset of an arrival at line a of a frame of T lines (R82). -/
def offsetOf (a T : Nat) : Int := if 2 * a < T then a else (a : Int) - T

/-- The number of the own frame in progress from the beacon's frame and the offset (R83). -/
def ownFrameOf (F : Frame) (d : Int) : Frame := if 0 ≤ d then F else F - 1

/-- The frame-number work of R83 and R84. -/
def adopt (F : Frame) (d : Int) (s : State) : State :=
  let E := ownFrameOf F d
  match s.lock.state with
  | .free => { s with raster.frame := E }
  | .slewing | .locked =>
    if E = now s then s
    else
      let t := countFrameSlip { s with raster.frame := E }
      if s.member.state = .inService then event (.frameSlip (now s) E d) t else t
  | .reference => s

/-- The lock state of an offset (R85). -/
def lockOf (d : Int) : LockState := if -2 ≤ d ∧ d ≤ 2 then .locked else .slewing

/-- The requested blanking length of an offset, from the nominal V (R85). -/
def blankingOf (V : Nat) (d : Int) : Nat :=
  if -2 ≤ d ∧ d ≤ 2 then V else if 8 < d then V + 8 else if d < -8 then V - 8 else ((V : Int) + d).toNat

/-- The Lock Unit measures a beacon of the timing reference carrying frame F (R82 to R86). A station in REFERENCE measures
nothing (R87). -/
def measure (F : Frame) (s : State) : State :=
  if s.lock.state = .reference then s
  else
    let d := offsetOf s.raster.line (totalLines s)
    let s1 := adopt F d { s with lock.offset := some d }
    let s2 := requestBlanking (blankingOf (nominal s) d) { s1 with lock.state := lockOf d }
    if s2.lock.state = s.lock.state then s2 else testService s2

/-! ## Digest comparison (R75) -/

/-- The digest of a frame in the history (R17). -/
def digestFor (F : Frame) (s : State) : Option Digest := (s.table.history.find? (fun p => p.1 == F)).map (·.2)

/-- The digest comparison on a beacon of the table reference with this digest pair (R75). -/
def compareDigest (dg : Option (Frame × Digest)) (s : State) : State :=
  if s.member.state ≠ .inService ∨ s.member.tableRef = some (own s) ∨ 0 < s.member.backoff then s
  else match dg with
    | none => s
    | some (F, d) => match digestFor F s with
      | none => s
      | some mine =>
        if d = mine then { s with member.mismatch := 0 }
        else if s.member.mismatch + 1 < 2 then { s with member.mismatch := s.member.mismatch + 1 }
        else enterResync .digest s

/-! ## Parcels (R60, R66) -/

/-- A BEACON offered to the Membership Unit (R66). -/
def offerBeacon (h : Header) (b : BeaconBody) (s : State) : State :=
  if addressed h.target s = false ∨ h.origin = own s then s
  else
    let sender : StationEntry := { state := b.state, missed := 0, heard := true, digest := b.digest }
    let s := recompute { s with member.stations := putStation h.origin sender s.member.stations }
    let s := if s.member.timingRef = some h.origin then measure b.frame s else s
    if s.member.tableRef = some h.origin then compareDigest b.digest s else s

/-- A JOIN offered to the Membership Unit (R60): the body as it goes on. The joiner leaves the responder queue (R135). -/
def offerJoin (h : Header) (b : JoinBody) (s : State) : JoinBody × State :=
  if onRing s.member.state && addressed h.target s then
    let bad := decide (b.profile ≠ s.straps.profile) || decide (b.lead ≠ s.straps.lead)
    let old := (findStation h.origin s.member.stations).bind (·.digest)
    let joiner : StationEntry := { state := .joining, missed := 0, heard := true, digest := old }
    let s := { s with member.stations := putStation h.origin joiner s.member.stations }
    ({ b with mismatch := b.mismatch || bad }, recompute (dropRequester h.origin s))
  else (b, s)

/-! ## The end of an install (R64, R72, R76, R77, R142) -/

/-- The mark test with the build frames of an install (R76). -/
def markTest (builds : List Frame) (s : State) : State :=
  match s.member.mark with
  | none => s
  | some M => if builds.all (fun b => later b M) then { s with member.mark := none } else s

/-- The end of an install at the Membership Unit, by the station state (R142). In CATCHING_UP with the snapshot-needed flag clear it changes
no state (R64); that the mark test is made there all the same is log entry 21. -/
def installEnded (builds : List Frame) (s : State) : State :=
  match s.member.state with
  | .catchingUp =>
    let s := markTest builds s
    if s.member.snapshotNeeded then testService { s with member.installed := true } else s
  | .resync => event .resyncDone (enterInService (markTest builds s))
  | .ringHold => markTest builds (event .resyncDone s)
  | .inService => markTest builds s
  | .offRing | .listening | .joining | .isolated => s

/-! ## Frame-start work (R79) -/

/-- One entry aged: nothing where it becomes absent (R69). -/
def ageEntry (e : StationEntry) : Option StationEntry :=
  if e.heard then some { e with heard := false }
  else if e.missed + 1 < 4 then some { e with missed := e.missed + 1 } else none

/-- The station table aged. -/
def ageTable (l : List (StationNo × StationEntry)) : List (StationNo × StationEntry) :=
  l.filterMap (fun e => (ageEntry e.2).map (fun f => (e.1, f)))

/-- The peers whose entries become absent. -/
def agedOut (l : List (StationNo × StationEntry)) : List StationNo :=
  (l.filter (fun e => (ageEntry e.2).isNone)).map (·.1)

/-- Step 1: ageing, in a receiving state; a requester whose entry becomes absent leaves the responder queue (R69, R135). -/
def ageStations (s : State) : State :=
  if receiving s.member.state then
    let t := { s with member.stations := ageTable s.member.stations }
    recompute ((agedOut s.member.stations).foldl (fun s n => dropRequester n s) t)
  else s

/-- Step 2: the outstanding beacon is judged, in an on-ring state (R67). -/
def judgeBeacon (s : State) : State :=
  if onRing s.member.state ∧ s.member.outstanding.isSome = true then
    if s.member.returned then
      { s with member.returned := false, member.ret := min (s.member.ret + 1) 2, member.miss := 0 }
    else { s with member.miss := min (s.member.miss + 1) 3, member.ret := 0 }
  else s

/-- LISTENING: the listen count raised and tested (R58). -/
def listenStep (s : State) : State :=
  let s := { s with member.listen := s.member.listen + 1 }
  if 4 ≤ s.member.listen then enterJoining s else s

/-- JOINING: the join deadline tested at frame start F (R62). -/
def joinStep (F : Frame) (s : State) : State :=
  match s.member.joinDeadline with
  | none => s
  | some D =>
    if reached D F then
      let n := s.member.attempt.getD 1
      if n < 3 then
        queueBody 0 (joinBody s (n + 1)) { s with member.attempt := some (n + 1), member.joinDeadline := some (now s + 2) }
      else enterIsolated .noReturn s
    else s

/-- CATCHING_UP: a third miss or a pending rejoin brings a rejoin (R64, R74). -/
def mustRejoin (s : State) : Bool := decide (3 ≤ s.member.miss) || s.member.rejoinPending

/-- IN_SERVICE: the resync-due mark tested at frame start F (R76). -/
def markStep (F : Frame) (s : State) : State :=
  match s.member.mark with
  | none => s
  | some M =>
    if later F M then
      let s := { s with member.mark := none }
      if s.member.tableRef ≠ none ∧ s.member.tableRef ≠ some (own s) then enterResync .mark s else s
    else s

/-- RING_HOLD: the hold count raised and tested (R73). -/
def holdStep (s : State) : State :=
  let s := { s with member.hold := s.member.hold + 1 }
  if 64 ≤ s.member.hold then doRejoin s else s

/-- Step 3: the transition of the present station state at frame start F (R79). -/
def transitionStep (F : Frame) (s : State) : State :=
  match s.member.state with
  | .listening => listenStep s
  | .joining => joinStep F s
  | .catchingUp => if mustRejoin s then doRejoin s else s
  | .inService => if 3 ≤ s.member.miss then enterRingHold s else markStep F s
  | .resync => if 3 ≤ s.member.miss then enterRingHold s else s
  | .ringHold => if 2 ≤ s.member.ret then leaveRingHold s else holdStep s
  | .offRing | .isolated => s

/-- Step 4: the backoff count (R77). -/
def backoffStep (s : State) : State :=
  if receiving s.member.state then { s with member.backoff := s.member.backoff - 1 } else s

/-- The body of the own BEACON (R65). -/
def beaconBody (s : State) : Body :=
  .beacon { frame := now s, state := s.member.state, lock := s.lock.state, digest := s.table.history.getLast?,
            room := openRoom s.store }

/-- Step 6: the beacon queued in an on-ring state (R65). -/
def queueBeacon (s : State) : State :=
  if onRing s.member.state then
    queueBody 0 (beaconBody s) { s with member.outstanding := some (now s), member.returned := false }
  else s

end Sys2Proof.Machine
end

