-- ==== Sys2Proof/Machine/Apply.lean ====
section
/-! DEFINITION. Machine/Apply.lean: the Table Store's apply operation, digest and readback (chapter 1). -/

namespace Sys2Proof.Machine

/-! ## Install and re-apply (R10, R11) -/

/-- A staged entry installed, with its stamp as it was built (R10). -/
def installEntry (t : Table) (e : SnapEntry) : Table :=
  Memory.write t e.index.toNat { value := e.value, stamp := e.stamp }

/-- A staged snapshot installed (R10). -/
def installParts (ps : List Part) (t : Table) : Table := ps.foldl (fun t p => p.entries.foldl installEntry t) t

/-- The part an entry belongs to (R10). -/
def partOf (i : Nat) : Nat := i / 32

/-- The build frame of the part of an entry. -/
def buildFrameOf (ps : List Part) (i : Nat) : Option Frame := (ps.find? (fun p => p.number == partOf i)).map (·.build)

/-- An edit of a retained record is re-applied: its entry belongs to a part, and the record's effective frame is later than that
part's build frame and at or before F (R11). -/
def reapplies (ps : List Part) (F : Frame) (r : DueRecord) (e : Edit) : Bool :=
  decide (e.index.toNat < tableSize) && atOrBefore r.effective F
    && (match buildFrameOf ps e.index.toNat with
        | some b => later r.effective b
        | none => false)

/-- A record's edits judged in list order (R12). -/
def applyRecord (F : Frame) (t : Table) (r : DueRecord) : Table := r.edits.foldl (judgeEdit F r.stamp) t

/-- A retained record re-applied (R11). -/
def reapplyRecord (ps : List Part) (F : Frame) (t : Table) (r : DueRecord) : Table :=
  (r.edits.filter (reapplies ps F r)).foldl (judgeEdit F r.stamp) t

/-- The re-apply step after an install: the records in the order of the apply set (R11). -/
def reapplyAll (ps : List Part) (F : Frame) (rs : List DueRecord) (t : Table) : Table :=
  (sortBy dueBefore (rs.filter (fun r => atOrBefore r.effective F))).foldl (reapplyRecord ps F) t

/-- LATE_COMMIT for a record applied later than its effective frame (R13). -/
def lateNotice (F : Frame) (s : State) (r : DueRecord) : State :=
  if later F r.effective then event (.lateCommit r.origin r.seq r.effective F) (countLate s) else s

/-- The apply set applied in its order, and its late records raised (R12, R13). -/
def applyDue (s : State) : State :=
  let F := s.table.apply.frame
  let rs := sortBy dueBefore s.table.apply.due
  rs.foldl (lateNotice F) { s with table.entries := rs.foldl (applyRecord F) s.table.entries }

/-! ## The rate of R14 -/

/-- The edits the operation judges after the install, if there is one (R14). -/
def judgedEdits (a : Apply) : Nat :=
  (match a.staged with
   | some ps => ((a.reapply.filter (fun r => atOrBefore r.effective a.frame)).map
       (fun r => (r.edits.filter (reapplies ps a.frame r)).length)).sum
   | none => 0) + (a.due.map (·.edits.length)).sum

/-- The lines in which the operation judges its edits, 16 in each (R14). -/
def judgeLines (a : Apply) : Nat := (judgedEdits a + 15) / 16

/-- The lines the operation takes at most, counted from line 1: 9 for an install, then those of its edits (R14). -/
def applyLines (a : Apply) : Nat := (if a.staged.isSome then 9 else 0) + judgeLines a

/-! ## Readback (R20) -/

/-- The ENTRY report of an index. -/
def entryReport (i : Nat) (s : State) : State :=
  report (.entry i (Memory.read s.table.entries i).value (Memory.read s.table.entries i).stamp) s

/-- The indices a READBACK reads: its count of them from its start, no further than 259 (R20). -/
def readbackIndices (r : ReadbackReq) : List Nat :=
  (List.range (min r.count (tableSize - r.start))).map (r.start + ·)

/-- A READBACK read and reported, in index order (R20). -/
def serveReadback (s : State) (r : ReadbackReq) : State := (readbackIndices r).foldl (fun s i => entryReport i s) s

/-- The waiting READBACKs served in turn, the list left empty (R158). -/
def serveReadbacks (s : State) : State :=
  s.pixel.readbacks.foldl serveReadback { s with pixel.readbacks := [] }

/-! ## The phases of the operation (R8, R10, R21) -/

/-- The content of the install slot as it stands at frame start F, the slot emptied (R8, R9); the two lists come with the hand-over of
R123. Nothing in the slot is aged: a staged snapshot is installed as it was built (R10; log entry 37). -/
def takeApply (F : Frame) (s : State) : State :=
  { s with table.slot := none,
           table.apply :=
             { phase := if s.table.slot.isSome then .taken else .idle
               frame := F, since := 1, staged := s.table.slot, reapply := [], due := [] } }

/-- Line 1: the install copies the staged entries, or the apply set is applied (R10, R12). -/
def openApply (s : State) : State :=
  if s.table.apply.phase = .taken then
    match s.table.apply.staged with
    | some ps =>
      { s with table.entries := installParts ps s.table.entries, table.apply.phase := .installing }
    | none => applyDue { s with table.apply.phase := .judging, table.apply.since := 1 }
  else s

/-- The install ends: the seeded flag, the signal with the build frames, the re-apply step, the apply set (R10 to R12), whose edits are
judged from the next line on (R14). The signal comes here, before the re-apply step: R10 has it when the install ends, R137 speaks of
it after the apply set (log entry 39). -/
def endInstall (s : State) : State :=
  if s.table.apply.phase = .installing then
    let ps := s.table.apply.staged.getD []
    let s := installEnded (ps.map (·.build))
      { s with table.seeded := true, table.apply.phase := .judging, table.apply.since := s.raster.line + 1 }
    applyDue { s with table.entries := reapplyAll ps s.table.apply.frame s.table.apply.reapply s.table.entries }
  else s

/-- The operation ends; the readback list is served (R21). -/
def endApply (s : State) : State :=
  if s.table.apply.phase = .judging then serveReadbacks { s with table.apply.phase := .idle } else s

/-- The operation ends with this line: its edits at 16 a line are through (R14). -/
def applyOver (s : State) : Bool :=
  decide (s.table.apply.phase = .judging) && decide (s.table.apply.since + judgeLines s.table.apply ≤ s.raster.line + 1)

/-! ## The digest (R16, R17) -/

/-- The digest computation begins at line V with the frame number held there (R16). -/
def beginDigest (s : State) : State :=
  { s with table.digest := some (now s, tableDigest s.table.entries) }

/-- A pair enters the history as the newest (R17). -/
def historyJoin (p : Frame × Digest) (h : List (Frame × Digest)) : List (Frame × Digest) :=
  if h.any (fun x => x.1 == p.1) then h.filter (fun x => !(x.1 == p.1)) ++ [p]
  else if Config.historyPlaces ≤ h.length then h.tail ++ [p]
  else h ++ [p]

/-- The pair of the frame enters the history at the end of its last line (R17). -/
def endDigest (s : State) : State :=
  match s.table.digest with
  | some p => { s with table.digest := none, table.history := historyJoin p s.table.history }
  | none => s

end Sys2Proof.Machine
end

