-- ==== Sys2Proof/Machine/Link.lean ====
section
/-! DEFINITION. Machine/Link.lean: the Ring Interface (chapter 3): arrivals on RIN, stripping, forwarding, sends on ROUT; and the
meanings of the ring's commands. -/

namespace Sys2Proof.Machine

/-! ## Arrival (R36 to R43) -/

/-- The one local consumer that the parcel's kind names acts on it (R42): the body as it goes on, and the state. -/
def consume (p : Parcel) (s : State) : Body × State :=
  match p.body with
  | .beacon b => (p.body, offerBeacon p.header b s)
  | .join b => let r := offerJoin p.header b s; (.join r.1, r.2)
  | .propose b => let r := offerPropose p.header b s; (.propose r.1, r.2)
  | .commit q F => (p.body, offerCommit p.header q F s)
  | .withdraw q => (p.body, offerWithdraw p.header q s)
  | .snapshotReq => (p.body, offerSnapshotReq p.header s)
  | .snapshot b => (p.body, offerSnapshot p.header b s)

/-- The parcel joins the insertion buffer, or is discarded with an overflow count; a duplicate's parcel so discarded is told of
at once (R40, R43). -/
def insertionJoin (w : Waiting) (s : State) : State :=
  if s.ring.insertion.length < Config.insertionPlaces then { s with ring.insertion := s.ring.insertion ++ [w] }
  else if w.notice then duplicateNotice (countOverflow s) else countOverflow s

/-- The raised hop count is above 29 (R41). -/
def isStray (p : Parcel) : Bool := decide (29 < p.header.hop.toNat + 1)

/-- The hop count raised by one (R41). -/
def raiseHop (p : Parcel) : Parcel := { p with header := { p.header with hop := p.header.hop + 1 } }

/-- A parcel that has not been stripped: discarded as a stray, or offered to its consumer and forwarded (R41 to R43). An own parcel that the
consumer makes a block queue and the forwarded one both stand before the next send begins (R45; log entry 43). -/
def forward (p : Parcel) (notice : Bool) (s : State) : State :=
  if isStray p then (if notice then duplicateNotice (countStray s) else countStray s)
  else
    let q := raiseHop p
    let r := consume q s
    insertionJoin { parcel := { q with body := r.1 }, notice := notice } r.2

/-- An in-flight entry that the returned parcel matches (R38). -/
def matchesFlight (p : Parcel) (e : InFlight) : Bool :=
  e.tag == p.header.tag && e.kind == Body.kind p.body && e.seq == Body.seq p.body

/-- A return delivered by its kind (R38). -/
def deliver (b : Body) (s : State) : State :=
  match b with
  | .beacon b => beaconReturn b.frame s
  | .join b => joinReturn b.mismatch s
  | .propose b => proposeReturn b s
  | .commit q F => commitReturn q F s
  | .withdraw _ | .snapshotReq | .snapshot _ => s

/-- A foreign parcel (R39). -/
def foreignParcel (p : Parcel) (s : State) : State :=
  if s.member.state = .joining then duplicateNotice s
  else event (.duplicateStation (Body.kind p.body) p.header.tag) s

/-- An own parcel stripped: its return delivered, or foreign (R38, R39). What the return makes a block queue meets the transmit queue before
the send that the freed in-flight place lets begin (log entry 44). -/
def strip (p : Parcel) (s : State) : State :=
  if s.ring.inFlight.any (matchesFlight p) then
    deliver p.body { s with ring.inFlight := s.ring.inFlight.eraseP (matchesFlight p) }
  else foreignParcel p s

/-- A listening station meets a parcel with its own number (R40). -/
def ownWhileListening (p : Parcel) (s : State) : State :=
  if s.ring.guard then s
  else forward p (!s.ring.duplicateSeen) { s with ring.duplicateSeen := true }

/-- The end of a parcel that began under BYPASS: it is not received (R36). -/
def endCut (s : State) : State := { s with ring.cut := false }

/-- A parcel of good CRC arrives on RIN (R36 to R43). -/
def arrive (p : Parcel) (s : State) : State :=
  if bypass s then s
  else if s.ring.cut then endCut s
  else if parcelOk p = false then countCrc s
  else
    let p := parcelNorm p
    if p.header.origin = own s then
      (if s.member.state = .listening then ownWhileListening p s else strip p s)
    else forward p false s

/-- A run of bytes arrives on RIN: it is checked, and counted where it fails (R37). -/
def arriveRun (run : List Byte) (s : State) : State :=
  if bypass s then s
  else if s.ring.cut then endCut s
  else match readRun run with
    | some p => arrive p s
    | none => countCrc s

/-! ## Sends (R45 to R48) -/

/-- The head of the transmit queue is ready (R44). -/
def headReady (s : State) : Bool :=
  !s.ring.transmit.isEmpty && decide (s.ring.inFlight.length < Config.inFlightPlaces)

/-- A send from the insertion buffer begins (R46). -/
def sendForwarded (s : State) : State :=
  match s.ring.insertion with
  | w :: rest =>
    { s with ring.insertion := rest, ring.rout := some w,
             ring.streak := if headReady s then s.ring.streak + 1 else 0 }
  | [] => s

/-- The send of an own parcel begins: its tag, its in-flight entry, the tag counter advanced (R46, R47). -/
def sendOwn (s : State) : State :=
  match s.ring.transmit with
  | p :: rest =>
    let t := s.ring.tag
    let flight := s.ring.inFlight ++ [{ tag := t, kind := Body.kind p.body, seq := Body.seq p.body, frame := now s }]
    { s with ring.transmit := rest, ring.inFlight := flight, ring.streak := 0,
             ring.rout := some { parcel := { p with header := { p.header with tag := t } }, notice := false },
             ring.tag := nextFree (flight.map (·.tag)) 256 (t + 1) }
  | [] => s

/-- The arbiter's choice with ROUT idle (R45). -/
def beginSend (s : State) : State :=
  if bypass s || s.ring.rout.isSome then s
  else if !s.ring.insertion.isEmpty && (!headReady s || decide (s.ring.streak < Config.streakLimit)) then sendForwarded s
  else if headReady s then sendOwn s
  else s

/-- The send on ROUT ends; a duplicate's parcel is told of now (R40, R48). -/
def endSend (s : State) : State :=
  match s.ring.rout with
  | none => s
  | some w =>
    let s := { s with ring.rout := none }
    if w.notice then duplicateNotice s else s

/-- The bytes on ROUT while a send is in progress (R48). -/
def routRun (s : State) : Option (List Byte) := s.ring.rout.map (fun w => runOf w.parcel)

/-- The bits between the delimiters on ROUT (R175). -/
def routBits (s : State) : Option (List Bool) := (routRun s).map linkBits

/-! ## The meanings -/

/-- BEACON (R66). -/
def execBeacon (h : Header) (b : BeaconBody) (s : State) : Host.Outcome State Fault Refusal :=
  .next (arrive { header := h, body := .beacon b } s)

/-- JOIN (R60). -/
def execJoin (h : Header) (b : JoinBody) (s : State) : Host.Outcome State Fault Refusal :=
  .next (arrive { header := h, body := .join b } s)

/-- PROPOSE (R113). -/
def execPropose (h : Header) (b : ProposeBody) (s : State) : Host.Outcome State Fault Refusal :=
  .next (arrive { header := h, body := .propose b } s)

/-- COMMIT (R117). -/
def execCommit (h : Header) (q : Seq) (F : Frame) (s : State) : Host.Outcome State Fault Refusal :=
  .next (arrive { header := h, body := .commit q F } s)

/-- WITHDRAW (R120). -/
def execWithdraw (h : Header) (q : Seq) (s : State) : Host.Outcome State Fault Refusal :=
  .next (arrive { header := h, body := .withdraw q } s)

/-- SNAPSHOT_REQ (R129). -/
def execSnapshotReq (h : Header) (s : State) : Host.Outcome State Fault Refusal :=
  .next (arrive { header := h, body := .snapshotReq } s)

/-- SNAPSHOT (R136). -/
def execSnapshot (h : Header) (b : SnapshotBody) (s : State) : Host.Outcome State Fault Refusal :=
  .next (arrive { header := h, body := .snapshot b } s)

/-- FAILED_PARCEL_ARRIVAL (R37). A run that passes the check is that parcel's arrival (log entry 10). -/
def execFailedParcelArrival (run : List Byte) (s : State) : Host.Outcome State Fault Refusal :=
  .next (arriveRun run s)

/-- SEND_BEGIN (R45). -/
def execSendBegin (s : State) : Host.Outcome State Fault Refusal := .next (beginSend s)

/-- SEND_END (R48). -/
def execSendEnd (s : State) : Host.Outcome State Fault Refusal := .next (whenReleased endSend s)

/-- SNAPSHOT_PART_BUILD (R132). -/
def execSnapshotPartBuild (s : State) : Host.Outcome State Fault Refusal := .next (whenReleased buildPart s)

end Sys2Proof.Machine
end

