-- ==== Sys2Proof/Machine/Port.lean ====
section
/-! DEFINITION. Machine/Port.lean: the Pixel Port (chapter 9), the Panel Output (chapter 10) and the Report Unit's STATUS and line
(chapter 11); and the meanings of the image source's commands and of the report line's. -/

namespace Sys2Proof.Machine

/-! ## Requests and slots (R145, R146) -/

/-- Active pixels per line of the profile, W (R22). -/
def lineWidth (s : State) : Nat := s.straps.profile.width

/-- Active lines per frame of the profile, A (R22). -/
def activeLines (s : State) : Nat := s.straps.profile.lines

/-- The slot bound to a line. -/
def findSlot (k : Nat) (s : State) : Option Slot := s.pixel.slots.find? (fun x => x.line == k)

/-- Change the slot bound to a line. -/
def setSlot (k : Nat) (f : Slot → Slot) (s : State) : State :=
  { s with pixel.slots := s.pixel.slots.map (fun x => if x.line = k then f x else x) }

/-- The slot a request for line k binds: ABANDONED where the line's time on the panel has gone (R145). -/
def boundSlot (k : Nat) (s : State) : Slot :=
  { line := k, state := if k < s.pixel.begun then .abandoned else .awaiting, bytes := [], count := 0 }

/-- Request line k: an LREQ pulse, an empty slot bound, the line appended to the outstanding-request list; nothing beyond the
last line of the frame or without an empty slot (R145). -/
def requestLine (k : Nat) (s : State) : State :=
  if k < activeLines s ∧ s.pixel.slots.length < Config.slots then
    { s with pixel.slots := s.pixel.slots ++ [boundSlot k s],
             pixel.outstanding := s.pixel.outstanding ++ [k],
             pixel.requested := s.pixel.requested + 1 }
  else s

/-- The slot of line k becomes empty, and line k + 2 is requested into it (R145). -/
def freeSlot (k : Nat) (s : State) : State :=
  requestLine (k + 2) { s with pixel.slots := s.pixel.slots.filter (fun x => !(x.line == k)) }

/-- The line-request point, at line V - 2: lines 0 and 1, once a frame (R26, R145). -/
def requestPoint (s : State) : State :=
  if s.raster.line + 2 = s.raster.blanking ∧ s.pixel.requested = 0 then requestLine 1 (requestLine 0 s) else s

/-! ## PMARK and bytes of a line (R147 to R149, R151) -/

/-- The reception of line k ends at a PMARK: a line in reception becomes SHORT, an abandoned one frees its slot (R149, R151). -/
def endReception (k : Nat) (s : State) : State :=
  match findSlot k s with
  | some x => match x.state with
    | .receiving => setSlot k (fun x => { x with state := .short }) s
    | .abandoned => freeSlot k s
    | .awaiting | .complete | .short => s
  | none => s

/-- A PMARK outside the control window begins a line: the oldest open request as the list stood when it came, or an unrequested
line (R147). -/
def markLine (s : State) : State :=
  let asked := s.pixel.outstanding.head?
  let s := match s.pixel.rx with
    | .line k => endReception k s
    | .wait | .packet _ | .discard | .drain => s
  match asked with
  | some k =>
    setSlot k (fun x => { x with state := if x.state = .awaiting then .receiving else x.state })
      { s with pixel.outstanding := s.pixel.outstanding.tail, pixel.rx := .line k }
  | none => countOverflow { s with pixel.rx := .discard }

/-- A byte of the line in reception (R148). -/
def lineByte (k : Nat) (b : Byte) (s : State) : State :=
  match findSlot k s with
  | some x => match x.state with
    | .receiving =>
      if x.count + 1 < lineWidth s then
        setSlot k (fun x => { x with bytes := x.bytes ++ [b], count := x.count + 1 }) s
      else
        setSlot k (fun x => { x with state := .complete, bytes := x.bytes ++ [b], count := x.count + 1 })
          { s with pixel.rx := .wait }
    | .abandoned =>
      if x.count + 1 < lineWidth s then setSlot k (fun x => { x with count := x.count + 1 }) s
      else freeSlot k { s with pixel.rx := .wait }
    | .awaiting | .complete | .short => s
  | none => s

/-! ## Packets (R153 to R159) -/

/-- A PACKET_ERROR (R154, R169). -/
def packetError (r : PacketReason) (kind : Option Byte) (s : State) : State := report (.packetError r kind) s

/-- The kind byte of a packet in progress, where it has come. -/
def kindByte (bytes : List Byte) : Option Byte := bytes.head?

/-- The fields of a STATUS report as they stand (R172). -/
def statusFields (s : State) : StatusFields :=
  { station := own s, state := s.member.state, lock := s.lock.state, frame := now s, tableRef := s.member.tableRef,
    timingRef := s.member.timingRef, present := presentCount s, openRecords := openCount s.store,
    retained := retainedCount s.store, originRecords := s.origin.list.length, seeded := s.table.seeded,
    counts := s.report.counts }

/-- STATUS_REQ acted on: the record built and queued, then the six counts cleared where the flag is 1 (R159, R173). -/
def answerStatus (clear : Bool) (s : State) : State :=
  let s := report (.status (statusFields s)) s
  if clear then { s with report.counts := ⟨0, 0, 0, 0, 0, 0⟩ } else s

/-- The apply operation of the frame is in progress (R21). -/
def applyInProgress (s : State) : Bool := !(s.table.apply.phase == .idle)

/-- READBACK acted on: read at once, or waiting for the end of the apply operation, or BUSY (R158). -/
def acceptReadback (kind : Byte) (r : ReadbackReq) (s : State) : State :=
  if applyInProgress s then
    (if s.pixel.readbacks.length < Config.readbackPlaces then { s with pixel.readbacks := s.pixel.readbacks ++ [r] }
     else packetError .busy (some kind) s)
  else serveReadback s r

/-- A judged packet acted on (R154, R157 to R159). -/
def actPacket (kind : Byte) (j : Except PacketReason PacketAction) (s : State) : State :=
  match j with
  | .error r => packetError r (some kind) s
  | .ok (.load es p) => judgeLoad es p s
  | .ok (.readback r) => acceptReadback kind r s
  | .ok (.status c) => answerStatus c s

/-- A byte of the packet in progress; at its check byte the packet is judged and the receiver waits (R153, R154). -/
def packetByte (bytes : List Byte) (b : Byte) (s : State) : State :=
  let all := bytes ++ [b]
  if packetComplete all then actPacket (all.headD 0) (judgePacket all) { s with pixel.rx := .wait }
  else { s with pixel.rx := .packet all }

/-- A PMARK inside the control window begins a packet, cutting off one in progress (R153). -/
def markPacket (s : State) : State :=
  match s.pixel.rx with
  | .packet bytes => packetError .truncated (kindByte bytes) { s with pixel.rx := .packet [] }
  | .wait | .line _ | .discard | .drain => { s with pixel.rx := .packet [] }

/-- A PMARK (R147, R153). -/
def takeMark (s : State) : State := if s.pixel.cwin then markPacket s else markLine s

/-- A byte (R148, R153). -/
def takeByte (b : Byte) (s : State) : State :=
  match s.pixel.rx with
  | .line k => lineByte k b s
  | .packet bytes => packetByte bytes b s
  | .wait =>
    if s.pixel.cwin then packetError .outside none { s with pixel.rx := .discard }
    else countOverflow { s with pixel.rx := .discard }
  | .discard | .drain => s

/-- CWIN asserted, at line 2: the receiver waits for a packet (R26, R27, R153). -/
def openWindow (s : State) : State :=
  if s.raster.line = 2 ∧ s.pixel.cwin = false then { s with pixel.cwin := true, pixel.rx := .wait } else s

/-- CWIN released, at the end of line V - 5: a packet in progress is cut off (R26, R27, R153). -/
def closeWindow (s : State) : State :=
  if s.raster.line + 5 = s.raster.blanking ∧ s.pixel.cwin = true then
    let t := { s with pixel.cwin := false }
    match s.pixel.rx with
    | .packet bytes => packetError .truncated (kindByte bytes) { t with pixel.rx := .drain }
    | .discard => { t with pixel.rx := .drain }
    | .wait | .line _ | .drain => t
  else s

/-- The line state cleared at a frame start (R152). -/
def clearLines (s : State) : State :=
  { s with pixel.outstanding := [], pixel.slots := [], pixel.requested := 0, pixel.begun := 0,
           pixel.rx := match s.pixel.rx with
             | .line _ | .discard => .drain
             | .wait => .wait
             | .drain => .drain
             | .packet bytes => .packet bytes }

/-! ## Panel Output (R161 to R163) -/

/-- The red component of a control entry. -/
def controlRed (i : Nat) (s : State) : Byte := (Memory.read s.table.entries i).value.red

/-- The black-frame reading at line V (R161). -/
def isBlackFrame (s : State) : Bool := !s.table.seeded || !(controlRed blankIndex s == 0)

/-- The palette entry of a pixel index (R162). -/
def mappedEntry (offsetRed maskRed i : Byte) : Byte := (i + offsetRed) &&& maskRed

/-- The colour of a pixel index (R162). -/
def pixelColour (s : State) (i : Byte) : Colour :=
  (Memory.read s.table.entries (mappedEntry (controlRed offsetIndex s) (controlRed maskIndex s) i).toNat).value

/-- BORDER's colour (R163). -/
def borderColour (s : State) : Colour := (Memory.read s.table.entries borderIndex).value

/-- The W colours of an active line from the indices handed for it: looked-up pixels, then BORDER; or black (R161, R163). -/
def linePixels (s : State) (indices : List Byte) : List Colour :=
  if s.panel.black then List.replicate (lineWidth s) black
  else indices.map (pixelColour s) ++ List.replicate (lineWidth s - indices.length) (borderColour s)

/-- Drive the active pixel positions of the line in progress. -/
def driveLine (indices : List Byte) (s : State) : State := { s with panel.pixels := linePixels s indices }

/-- DE at position x of the line in progress, its first active pixel position being 0: active at positions 0 to W - 1 of an active line,
inactive in its horizontal blanking behind them, in every line of the vertical blanking and while RESET# is asserted (R160, R165). -/
def panelDE (s : State) (x : Nat) : Bool := decide (x < s.panel.pixels.length)

/-- RGB at position x of the line in progress: the pixel's colour where DE is active, and (0, 0, 0) wherever it is not (R160, R165). -/
def panelRGB (s : State) (x : Nat) : Colour := s.panel.pixels[x]?.getD black

/-! ## Consumption (R150) -/

/-- Line j is an underrun: shown in BORDER, its slot, if it has one, ABANDONED, the count raised (R150). -/
def underrun (j : Nat) (s : State) : State :=
  countUnderrun (driveLine [] (setSlot j (fun x => { x with state := .abandoned, bytes := [] }) s))

/-- The start of active line V + j: line j is consumed, once (R150). -/
def consumeLine (j : Nat) (s : State) : State :=
  if j < activeLines s ∧ s.pixel.begun ≤ j then
    let t := { s with pixel.begun := j + 1 }
    match findSlot j s with
    | some x => match x.state with
      | .complete | .short => freeSlot j (driveLine x.bytes t)
      | .awaiting | .receiving | .abandoned => underrun j t
    | none => underrun j t
  else s

/-! ## The report line (R167) -/

/-- The send of the head record begins, with the line idle (R167). -/
def beginReport (s : State) : State := { s with report := nextSend s.report }

/-- The send of a record ends (R167), now or once that many more records have been formed (log entry 11). -/
def endReport (after : Nat) (s : State) : State :=
  match s.report.sending with
  | some _ => if after = 0 then { s with report := sendOver s.report } else { s with report.endsAfter := after }
  | none => s

/-- The bytes on RPT while a record is sent (R179). -/
def reportRun (s : State) : Option (List Byte) := s.report.sending.map recordBytes

/-- The levels of RPT for one byte: a start bit, eight data bits least significant first, a stop bit; the line idles high
(section 12.5; log entry 41). -/
def serialByte (b : Byte) : List Bool := false :: bitsLsb b ++ [true]

/-- The levels of RPT while a record is sent (R175, R179). -/
def reportBits (s : State) : Option (List Bool) := (reportRun s).map (fun run => run.flatMap serialByte)

/-! ## The meanings -/

/-- PMARK (R147). -/
def execPmark (s : State) : Host.Outcome State Fault Refusal := .next (whenReleased takeMark s)

/-- PIXEL_BYTE (R148). -/
def execPixelByte (b : Byte) (s : State) : Host.Outcome State Fault Refusal := .next (whenReleased (takeByte b) s)

/-- TABLE_LOAD (R155): a complete packet of good check with this body (R178). -/
def execTableLoad (start : Byte) (components : List Byte) (s : State) : Host.Outcome State Fault Refusal :=
  .next (whenReleased (actPacket 0x01 (judgeBody 0x01 (start :: components))) s)

/-- PARAM_SET (R156). -/
def execParamSet (records : List ParamRecord) (s : State) : Host.Outcome State Fault Refusal :=
  .next (whenReleased (actPacket 0x02 (judgeBody 0x02 (paramBody records))) s)

/-- READBACK (R158). -/
def execReadback (start : BitVec 16) (count : Byte) (s : State) : Host.Outcome State Fault Refusal :=
  .next (whenReleased (actPacket 0x03 (judgeBody 0x03 [hiByte start, loByte start, count])) s)

/-- STATUS_REQ (R159). -/
def execStatusReq (clear : Byte) (s : State) : Host.Outcome State Fault Refusal :=
  .next (whenReleased (actPacket 0x04 (judgeBody 0x04 [clear])) s)

/-- CONTROL_WINDOW_OPEN (R27). -/
def execControlWindowOpen (s : State) : Host.Outcome State Fault Refusal := .next (whenReleased openWindow s)

/-- CONTROL_WINDOW_CLOSE (R153). -/
def execControlWindowClose (s : State) : Host.Outcome State Fault Refusal := .next (whenReleased closeWindow s)

/-- LINE_REQUEST_POINT (R145). -/
def execLineRequestPoint (s : State) : Host.Outcome State Fault Refusal := .next (whenReleased requestPoint s)

/-- REPORT_SEND_BEGIN (R167). -/
def execReportSendBegin (s : State) : Host.Outcome State Fault Refusal := .next (whenReleased beginReport s)

/-- REPORT_SEND_END (R167). -/
def execReportSendEnd (s : State) (after : Nat := 0) : Host.Outcome State Fault Refusal := .next (whenReleased (endReport after) s)

end Sys2Proof.Machine
end

