-- ==== Sys2Proof/Machine/FrameStart.lean ====
section
/-! DEFINITION. Machine/FrameStart.lean: the frame start (R24) and every block's frame-start work, in the pieces that the table lists as
rows of their own, and the meanings of those rows (log entries 4 to 7, 25). -/

namespace Sys2Proof.Machine

/-! ## The pieces of work -/

/-- The pieces in the order in which a FRAME_START does those it does not leave: the ring, the store, the Origin Engine, the collector,
then the Membership Unit in the order of R79 (log entry 4). -/
def workOrder : List FrameWork :=
  [.listenGuard, .inFlightAgeing, .holdExpiry, .retentionExpiry, .originDeadlines, .collectorDeadline,
   .stationAgeing, .transition, .backoff]

/-- In-flight entries whose send frame is 4 or more frames before F are removed (R49). -/
def ageInFlight (F : Frame) (s : State) : State :=
  { s with ring.inFlight := s.ring.inFlight.filter (fun e => !aged 4 e.frame F) }

/-- The collector's deadline with what follows at the Membership Unit (R138, R140). -/
def collectorStep (F : Frame) (s : State) : State :=
  let r := collectorDeadline F s
  if r.2 then thirdFailure r.1 else r.1

/-- The Proposal Store's first and second steps, which follow each other in one (R122, R123). -/
def storeStep (F : Frame) (s : State) : State := giveApplySet (expireHeld F s)

/-- Steps 4 to 6 of R79: the backoff, the references, the beacon. -/
def closeMembership (s : State) : State := queueBeacon (recompute (backoffStep s))

/-- One piece of frame-start work at frame start F. -/
def doWork (F : Frame) (w : FrameWork) (s : State) : State :=
  match w with
  | .listenGuard => { s with ring.guard := false }
  | .inFlightAgeing => ageInFlight F s
  | .holdExpiry => storeStep F s
  | .retentionExpiry => expireRetained F s
  | .originDeadlines => testOrigins s
  | .collectorDeadline => collectorStep F s
  | .stationAgeing => ageStations s
  | .transition => transitionStep F s
  | .backoff => closeMembership s

/-- The piece is no longer due. -/
def settleWork (w : FrameWork) (s : State) : State :=
  { s with startWork.due := s.startWork.due.filter (fun x => !(x == w)) }

/-- Take a piece if it is still due. -/
def takeWork (w : FrameWork) (s : State) : State :=
  if s.startWork.due.contains w then doWork s.startWork.frame w (settleWork w s) else s

/-- Take, in order, every piece still due (log entry 5). -/
def finishWork (s : State) : State := workOrder.foldl (fun s w => takeWork w s) s

/-! ## What a frame start does at once (R24) -/

/-- The blanking length of the new frame (R28). -/
def newBlanking (s : State) : Nat := if s.raster.blanking = nominal s then s.raster.request else nominal s

/-- The raster at a frame start (R24, R28), the HSYNC pulse of the line that ends, VSYNC (R160). -/
def advanceFrame (s : State) : State :=
  { s with raster := { frame := s.raster.frame + 1, line := 0, blanking := newBlanking s, request := nominal s, active := false },
           panel.vsync := true, panel.hsync := s.panel.hsync + 1, panel.pixels := [] }

/-- The pieces due at a frame start taken in this state. The listen guard is cleared only at the first frame start after it was
set (R40); a station leaving OFF_RING here has no table to age and takes its transition here (R57). -/
def dueWork (s : State) : List FrameWork :=
  (if s.ring.guard then [.listenGuard] else [])
    ++ [.inFlightAgeing, .holdExpiry, .retentionExpiry, .originDeadlines, .collectorDeadline]
    ++ (if s.member.state = .offRing then [.backoff] else [.stationAgeing, .transition, .backoff])

/-- OFF_RING enters LISTENING at the first frame start (R57) and releases BYPASS; a parcel then partway in on RIN is not received (R36). -/
def leaveOffRing (mid : Bool) (s : State) : State :=
  if s.member.state = .offRing then event (.stateChange .listening none) (enterListening { s with ring.cut := mid }) else s

/-- A piece of the Membership Unit's or the Proposal Store's work that is left takes the later ones with it, whose order is fixed
(R79, R122 to R124; log entries 4, 6). -/
def leftWork (later : List FrameWork) : List FrameWork :=
  later
    ++ (if later.contains .holdExpiry then [.retentionExpiry] else [])
    ++ (if later.contains .stationAgeing then [.transition, .backoff] else [])
    ++ (if later.contains .transition then [.backoff] else [])

/-- The frame start up to the pieces of work: the raster, the pieces due, OFF_RING, the beacon judged, the install slot taken, the
Pixel Port's lines cleared (R8, R24, R57, R67, R152). -/
def openFrame (mid : Bool) (s : State) : State :=
  let s := advanceFrame s
  let s := { s with startWork :=
    { frame := now s, due := dueWork s, origin := s.origin.list.map (·.seq) } }
  clearLines (takeApply (now s) (judgeBeacon (leaveOffRing mid s)))

/-- A frame start, leaving the pieces in `later` to commands of their own. -/
def startFrame (later : List FrameWork) (mid : Bool) (s : State) : State :=
  let s := openFrame mid s
  (workOrder.filter (fun w => !(leftWork later).contains w)).foldl (fun s w => takeWork w s) s

/-! ## The pieces of one block, in its order (R79, R122 to R124) -/

/-- Hold expiry and the hand-over come before retention expiry (R122 to R124). -/
def beforeRetention (s : State) : State := takeWork .holdExpiry s

/-- The ageing comes before the transition (R79). -/
def beforeTransition (s : State) : State := takeWork .stationAgeing s

/-- The ageing and the transition come before the backoff (R79). -/
def beforeBackoff (s : State) : State := takeWork .transition (beforeTransition s)

/-- The transition of R79 is due. -/
def transitionDue (s : State) : Bool := s.startWork.due.contains .transition

/-- One row's own transition f, where the transition is due and `c` says that it is this row's. -/
def takeTransition (c : State → Bool) (f : State → State) (s : State) : State :=
  let s := beforeTransition s
  if transitionDue s && c s then f (settleWork .transition s) else s

/-- LISTEN_COUNT_EXPIRY's transition is the one of this state. -/
def listenTurn (s : State) : Bool := decide (s.member.state = .listening)

/-- JOIN_DEADLINE's. -/
def joinTurn (s : State) : Bool := decide (s.member.state = .joining)

/-- MISS_STREAK_LIMIT's: three misses in a row in a state in which they act (R67). -/
def missTurn (s : State) : Bool :=
  decide (3 ≤ s.member.miss)
    && (decide (s.member.state = .catchingUp) || decide (s.member.state = .inService) || decide (s.member.state = .resync))

/-- What three misses in a row bring (R64, R71). -/
def missStep (s : State) : State := if s.member.state = .catchingUp then doRejoin s else enterRingHold s

/-- RETURN_STREAK_LIMIT's. -/
def returnTurn (s : State) : Bool := decide (s.member.state = .ringHold) && decide (2 ≤ s.member.ret)

/-- HOLD_COUNT_LIMIT's. -/
def holdTurn (s : State) : Bool := decide (s.member.state = .ringHold) && decide (s.member.ret < 2)

/-- REJOIN's: one of the three causes of R74 stands. -/
def rejoinTurn (s : State) : Bool :=
  (decide (s.member.state = .catchingUp) && mustRejoin s) || (holdTurn s && decide (64 ≤ s.member.hold + 1))

/-- RESYNC_DUE_MARK_TEST's: IN_SERVICE with no third miss (R79). -/
def markTurn (s : State) : Bool := decide (s.member.state = .inService) && decide (s.member.miss < 3)

/-! ## The Origin Engine's rows: one record each, oldest first (R105; log entry 7) -/

/-- The next record whose deadline is reached, where it is in this row's phase, acts. -/
def takeOrigin (mine : Phase → Bool) (s : State) : State :=
  if s.startWork.due.contains .originDeadlines then
    match nextOrigin s.startWork.frame s s.startWork.origin with
    | some (r, rest) => if mine r.phase then originDue r { s with startWork.origin := rest } else s
    | none => settleWork .originDeadlines { s with startWork.origin := [] }
  else s

def isProposing : Phase → Bool
  | .proposing => true
  | .withdrawn _ | .committing _ _ => false

def isWithdrawn : Phase → Bool
  | .withdrawn _ => true
  | .proposing | .committing _ _ => false

def isCommitting : Phase → Bool
  | .committing _ _ => true
  | .proposing | .withdrawn _ => false

/-! ## The meanings -/

/-- LISTEN_GUARD_CLEAR (R40). -/
def execListenGuardClear (s : State) : Host.Outcome State Fault Refusal := .next (whenReleased (takeWork .listenGuard) s)

/-- LISTEN_COUNT_EXPIRY (R58). -/
def execListenCountExpiry (s : State) : Host.Outcome State Fault Refusal :=
  .next (whenReleased (takeTransition listenTurn listenStep) s)

/-- JOIN_DEADLINE (R62). -/
def execJoinDeadline (s : State) : Host.Outcome State Fault Refusal :=
  .next (whenReleased (takeTransition joinTurn (joinStep s.startWork.frame)) s)

/-- IN_FLIGHT_AGEING (R49). -/
def execInFlightAgeing (s : State) : Host.Outcome State Fault Refusal := .next (whenReleased (takeWork .inFlightAgeing) s)

/-- STATION_ENTRY_AGE_OUT (R69). -/
def execStationEntryAgeOut (s : State) : Host.Outcome State Fault Refusal :=
  .next (whenReleased (takeWork .stationAgeing) s)

/-- MISS_STREAK_LIMIT (R71). -/
def execMissStreakLimit (s : State) : Host.Outcome State Fault Refusal :=
  .next (whenReleased (takeTransition missTurn missStep) s)

/-- RETURN_STREAK_LIMIT (R72). -/
def execReturnStreakLimit (s : State) : Host.Outcome State Fault Refusal :=
  .next (whenReleased (takeTransition returnTurn leaveRingHold) s)

/-- HOLD_COUNT_LIMIT (R73). -/
def execHoldCountLimit (s : State) : Host.Outcome State Fault Refusal :=
  .next (whenReleased (takeTransition holdTurn holdStep) s)

/-- REJOIN (R74). -/
def execRejoin (s : State) : Host.Outcome State Fault Refusal := .next (whenReleased (takeTransition rejoinTurn doRejoin) s)

/-- BACKOFF_EXPIRY (R77); the Membership Unit's last steps follow in it (R79; log entry 25). -/
def execBackoffExpiry (s : State) : Host.Outcome State Fault Refusal :=
  .next (whenReleased (fun s => takeWork .backoff (beforeBackoff s)) s)

/-- RESYNC_DUE_MARK_TEST (R76). -/
def execResyncDueMarkTest (s : State) : Host.Outcome State Fault Refusal :=
  .next (whenReleased (takeTransition markTurn (markStep s.startWork.frame)) s)

/-- PROPOSE_DEADLINE (R100). -/
def execProposeDeadline (s : State) : Host.Outcome State Fault Refusal := .next (whenReleased (takeOrigin isProposing) s)

/-- WITHDRAWN_DEADLINE (R101). -/
def execWithdrawnDeadline (s : State) : Host.Outcome State Fault Refusal := .next (whenReleased (takeOrigin isWithdrawn) s)

/-- COMMIT_DEADLINE (R104). -/
def execCommitDeadline (s : State) : Host.Outcome State Fault Refusal := .next (whenReleased (takeOrigin isCommitting) s)

/-- HOLD_EXPIRY (R122), and the hand-over of R123 that follows it. -/
def execHoldExpiry (s : State) : Host.Outcome State Fault Refusal := .next (whenReleased (takeWork .holdExpiry) s)

/-- RETENTION_EXPIRY (R124). -/
def execRetentionExpiry (s : State) : Host.Outcome State Fault Refusal :=
  .next (whenReleased (fun s => takeWork .retentionExpiry (beforeRetention s)) s)

/-- SNAPSHOT_DEADLINE (R138). -/
def execSnapshotDeadline (s : State) : Host.Outcome State Fault Refusal :=
  .next (whenReleased (takeWork .collectorDeadline) s)

end Sys2Proof.Machine
end

