-- ==== Sys2Proof/Machine/Points.lean ====
section
/-! DEFINITION. Machine/Points.lean: the device reset (R25, R55), the lines and frames (R23, R24), and the points of a frame at their
lines (R26), with their meanings. -/

namespace Sys2Proof.Machine

/-! ## Reset -/

/-- RESET# is asserted: every block at its reset values, whatever it held (R25, R2, R52, R55, R80, R108, R110, R143, R144, R174).
The straps as last sampled, the commands that wait and the count of free draws are not the block's own state. -/
def assertReset (s : State) : State :=
  { State.reset with straps := s.straps, raster := Raster.reset s.straps.profile, freeDraws := s.freeDraws, pending := s.pending }

/-- A station number from 1 to 30 is valid (R55). -/
def validNumber (sn : BitVec 5) : Bool := isStation (sn.setWidth 8)

/-- RESET# is released: the straps sampled, frame 0 begun at line 0 with VSYNC asserted, OFF_RING entered, or ISOLATED with its
report (R25, R55, R56, R160, R176). -/
def releaseReset (sn : BitVec 5) (prf lead : BitVec 2) (s : State) : State :=
  let p := profileOfStrap prf
  let t := { State.reset with inReset := false,
                              straps := { station := sn.setWidth 8, profile := p, lead := leadOfStrap lead },
                              raster := Raster.reset p,
                              member := Member.reset (if validNumber sn then .offRing else .isolated),
                              panel.vsync := true, freeDraws := s.freeDraws, pending := s.pending }
  if validNumber sn then t else event (.stateChange .isolated (some .invalidStrap)) t

/-! ## The points of a frame, each at its line (R26; log entry 3) -/

/-- Line 1: the apply window opens (R8). -/
def openApplyWindow (s : State) : State := if s.raster.line = 1 then openApply s else s

/-- Line V, with the apply operation over (R14): the digest is begun (R16), the black frame is decided (R161), part building is
allowed. -/
def beginActive (s : State) : State :=
  if s.raster.line = s.raster.blanking ∧ s.raster.active = false ∧ s.table.apply.phase = .idle then
    { beginDigest s with panel.black := isBlackFrame s, raster.active := true }
  else s

/-- The start of active line V + j (R150), which at line V is the first active line's too (R26). -/
def beginLine (j : Nat) (s : State) : State :=
  if s.raster.line = s.raster.blanking + j then consumeLine j (beginActive s) else s

/-- Part building stops and the digest pair enters the history (R17). -/
def endActive (s : State) : State :=
  if s.raster.active then endDigest { s with raster.active := false, panel.pixels := [] } else s

/-- The end of line T - 1: the last active line has been shown, and the active lines end (R17, R26). -/
def endFrame (s : State) : State :=
  if s.raster.line + 1 = totalLines s then endActive (beginLine (activeLines s - 1) s) else s

/-! ## What a line brings, where no command has brought it (log entry 5) -/

/-- The point at the start of the line in progress. -/
def startLine (s : State) : State :=
  beginLine (s.raster.line - s.raster.blanking) (requestPoint (openWindow (openApplyWindow s)))

/-- The install ends by the end of line 9 (R14). -/
def installDue (s : State) : Bool := decide (9 ≤ s.raster.line)

/-- What falls to the end of the line in progress: the steps of the apply operation (R14), CWIN's release (R27), the frame end (R17). -/
def endLine (s : State) : State :=
  let s := if installDue s then endInstall s else s
  let s := if applyOver s then endApply s else s
  endFrame (closeWindow s)

/-- Everything of the line in progress: the frame-start work still due, the point at its start, what falls to its end. -/
def bringLine (s : State) : State := endLine (startLine (finishWork s))

/-! ## Lines and frames (R23, R24) -/

/-- A line that is not the frame's last ends, with its HSYNC pulse; VSYNC is released at the end of line 1 (R23, R160). -/
def passLine (s : State) : State :=
  { s with raster.line := s.raster.line + 1, panel.hsync := s.panel.hsync + 1, panel.pixels := [],
           panel.vsync := s.panel.vsync && decide (s.raster.line + 1 < 2) }

/-- An ordinary line ends (R23), everything of it brought. At the last line the end is the frame's, which FRAME_START takes. -/
def advanceLine (s : State) : State := if s.raster.line + 1 < totalLines s then passLine (bringLine s) else s

/-- Line T - 1 ends and the next frame starts (R24), everything of the line brought. At another line no frame ends. -/
def nextFrame (later : List FrameWork) (mid : Bool) (s : State) : State :=
  if s.raster.line + 1 = totalLines s then startFrame later mid (bringLine s) else s

/-! ## The meanings -/

/-- RESET_ASSERT (R25). -/
def execResetAssert (s : State) : Host.Outcome State Fault Refusal := .next (assertReset s)

/-- RESET_RELEASE (R55). Without RESET# asserted there is no release. -/
def execResetRelease (sn : BitVec 5) (prf lead : BitVec 2) (s : State) : Host.Outcome State Fault Refusal :=
  .next (if s.inReset then releaseReset sn prf lead s else s)

/-- LINE_ADVANCE (R23). -/
def execLineAdvance (s : State) : Host.Outcome State Fault Refusal := .next (whenReleased advanceLine s)

/-- FRAME_START (R24). -/
def execFrameStart (later : List FrameWork) (s : State) (mid : Bool := false) : Host.Outcome State Fault Refusal :=
  .next (whenReleased (nextFrame later mid) s)

/-- APPLY_WINDOW_OPEN (R8). -/
def execApplyWindowOpen (s : State) : Host.Outcome State Fault Refusal := .next (whenReleased openApplyWindow s)

/-- INSTALL_END (R10). -/
def execInstallEnd (s : State) : Host.Outcome State Fault Refusal := .next (whenReleased endInstall s)

/-- APPLY_END (R21). -/
def execApplyEnd (s : State) : Host.Outcome State Fault Refusal := .next (whenReleased endApply s)

/-- FIRST_ACTIVE_LINE (R26). -/
def execFirstActiveLine (s : State) : Host.Outcome State Fault Refusal := .next (whenReleased beginActive s)

/-- ACTIVE_LINE (R150). -/
def execActiveLine (j : Nat) (s : State) : Host.Outcome State Fault Refusal := .next (whenReleased (beginLine j) s)

/-- FRAME_END (R17). -/
def execFrameEnd (s : State) : Host.Outcome State Fault Refusal := .next (whenReleased endFrame s)

end Sys2Proof.Machine
end

