-- ==== Sys2Proof/Machine/Dispatch.lean ====
section
/-! DEFINITION. Machine/Dispatch.lean: each command's meaning, one arm a constructor. -/

namespace Sys2Proof.Machine

def exec (i : Instr) (s : State) : Host.Outcome State Fault Refusal :=
  match i with
  | .resetAssert => Sys2Proof.Machine.execResetAssert s
  | .resetRelease sn prf lead => Sys2Proof.Machine.execResetRelease sn prf lead s
  | .lineAdvance => Sys2Proof.Machine.execLineAdvance s
  | .frameStart later mid => Sys2Proof.Machine.execFrameStart later s mid
  | .listenGuardClear => Sys2Proof.Machine.execListenGuardClear s
  | .listenCountExpiry => Sys2Proof.Machine.execListenCountExpiry s
  | .joinDeadline => Sys2Proof.Machine.execJoinDeadline s
  | .inFlightAgeing => Sys2Proof.Machine.execInFlightAgeing s
  | .stationEntryAgeOut => Sys2Proof.Machine.execStationEntryAgeOut s
  | .missStreakLimit => Sys2Proof.Machine.execMissStreakLimit s
  | .returnStreakLimit => Sys2Proof.Machine.execReturnStreakLimit s
  | .holdCountLimit => Sys2Proof.Machine.execHoldCountLimit s
  | .rejoin => Sys2Proof.Machine.execRejoin s
  | .backoffExpiry => Sys2Proof.Machine.execBackoffExpiry s
  | .resyncDueMarkTest => Sys2Proof.Machine.execResyncDueMarkTest s
  | .proposeDeadline => Sys2Proof.Machine.execProposeDeadline s
  | .withdrawnDeadline => Sys2Proof.Machine.execWithdrawnDeadline s
  | .commitDeadline => Sys2Proof.Machine.execCommitDeadline s
  | .holdExpiry => Sys2Proof.Machine.execHoldExpiry s
  | .retentionExpiry => Sys2Proof.Machine.execRetentionExpiry s
  | .snapshotDeadline => Sys2Proof.Machine.execSnapshotDeadline s
  | .applyWindowOpen => Sys2Proof.Machine.execApplyWindowOpen s
  | .installEnd => Sys2Proof.Machine.execInstallEnd s
  | .applyEnd => Sys2Proof.Machine.execApplyEnd s
  | .controlWindowOpen => Sys2Proof.Machine.execControlWindowOpen s
  | .controlWindowClose => Sys2Proof.Machine.execControlWindowClose s
  | .lineRequestPoint => Sys2Proof.Machine.execLineRequestPoint s
  | .firstActiveLine => Sys2Proof.Machine.execFirstActiveLine s
  | .activeLine j => Sys2Proof.Machine.execActiveLine j s
  | .frameEnd => Sys2Proof.Machine.execFrameEnd s
  | .pmark => Sys2Proof.Machine.execPmark s
  | .pixelByte b => Sys2Proof.Machine.execPixelByte b s
  | .tableLoad start components => Sys2Proof.Machine.execTableLoad start components s
  | .paramSet records => Sys2Proof.Machine.execParamSet records s
  | .readback start count => Sys2Proof.Machine.execReadback start count s
  | .statusReq clear => Sys2Proof.Machine.execStatusReq clear s
  | .beacon h b => Sys2Proof.Machine.execBeacon h b s
  | .join h b => Sys2Proof.Machine.execJoin h b s
  | .propose h b => Sys2Proof.Machine.execPropose h b s
  | .commit h seq effective => Sys2Proof.Machine.execCommit h seq effective s
  | .withdraw h seq => Sys2Proof.Machine.execWithdraw h seq s
  | .snapshotReq h => Sys2Proof.Machine.execSnapshotReq h s
  | .snapshot h b => Sys2Proof.Machine.execSnapshot h b s
  | .snapshotPartBuild => Sys2Proof.Machine.execSnapshotPartBuild s
  | .sendBegin => Sys2Proof.Machine.execSendBegin s
  | .sendEnd => Sys2Proof.Machine.execSendEnd s
  | .reportSendBegin => Sys2Proof.Machine.execReportSendBegin s
  | .reportSendEnd after => Sys2Proof.Machine.execReportSendEnd s after
  | .failedParcelArrival run => Sys2Proof.Machine.execFailedParcelArrival run s

end Sys2Proof.Machine
end

