-- ==== Sys2Proof/Safety.lean ====
section
/-! DEFINITION. Safety.lean: the vocabulary of the statements: which fields of the state a command may write, and the invariants
of the machine. -/

namespace Sys2Proof.Machine

/-! ## Frames -/

/-- The fields of the state, one for each field at the end of a path. -/
inductive Field where
  | inReset | straps | frame | line | blanking | request | active | entries | seeded | slot | history | digest
  | applyPhase | applyFrame | applySince | applyStaged | applyReapply | applyDue | insertion | transmit | inFlight | tag | streak
  | guard | duplicateSeen | cut | rout | stationState | stations | tableRef | timingRef | outstanding | returned | miss
  | ret | listen | hold | attempt | joinDeadline | snapshotNeeded | installed | rejoinPending | mark | mismatch
  | backoff | lockState | lockRef | offset | originList | nextSeq | store | responder | progress | collector
  | requests | slots | rx | readbacks | cwin | requested | begun | vsync | hsync | black | pixels | reports
  | sending | sendEnds | lost
  | crc | overflow | stray | underrun | late | frameSlip | startWork | freeDraws | pending
  deriving DecidableEq, Repr

/-- The field is in t as it is in s. -/
def Field.same (p : Field) (s t : State) : Prop :=
  match p with
  | .inReset => t.inReset = s.inReset
  | .straps => t.straps = s.straps
  | .frame => t.raster.frame = s.raster.frame
  | .line => t.raster.line = s.raster.line
  | .blanking => t.raster.blanking = s.raster.blanking
  | .request => t.raster.request = s.raster.request
  | .active => t.raster.active = s.raster.active
  | .entries => t.table.entries = s.table.entries
  | .seeded => t.table.seeded = s.table.seeded
  | .slot => t.table.slot = s.table.slot
  | .history => t.table.history = s.table.history
  | .digest => t.table.digest = s.table.digest
  | .applyPhase => t.table.apply.phase = s.table.apply.phase
  | .applyFrame => t.table.apply.frame = s.table.apply.frame
  | .applySince => t.table.apply.since = s.table.apply.since
  | .applyStaged => t.table.apply.staged = s.table.apply.staged
  | .applyReapply => t.table.apply.reapply = s.table.apply.reapply
  | .applyDue => t.table.apply.due = s.table.apply.due
  | .insertion => t.ring.insertion = s.ring.insertion
  | .transmit => t.ring.transmit = s.ring.transmit
  | .inFlight => t.ring.inFlight = s.ring.inFlight
  | .tag => t.ring.tag = s.ring.tag
  | .streak => t.ring.streak = s.ring.streak
  | .guard => t.ring.guard = s.ring.guard
  | .duplicateSeen => t.ring.duplicateSeen = s.ring.duplicateSeen
  | .cut => t.ring.cut = s.ring.cut
  | .rout => t.ring.rout = s.ring.rout
  | .stationState => t.member.state = s.member.state
  | .stations => t.member.stations = s.member.stations
  | .tableRef => t.member.tableRef = s.member.tableRef
  | .timingRef => t.member.timingRef = s.member.timingRef
  | .outstanding => t.member.outstanding = s.member.outstanding
  | .returned => t.member.returned = s.member.returned
  | .miss => t.member.miss = s.member.miss
  | .ret => t.member.ret = s.member.ret
  | .listen => t.member.listen = s.member.listen
  | .hold => t.member.hold = s.member.hold
  | .attempt => t.member.attempt = s.member.attempt
  | .joinDeadline => t.member.joinDeadline = s.member.joinDeadline
  | .snapshotNeeded => t.member.snapshotNeeded = s.member.snapshotNeeded
  | .installed => t.member.installed = s.member.installed
  | .rejoinPending => t.member.rejoinPending = s.member.rejoinPending
  | .mark => t.member.mark = s.member.mark
  | .mismatch => t.member.mismatch = s.member.mismatch
  | .backoff => t.member.backoff = s.member.backoff
  | .lockState => t.lock.state = s.lock.state
  | .lockRef => t.lock.ref = s.lock.ref
  | .offset => t.lock.offset = s.lock.offset
  | .originList => t.origin.list = s.origin.list
  | .nextSeq => t.origin.nextSeq = s.origin.nextSeq
  | .store => t.store = s.store
  | .responder => t.snap.queue = s.snap.queue
  | .progress => t.snap.progress = s.snap.progress
  | .collector => t.snap.collector = s.snap.collector
  | .requests => t.pixel.outstanding = s.pixel.outstanding
  | .slots => t.pixel.slots = s.pixel.slots
  | .rx => t.pixel.rx = s.pixel.rx
  | .readbacks => t.pixel.readbacks = s.pixel.readbacks
  | .cwin => t.pixel.cwin = s.pixel.cwin
  | .requested => t.pixel.requested = s.pixel.requested
  | .begun => t.pixel.begun = s.pixel.begun
  | .vsync => t.panel.vsync = s.panel.vsync
  | .hsync => t.panel.hsync = s.panel.hsync
  | .black => t.panel.black = s.panel.black
  | .pixels => t.panel.pixels = s.panel.pixels
  | .reports => t.report.queue = s.report.queue
  | .sending => t.report.sending = s.report.sending
  | .sendEnds => t.report.endsAfter = s.report.endsAfter
  | .lost => t.report.lost = s.report.lost
  | .crc => t.report.counts.crc = s.report.counts.crc
  | .overflow => t.report.counts.overflow = s.report.counts.overflow
  | .stray => t.report.counts.stray = s.report.counts.stray
  | .underrun => t.report.counts.underrun = s.report.counts.underrun
  | .late => t.report.counts.late = s.report.counts.late
  | .frameSlip => t.report.counts.frameSlip = s.report.counts.frameSlip
  | .startWork => t.startWork = s.startWork
  | .freeDraws => t.freeDraws = s.freeDraws
  | .pending => t.pending = s.pending

/-- Going from s to t writes none but the listed fields: every other field is as it was. -/
def Writes (fs : List Field) (s t : State) : Prop := ∀ f : Field, f ∉ fs → f.same s t

/-- The fields a report handed over can write: the queue, the record in sending, the announced end, the lost flag. -/
abbrev Field.ofReport : List Field := [.reports, .sending, .sendEnds, .lost]

/-- The fields the Lock Unit can write at a change of reference. -/
abbrev Field.ofLock : List Field := [.request, .lockState, .lockRef, .offset]

/-- The fields a recomputation of the references can write before anything follows from it. -/
abbrev Field.ofRefs : List Field :=
  [.tableRef, .timingRef, .mismatch, .request, .lockState, .lockRef, .offset, .transmit, .collector]

/-- The fields a recomputation of the references can write with everything that follows from it. -/
abbrev Field.ofChange : List Field := Field.ofRefs ++ Field.ofReport ++ [.stationState, .seeded, .rejoinPending, .backoff]

/-- The fields of the Membership Unit. -/
abbrev Field.ofMember : List Field :=
  [.stationState, .stations, .tableRef, .timingRef, .outstanding, .returned, .miss, .ret, .listen, .hold, .attempt,
   .joinDeadline, .snapshotNeeded, .installed, .rejoinPending, .mark, .mismatch, .backoff]

/-- The fields the entry to ISOLATED can write, its report apart. -/
abbrev Field.ofIsolation : List Field :=
  Field.ofMember ++ [.lockState, .lockRef, .offset, .insertion, .transmit, .inFlight, .streak, .rout]

/-- The fields the Origin Engine can write. -/
abbrev Field.ofOrigin : List Field := [.originList, .nextSeq, .store, .transmit] ++ Field.ofReport

/-! ## What a command answers -/

/-- The command completes, and the next state is as P says. -/
def Answers (c : Instr) (s : State) (P : State → Prop) : Prop := ∃ t, exec c s = .next t ∧ P t

/-- The frame's last line is in progress and every point of the frame has been brought: no frame-start work is due, no apply operation
runs, the control window is closed, every active line has begun, and they have ended. -/
def Settled (s : State) : Prop :=
  s.raster.line + 1 = totalLines s ∧ s.startWork.due = [] ∧ s.table.apply.phase = .idle ∧ s.pixel.cwin = false
    ∧ s.raster.active = false ∧ activeLines s ≤ s.pixel.begun

/-- No frame-start work is due, no apply operation runs, and the line in progress, after line 2, has no point left at its start or its
end: it lies in the blanking away from the points of R26, or it is an active line that has begun. -/
def Plain (s : State) : Prop :=
  s.startWork.due = [] ∧ s.table.apply.phase = .idle ∧ 2 < s.raster.line
    ∧ ((s.raster.line + 2 < s.raster.blanking ∧ s.raster.line + 5 ≠ s.raster.blanking)
      ∨ (s.raster.blanking ≤ s.raster.line ∧ s.raster.active = true ∧ s.raster.line < s.raster.blanking + s.pixel.begun))

/-- The Membership Unit's transition is due at this frame start and its ageing is done. -/
def TransitionNext (s : State) : Prop :=
  s.inReset = false ∧ FrameWork.transition ∈ s.startWork.due ∧ FrameWork.stationAgeing ∉ s.startWork.due

/-- The record of seq q is the oldest that the Origin Engine has not tested at this frame start and whose deadline is reached: those
before it are not reached (R105; log entry 7). -/
def OriginNext (s : State) (q : Seq) (r : OriginRecord) : Prop :=
  s.inReset = false ∧ FrameWork.originDeadlines ∈ s.startWork.due
    ∧ (∃ before rest, s.startWork.origin = before ++ q :: rest
        ∧ ∀ x ∈ before, ∀ y, findOrigin x s = some y → originReached s.startWork.frame y = false)
    ∧ findOrigin q s = some r ∧ originReached s.startWork.frame r = true

/-- The station receives, and the parcel that comes began since it does (R36). -/
def Receives (s : State) : Prop := s.inReset = false ∧ receiving s.member.state = true ∧ s.ring.cut = false

/-- The station is in an on-ring state, and the parcel that comes began since it receives (R36, R55). -/
def OnRing (s : State) : Prop := s.inReset = false ∧ onRing s.member.state = true ∧ s.ring.cut = false

/-- The command that a parcel's arrival is. -/
def arrivalOf (p : Parcel) : Instr :=
  match p.body with
  | .beacon b => .beacon p.header b
  | .join b => .join p.header b
  | .propose b => .propose p.header b
  | .commit q F => .commit p.header q F
  | .withdraw q => .withdraw p.header q
  | .snapshotReq => .snapshotReq p.header
  | .snapshot b => .snapshot p.header b

/-- A parcel of another station that passes the check and is forwarded: its raised hop count is at most 29, and the insertion
buffer has a place. -/
def Passes (s : State) (p : Parcel) : Prop :=
  Receives s ∧ parcelOk p = true ∧ p.header.origin ≠ own s ∧ p.header.hop.toNat < 29
    ∧ s.ring.insertion.length < Config.insertionPlaces

/-- The parcel joins the tail of the insertion buffer with its hop count raised by one and this body. -/
def Forwarded (s t : State) (p : Parcel) (b : Body) : Prop :=
  t.ring.insertion = s.ring.insertion ++ [{ parcel := { header := { p.header with hop := p.header.hop + 1 }, body := b }, notice := false }]

/-- An own parcel whose in-flight entry stands comes back to a station on the ring. -/
def Returns (s : State) (p : Parcel) : Prop :=
  OnRing s ∧ parcelOk p = true ∧ p.header.origin = own s ∧ s.ring.inFlight.any (matchesFlight p) = true

/-- What the entry to ISOLATED leaves, its report apart (R54, R78, R90). -/
def Isolated (s t : State) : Prop :=
  t.member = Member.reset .isolated ∧ bypass t = true
    ∧ t.ring.insertion = [] ∧ t.ring.transmit = [] ∧ t.ring.inFlight = [] ∧ t.ring.streak = 0 ∧ t.ring.rout = none
    ∧ (s.member.timingRef ≠ none → t.lock = { state := .free, ref := none, offset := none })
    ∧ (s.member.timingRef = none → t.lock = s.lock)

/-- n is the first value after q, modulo 256, that is not used (R47, R92). -/
def NextFree (used : List (BitVec 8)) (q n : BitVec 8) : Prop :=
  n ∉ used ∧ ∃ k : Nat, n = q + BitVec.ofNat 8 (k + 1) ∧ ∀ j < k, q + BitVec.ofNat 8 (j + 1) ∈ used

/-- The seqs that next-seq passes when a round has taken its value: that one, those of the origin list, and those of the own records of the
store (R92). -/
def takenSeqs (s : State) : List Seq :=
  s.origin.nextSeq :: s.origin.list.map (·.seq) ++ (s.store.filter (fun p => decide (p.origin = own s))).map (·.seq)

/-- The station table with the sender's entry as a beacon makes it (R66). -/
def heardFrom (h : Header) (b : BeaconBody) (s : State) : State :=
  { s with member.stations :=
      putStation h.origin { state := b.state, missed := 0, heard := true, digest := b.digest } s.member.stations }

/-- Outside the backoff the beacon carries a digest that differs from the own one of its frame (R75). -/
def DigestDiffers (b : BeaconBody) (s : State) : Prop :=
  s.member.backoff = 0 ∧ ∃ F x mine, b.digest = some (F, x) ∧ digestFor F s = some mine ∧ x ≠ mine

/-- The line that is requested when a PMARK ends the reception in progress: an abandoned line's slot is freed for the line two on (R145,
R151). -/
def reopened (s : State) : List Nat :=
  match s.pixel.rx with
  | .line m => match findSlot m s with
    | some x => if x.state = .abandoned ∧ m + 2 < activeLines s then [m + 2] else []
    | none => []
  | .wait | .packet _ | .discard | .drain => []

/-- The transmit queue takes an own parcel that is no BEACON at its tail, where it has a place (R44). -/
def Queued (s t : State) (n : StationNo) (b : Body) : Prop :=
  bypass s = false → s.ring.transmit.length < Config.transmitPlaces → t.ring.transmit = s.ring.transmit ++ [ownParcel s n b]

/-- The reports handed over in this order. -/
def handOver (rs : List Report) (frame : Frame) (u : ReportUnit) : ReportUnit := rs.foldl (fun u r => reportJoin r frame u) u

/-- One report handed over (R166). -/
def Reported (s t : State) (r : Report) : Prop := t.report = reportJoin r (now s) s.report

/-- One event raised. -/
def Raised (s t : State) (e : Event) : Prop := Reported s t (.event e)

/-- What a rejoin takes away and what it keeps (R53, R74, R90, R107, R126, R143): the final reports of the origin records, in list
order, and STATE_CHANGE enter in one order or the other (log entry 12). -/
def Rejoined (s t : State) : Prop :=
  t.member = Member.reset .listening
    ∧ t.store = s.store.filter (fun p => !isHeld p) ∧ t.origin.list = []
    ∧ t.snap.queue = [] ∧ t.snap.progress = none ∧ t.snap.collector = none
    ∧ t.ring.transmit = [] ∧ t.ring.inFlight = [] ∧ t.ring.streak = 0 ∧ t.ring.guard = true ∧ t.ring.duplicateSeen = false
    ∧ (s.member.timingRef ≠ none → t.lock.state = .free ∧ t.lock.ref = none ∧ t.lock.offset = none)
    ∧ (∃ first : Bool, t.report = handOver
        (if first then s.origin.list.map rejoinReport ++ [.event (.stateChange .listening none)]
         else .event (.stateChange .listening none) :: s.origin.list.map rejoinReport) (now s) s.report)
    ∧ Writes (Field.ofMember ++ Field.ofReport ++ [.lockState, .lockRef, .offset, .store, .originList, .responder, .progress,
        .collector, .transmit, .inFlight, .streak, .guard, .duplicateSeen, .freeDraws, .startWork]) s t

/-- The report unit after a measurement that gives the own frame the number E at offset d: a re-adoption counts a frame slip and, in
IN_SERVICE, raises FRAME_SLIP, formed with the adopted number as its report frame (R83, R84). -/
def slipReport (s : State) (E : Frame) (d : Int) : ReportUnit :=
  if s.lock.state = .free ∨ E = now s then s.report
  else if s.member.state = .inService then
    reportJoin (.event (.frameSlip (now s) E d)) E { s.report with counts.frameSlip := countUp s.report.counts.frameSlip }
  else { s.report with counts.frameSlip := countUp s.report.counts.frameSlip }

/-- The Lock Unit and the requested blanking length after a measurement at offset d (R82, R85). -/
def Measured (s t : State) (d : Int) : Prop :=
  t.lock.offset = some d
    ∧ (-2 ≤ d → d ≤ 2 → t.lock.state = .locked ∧ t.raster.request = nominal s)
    ∧ (2 < d → t.lock.state = .slewing ∧ t.raster.request = nominal s + (min d 8).toNat)
    ∧ (d < -2 → t.lock.state = .slewing ∧ t.raster.request = nominal s - (min (-d) 8).toNat)

/-! ## The panel -/

/-- DE is inactive and RGB (0, 0, 0) at every position (R160, R165). -/
def Blanked (s : State) : Prop := ∀ x, panelDE s x = false ∧ panelRGB s x = ⟨0, 0, 0⟩

/-! ## What a change of the station table brings -/

/-- What a change of timing reference brings at the Lock Unit: FREE, or REFERENCE with the request at nominal, and no offset; unchanged, it
brings nothing (R81). -/
def LockFollows (s t : State) : Prop :=
  (t.member.timingRef = s.member.timingRef → t.lock = s.lock ∧ t.raster.request = s.raster.request)
    ∧ (t.member.timingRef ≠ s.member.timingRef →
        t.lock = { state := if t.member.timingRef = some (own s) then .reference else .free, ref := t.member.timingRef, offset := none }
          ∧ t.raster.request = if t.member.timingRef = some (own s) then nominal s else s.raster.request)

/-- A change to the table reference `ref` is the collector's third failure (R139, R140). -/
def ThirdFailed (ref : Option StationNo) (s : State) : Prop :=
  ref ≠ s.member.tableRef ∧ ∃ c, s.snap.collector = some c ∧ 3 ≤ c.attempt ∧ c.target ≠ none ∧ c.target ≠ ref

/-- What a change to the table reference `ref` brings the mismatch streak: 0 (R70). -/
def MismatchFollows (ref : Option StationNo) (s t : State) : Prop :=
  (ref = s.member.tableRef → t.member.mismatch = s.member.mismatch) ∧ (ref ≠ s.member.tableRef → t.member.mismatch = 0)

/-- What a change to the table reference `ref` brings a collecting collector: the attempt that waits sent, the next attempt, or the end
(R139, R140). -/
def CollectorMoves (ref : Option StationNo) (s t : State) : Prop :=
  (s.snap.collector = none ∨ ref = s.member.tableRef → t.snap.collector = s.snap.collector ∧ t.ring.transmit = s.ring.transmit)
    ∧ ∀ c, s.snap.collector = some c → ref ≠ s.member.tableRef →
      (c.target = ref → t.snap.collector = some c ∧ t.ring.transmit = s.ring.transmit)
      ∧ (∀ r, c.target = none → ref = some r →
          t.snap.collector = some { c with target := some r, deadline := now s + 6 } ∧ Queued s t r .snapshotReq)
      ∧ (c.target ≠ none → c.target ≠ ref → c.attempt < 3 →
          t.snap.collector = some { target := ref, attempt := c.attempt + 1, deadline := now s + 6, parts := [] }
            ∧ (∀ r, ref = some r → Queued s t r .snapshotReq) ∧ (ref = none → t.ring.transmit = s.ring.transmit))
      ∧ (c.target ≠ none → c.target ≠ ref → 3 ≤ c.attempt → t.snap.collector = none ∧ t.ring.transmit = s.ring.transmit)

/-- What the third failure that a change to the table reference `ref` can be brings in each station state (R140, R64, R72, R77). -/
def FailureFollows (ref : Option StationNo) (s t : State) : Prop :=
  (¬ ThirdFailed ref s ∨ (s.member.state ≠ .catchingUp ∧ s.member.state ≠ .resync ∧ s.member.state ≠ .ringHold) →
      t.member.state = s.member.state ∧ t.report = s.report ∧ t.member.backoff = s.member.backoff
        ∧ t.member.rejoinPending = s.member.rejoinPending)
    ∧ (ThirdFailed ref s → s.member.state = .catchingUp →
        t.member.state = .catchingUp ∧ t.member.rejoinPending = true ∧ t.report = s.report)
    ∧ (ThirdFailed ref s → s.member.state = .resync →
        t.member.state = .inService ∧ t.member.backoff = 16 ∧ Raised s t .resyncFailed)
    ∧ (ThirdFailed ref s → s.member.state = .ringHold →
        t.member.state = .ringHold ∧ t.member.backoff = 16 ∧ Raised s t .resyncFailed)

/-- What a change to the table reference `ref` brings: at the mismatch streak, at the collector, and where it is the third failure. -/
def CollectorFollows (ref : Option StationNo) (s t : State) : Prop :=
  MismatchFollows ref s t ∧ CollectorMoves ref s t ∧ FailureFollows ref s t

/-- What follows from the references of the station table that t has (R64, R70, R81, R86, R139, R140). In CATCHING_UP with the install done
a lock state that becomes REFERENCE brings the station into service; the collector, which is idle there in a run, is left out. -/
def ReferencesFollow (s t : State) : Prop :=
  LockFollows s t
    ∧ (¬ (s.member.state = .catchingUp ∧ installDone s = true) →
        CollectorFollows (computeTableRef { s with member.stations := t.member.stations }) s t)
    ∧ (s.member.state = .catchingUp → installDone s = true → s.member.timingRef ≠ some (own s) →
        computeTimingRef { s with member.stations := t.member.stations } = some (own s) →
          t.member.state = .inService ∧ t.table.seeded = true ∧ Raised s t (.stateChange .inService none))

/-! ## The order of the apply set -/

/-- Record a is taken before record b: by effective frame, the one at or before the other first, then by origin, then by sequence, where
b's lies 1 to 127 past a's, or 128 past it and a's is the lower number (R6, R12). -/
def TakenBefore (a b : DueRecord) : Prop :=
  (a.effective ≠ b.effective ∧ (b.effective - a.effective).toNat < 32768)
    ∨ (a.effective = b.effective ∧ a.origin.toNat < b.origin.toNat)
    ∨ (a.effective = b.effective ∧ a.origin = b.origin
        ∧ ((1 ≤ (b.seq - a.seq).toNat ∧ (b.seq - a.seq).toNat ≤ 127)
          ∨ ((b.seq - a.seq).toNat = 128 ∧ a.seq.toNat < b.seq.toNat)))

/-- rs is the list ds, taken in the order of R12 wherever that is an order among them: sequences of one origin and frame can run in a
circle (log entry 14). -/
def InOrder (rs ds : List DueRecord) : Prop :=
  rs.Perm ds
    ∧ ((∀ a ∈ ds, ∀ b ∈ ds, ∀ c ∈ ds, TakenBefore a b → TakenBefore b c → TakenBefore a c) → rs.Pairwise TakenBefore)

/-- The records' edits brought to the table one by one in the apply operation of frame F, each record's in list order (R12). -/
def applied (F : Frame) (rs : List DueRecord) (tb : Table) : Table :=
  rs.foldl (fun tb r => r.edits.foldl (judgeEdit F (.mark r.effective r.origin r.seq)) tb) tb

/-- One LATE_COMMIT for each record of an effective frame other than F, and so before it, in their order (R13). -/
def lateReports (F : Frame) (rs : List DueRecord) : List Report :=
  (rs.filter (fun r => decide (r.effective ≠ F))).map (fun r => .event (.lateCommit r.origin r.seq r.effective F))

/-- The reports of `first` and then one LATE_COMMIT for each late record are handed over, and the late count rises by one for each, no
further than 65535 (R13, R171). -/
def LateReported (first : List Report) (F : Frame) (rs : List DueRecord) (s t : State) : Prop :=
  t.report.counts.late.toNat = min 65535 (s.report.counts.late.toNat + (lateReports F rs).length)
    ∧ t.report = { handOver (first ++ lateReports F rs) (now s) s.report with
        counts := { s.report.counts with late := t.report.counts.late } }

/-- The record p is entered in the store: behind the others or, with 12 held, in the place of one retained record, the oldest, and of several
of one effective frame the one that the apply set takes first (R12, R112; log entry 14 for sequences in a circle). -/
def Entered (cur : Frame) (st st' : List Proposal) (p : Proposal) : Prop :=
  (st.length < 12 → st' = st ++ [p])
    ∧ (12 ≤ st.length → ∃ g ∈ st, ∃ e, g.state = .applied e ∧ st' = st.filter (fun x => decide (x ≠ g)) ++ [p]
        ∧ ∀ x ∈ st, x ≠ g → ∀ f, x.state = .applied f →
          (cur - f).toNat < (cur - e).toNat
            ∨ (f = e ∧ (g.origin.toNat < x.origin.toNat
                ∨ (g.origin = x.origin
                  ∧ ((∀ a ∈ retainedDue st, ∀ b ∈ retainedDue st, ∀ c ∈ retainedDue st, a.effective = e → b.effective = e →
                        c.effective = e → TakenBefore a b → TakenBefore b c → TakenBefore a c) →
                      TakenBefore (dueOf e g) (dueOf f x))))))

/-! ## Invariants -/

/-- The station is in service or holds on to it: IN_SERVICE, RING_HOLD or RESYNC. -/
def serving (st : StationState) : Bool := st == .inService || st == .ringHold || st == .resync

/-- The Ring Interface: the capacities of its four collections and of the streak, hop counts, the beacon's place, tags (R41, R43 to R47). -/
structure RingOk (s : State) : Prop where
  insertion : s.ring.insertion.length ≤ Config.insertionPlaces
  hops : ∀ w ∈ s.ring.insertion, w.parcel.header.hop.toNat ≤ 29
  transmit : s.ring.transmit.length ≤ Config.transmitPlaces
  beaconFirst : ∀ p ∈ s.ring.transmit.tail, isBeacon p = false
  inFlight : s.ring.inFlight.length ≤ Config.inFlightPlaces
  tags : (s.ring.inFlight.map (·.tag)).Nodup
  freeTag : s.ring.tag ∉ s.ring.inFlight.map (·.tag)
  streak : s.ring.streak ≤ Config.streakLimit

/-- The Raster Generator: the line lies in the frame; both blanking lengths lie within 8 of nominal (R23, R29, R30). -/
structure RasterOk (s : State) : Prop where
  line : s.raster.line < totalLines s
  blanking : nominal s - 8 ≤ s.raster.blanking ∧ s.raster.blanking ≤ nominal s + 8
  request : nominal s - 8 ≤ s.raster.request ∧ s.raster.request ≤ nominal s + 8

/-- The gathered parts have different numbers from 0 to 8, and each has exactly its part's indices (R127, R132, R136). -/
def PartsOk (ps : List Part) : Prop :=
  (ps.map (·.number)).Nodup ∧ ∀ p ∈ ps, p.number ≤ 8 ∧ p.entries.map (·.index.toNat) = partIndices p.number

/-- A staged snapshot: all nine parts (R9). -/
def SnapshotOk (ps : List Part) : Prop := PartsOk ps ∧ ps.length = 9

/-- The Table Store: the canonical form; at most four pairs of distinct frames; no apply operation in the active lines; a digest in
progress in the active lines only, and of the table as it stands; staged snapshots whole (R9, R14 to R17). -/
structure TableOk (s : State) : Prop where
  wf : Memory.wf s.table.entries = true
  historyPlaces : s.table.history.length ≤ Config.historyPlaces
  historyFrames : (s.table.history.map (·.1)).Nodup
  still : s.raster.active = true → s.table.apply.phase = .idle
  digestActive : s.table.digest.isSome = s.raster.active
  digest : ∀ p, s.table.digest = some p → p.2 = tableDigest s.table.entries
  slot : ∀ ps, s.table.slot = some ps → SnapshotOk ps
  staged : ∀ ps, s.table.apply.staged = some ps → SnapshotOk ps
  collected : ∀ c, s.snap.collector = some c → PartsOk c.parts

/-- One to 32 edits (R91, R110). -/
def editsOk (es : List Edit) : Prop := 1 ≤ es.length ∧ es.length ≤ 32

/-- The Proposal Store, the Origin Engine and what the Table Store took from the store: capacities, distinct keys, the next sequence
free, the fields' ranges, no apply set ahead of its F (R8, R14, R91, R92, R110, R124). -/
structure UpdatesOk (s : State) : Prop where
  storePlaces : s.store.length ≤ Config.storePlaces
  storeKeys : (s.store.map (fun p => (p.origin, p.seq))).Nodup
  storeEdits : ∀ p ∈ s.store, editsOk p.edits
  originPlaces : s.origin.list.length ≤ Config.originPlaces
  originSeqs : (s.origin.list.map (·.seq)).Nodup
  originEdits : ∀ r ∈ s.origin.list, editsOk r.edits
  originCounts : ∀ r ∈ s.origin.list, 1 ≤ r.attempt ∧ r.attempt ≤ 3 ∧ 1 ≤ r.round ∧ r.round ≤ 3
  nextFreeOrigin : s.origin.nextSeq ∉ s.origin.list.map (·.seq)
  nextFreeStore : ∀ p ∈ s.store, p.origin = own s → p.seq ≠ s.origin.nextSeq
  applyPlaces : s.table.apply.due.length + s.table.apply.reapply.length ≤ Config.storePlaces
  applyKeys : ((s.table.apply.due ++ s.table.apply.reapply).map (fun r => (r.origin, r.seq))).Nodup
  dueReached : ∀ r ∈ s.table.apply.due, atOrBefore r.effective s.table.apply.frame = true
  dueEdits : ∀ r ∈ s.table.apply.due, editsOk r.edits
  reapplyEdits : ∀ r ∈ s.table.apply.reapply, editsOk r.edits

/-- What a station state excludes: a station serves a seeded table; updates of its own are in hand only while it serves; it answers
requesters only in IN_SERVICE; it collects from CATCHING_UP on; in OFF_RING its store is empty; off the ring it has nothing of its own
to send or in flight, and with BYPASS asserted nothing at all (R40, R54, R58, R78, R108, R130, R135, R164). -/
structure ServiceOk (s : State) : Prop where
  seeded : serving s.member.state = true → s.table.seeded = true
  updates : s.origin.list ≠ [] → serving s.member.state = true
  unstored : s.member.state = .offRing → s.store = []
  responder : s.snap.queue ≠ [] → s.member.state = .inService
  responderPlaces : s.snap.queue.length ≤ Config.responderPlaces
  responderOnce : s.snap.queue.Nodup
  progress : s.snap.progress.isSome = !s.snap.queue.isEmpty
  progressPart : ∀ p, s.snap.progress = some p → p ≤ 8
  collector : s.snap.collector.isSome = true → s.member.state = .catchingUp ∨ serving s.member.state = true
  quiet : onRing s.member.state = false → s.ring.transmit = [] ∧ s.ring.inFlight = []
  bypassed : receiving s.member.state = false → s.ring.insertion = [] ∧ s.ring.rout = none ∧ s.member.stations = []

/-- The references are those of the station table as it stands; the Lock Unit's copy is the same, and so is the collector's target; the lock
state and the last offset are as section 5.1 gives them (R70, R80, R128, R139). -/
structure LockOk (s : State) : Prop where
  tableRef : s.member.tableRef = computeTableRef s
  timingRef : s.member.timingRef = computeTimingRef s
  copy : s.lock.ref = s.member.timingRef
  reference : s.lock.state = .reference ↔ s.lock.ref = some (own s)
  measured : ∀ d, s.lock.offset = some d → s.lock.state = lockOf d
  unmeasured : s.lock.offset = none ↔ (s.lock.state = .reference ∨ s.lock.state = .free)
  target : ∀ c, s.snap.collector = some c → c.target = s.member.tableRef

/-- The Membership Unit's counts and its station table: peers only, in rising order, each missed at most three times (R58, R59, R67 to
R69, R73, R75, R77). -/
structure MemberOk (s : State) : Prop where
  miss : s.member.miss ≤ 3
  ret : s.member.ret ≤ 2
  mismatch : s.member.mismatch ≤ 1
  backoff : s.member.backoff ≤ 16
  hold : s.member.hold ≤ 63
  listen : s.member.state = .listening → s.member.listen ≤ 3
  attempt : s.member.attempt.isSome = true ↔ s.member.state = .joining
  deadline : s.member.joinDeadline.isSome = s.member.attempt.isSome
  attempts : ∀ n, s.member.attempt = some n → 1 ≤ n ∧ n ≤ 3
  rising : (s.member.stations.map (fun e => e.1.toNat)).Pairwise (· < ·)
  peers : ∀ e ∈ s.member.stations, isStation e.1 = true ∧ e.1 ≠ own s ∧ e.2.missed ≤ 3

/-- A slot's bytes and count agree with its state, for lines of W bytes (R146). -/
def SlotOk (W : Nat) (x : Slot) : Prop :=
  match x.state with
  | .awaiting => x.bytes = [] ∧ x.count = 0
  | .receiving => x.bytes.length = x.count ∧ x.count < W
  | .complete => x.bytes.length = W
  | .short => x.bytes.length < W
  | .abandoned => x.bytes = [] ∧ x.count < W

/-- The Pixel Port and the panel's line: at most two slots, bound to different lines; every outstanding request bound to a slot that
waits for its PMARK; a line in reception bound; a line on the panel W pixels long (R145, R146, R158, R160). -/
structure PixelOk (s : State) : Prop where
  slots : s.pixel.slots.length ≤ Config.slots
  lines : (s.pixel.slots.map (fun x => x.line % 2)).Nodup
  unrequested : s.pixel.requested = 0 → s.pixel.slots = []
  form : ∀ x ∈ s.pixel.slots, SlotOk (lineWidth s) x
  awaited : ∀ x ∈ s.pixel.slots, x.state = .awaiting → x.line ∈ s.pixel.outstanding
  outstandingOnce : s.pixel.outstanding.Nodup
  outstandingBound : ∀ k ∈ s.pixel.outstanding, ∃ x ∈ s.pixel.slots, x.line = k ∧ (x.state = .awaiting ∨ x.state = .abandoned)
  reception : ∀ k, s.pixel.rx = .line k → k ∉ s.pixel.outstanding ∧
    ∃ x ∈ s.pixel.slots, x.line = k ∧ (x.state = .receiving ∨ x.state = .abandoned)
  begun : s.pixel.begun ≤ activeLines s
  readbacks : s.pixel.readbacks.length ≤ Config.readbackPlaces
  pixels : s.panel.pixels = [] ∨ s.panel.pixels.length = lineWidth s

/-- The report queue's capacity (R166); the line is idle only while the queue is empty (R167), and then no end is announced. -/
structure ReportOk (s : State) : Prop where
  places : s.report.queue.length ≤ Config.reportPlaces
  idle : s.report.sending = none → s.report.queue = [] ∧ s.report.endsAfter = 0

/-- Each point of the frame stands at its line (R8, R14, R26, R27, R145, R150, R160): the frame-start work is done in line 0, the apply
operation runs from line 1 through its lines, CWIN is asserted within lines 2 to V - 5, the requests come from line V - 2 on, the active
lines from line V on, each begun once and shown to the end of the frame; DE is active in no other line and not under RESET#. -/
structure PointsOk (s : State) : Prop where
  work : s.startWork.due ≠ [] → s.raster.line = 0
  taken : s.table.apply.phase = .taken → s.raster.line ≤ 1
  installing : s.table.apply.phase = .installing → 1 ≤ s.raster.line ∧ s.raster.line ≤ 9
  judging : s.table.apply.phase = .judging → 1 ≤ s.raster.line ∧ s.table.apply.since ≤ 10
    ∧ s.raster.line < s.table.apply.since + max 1 (judgeLines s.table.apply)
  window : s.pixel.cwin = true → 2 ≤ s.raster.line ∧ s.raster.line + 5 ≤ s.raster.blanking
  requests : 0 < s.pixel.requested → s.raster.blanking ≤ s.raster.line + 2
  active : s.raster.active = true → s.raster.blanking ≤ s.raster.line
  shown : s.raster.blanking < s.raster.line → s.raster.line + 1 < totalLines s → s.raster.active = true
  begun : s.pixel.begun ≤ s.raster.line + 1 - s.raster.blanking
  reached : s.raster.blanking ≤ s.raster.line → s.raster.line ≤ s.raster.blanking + s.pixel.begun
  vsync : s.panel.vsync = (!s.inReset && decide (s.raster.line ≤ 1))
  driven : s.panel.pixels ≠ [] → s.inReset = false ∧ s.raster.blanking ≤ s.raster.line

/-- All the invariants. -/
structure MachineOk (s : State) : Prop where
  ring : RingOk s
  raster : RasterOk s
  table : TableOk s
  updates : UpdatesOk s
  service : ServiceOk s
  lock : LockOk s
  member : MemberOk s
  pixel : PixelOk s
  report : ReportOk s
  points : PointsOk s

end Sys2Proof.Machine
end

