-- ==== Sys2Proof/Certificates/Slice0/Obligations.lean ====
section
/-! DEFINITION. Certificates/Slice0/Obligations.lean: what is stated of the model: the machine and its reset, the frame, the
frame-start work, the apply operation, the points of a frame, the image source, the ring, the reports, and what every step keeps. -/

open Sys2Proof Sys2Proof.Machine

/-! ## The machine -/

/-- One step takes the command at the front of the queue; on an empty queue the block idles (log entry 2). -/
def Obligations.StepRunsFront : Prop :=
  (∀ (c : Instr) (rest : List Instr) (s : State),
    step { s with pending := c :: rest } = exec c { s with pending := rest })
  ∧ ∀ s : State, s.pending = [] → step s = .next s

/-- Every command completes from every state, and leaves the queue alone. -/
def Obligations.EveryCommandCompletes : Prop :=
  ∀ (c : Instr) (s : State), Answers c s fun t => t.pending = s.pending

/-- RESET_ASSERT leaves every block at its reset values (R2, R25, R52, R55, R80, R108, R110, R143, R144, R174); the straps, the queue
and the count of free draws stay (log entry 26). DE falls and RGB is (0, 0, 0) at once (R165). The values that no rule gives are log entries 16, 23 and 42. While RESET# is asserted
nothing but its release has an effect. -/
def Obligations.ResetAssertResets : Prop :=
  (∀ (c : Instr) (s : State), s.inReset = true → c ≠ .resetAssert → (∀ sn prf lead, c ≠ .resetRelease sn prf lead) →
    exec c s = .next s)
  ∧ ∀ s : State, Answers .resetAssert s fun t =>
    t.inReset = true ∧ bypass t = true
      ∧ (∀ i, Memory.read t.table.entries i = resetEntry i) ∧ t.table.seeded = false ∧ t.table.slot = none
      ∧ t.table.history = [] ∧ t.table.digest = none
      ∧ t.table.apply.phase = .idle ∧ t.table.apply.staged = none ∧ t.table.apply.reapply = [] ∧ t.table.apply.due = []
      ∧ t.raster.frame = 0 ∧ t.raster.line = 0 ∧ t.raster.blanking = nominal s ∧ t.raster.request = nominal s
      ∧ t.raster.active = false
      ∧ t.ring.insertion = [] ∧ t.ring.transmit = [] ∧ t.ring.inFlight = [] ∧ t.ring.tag = 0 ∧ t.ring.streak = 0
      ∧ t.ring.guard = false ∧ t.ring.duplicateSeen = false ∧ t.ring.cut = false ∧ t.ring.rout = none
      ∧ t.member = Member.reset .offRing
      ∧ t.member.stations = [] ∧ t.member.tableRef = none ∧ t.member.timingRef = none
      ∧ t.member.outstanding = none ∧ t.member.returned = false ∧ t.member.miss = 0 ∧ t.member.ret = 0
      ∧ t.member.listen = 0 ∧ t.member.hold = 0 ∧ t.member.attempt = none ∧ t.member.joinDeadline = none
      ∧ t.member.snapshotNeeded = false ∧ t.member.installed = false ∧ t.member.rejoinPending = false
      ∧ t.member.mark = none ∧ t.member.mismatch = 0 ∧ t.member.backoff = 0
      ∧ t.lock.state = .free ∧ t.lock.ref = none ∧ t.lock.offset = none
      ∧ t.origin.list = [] ∧ t.origin.nextSeq = 0 ∧ t.store = []
      ∧ t.snap.queue = [] ∧ t.snap.progress = none ∧ t.snap.collector = none
      ∧ t.pixel.outstanding = [] ∧ t.pixel.slots = [] ∧ t.pixel.rx = .wait ∧ t.pixel.readbacks = [] ∧ t.pixel.cwin = false
      ∧ t.pixel.requested = 0 ∧ t.pixel.begun = 0
      ∧ t.panel.vsync = false ∧ t.panel.hsync = 0 ∧ t.panel.black = true ∧ t.panel.pixels = [] ∧ Blanked t
      ∧ t.report.queue = [] ∧ t.report.sending = none ∧ t.report.lost = false ∧ t.report.counts = ⟨0, 0, 0, 0, 0, 0⟩
      ∧ t.startWork.due = []
      ∧ t.straps = s.straps ∧ t.pending = s.pending ∧ t.freeDraws = s.freeDraws

/-- RESET_RELEASE samples the straps and begins frame 0 (R22, R25, R55, R56, R176), in the vertical blanking (R160). The reset values that no rule gives are log entries 16, 23
and 42. -/
def Obligations.ResetReleaseBegins : Prop :=
  ∀ (sn : BitVec 5) (prf lead : BitVec 2) (s : State), s.inReset = true → Answers (.resetRelease sn prf lead) s fun t =>
    t.inReset = false ∧ t.straps.station = sn.setWidth 8
      ∧ (prf = 0 → t.straps.profile = .p0) ∧ (prf = 1 → t.straps.profile = .p1)
      ∧ (prf = 2 → t.straps.profile = .p2) ∧ (prf = 3 → t.straps.profile = .p3)
      ∧ (lead = 0 → t.straps.lead = .two) ∧ (lead = 1 → t.straps.lead = .three)
      ∧ (lead = 2 → t.straps.lead = .four) ∧ (lead = 3 → t.straps.lead = .six)
      ∧ t.raster.frame = 0 ∧ t.raster.line = 0 ∧ t.raster.blanking = nominal t ∧ t.raster.request = nominal t
      ∧ t.raster.active = false
      ∧ t.panel.vsync = true ∧ t.panel.hsync = 0 ∧ t.panel.pixels = [] ∧ Blanked t ∧ bypass t = true
      ∧ t.member = Member.reset t.member.state
      ∧ (1 ≤ sn.toNat → sn.toNat ≤ 30 → t.member.state = .offRing ∧ t.report = ReportUnit.reset)
      ∧ (sn.toNat = 0 ∨ sn.toNat = 31 → t.member.state = .isolated
          ∧ t.report = reportJoin (.event (.stateChange .isolated (some .invalidStrap))) 0 ReportUnit.reset)
      ∧ t.table = TableStore.reset ∧ t.ring = Ring.reset ∧ t.lock = Lock.reset ∧ t.origin = Origin.reset ∧ t.store = []
      ∧ t.snap = Snap.reset ∧ t.pixel = Pixel.reset

/-- The machine right after power-on meets every invariant. -/
def Obligations.ResetMeetsInvariants : Prop := MachineOk State.reset

/-! ## Frame numbers and the raster -/

/-- The order of frame numbers (R32). -/
def Obligations.FrameOrder : Prop :=
  ∀ a b : Frame, (atOrBefore a b = true ↔ (b.toNat + 65536 - a.toNat) % 65536 < 32768)
    ∧ (later a b = true ↔ ¬ (b.toNat + 65536 - a.toNat) % 65536 < 32768)

/-- LINE_ADVANCE ends an ordinary line, with its HSYNC pulse, DE inactive and RGB (0, 0, 0) until a line is driven; at the last line of the frame it ends nothing (R23, R160). What the line has
not yet been brought by a command of its own is brought in it, each point at its own line (R26, R27, R145, R150; log entries 3, 5). -/
def Obligations.LineAdvanceCountsLine : Prop :=
  ∀ s : State, s.inReset = false → Answers .lineAdvance s fun t =>
    t.raster.frame = s.raster.frame ∧ t.raster.blanking = s.raster.blanking
      ∧ (totalLines s ≤ s.raster.line + 1 → t = s)
      ∧ (s.raster.line + 1 < totalLines s →
          t.raster.line = s.raster.line + 1 ∧ t.panel.hsync = s.panel.hsync + 1 ∧ t.panel.pixels = [] ∧ Blanked t
            ∧ t.panel.vsync = (s.panel.vsync && decide (s.raster.line + 1 < 2))
            ∧ t.startWork.due = []
            ∧ (s.raster.line = 1 → t.table.apply.phase ≠ .taken)
            ∧ (9 ≤ s.raster.line → t.table.apply.phase ≠ .installing)
            ∧ (RasterOk s → s.raster.line = 2 → t.pixel.cwin = true)
            ∧ (s.raster.line + 5 = s.raster.blanking → t.pixel.cwin = false)
            ∧ (PixelOk s → s.raster.line + 2 = s.raster.blanking → 0 < t.pixel.requested)
            ∧ (PointsOk s → UpdatesOk s → RasterOk s → s.raster.line = s.raster.blanking → t.raster.active = true)
            ∧ (PointsOk s → s.raster.blanking ≤ s.raster.line → t.pixel.begun = s.raster.line + 1 - s.raster.blanking))
      ∧ (Plain s → Writes [.line, .hsync, .pixels, .vsync] s t)

/-- FRAME_START at the frame's last line: the number, the line, the blanking length and the request (R24, R28), VSYNC and the HSYNC pulse
of the line that ends, DE inactive and RGB (0, 0, 0) (R160), the lines of the Pixel Port (R152), whatever work is left to commands of its own. A packet in progress,
which R152 says a frame start cannot find, stays (log entry 28). That FRAME_START brought at any other line has no effect is the model's choice (log entry 3). A last line with
work or points still to bring, which FRAME_START brings first (log entry 5), is left out. -/
def Obligations.FrameStartSettlesRaster : Prop :=
  ∀ (left : List FrameWork) (mid : Bool) (s : State), s.inReset = false →
    (s.raster.line + 1 ≠ totalLines s → exec (.frameStart left mid) s = .next s)
    ∧ (Settled s → Answers (.frameStart left mid) s fun t =>
      t.raster.frame = s.raster.frame + 1 ∧ t.raster.line = 0
        ∧ (s.raster.blanking = nominal s → t.raster.blanking = s.raster.request)
        ∧ (s.raster.blanking ≠ nominal s → t.raster.blanking = nominal s)
        ∧ t.raster.request = nominal s ∧ t.panel.vsync = true ∧ t.panel.hsync = s.panel.hsync + 1 ∧ Blanked t
        ∧ t.pixel.outstanding = [] ∧ t.pixel.slots = []
        ∧ t.pixel.rx = (match s.pixel.rx with
            | .line _ | .discard | .drain => .drain
            | .wait => .wait
            | .packet bytes => .packet bytes))

/-- Between one frame start and the next nothing moves the line but LINE_ADVANCE, and nothing changes the blanking length (R23, R28);
from the first active line on nothing changes the table (R15). The two reset commands apart. -/
def Obligations.FrameKeepsItsShape : Prop :=
  ∀ (c : Instr) (s t : State), exec c s = .next t → c ≠ .resetAssert → (∀ sn prf lead, c ≠ .resetRelease sn prf lead) →
    (∀ (left : List FrameWork) (mid : Bool), c ≠ .frameStart left mid) →
      t.raster.blanking = s.raster.blanking
        ∧ (c ≠ .lineAdvance → t.raster.line = s.raster.line)
        ∧ (s.raster.active = true → s.table.apply.phase = .idle → t.table.entries = s.table.entries)

/-! ## Frame-start work -/

/-- FRAME_START takes the install slot for the apply operation of its frame (R8, R9) and judges the outstanding beacon (R67), shown where
every piece that a row of its own names is left to that row (log entry 4); the apply set and the re-apply list come with the store's
work, and net of retention expiry only after that (log entry 30). -/
def Obligations.FrameStartTakesItems : Prop :=
  ∀ (mid : Bool) (s : State), s.inReset = false → Settled s → s.member.state ≠ .offRing →
    Answers (.frameStart workOrder mid) s fun t =>
      t.table.apply.frame = s.raster.frame + 1 ∧ t.startWork.frame = s.raster.frame + 1
        ∧ t.table.apply.staged = s.table.slot ∧ t.table.slot = none ∧ t.table.apply.due = [] ∧ t.table.apply.reapply = []
        ∧ (s.table.slot ≠ none → t.table.apply.phase = .taken) ∧ (s.table.slot = none → t.table.apply.phase = .idle)
        ∧ t.table.apply.since = 1 ∧ t.table.entries = s.table.entries ∧ t.store = s.store ∧ t.report = s.report
        ∧ (∀ w, w ∈ t.startWork.due ↔ w ≠ .listenGuard ∨ s.ring.guard = true)
        ∧ (onRing s.member.state = true → s.member.outstanding.isSome = true → s.member.returned = true →
            t.member.ret = min (s.member.ret + 1) 2 ∧ t.member.miss = 0)
        ∧ (onRing s.member.state = true → s.member.outstanding.isSome = true → s.member.returned = false →
            t.member.miss = min (s.member.miss + 1) 3 ∧ t.member.ret = 0)
        ∧ (onRing s.member.state = false ∨ s.member.outstanding = none →
            t.member.miss = s.member.miss ∧ t.member.ret = s.member.ret)

/-- At the first frame start OFF_RING enters LISTENING with STATE_CHANGE, formed in the frame that begins, and releases BYPASS (R56, R57); a
parcel that is then partway in is not received (R36;
the operand `mid`, log entry 10). -/
def Obligations.FrameStartEntersListening : Prop :=
  ∀ (left : List FrameWork) (mid : Bool) (s : State), s.inReset = false → Settled s → s.member.state = .offRing →
    s.ring.guard = false → Answers (.frameStart left mid) s fun t =>
      t.member.state = .listening ∧ t.member.listen = 0 ∧ t.ring.guard = true ∧ t.ring.cut = mid ∧ bypass t = false
        ∧ t.ring.duplicateSeen = false
        ∧ (ServiceOk s → LockOk s →
            t.report = reportJoin (.event (.stateChange .listening none)) (s.raster.frame + 1) s.report
              ∧ Writes (Field.ofReport ++ [.frame, .line, .blanking, .request, .vsync, .hsync, .pixels, .startWork, .slot, .applyPhase,
                  .applyFrame, .applySince, .applyStaged, .applyReapply, .applyDue, .requests, .slots, .requested, .begun, .rx,
                  .stationState, .listen, .backoff, .guard, .duplicateSeen, .cut]) s t)

/-- LISTEN_GUARD_CLEAR (R40) and IN_FLIGHT_AGEING (R49). -/
def Obligations.RingFrameStartWork : Prop :=
  ∀ s : State, s.inReset = false →
    (FrameWork.listenGuard ∈ s.startWork.due → Answers .listenGuardClear s fun t =>
      t.ring.guard = false ∧ Writes [.guard, .startWork] s t)
    ∧ (FrameWork.inFlightAgeing ∈ s.startWork.due → Answers .inFlightAgeing s fun t =>
      t.ring.inFlight = s.ring.inFlight.filter (fun e => !(decide (4 ≤ (s.startWork.frame - e.frame).toNat)
          && decide ((s.startWork.frame - e.frame).toNat ≤ 32767)))
        ∧ Writes [.inFlight, .startWork] s t)

/-- HOLD_EXPIRY: the HELD records of age 8 or more go, with one event each in rising order of origin and seq (R122), and the apply set is
handed over in the same piece (R8, R123; log entry 30). RETENTION_EXPIRY: the APPLIED records of age 8 or more go, silently, and the
re-apply list keeps the records still retained (R8, R124; log entry 30); with hold expiry still due that comes first (R122 to R124). -/
def Obligations.StoreRecordsExpire : Prop :=
  ∀ s : State, s.inReset = false → UpdatesOk s →
    (FrameWork.holdExpiry ∈ s.startWork.due → Answers .holdExpiry s fun t =>
      ∃ gone : List (Proposal × Frame),
        (∀ p a, (p, a) ∈ gone ↔ p ∈ s.store ∧ p.state = .held a ∧ 8 ≤ (s.startWork.frame - a).toNat
          ∧ (s.startWork.frame - a).toNat ≤ 32767)
        ∧ gone.Pairwise (fun x y => x.1.origin.toNat < y.1.origin.toNat
            ∨ (x.1.origin = y.1.origin ∧ x.1.seq.toNat < y.1.seq.toNat))
        ∧ t.report = handOver (gone.map (fun x => .event (.holdExpired x.1.origin x.1.seq x.2 s.startWork.frame)))
            (now s) s.report
        ∧ t.store = (s.store.filter (fun p => decide (p ∉ gone.map (·.1)))).map (fun p => match p.state with
            | .scheduled e => if atOrBefore e s.table.apply.frame then { p with state := .applied e } else p
            | .held _ | .applied _ => p)
        ∧ (∀ d, d ∈ t.table.apply.due ↔ ∃ p ∈ s.store, ∃ e, p.state = .scheduled e
            ∧ atOrBefore e s.table.apply.frame = true ∧ d = dueOf e p)
        ∧ (∀ d, d ∈ t.table.apply.reapply ↔ ∃ p ∈ s.store, ∃ e, p.state = .applied e ∧ d = dueOf e p)
        ∧ (s.raster.active = false → t.table.apply.phase
            = (if s.table.apply.staged = none ∧ t.table.apply.due = [] then .idle else .taken))
        ∧ Writes (Field.ofReport ++ [.store, .applyPhase, .applyDue, .applyReapply, .startWork]) s t)
    ∧ (FrameWork.retentionExpiry ∈ s.startWork.due → FrameWork.holdExpiry ∉ s.startWork.due →
      Answers .retentionExpiry s fun t =>
        (∀ p, p ∈ t.store ↔ p ∈ s.store ∧ ¬ ∃ e, p.state = .applied e ∧ 8 ≤ (s.startWork.frame - e).toNat
          ∧ (s.startWork.frame - e).toNat ≤ 32767)
          ∧ (∀ d, d ∈ t.table.apply.reapply ↔ d ∈ s.table.apply.reapply
              ∧ ∃ p ∈ t.store, ∃ e, p.state = .applied e ∧ d = dueOf e p)
          ∧ Writes [.store, .applyReapply, .startWork] s t)
    ∧ (FrameWork.holdExpiry ∈ s.startWork.due →
      ∃ u, exec .holdExpiry s = .next u ∧ exec .retentionExpiry s = exec .retentionExpiry u)

/-- STATION_ENTRY_AGE_OUT: every peer's entry ages; one that becomes absent leaves the responder queue, whose other requesters stay in
their order; the references are those of the aged table, and what their change brings the Lock Unit, the mismatch streak, the collector
and a station catching up follows (R64, R69, R70, R81, R86, R135, R139, R140; log entry 36). -/
def Obligations.StationTableAges : Prop :=
  ∀ s : State, Receives s → MemberOk s → FrameWork.stationAgeing ∈ s.startWork.due → Answers .stationEntryAgeOut s fun t =>
    (∀ n e, (n, e) ∈ s.member.stations →
      (e.heard = true → (n, { e with heard := false }) ∈ t.member.stations)
      ∧ (e.heard = false → e.missed + 1 < 4 → (n, { e with missed := e.missed + 1 }) ∈ t.member.stations)
      ∧ (e.heard = false → 4 ≤ e.missed + 1 → (∀ f, (n, f) ∉ t.member.stations) ∧ n ∉ t.snap.queue))
    ∧ (∀ n f, (n, f) ∈ t.member.stations → ∃ e, (n, e) ∈ s.member.stations)
    ∧ t.snap.queue = s.snap.queue.filter (fun n =>
        !s.member.stations.any (fun x => x.1 == n && !x.2.heard && decide (4 ≤ x.2.missed + 1)))
    ∧ (∀ n, s.snap.queue.head? = some n → t.snap.progress
        = (if n ∈ t.snap.queue then s.snap.progress else if t.snap.queue = [] then none else some 0))
    ∧ t.member.tableRef = computeTableRef t ∧ t.member.timingRef = computeTimingRef t
    ∧ (LockOk s → ReferencesFollow s t)
    ∧ Writes (Field.ofChange ++ [.stations, .responder, .progress, .startWork]) s t

/-- LISTEN_COUNT_EXPIRY: the count rises, and at 4 the station enters JOINING (R56, R58, R59). The own entry can then become the timing
reference, which the Lock Unit takes as any change of it (R70, R81); the table reference stays. -/
def Obligations.ListenCountRises : Prop :=
  ∀ s : State, TransitionNext s → s.member.state = .listening → Answers .listenCountExpiry s fun t =>
    t.member.listen = s.member.listen + 1
      ∧ (s.member.listen + 1 < 4 → Writes [.listen, .startWork] s t)
      ∧ (4 ≤ s.member.listen + 1 →
          t.member.state = .joining ∧ t.member.miss = 0 ∧ t.member.ret = 0 ∧ t.member.outstanding = none
            ∧ t.member.attempt = some 1 ∧ t.member.joinDeadline = some (now s + 2)
            ∧ (s.ring.transmit.length < Config.transmitPlaces →
                ownParcel s 0 (.join ⟨s.straps.profile, s.straps.lead, 1, false⟩) ∈ t.ring.transmit)
            ∧ t.member.tableRef = computeTableRef t ∧ t.member.timingRef = computeTimingRef t
            ∧ Raised s t (.stateChange .joining none)
            ∧ (LockOk s → LockFollows s t ∧ Queued s t 0 (.join ⟨s.straps.profile, s.straps.lead, 1, false⟩)
                ∧ Writes (Field.ofLock ++ Field.ofReport ++ [.timingRef, .transmit, .stationState, .listen, .miss, .ret, .outstanding,
                    .returned, .attempt, .joinDeadline, .startWork]) s t)
            ∧ Writes (Field.ofRefs ++ Field.ofReport ++ [.stationState, .listen, .miss, .ret, .outstanding, .returned, .attempt,
                .joinDeadline, .startWork]) s t)

/-- JOIN_DEADLINE: not reached, nothing; reached at attempt 1 or 2, a new JOIN; at attempt 3, ISOLATED with NO_RETURN (R54, R62, R78). -/
def Obligations.JoinDeadlineActs : Prop :=
  ∀ (s : State) (D : Frame) (n : Nat), TransitionNext s → s.member.state = .joining → s.member.joinDeadline = some D →
    s.member.attempt = some n → Answers .joinDeadline s fun t =>
      (¬ (s.startWork.frame - D).toNat < 32768 → Writes [.startWork] s t)
      ∧ ((s.startWork.frame - D).toNat < 32768 → n < 3 →
          t.member.attempt = some (n + 1) ∧ t.member.joinDeadline = some (now s + 2)
            ∧ Queued s t 0 (.join ⟨s.straps.profile, s.straps.lead, BitVec.ofNat 8 (n + 1), false⟩)
            ∧ Writes [.attempt, .joinDeadline, .transmit, .startWork] s t)
      ∧ ((s.startWork.frame - D).toNat < 32768 → 3 ≤ n →
          Isolated s t ∧ Raised s t (.stateChange .isolated (some .noReturn))
            ∧ Writes (Field.ofIsolation ++ Field.ofReport ++ [.startWork]) s t)

/-- MISS_STREAK_LIMIT: three misses bring RING_HOLD from IN_SERVICE and RESYNC (R71, R135), a rejoin from CATCHING_UP (R64). The entry to
RING_HOLD can change the references, with what that brings the Lock Unit, the mismatch streak and the collector, a third failure there
included (R70, R72, R81, R139, R140). In a rejoin's reports the order is the free value of log entry 12, and the collector
brings none (log entry 40). -/
def Obligations.ThirdMissActs : Prop :=
  ∀ s : State, TransitionNext s → 3 ≤ s.member.miss →
    (s.member.state = .inService ∨ s.member.state = .resync → Answers .missStreakLimit s fun t =>
      t.member.state = .ringHold ∧ t.member.hold = 0 ∧ t.snap.queue = [] ∧ t.snap.progress = none
        ∧ t.member.tableRef = computeTableRef t ∧ t.member.timingRef = computeTimingRef t
        ∧ LockFollows s t ∧ MismatchFollows t.member.tableRef s t ∧ CollectorMoves t.member.tableRef s t
        ∧ (∃ failed : Bool, (failed = true ↔ ThirdFailed t.member.tableRef s)
            ∧ t.report = handOver (.event .ringHold :: if failed then [.event .resyncFailed] else []) (now s) s.report
            ∧ t.member.backoff = if failed then 16 else s.member.backoff)
        ∧ (s.snap.collector = none → Raised s t .ringHold ∧ t.snap.collector = none)
        ∧ Writes (Field.ofRefs ++ Field.ofReport ++ [.stationState, .hold, .backoff, .responder, .progress, .startWork]) s t)
    ∧ (s.member.state = .catchingUp → Answers .missStreakLimit s fun t => Rejoined s t)

/-- RETURN_STREAK_LIMIT ends a hold, into RESYNC or IN_SERVICE (R72), with what a changed timing reference brings the Lock Unit (R81); a
collector that collects goes on as it was; HOLD_COUNT_LIMIT counts it, and at 64 the station rejoins (R73). Of
the rejoin's reports it is the model's choice that STATE_CHANGE comes before or after all the others (log entry 12) and that a collection
at attempt 3 ends without RESYNC_FAILED (log entry 40). -/
def Obligations.HoldEndsOrCounts : Prop :=
  ∀ s : State, TransitionNext s → s.member.state = .ringHold →
    (LockOk s → 2 ≤ s.member.ret → Answers .returnStreakLimit s fun t =>
      t.member.state = (if resyncUnfinished s then .resync else .inService) ∧ t.member.mismatch = 0
        ∧ t.member.tableRef = computeTableRef t ∧ t.member.timingRef = computeTimingRef t
        ∧ LockFollows s t
        ∧ Raised s t .ringClosed
        ∧ Writes (Field.ofLock ++ Field.ofReport ++ [.tableRef, .timingRef, .mismatch, .stationState, .startWork]) s t)
    ∧ (s.member.ret < 2 → Answers .holdCountLimit s fun t =>
      (s.member.hold + 1 < 64 → t.member.hold = s.member.hold + 1 ∧ Writes [.hold, .startWork] s t)
        ∧ (64 ≤ s.member.hold + 1 → Rejoined s t))

/-- REJOIN, for each of its causes: everything a rejoin takes away and everything it keeps (R53, R74, R90, R107, R126, R143). The reports
of the origin records and STATE_CHANGE enter in one order or the other (log entry 12), and the collector brings none (log entry 40). -/
def Obligations.RejoinReturnsToListening : Prop :=
  ∀ s : State, TransitionNext s →
    (s.member.state = .catchingUp ∧ (3 ≤ s.member.miss ∨ s.member.rejoinPending = true))
      ∨ (s.member.state = .ringHold ∧ s.member.ret < 2 ∧ 64 ≤ s.member.hold + 1) →
    Answers .rejoin s fun t => Rejoined s t

/-- BACKOFF_EXPIRY: the backoff falls by one, and in an on-ring state the own BEACON is queued (R65, R77, R79; log entry 25). -/
def Obligations.BackoffFallsAndBeaconQueued : Prop :=
  ∀ s : State, s.inReset = false → LockOk s → FrameWork.backoff ∈ s.startWork.due → FrameWork.transition ∉ s.startWork.due →
    FrameWork.stationAgeing ∉ s.startWork.due → Answers .backoffExpiry s fun t =>
      (receiving s.member.state = true → t.member.backoff = s.member.backoff - 1)
      ∧ (onRing s.member.state = true → t.member.outstanding = some (now s) ∧ t.member.returned = false
          ∧ (s.ring.transmit.any isBeacon = true ∨ s.ring.transmit.length < Config.transmitPlaces →
              t.ring.transmit = ownParcel s 0 (.beacon ⟨now s, s.member.state, s.lock.state, s.table.history.getLast?,
                BitVec.ofNat 8 (12 - openCount s.store)⟩) :: s.ring.transmit.filter (fun p => !isBeacon p)))
      ∧ (onRing s.member.state = false → Writes [.backoff, .startWork] s t)
      ∧ Writes [.backoff, .outstanding, .returned, .transmit, .startWork] s t

/-- RESYNC_DUE_MARK_TEST: a frame start later than the mark clears it, and begins a resynchronisation from a reference that is another
station (R76, R77, R128, R135). -/
def Obligations.MarkBringsResync : Prop :=
  ∀ (s : State) (M : Frame), TransitionNext s → LockOk s → s.member.state = .inService → s.member.miss < 3 →
    s.member.mark = some M → Answers .resyncDueMarkTest s fun t =>
      (later s.startWork.frame M = false → Writes [.startWork] s t)
      ∧ (later s.startWork.frame M = true → s.member.tableRef = none ∨ s.member.tableRef = some (own s) →
          t.member.mark = none ∧ Writes [.mark, .startWork] s t)
      ∧ (∀ n, later s.startWork.frame M = true → s.member.tableRef = some n → n ≠ own s →
          t.member.mark = none ∧ t.member.state = .resync ∧ t.member.mismatch = 0
            ∧ t.snap.queue = [] ∧ t.snap.progress = none
            ∧ t.snap.collector = some { target := some n, attempt := 1, deadline := now s + 6, parts := [] }
            ∧ Queued s t n .snapshotReq ∧ Raised s t (.resyncStart .mark)
            ∧ Writes (Field.ofReport ++ [.mark, .stationState, .mismatch, .responder, .progress, .collector, .transmit, .startWork]) s t)

/-- PROPOSE_DEADLINE: the PROPOSE again and the own record refreshed, or the update abandoned (R100). Here and in the next two the record is
the oldest whose deadline is reached, whatever stands before it (R105; log entry 7). -/
def Obligations.ProposeDeadlineActs : Prop :=
  ∀ (s : State) (q : Seq) (r : OriginRecord), OriginNext s q r → r.phase = .proposing → Answers .proposeDeadline s fun t =>
    (r.attempt < 3 → hasHeld (own s) q s.store = true →
      findOrigin q t = some { r with attempt := r.attempt + 1, deadline := now s + 2 }
        ∧ t.store = s.store.map (fun p => if isRecord (own s) q p && isHeld p then { p with state := .held (now s) } else p)
        ∧ Queued s t 0 (.propose ⟨q, r.edits, 0, 0⟩)
        ∧ (∀ x, x ≠ q → findOrigin x t = findOrigin x s)
        ∧ Writes [.originList, .store, .transmit, .startWork] s t)
    ∧ (¬ (r.attempt < 3 ∧ hasHeld (own s) q s.store = true) →
      findOrigin q t = none ∧ t.store = s.store.filter (fun p => !(isRecord (own s) q p && isHeld p))
        ∧ Queued s t 0 (.withdraw q) ∧ Reported s t (.updateRejected .ring (some q))
        ∧ (∀ x, x ≠ q → findOrigin x t = findOrigin x s)
        ∧ Writes (Field.ofReport ++ [.originList, .store, .transmit, .startWork]) s t)

/-- WITHDRAWN_DEADLINE: a new round under next-seq, which replaces the old seq and advances to the first free value (R92, R101), whose own
record enters the store as R112 says (log entry 14 for sequences in a circle), a rejection, or the wait of R102. -/
def Obligations.WithdrawnDeadlineActs : Prop :=
  ∀ (s : State) (q : Seq) (r : OriginRecord) (w : Bool), OriginNext s q r → r.phase = .withdrawn w → UpdatesOk s →
    Answers .withdrawnDeadline s fun t =>
      (r.round < 3 → s.member.state = .inService → openCount s.store < 12 →
        findOrigin s.origin.nextSeq t = some { seq := s.origin.nextSeq, edits := r.edits, phase := .proposing, attempt := 1,
                                               round := r.round + 1, deadline := now s + 2, partialLoad := r.partialLoad }
          ∧ findRecord (own s) s.origin.nextSeq t.store
            = some { origin := own s, seq := s.origin.nextSeq, edits := r.edits, state := .held (now s) }
          ∧ Entered (now s) s.store t.store { origin := own s, seq := s.origin.nextSeq, edits := r.edits, state := .held (now s) }
          ∧ Queued s t 0 (.propose ⟨s.origin.nextSeq, r.edits, 0, 0⟩)
          ∧ Reported s t (.updateQueued s.origin.nextSeq r.edits.length r.partialLoad (r.round + 1) (some q))
          ∧ findOrigin q t = none
          ∧ NextFree (takenSeqs s) s.origin.nextSeq t.origin.nextSeq
          ∧ (∀ x, x ≠ q → x ≠ s.origin.nextSeq → findOrigin x t = findOrigin x s)
          ∧ Writes (.startWork :: Field.ofOrigin) s t)
      ∧ (3 ≤ r.round ∨ (s.member.state = .inService ∧ 12 ≤ openCount s.store) →
        findOrigin q t = none ∧ Reported s t (.updateRejected .refused (some q))
          ∧ (∀ x, x ≠ q → findOrigin x t = findOrigin x s)
          ∧ Writes (Field.ofReport ++ [.originList, .startWork]) s t)
      ∧ (r.round < 3 → s.member.state ≠ .inService →
        findOrigin q t = some { r with phase := .withdrawn true } ∧ (∀ x, x ≠ q → findOrigin x t = findOrigin x s)
          ∧ Writes [.originList, .startWork] s t)

/-- COMMIT_DEADLINE: the COMMIT again, or UPDATE_UNCONFIRMED (R104). -/
def Obligations.CommitDeadlineActs : Prop :=
  ∀ (s : State) (q : Seq) (r : OriginRecord) (F : Frame) (n : Byte), OriginNext s q r → r.phase = .committing F n →
    Answers .commitDeadline s fun t =>
      (∀ x, x ≠ q → findOrigin x t = findOrigin x s)
      ∧ (r.attempt < 3 → findOrigin q t = some { r with attempt := r.attempt + 1, deadline := now s + 2 }
        ∧ Queued s t 0 (.commit q F) ∧ Writes [.originList, .transmit, .startWork] s t)
      ∧ (3 ≤ r.attempt → findOrigin q t = none ∧ Reported s t (.updateUnconfirmed q F)
        ∧ Writes (Field.ofReport ++ [.originList, .startWork]) s t)

/-- SNAPSHOT_DEADLINE: a new attempt at the reference as it stands, or the third failure (R138, R140, R64, R72, R77), which brings a station in
RESYNC into service and so can change the references (R70, R75, R81). -/
def Obligations.SnapshotDeadlineActs : Prop :=
  ∀ (s : State) (c : Collector), s.inReset = false → FrameWork.collectorDeadline ∈ s.startWork.due →
    s.snap.collector = some c → Answers .snapshotDeadline s fun t =>
      (¬ (s.startWork.frame - c.deadline).toNat < 32768 → Writes [.startWork] s t)
      ∧ ((s.startWork.frame - c.deadline).toNat < 32768 → c.attempt < 3 →
          t.snap.collector = some { target := s.member.tableRef, attempt := c.attempt + 1, deadline := now s + 6, parts := [] }
            ∧ (∀ n, s.member.tableRef = some n → Queued s t n .snapshotReq)
            ∧ (s.member.tableRef = none → t.ring.transmit = s.ring.transmit)
            ∧ Writes [.collector, .transmit, .startWork] s t)
      ∧ ((s.startWork.frame - c.deadline).toNat < 32768 → 3 ≤ c.attempt →
          t.snap.collector = none
            ∧ (s.member.state = .catchingUp → t.member.rejoinPending = true ∧ Writes [.collector, .rejoinPending, .startWork] s t)
            ∧ (s.member.state = .resync → t.member.state = .inService ∧ t.member.backoff = 16 ∧ t.member.mismatch = 0
                ∧ t.member.tableRef = computeTableRef t ∧ t.member.timingRef = computeTimingRef t ∧ LockFollows s t
                ∧ Raised s t .resyncFailed
                ∧ Writes (Field.ofLock ++ Field.ofReport ++ [.tableRef, .timingRef, .mismatch, .collector, .stationState, .backoff,
                    .startWork]) s t)
            ∧ (s.member.state ≠ .catchingUp → s.member.state ≠ .resync → s.member.state ≠ .ringHold →
                Writes [.collector, .startWork] s t)
            ∧ (s.member.state = .ringHold → t.member.backoff = 16 ∧ Raised s t .resyncFailed
                ∧ Writes (Field.ofReport ++ [.collector, .backoff, .startWork]) s t))

/-! ## The apply operation -/

/-- Stamp order, and the order it gives records of one frame and origin (R6); an edit brought to its entry is written or dropped by it,
after any ageing-out (R5, R7). -/
def Obligations.EditJudged : Prop :=
  (∀ (fa fb : Frame) (oa ob : StationNo) (qa qb : Seq),
    (stampLater (.mark fa oa qa) (.mark fb ob qb) = true ↔
      later fa fb = true ∨ (fa = fb ∧ ob.toNat < oa.toNat)
        ∨ (fa = fb ∧ oa = ob ∧ 1 ≤ (qa - qb).toNat ∧ (qa - qb).toNat ≤ 127))
    ∧ stampLater (.mark fa oa qa) .null = true ∧ stampLater .null (.mark fa oa qa) = false)
  ∧ (∀ a b : DueRecord, a.effective = b.effective → a.origin = b.origin → (TakenBefore a b ↔
      stampLater (.mark b.effective b.origin b.seq) (.mark a.effective a.origin a.seq) = true
        ∨ (stampLater (.mark b.effective b.origin b.seq) (.mark a.effective a.origin a.seq) = false
          ∧ stampLater (.mark a.effective a.origin a.seq) (.mark b.effective b.origin b.seq) = false
          ∧ a.seq.toNat < b.seq.toNat)))
  ∧ ∀ (F : Frame) (st : Stamp) (e : Edit) (t : Table), Memory.wf t = true →
    (tableSize ≤ e.index.toNat → judgeEdit F st t e = t)
    ∧ (∀ k, k ≠ e.index.toNat → Memory.read (judgeEdit F st t e) k = Memory.read t k)
    ∧ (e.index.toNat < tableSize → (Memory.read t e.index.toNat).stamp = .null →
        Memory.read (judgeEdit F st t e) e.index.toNat = { value := e.colour, stamp := st })
    ∧ (∀ f o q, e.index.toNat < tableSize → (Memory.read t e.index.toNat).stamp = .mark f o q →
        Memory.read (judgeEdit F st t e) e.index.toNat =
          (if 63 < (F - f).toNat ∨ stampLater st (.mark f o q) = true then { value := e.colour, stamp := st }
           else Memory.read t e.index.toNat))

/-- By the rate of R14 the apply operation takes at most 33 lines from line 1, and line 33 lies before line V - 2 of every frame. The bound
is that of the rate function `applyLines`; that LINE_ADVANCE ends the operation by that rate, and that its end may come earlier by
command, is the model's choice (log entries 8, 29). In every state that meets the invariants an operation in progress stands in lines
up to 33. -/
def Obligations.ApplyFitsItsWindow : Prop :=
  ∀ s : State, UpdatesOk s → RasterOk s →
    applyLines s.table.apply ≤ 33 ∧ 33 < s.raster.blanking - 2
      ∧ (PointsOk s → s.table.apply.phase ≠ .idle → s.raster.line ≤ 33)

/-- APPLY_WINDOW_OPEN at line 1 (R8, R26): the staged snapshot is copied in, every entry (R10), or the apply set is applied in the order of
R12, with one LATE_COMMIT for each late record in that order (R13; log entry 14). That the edits are judged in
this one step is log entry 8. That the command has no effect at another line is the model's choice (log entry 3); with nothing taken there
is nothing to apply. -/
def Obligations.ApplyWindowOpens : Prop :=
  ∀ s : State, s.inReset = false →
    (s.raster.line ≠ 1 ∨ s.table.apply.phase ≠ .taken → exec .applyWindowOpen s = .next s)
    ∧ (s.raster.line = 1 → s.table.apply.phase = .taken → TableOk s → UpdatesOk s → Answers .applyWindowOpen s fun t =>
      (∀ ps, s.table.apply.staged = some ps →
          t.table.apply.phase = .installing
            ∧ (∀ e ∈ ps.flatMap (·.entries), Memory.read t.table.entries e.index.toNat = { value := e.value, stamp := e.stamp })
            ∧ (∀ i < 260, ∃ e ∈ ps.flatMap (·.entries), e.index.toNat = i)
            ∧ Writes [.entries, .applyPhase] s t)
      ∧ (s.table.apply.staged = none →
          t.table.apply.phase = .judging ∧ t.table.apply.since = 1
            ∧ (∃ rs, InOrder rs s.table.apply.due ∧ t.table.entries = applied s.table.apply.frame rs s.table.entries
                ∧ LateReported [] s.table.apply.frame rs s t)
            ∧ Writes (Field.ofReport ++ [.entries, .applyPhase, .applySince, .late]) s t))

/-- INSTALL_END: the seeded flag; what the end of an install brings in each station state, with the mark test of R76 (R10, R64, R72, R77,
R142); in CATCHING_UP with the snapshot-needed flag clear the signal changes no membership state (R64), and that the mark test is made there
all the same is read from R76 (log entry 21); the entry to IN_SERVICE sets the mismatch streak to 0 and can change the references, with what
that brings the Lock Unit and the collector (R70, R75, R81, R139); then the edits of the re-apply list that R11 calls for and the apply set, each list in the order of R12, and LATE_COMMIT for the
late records of the apply set (R11 to R13). The signal's report before those of the late records is the model's choice (log entry 39); the one
step and a circular order are log entries 8 and 14. -/
def Obligations.InstallEnds : Prop :=
  ∀ (s : State) (ps : List Part), s.inReset = false → s.table.apply.phase = .installing → s.table.apply.staged = some ps →
    TableOk s → UpdatesOk s → Answers .installEnd s fun t =>
      t.table.seeded = true ∧ t.table.apply.phase = .judging ∧ t.table.apply.since = s.raster.line + 1
        ∧ (∃ ra rs : List DueRecord, ∃ due : DueRecord → Edit → Bool,
            InOrder ra (s.table.apply.reapply.filter (fun r => atOrBefore r.effective s.table.apply.frame))
            ∧ InOrder rs s.table.apply.due
            ∧ (∀ r e, due r e = true ↔ ∃ p ∈ ps, p.number = e.index.toNat / 32 ∧ e.index.toNat < 260
                ∧ later r.effective p.build = true)
            ∧ t.table.entries = applied s.table.apply.frame rs
                (applied s.table.apply.frame (ra.map (fun r => { r with edits := r.edits.filter (due r) })) s.table.entries)
            ∧ LateReported
                (if s.member.state = .resync ∨ s.member.state = .ringHold then [.event .resyncDone]
                 else if s.member.state = .catchingUp ∧ s.member.snapshotNeeded = true ∧ lockServes s.lock.state = true then [.event (.stateChange .inService none)]
                 else []) s.table.apply.frame rs s t)
        ∧ (s.member.state = .resync → t.member.state = .inService)
        ∧ (s.member.state = .catchingUp → s.member.snapshotNeeded = true → lockServes s.lock.state = true → t.member.state = .inService)
        ∧ (s.member.state = .catchingUp → s.member.snapshotNeeded = true → lockServes s.lock.state = false →
            t.member.state = .catchingUp ∧ t.member.installed = true)
        ∧ (s.member.state = .catchingUp → s.member.snapshotNeeded = false →
            t.member.state = .catchingUp ∧ t.member.installed = s.member.installed)
        ∧ (s.member.state ≠ .resync → s.member.state ≠ .catchingUp → t.member.state = s.member.state)
        ∧ (t.member.state ≠ s.member.state →
            t.member.mismatch = 0 ∧ t.member.tableRef = computeTableRef t ∧ t.member.timingRef = computeTimingRef t
              ∧ LockFollows s t ∧ CollectorMoves t.member.tableRef s t)
        ∧ (t.member.state = s.member.state →
            Writes (Field.ofReport ++ [.applyPhase, .applySince, .entries, .late, .mark, .installed, .seeded]) s t)
        ∧ (takesMissedCommit s.member.state = true → ∀ M, s.member.mark = some M →
            t.member.mark = if ∀ p ∈ ps, later p.build M = true then none else some M)
        ∧ (takesMissedCommit s.member.state = false ∨ s.member.mark = none → t.member.mark = s.member.mark)
        ∧ Writes (Field.ofRefs ++ Field.ofReport ++ [.stationState, .seeded, .applyPhase, .applySince, .entries, .late, .mark,
            .installed]) s t

/-- APPLY_END: the operation is over and the waiting READBACKs are served from the table it leaves (R21, R158). -/
def Obligations.ApplyEnds : Prop :=
  ∀ s : State, s.inReset = false → s.table.apply.phase = .judging → Answers .applyEnd s fun t =>
    t.table.apply.phase = .idle ∧ t.pixel.readbacks = []
      ∧ t.report = handOver ((s.pixel.readbacks.flatMap readbackIndices).map (fun i =>
          .entry i (Memory.read s.table.entries i).value (Memory.read s.table.entries i).stamp)) (now s) s.report
      ∧ Writes (Field.ofReport ++ [.applyPhase, .readbacks]) s t

/-! ## The points of a frame -/

/-- CONTROL_WINDOW_OPEN at line 2 and CONTROL_WINDOW_CLOSE at line V - 5 (R26, R27, R153); LINE_REQUEST_POINT at line V - 2 requests lines
0 and 1 (R145). At every other line they have no effect (log entry 3). That LINE and DRAIN outlast the window's end is log entry 28. -/
def Obligations.PixelPortPoints : Prop :=
  ∀ s : State, s.inReset = false →
    (s.raster.line = 2 → s.pixel.cwin = false → Answers .controlWindowOpen s fun t =>
      t.pixel.cwin = true ∧ t.pixel.rx = .wait ∧ Writes [.cwin, .rx] s t)
    ∧ (s.raster.line ≠ 2 → exec .controlWindowOpen s = .next s)
    ∧ (s.raster.line + 5 = s.raster.blanking → s.pixel.cwin = true → Answers .controlWindowClose s fun t =>
      t.pixel.cwin = false
        ∧ (∀ bytes, s.pixel.rx = .packet bytes →
            t.pixel.rx = .drain ∧ Reported s t (.packetError .truncated bytes.head?)
              ∧ Writes (Field.ofReport ++ [.cwin, .rx]) s t)
        ∧ (s.pixel.rx = .discard → t.pixel.rx = .drain ∧ Writes [.cwin, .rx] s t)
        ∧ ((∀ bytes, s.pixel.rx ≠ .packet bytes) → s.pixel.rx ≠ .discard → Writes [.cwin] s t))
    ∧ (s.raster.line + 5 ≠ s.raster.blanking → exec .controlWindowClose s = .next s)
    ∧ (s.raster.line + 2 = s.raster.blanking → s.pixel.requested = 0 → s.pixel.slots = [] → Answers .lineRequestPoint s fun t =>
      t.pixel.slots = [{ line := 0, state := if 0 < s.pixel.begun then .abandoned else .awaiting, bytes := [], count := 0 },
                       { line := 1, state := if 1 < s.pixel.begun then .abandoned else .awaiting, bytes := [], count := 0 }]
        ∧ t.pixel.outstanding = s.pixel.outstanding ++ [0, 1] ∧ t.pixel.requested = 2
        ∧ Writes [.slots, .requests, .requested] s t)
    ∧ (s.raster.line + 2 ≠ s.raster.blanking → exec .lineRequestPoint s = .next s)

/-- FIRST_ACTIVE_LINE at line V: the digest is begun (R16), the black frame decided (R161), part building allowed (R26). At another line it
has no effect (log entry 3). -/
def Obligations.ActiveLinesBegin : Prop :=
  ∀ s : State, s.inReset = false →
    (s.raster.line ≠ s.raster.blanking → exec .firstActiveLine s = .next s)
    ∧ (s.raster.line = s.raster.blanking → s.table.apply.phase = .idle → s.raster.active = false →
      Answers .firstActiveLine s fun t =>
        t.raster.active = true ∧ t.table.digest = some (now s, crc32 (valueBytes s.table.entries))
          ∧ (t.panel.black = true ↔ s.table.seeded = false ∨ (Memory.read s.table.entries 258).value.red ≠ 0)
          ∧ Writes [.active, .digest, .black] s t)

/-- ACTIVE_LINE: DE is active at the W positions of the line and RGB the pixel's colour, (0, 0, 0) behind them (R160; log entry 23); a line
complete or short is shown pixel by pixel and its slot requests line j + 2; any other is an underrun; a black frame is black throughout
(R150, R161 to R163). That ACTIVE_LINE has no effect at another line than V + j is the model's choice
(log entry 3). The one at line V that itself brings FIRST_ACTIVE_LINE (log entry 34) is left out. -/
def Obligations.ActiveLineShown : Prop :=
  (∀ (s : State) (j : Nat), s.inReset = false → s.raster.line ≠ s.raster.blanking + j → exec (.activeLine j) s = .next s)
  ∧ ∀ (s : State) (j : Nat), s.inReset = false → s.raster.line = s.raster.blanking + j → s.raster.active = true →
    s.pixel.begun = j → j < activeLines s → PixelOk s → Answers (.activeLine j) s fun t =>
      t.pixel.begun = j + 1
        ∧ (∀ x, panelDE t x = decide (x < lineWidth s))
        ∧ (∀ x, x < lineWidth s → t.panel.pixels[x]? = some (panelRGB t x))
        ∧ (∀ x, lineWidth s ≤ x → panelRGB t x = ⟨0, 0, 0⟩)
        ∧ (s.panel.black = true → t.panel.pixels = List.replicate (lineWidth s) ⟨0, 0, 0⟩)
        ∧ (∀ x, findSlot j s = some x → x.state = .complete ∨ x.state = .short →
            (s.panel.black = false → t.panel.pixels = x.bytes.map (fun i => (Memory.read s.table.entries
                ((i + (Memory.read s.table.entries 259).value.red) &&& (Memory.read s.table.entries 257).value.red).toNat).value)
                ++ List.replicate (lineWidth s - x.bytes.length) (Memory.read s.table.entries 256).value)
              ∧ findSlot j t = none ∧ (∀ m, m ≠ j → m ≠ j + 2 → findSlot m t = findSlot m s)
              ∧ (j + 2 < activeLines s → ∃ y, findSlot (j + 2) t = some y ∧ y.state = .awaiting)
              ∧ Writes [.begun, .pixels, .slots, .requests, .requested] s t)
        ∧ ((∀ x, findSlot j s = some x → x.state ≠ .complete ∧ x.state ≠ .short) →
            (s.panel.black = false → t.panel.pixels = List.replicate (lineWidth s) (Memory.read s.table.entries 256).value)
              ∧ t.report.counts.underrun = countUp s.report.counts.underrun
              ∧ (∀ x, findSlot j s = some x → ∃ y, findSlot j t = some y ∧ y.state = .abandoned ∧ y.count = x.count)
              ∧ (∀ m, m ≠ j → findSlot m t = findSlot m s)
              ∧ Writes [.begun, .pixels, .slots, .underrun] s t)

/-- FRAME_END at line T - 1, its active line begun: part building stops and the pair enters the digest history (R17, R26). At another line
it has no effect (log entry 3). -/
def Obligations.FrameEndEntersDigest : Prop :=
  ∀ (s : State), s.inReset = false →
    (s.raster.line + 1 ≠ totalLines s → exec .frameEnd s = .next s)
    ∧ ∀ p : Frame × Digest, s.raster.line + 1 = totalLines s → activeLines s ≤ s.pixel.begun → s.raster.active = true →
      s.table.digest = some p → Answers .frameEnd s fun t =>
        t.raster.active = false ∧ t.table.digest = none ∧ t.panel.pixels = [] ∧ Blanked t
          ∧ (s.table.history.length ≤ 4 → t.table.history.length ≤ 4)
          ∧ t.table.history = (if s.table.history.any (fun x => x.1 == p.1) then s.table.history.filter (fun x => !(x.1 == p.1)) ++ [p]
              else if 4 ≤ s.table.history.length then s.table.history.tail ++ [p] else s.table.history ++ [p])
          ∧ Writes [.active, .digest, .history, .pixels] s t

/-! ## The image source -/

/-- PMARK: a packet begun or cut off inside the control window (R153), where LINE and DRAIN, which no run brings into the window, are left
for the packet too (log entry 28); outside it the line in reception ended and the oldest request
taken, or an unrequested line, the other requests in their order and the other slots as
they were (R147, R149); an abandoned line's slot is requested for the line two on (R145, R151). -/
def Obligations.PmarkBegins : Prop :=
  ∀ s : State, s.inReset = false → PixelOk s →
    (s.pixel.cwin = true → Answers .pmark s fun t => t.pixel.rx = .packet []
      ∧ (∀ bytes, s.pixel.rx = .packet bytes →
          Reported s t (.packetError .truncated bytes.head?) ∧ Writes (Field.ofReport ++ [.rx]) s t)
      ∧ ((∀ bytes, s.pixel.rx ≠ .packet bytes) → Writes [.rx] s t))
    ∧ (s.pixel.cwin = false → Answers .pmark s fun t =>
      (∀ k rest, s.pixel.outstanding = k :: rest → t.pixel.rx = .line k ∧ k ∉ t.pixel.outstanding
        ∧ (∀ x, findSlot k s = some x → x.state = .awaiting → ∃ y, findSlot k t = some y ∧ y.state = .receiving ∧ y.count = 0)
        ∧ (∀ x, findSlot k s = some x → x.state = .abandoned → findSlot k t = some x)
        ∧ t.report.counts.overflow = s.report.counts.overflow)
      ∧ (s.pixel.outstanding = [] → t.pixel.rx = .discard ∧ t.report.counts.overflow = countUp s.report.counts.overflow)
      ∧ t.pixel.outstanding = s.pixel.outstanding.tail ++ reopened s
      ∧ t.pixel.requested = s.pixel.requested + (reopened s).length
      ∧ (∀ n, s.pixel.outstanding.head? ≠ some n → s.pixel.rx ≠ .line n → n ∉ reopened s → findSlot n t = findSlot n s)
      ∧ (∀ m x, s.pixel.rx = .line m → findSlot m s = some x → x.state = .receiving →
          findSlot m t = some { x with state := .short })
      ∧ (∀ m x, s.pixel.rx = .line m → findSlot m s = some x → x.state = .abandoned → findSlot m t = none
        ∧ (m + 2 < activeLines s → m + 2 ∈ t.pixel.outstanding ∧ t.pixel.requested = s.pixel.requested + 1
          ∧ ∃ y, findSlot (m + 2) t = some y ∧ y.state = (if m + 2 < s.pixel.begun then .abandoned else .awaiting)))
      ∧ Writes [.slots, .requests, .requested, .rx, .overflow] s t)

/-- PIXEL_BYTE by the receiver state: a byte of a line (R148), of a packet (R153, R154), whose last byte is the packet's command (R154
to R159) or, of a length its kind never has, its LENGTH error (R154), of a stray run (R148, R153), or discarded. -/
def Obligations.PixelByteTaken : Prop :=
  ∀ (s : State) (b : Byte), s.inReset = false → Answers (.pixelByte b) s fun t =>
    (∀ k x, s.pixel.rx = .line k → findSlot k s = some x → x.state = .receiving → x.count + 1 < lineWidth s →
      findSlot k t = some { x with bytes := x.bytes ++ [b], count := x.count + 1 }
        ∧ (∀ m, m ≠ k → findSlot m t = findSlot m s) ∧ Writes [.slots] s t)
    ∧ (∀ k x, s.pixel.rx = .line k → findSlot k s = some x → x.state = .receiving → lineWidth s ≤ x.count + 1 →
      findSlot k t = some { x with state := .complete, bytes := x.bytes ++ [b], count := x.count + 1 } ∧ t.pixel.rx = .wait
        ∧ (∀ m, m ≠ k → findSlot m t = findSlot m s)
        ∧ Writes [.slots, .rx] s t)
    ∧ (∀ k x, s.pixel.rx = .line k → findSlot k s = some x → x.state = .abandoned → x.count + 1 < lineWidth s →
      findSlot k t = some { x with count := x.count + 1 } ∧ (∀ m, m ≠ k → findSlot m t = findSlot m s) ∧ Writes [.slots] s t)
    ∧ (∀ k x, s.pixel.rx = .line k → findSlot k s = some x → x.state = .abandoned → lineWidth s ≤ x.count + 1 →
      findSlot k t = none ∧ t.pixel.rx = .wait ∧ (∀ m, m ≠ k → m ≠ k + 2 → findSlot m t = findSlot m s)
        ∧ (PixelOk s → k + 2 < activeLines s → t.pixel.outstanding = s.pixel.outstanding ++ [k + 2]
          ∧ t.pixel.requested = s.pixel.requested + 1
          ∧ ∃ y, findSlot (k + 2) t = some y ∧ y.state = (if k + 2 < s.pixel.begun then .abandoned else .awaiting))
        ∧ Writes [.slots, .requests, .requested, .rx] s t)
    ∧ (∀ bytes, s.pixel.rx = .packet bytes → packetComplete (bytes ++ [b]) = false →
      t.pixel.rx = .packet (bytes ++ [b]) ∧ Writes [.rx] s t)
    ∧ (∀ bytes, s.pixel.rx = .packet bytes → packetComplete (bytes ++ [b]) = true → t.pixel.rx = .wait
      ∧ (sum8 (bytes ++ [b]) ≠ 0 →
          Reported s t (.packetError .check (bytes ++ [b]).head?) ∧ Writes (Field.ofReport ++ [.rx]) s t)
      ∧ (sum8 (bytes ++ [b]) = 0 →
        (∀ len start comps, bytes = 1 :: len :: start :: comps → exec (.tableLoad start comps) { s with pixel.rx := .wait } = .next t)
          ∧ (∀ len rs, bytes = 2 :: len :: paramBody rs → exec (.paramSet rs) { s with pixel.rx := .wait } = .next t)
          ∧ (∀ len hi lo n, bytes = [3, len, hi, lo, n] → exec (.readback (word16 hi lo) n) { s with pixel.rx := .wait } = .next t)
          ∧ (∀ len f, bytes = [4, len, f] → exec (.statusReq f) { s with pixel.rx := .wait } = .next t)
          ∧ (∀ k len body, bytes = k :: len :: body →
              (k = 1 ∧ body = []) ∨ (k = 2 ∧ body.length % 4 ≠ 0) ∨ (k = 3 ∧ body.length ≠ 3) ∨ (k = 4 ∧ body.length ≠ 1) →
                Reported s t (.packetError .length (some k)) ∧ Writes (Field.ofReport ++ [.rx]) s t)
          ∧ (∀ k, bytes.head? = some k → k ∉ ([1, 2, 3, 4] : List Byte) →
              Reported s t (.packetError .kind (some k)) ∧ Writes (Field.ofReport ++ [.rx]) s t)))
    ∧ (s.pixel.rx = .wait → s.pixel.cwin = true → t.pixel.rx = .discard ∧ Reported s t (.packetError .outside none)
      ∧ Writes (Field.ofReport ++ [.rx]) s t)
    ∧ (s.pixel.rx = .wait → s.pixel.cwin = false → t.pixel.rx = .discard
      ∧ t.report.counts.overflow = countUp s.report.counts.overflow ∧ Writes [.rx, .overflow] s t)
    ∧ (s.pixel.rx = .discard ∨ s.pixel.rx = .drain → t = s)

/-- A load that meets the three conditions is accepted, and next-seq advances to the first free value (R92 to R94): TABLE_LOAD with its triplets (R155), PARAM_SET with one edit for
each control number, in the colour of its last record and the order of first appearance (R156). The own record enters the store: in a full
one exactly one retained record gives way (R112; log entry 14 for sequences in a circle). -/
def Obligations.LoadAccepted : Prop :=
  (∀ rs : List ParamRecord, (∀ r ∈ rs, r.control.toNat ≤ 3) →
    ((controlEdits rs).map (·.index)).Nodup
      ∧ ((controlEdits rs).map (fun e => rs.findIdx (fun r => decide (e.index.toNat = 256 + r.control.toNat)))).Pairwise (· < ·)
      ∧ (∀ r ∈ rs, ∃ e ∈ controlEdits rs, e.index.toNat = 256 + r.control.toNat)
      ∧ (∀ e ∈ controlEdits rs, ∃ before r after, rs = before ++ r :: after ∧ e.index.toNat = 256 + r.control.toNat
          ∧ e.colour = r.colour ∧ ∀ x ∈ after, x.control ≠ r.control))
  ∧ ∀ (s : State) (c : Instr) (es : List Edit) (part : Bool), s.inReset = false → UpdatesOk s → s.member.state = .inService →
    s.origin.list.length < 4 → openCount s.store < 12 →
    ((∃ start comps, c = .tableLoad start comps ∧ 3 ≤ comps.length ∧ comps.length ≤ 96
        ∧ es.length = comps.length / 3 ∧ part = decide (comps.length % 3 ≠ 0)
        ∧ ∀ i (h : i < es.length), es[i].index = (start + BitVec.ofNat 8 i).setWidth 16
            ∧ some es[i].colour.red = comps[3 * i]? ∧ some es[i].colour.green = comps[3 * i + 1]?
            ∧ some es[i].colour.blue = comps[3 * i + 2]?)
      ∨ (∃ rs, c = .paramSet rs ∧ 1 ≤ rs.length ∧ rs.length ≤ 4 ∧ (∀ r ∈ rs, r.control.toNat ≤ 3)
          ∧ part = false ∧ es = controlEdits rs)) →
    Answers c s fun t =>
      t.origin.list = s.origin.list ++
          [{ seq := s.origin.nextSeq, edits := es, phase := .proposing, attempt := 1, round := 1, deadline := now s + 2,
             partialLoad := part }]
        ∧ t.origin.nextSeq ∉ t.origin.list.map (·.seq) ∧ NextFree (takenSeqs s) s.origin.nextSeq t.origin.nextSeq
        ∧ findRecord (own s) s.origin.nextSeq t.store
          = some { origin := own s, seq := s.origin.nextSeq, edits := es, state := .held (now s) }
        ∧ (s.store.length < 12 → ∀ p ∈ s.store, p ∈ t.store)
        ∧ Entered (now s) s.store t.store { origin := own s, seq := s.origin.nextSeq, edits := es, state := .held (now s) }
        ∧ Queued s t 0 (.propose ⟨s.origin.nextSeq, es, 0, 0⟩)
        ∧ Reported s t (.updateQueued s.origin.nextSeq es.length part 1 none)
        ∧ Writes Field.ofOrigin s t

/-- A load that fails a condition is refused with that reason (R93); a packet that fails a test is one PACKET_ERROR with that reason
(R154); neither has any other effect. -/
def Obligations.PacketsTurnedAway : Prop :=
  ∀ s : State, s.inReset = false →
    (∀ (c : Instr) (r : RejectReason),
      ((∃ start comps, c = .tableLoad start comps ∧ 3 ≤ comps.length ∧ comps.length ≤ 96)
        ∨ (∃ rs, c = .paramSet rs ∧ 1 ≤ rs.length ∧ rs.length ≤ 4 ∧ ∀ x ∈ rs, x.control.toNat ≤ 3)) →
      ((s.member.state ≠ .inService ∧ r = .notInService)
        ∨ (s.member.state = .inService ∧ 4 ≤ s.origin.list.length ∧ r = .busy)
        ∨ (s.member.state = .inService ∧ s.origin.list.length < 4 ∧ 12 ≤ openCount s.store ∧ r = .storeFull)) →
      Answers c s fun t => Reported s t (.updateRejected r none) ∧ Writes Field.ofReport s t)
    ∧ (∀ (c : Instr) (r : PacketReason) (k : Byte),
      ((∃ start comps, c = .tableLoad start comps ∧ k = 1 ∧ ((comps.length = 0 ∧ r = .length)
          ∨ (1 ≤ comps.length ∧ comps.length ≤ 2 ∧ r = .empty) ∨ (96 < comps.length ∧ r = .length)))
        ∨ (∃ rs, c = .paramSet rs ∧ k = 2 ∧ r = .length
            ∧ (rs.length = 0 ∨ 4 < rs.length ∨ ∃ x ∈ rs, 3 < x.control.toNat))
        ∨ (∃ start n, c = .readback start n ∧ k = 3 ∧ r = .length ∧ (260 ≤ start.toNat ∨ n.toNat = 0 ∨ 16 < n.toNat))
        ∨ (∃ f, c = .statusReq f ∧ k = 4 ∧ r = .length ∧ 1 < f.toNat)) →
      Answers c s fun t => Reported s t (.packetError r (some k)) ∧ Writes Field.ofReport s t)

/-- READBACK: read at once, or waiting for the end of the apply operation, or BUSY (R20, R21, R158). -/
def Obligations.ReadbackServed : Prop :=
  ∀ (s : State) (start : BitVec 16) (n : Byte), s.inReset = false → start.toNat < 260 → 1 ≤ n.toNat → n.toNat ≤ 16 →
    Answers (.readback start n) s fun t =>
      (s.table.apply.phase = .idle →
        t.report = handOver ((List.range' start.toNat (min n.toNat (260 - start.toNat))).map (fun i =>
            .entry i (Memory.read s.table.entries i).value (Memory.read s.table.entries i).stamp)) (now s) s.report
          ∧ Writes Field.ofReport s t)
      ∧ (s.table.apply.phase ≠ .idle → s.pixel.readbacks.length < 4 →
        t.pixel.readbacks = s.pixel.readbacks ++ [{ start := start.toNat, count := n.toNat }] ∧ Writes [.readbacks] s t)
      ∧ (s.table.apply.phase ≠ .idle → 4 ≤ s.pixel.readbacks.length →
        Reported s t (.packetError .busy (some 3)) ∧ Writes Field.ofReport s t)

/-- STATUS_REQ: one STATUS record of the fields as they stand, and then, with the flag at 1, the six counts at 0 (R159, R172, R173). -/
def Obligations.StatusAnswered : Prop :=
  ∀ (s : State) (flag : Byte), s.inReset = false → flag.toNat ≤ 1 → Answers (.statusReq flag) s fun t =>
    ∃ u, u = reportJoin
        (.status { station := own s, state := s.member.state, lock := s.lock.state, frame := now s,
                   tableRef := s.member.tableRef, timingRef := s.member.timingRef,
                   present := s.member.stations.length + (if onRing s.member.state then 1 else 0),
                   openRecords := openCount s.store, retained := retainedCount s.store,
                   originRecords := s.origin.list.length, seeded := s.table.seeded, counts := s.report.counts })
        (now s) s.report
      ∧ (flag = 0 → t.report = u ∧ Writes Field.ofReport s t)
      ∧ (flag = 1 → t.report = { u with counts := ⟨0, 0, 0, 0, 0, 0⟩ }
          ∧ Writes (Field.ofReport ++ [.crc, .overflow, .stray, .underrun, .late, .frameSlip]) s t)

/-! ## The ring -/

/-- A BEACON of another station: forwarded, and the sender's entry and the references follow (R41, R43, R66, R70). A change of reference that
leaves the sender no timing reference brings what R64, R70, R81, R139 and R140 say and no measurement; so does a third failure in RESYNC that
makes the own station one (R140). A sender that becomes the timing reference is measured by this beacon, from FREE and so without a frame
slip (R80, R82 to R85), after what the change brings; in IN_SERVICE its digest can then be the first that differs (R75), and in CATCHING_UP
with the install done an offset within the lock window brings IN_SERVICE (R64, R86). -/
def Obligations.BeaconUpdatesTable : Prop :=
  ∀ (s : State) (h : Header) (b : BeaconBody) (ref : Option StationNo) (d : Int) (E : Frame),
    Passes s { header := h, body := .beacon b } → ref = computeTableRef (heardFrom h b s) →
    d = (if 2 * s.raster.line < totalLines s then (s.raster.line : Int) else (s.raster.line : Int) - totalLines s) →
    E = (if 0 ≤ d then b.frame else b.frame - 1) → Answers (.beacon h b) s fun t =>
    Forwarded s t { header := h, body := .beacon b } (.beacon b)
      ∧ (h.target = 0 ∨ h.target = own s →
          t.member.stations = (heardFrom h b s).member.stations
            ∧ findStation h.origin t.member.stations = some { state := b.state, missed := 0, heard := true, digest := b.digest }
            ∧ (∀ n, n ≠ h.origin → findStation n t.member.stations = findStation n s.member.stations)
            ∧ t.member.tableRef = computeTableRef t ∧ t.member.timingRef = computeTimingRef t
            ∧ (LockOk s → MemberOk s →
                computeTimingRef (heardFrom h b s) ≠ some h.origin
                  ∨ (s.member.state = .resync ∧ ThirdFailed ref s ∧ t.member.timingRef ≠ some h.origin) →
                ReferencesFollow s t ∧ t.raster.frame = s.raster.frame)
            ∧ (LockOk s → MemberOk s → computeTimingRef (heardFrom h b s) = some h.origin → s.member.timingRef ≠ some h.origin →
                ¬ (s.member.state = .resync ∧ ThirdFailed ref s ∧ t.member.timingRef ≠ some h.origin) →
                t.raster.frame = E ∧ t.report.counts = s.report.counts
                  ∧ (¬ (s.member.state = .catchingUp ∧ installDone s = true) →
                      CollectorMoves ref s t ∧ FailureFollows ref s t
                        ∧ (s.member.state = .inService → DigestDiffers b s → t.member.mismatch = 1)
                        ∧ (¬ (s.member.state = .inService ∧ DigestDiffers b s) → MismatchFollows ref s t))
                  ∧ (s.member.state = .catchingUp → installDone s = true → -2 ≤ d → d ≤ 2 →
                      t.member.state = .inService ∧ t.table.seeded = true ∧ lockServes t.lock.state = true
                        ∧ t.report = reportJoin (.event (.stateChange .inService none)) E s.report)
                  ∧ (s.member.state = .catchingUp → installDone s = true → d < -2 ∨ 2 < d →
                      t.member.state = .catchingUp ∧ t.report = s.report))
            ∧ (t.member.timingRef = some h.origin → s.member.timingRef ≠ some h.origin →
                Measured s t d ∧ t.lock.ref = some h.origin ∧ t.raster.frame = E ∧ t.report.counts = s.report.counts)
            ∧ Writes (Field.ofChange ++ [.insertion, .stations, .frame, .frameSlip, .responder, .progress]) s t)
      ∧ (h.target ≠ 0 → h.target ≠ own s → Writes [.insertion] s t)

/-- A BEACON of the timing reference is measured: the offset, the frame number, the lock state and the request (R82 to R85), the frame
slip with its event in IN_SERVICE (R84), and in CATCHING_UP the entry to IN_SERVICE that a change of lock state brings (R64, R86). Whatever
state the beacon carries, shown where the sender is the timing reference before and after it: it can become the table reference, or stop being
it, with what that brings the mismatch streak and the collector (R70, R139, R140). A station that the beacon brings into service compares its
digest at once (R75). In IN_SERVICE before it shown for a beacon without a digest; with
one, the next statement. A third failure in RESYNC is in the statement before. The report frame of FRAME_SLIP is log entry 17. -/
def Obligations.ReferenceBeaconMeasured : Prop :=
  ∀ (s : State) (h : Header) (b : BeaconBody) (ref : Option StationNo) (d : Int) (E : Frame),
    Passes s { header := h, body := .beacon b } → h.target = 0 → LockOk s → MemberOk s → s.member.timingRef = some h.origin →
    computeTimingRef (heardFrom h b s) = some h.origin → ref = computeTableRef (heardFrom h b s) →
    ¬ (s.member.state = .resync ∧ ThirdFailed ref s) → (s.member.state = .inService → b.digest = none) →
    d = (if 2 * s.raster.line < totalLines s then (s.raster.line : Int) else (s.raster.line : Int) - totalLines s) →
    E = (if 0 ≤ d then b.frame else b.frame - 1) →
    Answers (.beacon h b) s fun t =>
      t.raster.frame = E
        ∧ (s.lock.state ≠ .free → E ≠ now s → t.report.counts.frameSlip = countUp s.report.counts.frameSlip)
        ∧ (s.lock.state = .free ∨ E = now s → t.report.counts.frameSlip = s.report.counts.frameSlip)
        ∧ (¬ (s.member.state = .catchingUp ∧ installDone s = true ∧ s.lock.state ≠ .locked ∧ -2 ≤ d ∧ d ≤ 2) →
          t.member.state = s.member.state ∧ t.member.tableRef = ref ∧ t.member.timingRef = some h.origin
            ∧ Measured s t d ∧ MismatchFollows ref s t ∧ CollectorMoves ref s t
            ∧ (¬ (s.member.state = .ringHold ∧ ThirdFailed ref s) →
                t.report = slipReport s E d ∧ t.member.backoff = s.member.backoff)
            ∧ (s.member.state = .ringHold → ThirdFailed ref s → t.member.backoff = 16
                ∧ t.report = slipReport { s with report := reportJoin (.event .resyncFailed) (now s) s.report } E d)
            ∧ (s.member.state = .catchingUp → ThirdFailed ref s → t.member.rejoinPending = true)
            ∧ (¬ (s.member.state = .catchingUp ∧ ThirdFailed ref s) → t.member.rejoinPending = s.member.rejoinPending)
            ∧ (ref = s.member.tableRef →
                Writes (Field.ofReport ++ [.insertion, .stations, .frame, .frameSlip, .request, .lockState, .offset]) s t)
            ∧ Writes (Field.ofReport ++ [.insertion, .stations, .frame, .frameSlip, .request, .lockState, .offset, .tableRef,
                .mismatch, .transmit, .collector, .rejoinPending, .backoff]) s t)
        ∧ (s.member.state = .catchingUp → installDone s = true → s.lock.state ≠ .locked → -2 ≤ d → d ≤ 2 →
          t.member.state = .inService ∧ t.table.seeded = true ∧ lockServes t.lock.state = true
            ∧ t.raster.request = nominal s
            ∧ (t.member.tableRef = some h.origin → DigestDiffers b s → t.member.mismatch = 1)
            ∧ (¬ (t.member.tableRef = some h.origin ∧ DigestDiffers b s) → t.member.mismatch = 0)
            ∧ t.member.tableRef = computeTableRef t ∧ t.member.timingRef = computeTimingRef t
            ∧ (t.member.timingRef = some h.origin → Measured s t d)
            ∧ (t.member.timingRef ≠ some h.origin →
                t.lock = { state := .reference, ref := some (own s), offset := none } ∧ t.member.timingRef = some (own s))
            ∧ (s.snap.collector = none → t.snap.collector = none ∧ t.ring.transmit = s.ring.transmit)
            ∧ t.report = reportJoin (.event (.stateChange .inService none)) E (slipReport s E d)
            ∧ Writes (Field.ofChange ++ [.insertion, .stations, .frame, .frameSlip]) s t)

/-- A BEACON of the table reference in IN_SERVICE is measured like any of the timing reference, which it is: the number, the lock state, the
offset, the request and the frame slip (R82 to R85). Equal digests set the mismatch streak to 0, a first difference raises it, a second
begins a resynchronisation with RESYNC_START and a SNAPSHOT_REQ to the reference; where there is nothing to compare, or in the backoff,
the streak stays (R75, R77, R128, R135). A beacon that carries another state takes the reference from its sender, which is no
comparison: that is BeaconUpdatesTable. The measurement's own report comes first,
and that FRAME_SLIP is formed with the adopted number as its report frame is the model's choice (log entry 17). -/
def Obligations.DigestsCompared : Prop :=
  ∀ (s : State) (h : Header) (b : BeaconBody) (dl : Int) (E : Frame),
    Passes s { header := h, body := .beacon b } → h.target = 0 →
    LockOk s → MemberOk s → s.member.state = .inService → s.member.tableRef = some h.origin → b.state = .inService →
    dl = (if 2 * s.raster.line < totalLines s then (s.raster.line : Int) else (s.raster.line : Int) - totalLines s) →
    E = (if 0 ≤ dl then b.frame else b.frame - 1) → Answers (.beacon h b) s fun t =>
      now t = E ∧ Measured s t dl
      ∧ (s.lock.state ≠ .free → E ≠ now s → t.report.counts.frameSlip = countUp s.report.counts.frameSlip)
      ∧ (s.lock.state = .free ∨ E = now s → t.report.counts.frameSlip = s.report.counts.frameSlip)
      ∧ Writes (Field.ofReport ++ [.insertion, .stations, .frame, .frameSlip, .request, .lockState, .offset, .mismatch, .stationState,
          .responder, .progress, .collector, .transmit]) s t
      ∧ (∀ F d mine, s.member.backoff = 0 → b.digest = some (F, d) → digestFor F s = some mine →
        (d = mine → t.member.mismatch = 0 ∧ t.member.state = .inService ∧ t.report = slipReport s E dl)
        ∧ (d ≠ mine → s.member.mismatch = 0 →
            t.member.mismatch = 1 ∧ t.member.state = .inService ∧ t.report = slipReport s E dl)
        ∧ (d ≠ mine → 1 ≤ s.member.mismatch → t.member.mismatch = 0 ∧ t.member.state = .resync
            ∧ t.snap.queue = [] ∧ t.snap.progress = none
            ∧ t.snap.collector = some { target := some h.origin, attempt := 1, deadline := E + 6, parts := [] }
            ∧ Queued s t h.origin .snapshotReq
            ∧ t.report = reportJoin (.event (.resyncStart .digest)) E (slipReport s E dl)))
      ∧ (0 < s.member.backoff ∨ b.digest = none ∨ (∃ F d, b.digest = some (F, d) ∧ digestFor F s = none) →
          t.member.mismatch = s.member.mismatch ∧ t.member.state = .inService ∧ t.report = slipReport s E dl)

/-- A JOIN of another station: in an on-ring state marked on a mismatch and the joiner recorded, in LISTENING passed on unmarked
(R58, R60, R135). A reference that this changes brings what R64, R70, R81, R86, R139 and R140 say. -/
def Obligations.JoinRecorded : Prop :=
  ∀ (s : State) (h : Header) (b : JoinBody), Passes s { header := h, body := .join b } → Answers (.join h b) s fun t =>
    (onRing s.member.state = true → h.target = 0 ∨ h.target = own s →
      Forwarded s t { header := h, body := .join b }
          (.join ⟨b.profile, b.lead, b.attempt,
            b.mismatch || decide (b.profile ≠ s.straps.profile) || decide (b.lead ≠ s.straps.lead)⟩)
        ∧ findStation h.origin t.member.stations
          = some ⟨.joining, 0, true, (findStation h.origin s.member.stations).bind (·.digest)⟩
        ∧ (∀ n, n ≠ h.origin → findStation n t.member.stations = findStation n s.member.stations)
        ∧ t.snap.queue = s.snap.queue.filter (fun n => !(n == h.origin))
        ∧ (∀ n, s.snap.queue.head? = some n → t.snap.progress
            = (if n ∈ t.snap.queue then s.snap.progress else if t.snap.queue = [] then none else some 0))
        ∧ t.member.tableRef = computeTableRef t ∧ t.member.timingRef = computeTimingRef t
        ∧ (LockOk s → MemberOk s → ReferencesFollow s t)
        ∧ Writes (Field.ofChange ++ [.insertion, .stations, .responder, .progress]) s t)
    ∧ (onRing s.member.state = false ∨ (h.target ≠ 0 ∧ h.target ≠ own s) →
      Forwarded s t { header := h, body := .join b } (.join b) ∧ Writes [.insertion] s t)

/-- A PROPOSE of another origin: a repeated copy, a new record, or a refusal, each with its mark; in LISTENING none (R113 to R115).
In a full store exactly one retained record gives way to the new one, the oldest, and of several of one effective frame the one that the
apply set takes first (R112; log entry 14 for sequences in a circle). -/
def Obligations.ProposeStored : Prop :=
  ∀ (s : State) (h : Header) (b : ProposeBody), Passes s { header := h, body := .propose b } → Answers (.propose h b) s fun t =>
    Writes [.insertion, .store] s t
    ∧ (onRing s.member.state = true → h.target = 0 ∨ h.target = own s →
      (∀ p, findRecord h.origin b.seq s.store = some p →
        Forwarded s t { header := h, body := .propose b }
            (.propose { b with holders := if b.holders.toNat < 29 then b.holders + 1 else b.holders })
          ∧ t.store = s.store.map (fun x => if isRecord h.origin b.seq x && isHeld x then { x with state := .held (now s) } else x))
      ∧ (findRecord h.origin b.seq s.store = none → openCount s.store < 12 →
        Forwarded s t { header := h, body := .propose b }
            (.propose { b with holders := if b.holders.toNat < 29 then b.holders + 1 else b.holders })
          ∧ findRecord h.origin b.seq t.store
            = some { origin := h.origin, seq := b.seq, edits := b.edits, state := .held (now s) }
          ∧ (s.store.length < 12 → ∀ p ∈ s.store, p ∈ t.store)
          ∧ (UpdatesOk s → Entered (now s) s.store t.store { origin := h.origin, seq := b.seq, edits := b.edits, state := .held (now s) })
          ∧ (UpdatesOk s → ∀ p ∈ s.store, p ∉ t.store → ∃ e, p.state = .applied e
              ∧ ∀ x ∈ s.store, ∀ f, x.state = .applied f → (now s - f).toNat ≤ (now s - e).toNat))
      ∧ (findRecord h.origin b.seq s.store = none → 12 ≤ openCount s.store →
        Forwarded s t { header := h, body := .propose b }
            (.propose { b with refusals := if b.refusals.toNat < 29 then b.refusals + 1 else b.refusals })
          ∧ t.store = s.store))
    ∧ (onRing s.member.state = false ∨ (h.target ≠ 0 ∧ h.target ≠ own s) →
      Forwarded s t { header := h, body := .propose b } (.propose b) ∧ t.store = s.store)

/-- A COMMIT of another origin schedules its HELD record or, for a record not held, sets the mark (R117, R118; log entry 13); a WITHDRAW
removes its HELD record (R120; log entry 19). -/
def Obligations.CommitAndWithdrawTaken : Prop :=
  ∀ (s : State) (h : Header) (q : Seq) (F : Frame), Passes s { header := h, body := .withdraw q } →
    (Answers (.commit h q F) s fun t => Forwarded s t { header := h, body := .commit q F } (.commit q F)
      ∧ (onRing s.member.state = true → h.target = 0 ∨ h.target = own s → findRecord h.origin q s.store ≠ none →
          t.store = s.store.map (fun p => if isRecord h.origin q p && isHeld p then { p with state := .scheduled F } else p)
            ∧ Writes [.insertion, .store] s t)
      ∧ (onRing s.member.state = true → s.member.state ≠ .joining → h.target = 0 ∨ h.target = own s →
          findRecord h.origin q s.store = none →
            (s.member.mark = none → t.member.mark = some F)
            ∧ (∀ M, s.member.mark = some M → later F M = false → t.member.mark = some M)
            ∧ (∀ M, s.member.mark = some M → later F M = true → later M F = false → t.member.mark = some F)
            ∧ (∀ M, s.member.mark = some M → later F M = true → later M F = true →
                t.member.mark = some F ∨ t.member.mark = some M)
            ∧ Writes [.insertion, .mark] s t)
      ∧ (onRing s.member.state = false ∨ (s.member.state = .joining ∧ findRecord h.origin q s.store = none)
            ∨ (h.target ≠ 0 ∧ h.target ≠ own s) → Writes [.insertion] s t))
    ∧ (Answers (.withdraw h q) s fun t => Forwarded s t { header := h, body := .withdraw q } (.withdraw q)
      ∧ (h.target = 0 ∨ h.target = own s → t.store = s.store.filter (fun p => !(isRecord h.origin q p && isHeld p)))
      ∧ (h.target ≠ 0 → h.target ≠ own s → t.store = s.store)
      ∧ Writes [.insertion, .store] s t)

/-- A SNAPSHOT_REQ admits a present requester to the queue of an in-service responder (R129, R130). -/
def Obligations.SnapshotReqAdmitted : Prop :=
  ∀ (s : State) (h : Header), Passes s { header := h, body := .snapshotReq } → Answers (.snapshotReq h) s fun t =>
    Forwarded s t { header := h, body := .snapshotReq } .snapshotReq
      ∧ (s.member.state = .inService → h.target = own s → isPresent h.origin s = true → h.origin ∉ s.snap.queue →
          s.snap.queue.length < 4 →
            t.snap.queue = s.snap.queue ++ [h.origin]
              ∧ t.snap.progress = (if s.snap.queue = [] then some 0 else s.snap.progress)
              ∧ Writes [.insertion, .responder, .progress] s t)
      ∧ (¬ (s.member.state = .inService ∧ h.target = own s ∧ isPresent h.origin s = true ∧ h.origin ∉ s.snap.queue
            ∧ s.snap.queue.length < 4) → Writes [.insertion] s t)

/-- A SNAPSHOT part from the collector's target is staged, and the ninth fills the install slot (R136, R137); any other is passed on. -/
def Obligations.SnapshotPartStaged : Prop :=
  ∀ (s : State) (h : Header) (b : SnapshotBody), Passes s { header := h, body := .snapshot b } → Answers (.snapshot h b) s fun t =>
    Forwarded s t { header := h, body := .snapshot b } (parcelNorm { header := h, body := .snapshot b }).body
      ∧ (s.snap.collector = none → Writes [.insertion] s t)
      ∧ (∀ c, s.snap.collector = some c →
        ¬ (h.target = own s ∧ c.target = some h.origin ∧ (∀ x ∈ c.parts, x.number ≠ b.part.toNat)
            ∧ b.entries.map (·.index.toNat) = partIndices b.part.toNat) → Writes [.insertion] s t)
      ∧ (∀ c, s.snap.collector = some c → h.target = own s → c.target = some h.origin →
        (∀ x ∈ c.parts, x.number ≠ b.part.toNat) → b.entries.map (·.index.toNat) = partIndices b.part.toNat →
          ∃ ps : List Part,
            ps.Perm (⟨b.part.toNat, b.build, b.entries.map (fun e => { e with stamp := stampNorm e.stamp })⟩ :: c.parts)
              ∧ (c.parts.length + 1 = 9 → t.snap.collector = none ∧ t.table.slot = some ps)
              ∧ (c.parts.length + 1 ≠ 9 → t.snap.collector = some { c with parts := ps } ∧ t.table.slot = s.table.slot)
              ∧ Writes [.insertion, .collector, .slot] s t)

/-- What does not pass: with BYPASS asserted an arrival is not received (R36). Nor is a parcel that began under BYPASS (R36): that it is the
next arrival after the release, which the flag ring.cut turns away and clears, is the model's choice (log entry 10). A run that fails the check or an
ill-formed parcel (R37), a stray (R41), and a parcel that finds the insertion buffer full (R43), are
counted and go no further; the last has all the effect on its consumer that it has with an empty buffer, and on nothing else than
the buffer and the count another (R43). A listening station discards a parcel of its own number under the guard and otherwise passes it on, the first
one with a notice, which a stray or an overflow makes at once, and so ISOLATED (R40, R54, R63, R78). -/
def Obligations.BadParcelsCounted : Prop :=
  (∀ (s : State) (p : Parcel) (run : List Byte),
    (bypass s = true → exec (arrivalOf p) s = .next s ∧ exec (.failedParcelArrival run) s = .next s)
    ∧ (bypass s = false → s.ring.cut = true →
      (Answers (arrivalOf p) s fun t => t.ring.cut = false ∧ Writes [.cut] s t)
        ∧ Answers (.failedParcelArrival run) s fun t => t.ring.cut = false ∧ Writes [.cut] s t))
  ∧ ∀ s : State, Receives s →
    (∀ run, readRun run = none → Answers (.failedParcelArrival run) s fun t =>
      t.report.counts.crc = countUp s.report.counts.crc ∧ Writes [.crc] s t)
    ∧ (∀ p, parcelOk p = false → Answers (arrivalOf p) s fun t =>
      t.report.counts.crc = countUp s.report.counts.crc ∧ Writes [.crc] s t)
    ∧ (∀ p, parcelOk p = true → p.header.origin ≠ own s → 29 ≤ p.header.hop.toNat → Answers (arrivalOf p) s fun t =>
      t.report.counts.stray = countUp s.report.counts.stray ∧ Writes [.stray] s t)
    ∧ (∀ p, parcelOk p = true → p.header.origin ≠ own s → p.header.hop.toNat < 29 → 4 ≤ s.ring.insertion.length →
      Answers (arrivalOf p) s fun t =>
        t.report.counts.overflow = countUp s.report.counts.overflow ∧ t.ring.insertion = s.ring.insertion
          ∧ ∃ u, exec (arrivalOf p) { s with ring.insertion := [] } = .next u
            ∧ t = { u with ring.insertion := s.ring.insertion, report.counts.overflow := countUp s.report.counts.overflow })
    ∧ (∀ p, s.member.state = .listening → parcelOk p = true → p.header.origin = own s →
      (s.ring.guard = true → exec (arrivalOf p) s = .next s)
      ∧ (s.ring.guard = false → Answers (arrivalOf p) s fun t =>
        (p.header.hop.toNat < 29 → s.ring.insertion.length < 4 →
          t.ring.duplicateSeen = true ∧ t.member.state = .listening
            ∧ t.ring.insertion = s.ring.insertion ++
                [{ parcel := { header := { p.header with hop := p.header.hop + 1 }, body := (parcelNorm p).body },
                   notice := !s.ring.duplicateSeen }])
        ∧ (29 ≤ p.header.hop.toNat → s.ring.duplicateSeen = true →
          t.report.counts.stray = countUp s.report.counts.stray ∧ Writes [.stray] s t)
        ∧ (29 ≤ p.header.hop.toNat → s.ring.duplicateSeen = false → Isolated s t
          ∧ t.report = reportJoin (.event (.stateChange .isolated (some .duplicate))) (now s)
              { s.report with counts.stray := countUp s.report.counts.stray })
        ∧ (p.header.hop.toNat < 29 → 4 ≤ s.ring.insertion.length → s.ring.duplicateSeen = true →
          t.member.state = .listening ∧ t.ring.insertion = s.ring.insertion
            ∧ t.report = { s.report with counts.overflow := countUp s.report.counts.overflow })
        ∧ (p.header.hop.toNat < 29 → 4 ≤ s.ring.insertion.length → s.ring.duplicateSeen = false →
          Isolated s t
            ∧ t.report = reportJoin (.event (.stateChange .isolated (some .duplicate))) (now s)
              { s.report with counts.overflow := countUp s.report.counts.overflow })))

/-- Returns of the own PROPOSE and COMMIT (R38, R97 to R99, R103): what the record found in its phase brings, and that one that finds none
is ignored; returns of the own WITHDRAW, SNAPSHOT_REQ and SNAPSHOT only end their flight (R38).
The frame that UPDATE_COMMITTED carries is log entry 18. -/
def Obligations.UpdateReturnsTaken : Prop :=
  ∀ (s : State) (p : Parcel), Returns s p → Answers (arrivalOf p) s fun t =>
    (Body.kind p.body ≠ .beacon → Body.kind p.body ≠ .join →
        t.ring.inFlight = s.ring.inFlight.eraseP (matchesFlight p) ∧ t.ring.insertion = s.ring.insertion)
      ∧ (Body.kind p.body = .withdraw ∨ Body.kind p.body = .snapshotReq ∨ Body.kind p.body = .snapshot → Writes [.inFlight] s t)
      ∧ (∀ b, p.body = .propose b → (∀ r, findOrigin b.seq s = some r → r.phase ≠ .proposing) → Writes [.inFlight] s t)
      ∧ (∀ q F, p.body = .commit q F → (∀ r E n, findOrigin q s = some r → r.phase ≠ .committing E n) → Writes [.inFlight] s t)
      ∧ (∀ b r, p.body = .propose b → findOrigin b.seq s = some r → r.phase = .proposing → b.refusals = 0 →
          hasHeld (own s) b.seq s.store = true →
            findOrigin b.seq t = some { r with
                phase := .committing (now s + s.straps.lead.frames) b.holders, attempt := 1, deadline := now s + 2 }
              ∧ t.store = s.store.map (fun x => if isRecord (own s) b.seq x && isHeld x then
                  { x with state := .scheduled (now s + s.straps.lead.frames) } else x)
              ∧ Queued s t 0 (.commit b.seq (now s + s.straps.lead.frames))
              ∧ (∀ x, x ≠ b.seq → findOrigin x t = findOrigin x s)
              ∧ Writes [.inFlight, .originList, .store, .transmit] s t)
      ∧ (∀ b r, p.body = .propose b → findOrigin b.seq s = some r → r.phase = .proposing → b.refusals = 0 →
          hasHeld (own s) b.seq s.store = false →
            findOrigin b.seq t = none ∧ Queued s t 0 (.withdraw b.seq) ∧ Reported s t (.updateRejected .ring (some b.seq))
              ∧ (∀ x, x ≠ b.seq → findOrigin x t = findOrigin x s)
              ∧ Writes (Field.ofReport ++ [.inFlight, .originList, .transmit]) s t)
      ∧ (∀ b r, p.body = .propose b → findOrigin b.seq s = some r → r.phase = .proposing → b.refusals ≠ 0 →
            findOrigin b.seq t = some { r with phase := .withdrawn false, deadline := now s + 2 }
              ∧ t.store = s.store.filter (fun x => !(isRecord (own s) b.seq x && isHeld x))
              ∧ Queued s t 0 (.withdraw b.seq) ∧ (∀ x, x ≠ b.seq → findOrigin x t = findOrigin x s)
              ∧ Writes [.inFlight, .originList, .store, .transmit] s t)
      ∧ (∀ q F E n r, p.body = .commit q F → findOrigin q s = some r → r.phase = .committing E n →
            findOrigin q t = none ∧ Reported s t (.updateCommitted q F n) ∧ (∀ x, x ≠ q → findOrigin x t = findOrigin x s)
              ∧ Writes (Field.ofReport ++ [.inFlight, .originList]) s t)

/-- Returns of the own JOIN and BEACON (R38, R61, R64, R67), each of which ends its flight, and a foreign parcel (R39, R63). A JOIN that
returns in any state but JOINING only ends its flight (R61). In JOINING it isolates on a mismatch (R54, R78); else it brings CATCHING_UP, with a
collection and its SNAPSHOT_REQ where a station is in service (R128), or IN_SERVICE at once, with both changes of state reported (R56) and what
the own entry's candidature brings the references, the Lock Unit and the collector (R70, R81, R139). -/
def Obligations.JoinReturnsTaken : Prop :=
  ∀ (s : State) (p : Parcel), OnRing s → parcelOk p = true → p.header.origin = own s → Answers (arrivalOf p) s fun t =>
    (∀ b, Returns s p → p.body = .join b → s.member.state ≠ .joining →
      t.ring.inFlight = s.ring.inFlight.eraseP (matchesFlight p) ∧ Writes [.inFlight] s t)
    ∧ (∀ b, Returns s p → p.body = .join b → s.member.state = .joining → b.mismatch = true →
      Isolated s t ∧ Raised s t (.stateChange .isolated (some .mismatch)) ∧ Writes (Field.ofIsolation ++ Field.ofReport) s t)
    ∧ (∀ b, Returns s p → p.body = .join b → s.member.state = .joining → b.mismatch = false → LockOk s →
      lockServes s.lock.state = false ∨ s.member.stations.any (fun e => e.2.state == .inService) = true →
        t.member.state = .catchingUp ∧ t.member.attempt = none ∧ t.member.joinDeadline = none ∧ t.member.installed = false
          ∧ t.member.snapshotNeeded = s.member.stations.any (fun e => e.2.state == .inService)
          ∧ t.ring.inFlight = s.ring.inFlight.eraseP (matchesFlight p)
          ∧ (t.member.snapshotNeeded = true → ∃ r, s.member.tableRef = some r
              ∧ t.snap.collector = some { target := some r, attempt := 1, deadline := now s + 6, parts := [] }
              ∧ Queued s t r .snapshotReq
              ∧ Writes (Field.ofReport ++ [.inFlight, .stationState, .attempt, .joinDeadline, .snapshotNeeded, .installed, .collector,
                  .transmit]) s t)
          ∧ (t.member.snapshotNeeded = false →
              Writes (Field.ofReport ++ [.inFlight, .stationState, .attempt, .joinDeadline, .snapshotNeeded, .installed]) s t)
          ∧ Raised s t (.stateChange .catchingUp none))
    ∧ (∀ b, Returns s p → p.body = .join b → s.member.state = .joining → b.mismatch = false → LockOk s →
      lockServes s.lock.state = true → s.member.stations.any (fun e => e.2.state == .inService) = false →
        t.member.state = .inService ∧ t.table.seeded = true ∧ t.member.attempt = none ∧ t.member.joinDeadline = none
          ∧ t.member.snapshotNeeded = false ∧ t.member.installed = false ∧ t.member.mismatch = 0
          ∧ t.ring.inFlight = s.ring.inFlight.eraseP (matchesFlight p)
          ∧ t.member.tableRef = computeTableRef t ∧ t.member.timingRef = computeTimingRef t
          ∧ LockFollows s t ∧ CollectorMoves t.member.tableRef s t
          ∧ t.report = handOver [.event (.stateChange .catchingUp none), .event (.stateChange .inService none)] (now s) s.report
          ∧ Writes (Field.ofRefs ++ Field.ofReport ++ [.inFlight, .stationState, .attempt, .joinDeadline, .snapshotNeeded, .installed,
              .seeded]) s t)
    ∧ (∀ b, Returns s p → p.body = .beacon b → s.member.outstanding = some b.frame → t.member.returned = true
        ∧ t.ring.inFlight = s.ring.inFlight.eraseP (matchesFlight p) ∧ Writes [.inFlight, .returned] s t)
    ∧ (∀ b, Returns s p → p.body = .beacon b → s.member.outstanding ≠ some b.frame →
        t.ring.inFlight = s.ring.inFlight.eraseP (matchesFlight p) ∧ Writes [.inFlight] s t)
    ∧ (s.ring.inFlight.any (matchesFlight p) = false → s.member.state = .joining →
        Isolated s t ∧ Raised s t (.stateChange .isolated (some .duplicate)) ∧ Writes (Field.ofIsolation ++ Field.ofReport) s t)
    ∧ (s.ring.inFlight.any (matchesFlight p) = false → s.member.state ≠ .joining →
        Raised s t (.duplicateStation (Body.kind p.body) p.header.tag) ∧ Writes Field.ofReport s t)

/-- SNAPSHOT_PART_BUILD: the next part of the table as it stands, for the head requester (R131 to R133). -/
def Obligations.SnapshotPartBuilt : Prop :=
  ∀ (s : State) (r : StationNo) (rest : List StationNo) (p : Nat), s.inReset = false → s.member.state = .inService →
    s.raster.active = true → s.ring.transmit.length < 4 → s.snap.queue = r :: rest → s.snap.progress = some p → p ≤ 8 →
    Answers .snapshotPartBuild s fun t =>
      t.ring.transmit = s.ring.transmit ++ [ownParcel s r (.snapshot
          ⟨BitVec.ofNat 8 p, s.table.apply.frame, (List.range' (32 * p) (if p < 8 then 32 else 4)).map (fun i =>
            ⟨BitVec.ofNat 16 i, (Memory.read s.table.entries i).value, (Memory.read s.table.entries i).stamp⟩)⟩)]
        ∧ (p < 8 → t.snap.progress = some (p + 1) ∧ t.snap.queue = s.snap.queue)
        ∧ (p = 8 → t.snap.queue = rest ∧ t.snap.progress = (if rest = [] then none else some 0))
        ∧ Writes [.transmit, .responder, .progress] s t

/-- SEND_BEGIN: the arbiter's choice, the streak, the tag and the in-flight entry, and the counter at the next free tag (R45 to R47). SEND_END: ROUT idle, and the notice
that a duplicate's parcel carries, which isolates the station in LISTENING and in JOINING (R40, R48, R63). -/
def Obligations.SendsBeginAndEnd : Prop :=
  (∀ s : State, bypass s = false → s.ring.rout = none →
    (∀ w rest, s.ring.insertion = w :: rest → headReady s = false ∨ s.ring.streak < 8 → Answers .sendBegin s fun t =>
      t.ring.rout = some w ∧ t.ring.insertion = rest
        ∧ t.ring.streak = (if headReady s then s.ring.streak + 1 else 0)
        ∧ Writes [.rout, .insertion, .streak] s t)
    ∧ (∀ p rest, s.ring.transmit = p :: rest → s.ring.inFlight.length < 8 → s.ring.insertion = [] ∨ 8 ≤ s.ring.streak →
      Answers .sendBegin s fun t =>
        t.ring.rout = some { parcel := { p with header := { p.header with tag := s.ring.tag } }, notice := false }
          ∧ t.ring.transmit = rest ∧ t.ring.streak = 0
          ∧ t.ring.inFlight = s.ring.inFlight ++
              [{ tag := s.ring.tag, kind := Body.kind p.body, seq := Body.seq p.body, frame := now s }]
          ∧ NextFree (t.ring.inFlight.map (·.tag)) s.ring.tag t.ring.tag
          ∧ Writes [.rout, .transmit, .streak, .inFlight, .tag] s t)
    ∧ (s.ring.insertion = [] → headReady s = false → exec .sendBegin s = .next s))
  ∧ ∀ (s : State) (w : Waiting), s.inReset = false → s.ring.rout = some w →
    (w.notice = false → Answers .sendEnd s fun t => t.ring.rout = none ∧ Writes [.rout] s t)
    ∧ (w.notice = true → s.member.state = .listening ∨ s.member.state = .joining → Answers .sendEnd s fun t =>
        Isolated s t ∧ Raised s t (.stateChange .isolated (some .duplicate)) ∧ Writes (Field.ofIsolation ++ Field.ofReport) s t)

/-- A record formed with the line idle begins its send at once; formed behind others at a queue with room it joins the tail; either
carries the lost flag away; at a full queue it is discarded and the flag set (R166 to R168). REPORT_SEND_END ends a send, and the next
head begins at once; an end announced for after some records comes with the last of them (R167; log entry 11). A count at 65535 stays
there (R171). The bytes a record is sent as, with the codes of its station states, lock states and parcel kinds (R177, R179), and their levels on
RPT (R175; log entry 41). -/
def Obligations.ReportLineWorks : Prop :=
  (∀ (r : Report) (s : State),
    Writes Field.ofReport s (report r s)
    ∧ (s.report.endsAfter = 0 →
      (s.report.sending = none → s.report.queue = [] → (report r s).report.queue = [] ∧ (report r s).report.lost = false
        ∧ (report r s).report.sending = some { report := r, lost := s.report.lost, frame := now s })
      ∧ (s.report.sending.isSome = true → s.report.queue.length < 16 → (report r s).report.lost = false
        ∧ (report r s).report.queue = s.report.queue ++ [{ report := r, lost := s.report.lost, frame := now s }]
        ∧ (report r s).report.sending = s.report.sending)
      ∧ (16 ≤ s.report.queue.length → (report r s).report = { s.report with lost := true }))
    ∧ (∀ n u, s.report.endsAfter = n + 1 → s.report.sending.isSome = true →
      u = (report r { s with report.endsAfter := 0 }).report →
        (report r s).report = if n = 0 then { u with sending := u.queue.head?, queue := u.queue.tail }
          else { u with endsAfter := n }))
  ∧ (∀ s : State, s.inReset = false →
    (∀ r rest, s.report.sending = none → s.report.queue = r :: rest → Answers .reportSendBegin s fun t =>
        t.report.sending = some r ∧ t.report.queue = rest ∧ Writes [.sending, .reports] s t)
    ∧ (s.report.sending.isSome = true ∨ s.report.queue = [] → exec .reportSendBegin s = .next s)
    ∧ (s.report.sending.isSome = true → Answers (.reportSendEnd 0) s fun t =>
        t.report.sending = s.report.queue.head? ∧ t.report.queue = s.report.queue.tail ∧ t.report.endsAfter = 0
          ∧ Writes [.sending, .sendEnds, .reports] s t)
    ∧ (∀ n, s.report.sending.isSome = true → Answers (.reportSendEnd (n + 1)) s fun t =>
        t.report.endsAfter = n + 1 ∧ Writes [.sendEnds] s t)
    ∧ (∀ n, s.report.sending = none → exec (.reportSendEnd n) s = .next s))
  ∧ (∀ c : Count, (countUp c).toNat = min 65535 (c.toNat + 1))
  ∧ (∀ r : ReportRecord, ∃ check : Byte,
    recordBytes r = [BitVec.ofNat 8 (reportFields r.report).length, reportCode r.report, if r.lost then 1 else 0,
        hiByte r.frame, loByte r.frame] ++ reportFields r.report ++ [check]
      ∧ sum8 (recordBytes r) = 0 ∧ (reportFields r.report).length ≤ 24)
  ∧ (∀ (q n k h : Byte) (part : Bool) (m round i : Nat) (v : Colour) (F G A : Frame) (o : StationNo) (d : Int) (f : StatusFields),
    let is := fun (r : Report) (code : Byte) (fields : List Byte) => reportCode r = code ∧ reportFields r = fields
    is (.updateQueued q m part round none) 1 [q, BitVec.ofNat 8 m, if part then 1 else 0, BitVec.ofNat 8 round, 0, 0]
    ∧ is (.updateQueued q m part round (some k)) 1 [q, BitVec.ofNat 8 m, if part then 1 else 0, BitVec.ofNat 8 round, 1, k]
    ∧ is (.updateCommitted q F h) 2 [q, hiByte F, loByte F, h]
    ∧ is (.updateRejected .ring (some q)) 3 [4, 1, q] ∧ is (.updateRejected .refused (some q)) 3 [5, 1, q]
    ∧ is (.updateRejected .notInService none) 3 [1, 0, 0] ∧ is (.updateRejected .busy none) 3 [2, 0, 0]
    ∧ is (.updateRejected .storeFull none) 3 [3, 0, 0]
    ∧ is (.updateUnconfirmed q F) 4 [q, hiByte F, loByte F]
    ∧ is (.entry i v .null) 5 [hiByte (BitVec.ofNat 16 i), loByte (BitVec.ofNat 16 i), v.red, v.green, v.blue, 0, 0, 0, 0]
    ∧ is (.entry i v (.mark F o q)) 5
        [hiByte (BitVec.ofNat 16 i), loByte (BitVec.ofNat 16 i), v.red, v.green, v.blue, hiByte F, loByte F, o, q]
    ∧ is (.packetError .check (some k)) 6 [1, 1, k] ∧ is (.packetError .kind (some k)) 6 [2, 1, k]
    ∧ is (.packetError .length (some k)) 6 [3, 1, k] ∧ is (.packetError .empty (some k)) 6 [4, 1, k]
    ∧ is (.packetError .truncated none) 6 [5, 0, 0] ∧ is (.packetError .outside none) 6 [6, 0, 0]
    ∧ is (.packetError .busy (some k)) 6 [7, 1, k]
    ∧ is (.status f) 7 ([f.station, StationState.code f.state, LockState.code f.lock, hiByte f.frame, loByte f.frame,
        f.tableRef.getD 0, f.timingRef.getD 0, BitVec.ofNat 8 f.present, BitVec.ofNat 8 f.openRecords, BitVec.ofNat 8 f.retained,
        BitVec.ofNat 8 f.originRecords, if f.seeded then 1 else 0]
        ++ [f.counts.crc, f.counts.overflow, f.counts.stray, f.counts.underrun, f.counts.late, f.counts.frameSlip].flatMap
          (fun c => [hiByte c, loByte c]))
    ∧ is (.event (.lateCommit o q F G)) 8 [1, o, q, hiByte F, loByte F, hiByte G, loByte G]
    ∧ is (.event (.frameSlip F G d)) 8 [2, hiByte F, loByte F, hiByte G, loByte G, hiByte (BitVec.ofInt 16 d), loByte (BitVec.ofInt 16 d)]
    ∧ is (.event (.holdExpired o q A F)) 8 [3, o, q, hiByte A, loByte A, hiByte F, loByte F]
    ∧ ([.beacon, .join, .propose, .commit, .withdraw, .snapshotReq, .snapshot] : List Kind).map
        (fun x => (reportCode (.event (.duplicateStation x n)), reportFields (.event (.duplicateStation x n))))
      = ([1, 2, 3, 4, 5, 6, 7] : List Byte).map (fun c => (8, [4, c, n]))
    ∧ ([.offRing, .listening, .joining, .catchingUp, .inService, .ringHold, .resync, .isolated] : List StationState).map
        (fun x => (StationState.code x, reportCode (.event (.stateChange x none)), reportFields (.event (.stateChange x none))))
      = ([0, 1, 2, 3, 4, 5, 6, 7] : List Byte).map (fun c => (c, 8, [10, c, 0]))
    ∧ ([.reference, .free, .slewing, .locked] : List LockState).map LockState.code = [0, 1, 2, 3]
    ∧ is (.event .ringHold) 8 [5] ∧ is (.event .ringClosed) 8 [6]
    ∧ is (.event (.resyncStart .digest)) 8 [7, 1] ∧ is (.event (.resyncStart .mark)) 8 [7, 2]
    ∧ is (.event .resyncDone) 8 [8] ∧ is (.event .resyncFailed) 8 [9]
    ∧ is (.event (.stateChange .inService none)) 8 [10, 4, 0]
    ∧ is (.event (.stateChange .isolated (some .invalidStrap))) 8 [10, 7, 1]
    ∧ is (.event (.stateChange .isolated (some .duplicate))) 8 [10, 7, 2]
    ∧ is (.event (.stateChange .isolated (some .mismatch))) 8 [10, 7, 3]
    ∧ is (.event (.stateChange .isolated (some .noReturn))) 8 [10, 7, 4])
  ∧ (∀ s : State, reportRun s = s.report.sending.map recordBytes
    ∧ reportBits s = (reportRun s).map (fun run => run.flatMap (fun b =>
        [false, b[0], b[1], b[2], b[3], b[4], b[5], b[6], b[7], true])))

/-! ## What a whole run keeps -/

/-- A parcel that passes the form check, laid out as bytes with its CRC-16, is read back as the part holds it, and so it is from the bits of
those bytes on a link, each byte least significant bit first (R34 to R37, R175, R177). -/
def Obligations.ParcelsReadBack : Prop :=
  ∀ p : Parcel, parcelOk p = true →
    readRun (runOf p) = some (parcelNorm p) ∧ readRun (bytesOfBits (linkBits (runOf p))) = some (parcelNorm p)

/-- Every step keeps the invariants of the Ring Interface (R41, R43 to R47), of the raster (R23, R29, R30) and of the report line (R166,
R167), and each point of the frame at its line, DE to the active lines outside reset (R8, R14, R26, R27, R145, R150, R160, R165). -/
def Obligations.RingRasterAndReportsKept : Prop :=
  ∀ s t : State, step s = .next t →
    (RingOk s → RingOk t) ∧ (RasterOk s → RasterOk t) ∧ (ReportOk s → ReportOk t)
      ∧ (PointsOk s → RasterOk s → UpdatesOk s → PixelOk s → PointsOk t)

/-- Every step keeps the Table Store's invariant (R2, R14 to R17). -/
def Obligations.TableKept : Prop := ∀ s t : State, TableOk s → step s = .next t → TableOk t

/-- Every step keeps the invariant of the Proposal Store and the Origin Engine (R91, R92, R110, R124). -/
def Obligations.UpdatesKept : Prop := ∀ s t : State, UpdatesOk s → step s = .next t → UpdatesOk t

/-- Every step keeps what each station state excludes, the references with the Lock Unit's and the collector's copies of them, and the
Membership Unit's counts and table. -/
def Obligations.MembershipKept : Prop :=
  ∀ s t : State, ServiceOk s → LockOk s → MemberOk s → step s = .next t → ServiceOk t ∧ LockOk t ∧ MemberOk t

/-- Every step keeps the Pixel Port's invariant (R145, R146, R158, R160). -/
def Obligations.PixelKept : Prop := ∀ s t : State, PixelOk s → step s = .next t → PixelOk t
end

