-- ==== Sys2Proof/Laws/Find.lean ====
section
/-! SUPPORT. Laws/Find.lean: looking up a slot, an origin record or a station's entry after one of them was changed, removed or
added. -/

namespace Sys2Proof.Machine

/-! ## Lists -/

/-- What is found is not changed by a change of what is not looked for. -/
theorem find?_map_of_eq {α : Type} {p : α → Bool} {f : α → α} : ∀ {l : List α},
    (∀ x ∈ l, p (f x) = p x) → (∀ x ∈ l, p x = true → f x = x) → (l.map f).find? p = l.find? p
  | [], _, _ => rfl
  | x :: l, h, hf => by
    rw [List.map_cons, List.find?_cons, List.find?_cons, h x (by simp)]
    cases hp : p x
    · exact find?_map_of_eq (fun y hy => h y (by simp [hy])) (fun y hy => hf y (by simp [hy]))
    · simp only [hf x (by simp) hp]

/-- What is found is not changed by the removal of what is not looked for. -/
theorem find?_filter_of_imp {α : Type} {p q : α → Bool} : ∀ {l : List α},
    (∀ x ∈ l, p x = true → q x = true) → (l.filter q).find? p = l.find? p
  | [], _ => rfl
  | x :: l, h => by
    have ih := find?_filter_of_imp (p := p) (q := q) (l := l) (fun y hy => h y (by simp [hy]))
    cases hp : p x
    · cases hq : q x
      · rw [List.filter_cons_of_neg (by simp [hq]), List.find?_cons, hp]; exact ih
      · rw [List.filter_cons_of_pos hq, List.find?_cons, List.find?_cons, hp]; exact ih
    · rw [List.filter_cons_of_pos (h x (by simp) hp), List.find?_cons, List.find?_cons, hp]

/-! ## Slots (R146) -/

theorem findSlot_line {k : Nat} {s : State} {x : Slot} (h : findSlot k s = some x) : x.line = k ∧ x ∈ s.pixel.slots :=
  ⟨by simpa using List.find?_some h, List.mem_of_find?_eq_some h⟩

/-- Another line's slot stands when one is changed. -/
theorem findSlot_setSlot_ne {m k : Nat} {f : Slot → Slot} (s : State) (hf : ∀ x, (f x).line = x.line) (h : m ≠ k) :
    findSlot m (setSlot k f s) = findSlot m s := by
  unfold findSlot setSlot
  refine find?_map_of_eq (fun x _ => ?_) (fun x _ hx => ?_)
  · split <;> simp [hf]
  · rw [if_neg (by intro hk; exact h ((by simpa using hx : x.line = m).symm.trans hk))]

/-- The slot changed. -/
theorem findSlot_setSlot {k : Nat} {f : Slot → Slot} {s : State} {x : Slot} (hf : ∀ x, (f x).line = x.line)
    (h : findSlot k s = some x) : findSlot k (setSlot k f s) = some (f x) := by
  unfold findSlot setSlot at *
  dsimp only
  have hp : ((fun x : Slot => x.line == k) ∘ fun x => if x.line = k then f x else x) = fun x => x.line == k := by
    funext y; dsimp only [Function.comp]; split <;> simp [hf]
  rw [List.find?_map, hp, h, Option.map_some, if_pos (by simpa using List.find?_some h)]

/-- A request touches no slot bound to another line. -/
theorem findSlot_requestLine_ne {m k : Nat} (s : State) (h : m ≠ k) : findSlot m (requestLine k s) = findSlot m s := by
  unfold requestLine; split
  · have : (boundSlot k s).line ≠ m := fun hm => h hm.symm
    simp [findSlot, List.find?_append, this]
  · rfl

/-- When a slot is freed, only its own line and the next one requested are concerned (R145). -/
theorem findSlot_freeSlot_ne {m k : Nat} (s : State) (h : m ≠ k) (h2 : m ≠ k + 2) : findSlot m (freeSlot k s) = findSlot m s := by
  unfold freeSlot
  rw [findSlot_requestLine_ne _ h2]
  exact find?_filter_of_imp fun x _ hx => by
    have : x.line = m := by simpa using hx
    simp [this, h]

/-! ## Origin records (R91) -/

theorem findOrigin_seq {q : Seq} {s : State} {r : OriginRecord} (h : findOrigin q s = some r) : r.seq = q ∧ r ∈ s.origin.list :=
  ⟨by simpa using List.find?_some h, List.mem_of_find?_eq_some h⟩

/-- Another record stands when one is changed. -/
theorem findOrigin_setOrigin_ne {x q : Seq} {f : OriginRecord → OriginRecord} (s : State)
    (hf : ∀ r, r.seq = q → (f r).seq ≠ x) (h : x ≠ q) : findOrigin x (setOrigin q f s) = findOrigin x s := by
  unfold findOrigin setOrigin
  refine find?_map_of_eq (fun r _ => ?_) (fun r _ hr => ?_)
  · split
    · rename_i hq
      have h1 : ((f r).seq == x) = false := by simpa using hf r hq
      have h2 : (r.seq == x) = false := by simpa [hq] using fun e : q = x => h e.symm
      rw [h1, h2]
    · rfl
  · rw [if_neg (by intro hk; exact h ((by simpa using hr : r.seq = x).symm.trans hk))]

/-- Another record stands when one leaves. -/
theorem findOrigin_dropOrigin_ne {x q : Seq} (s : State) (h : x ≠ q) : findOrigin x (dropOrigin q s) = findOrigin x s := by
  unfold findOrigin dropOrigin
  exact find?_filter_of_imp fun r _ hr => by
    have : r.seq = x := by simpa using hr
    simp [this, h]

/-- The record that left is gone. -/
theorem findOrigin_dropOrigin (q : Seq) (s : State) : findOrigin q (dropOrigin q s) = none := by
  simp [findOrigin, dropOrigin, List.find?_eq_none]

/-! ## Station entries (R68) -/

/-- The entry made present. -/
theorem findStation_putStation (n : StationNo) (e : StationEntry) : ∀ l : List (StationNo × StationEntry),
    findStation n (putStation n e l) = some e
  | [] => by simp [findStation, putStation]
  | (m, f) :: rest => by
    unfold putStation; split
    · simp [findStation]
    · split
      · simp [findStation]
      · rename_i hne
        have ih := findStation_putStation n e rest
        unfold findStation at ih ⊢
        rw [List.find?_cons, show ((m, f).1 == n) = false by simpa using fun h : m = n => hne h.symm]
        exact ih

/-- Every other entry stands. -/
theorem findStation_putStation_ne {m n : StationNo} (h : m ≠ n) (e : StationEntry) : ∀ l : List (StationNo × StationEntry),
    findStation m (putStation n e l) = findStation m l
  | [] => by simp [findStation, putStation, Ne.symm h]
  | (k, f) :: rest => by
    have hn : (n == m) = false := by simpa using Ne.symm h
    unfold putStation; split
    · simp [findStation, hn]
    · split
      · rename_i hk
        subst hk
        simp [findStation, hn]
      · have ih := findStation_putStation_ne h e rest
        unfold findStation at ih ⊢
        rw [List.find?_cons, List.find?_cons]
        cases k == m
        · exact ih
        · rfl

/-! ## The Origin Engine's next record -/

/-- The next record is the first in the list whose deadline is reached (R105). -/
theorem nextOrigin_of_reached {F : Frame} {s : State} {q : Seq} {r : OriginRecord} {rest : List Seq} (hq : findOrigin q s = some r)
    (hr : originReached F r = true) : ∀ before : List Seq,
      (∀ x ∈ before, ∀ y, findOrigin x s = some y → originReached F y = false) →
        nextOrigin F s (before ++ q :: rest) = some (r, rest)
  | [], _ => by simp [nextOrigin, hq, hr]
  | x :: before, h => by
    have ih := nextOrigin_of_reached (rest := rest) hq hr before (fun y hy => h y (List.mem_cons_of_mem _ hy))
    show nextOrigin F s (x :: (before ++ q :: rest)) = _
    rw [nextOrigin]
    cases hx : findOrigin x s with
    | none => exact ih
    | some y => simp [h x List.mem_cons_self y hx, ih]

end Sys2Proof.Machine
end

