-- ==== Sys2Proof/Laws/State.lean ====
section
/-! SUPPORT. Laws/State.lean: each named update of the state, field by field, so that no proof unfolds a record update. -/

namespace Sys2Proof.Machine

/-! countCrc -/

@[simp] theorem countCrc_inReset (s : State) : (countCrc s).inReset = s.inReset := rfl
@[simp] theorem countCrc_straps (s : State) : (countCrc s).straps = s.straps := rfl
@[simp] theorem countCrc_raster (s : State) : (countCrc s).raster = s.raster := rfl
@[simp] theorem countCrc_table (s : State) : (countCrc s).table = s.table := rfl
@[simp] theorem countCrc_ring (s : State) : (countCrc s).ring = s.ring := rfl
@[simp] theorem countCrc_member (s : State) : (countCrc s).member = s.member := rfl
@[simp] theorem countCrc_lock (s : State) : (countCrc s).lock = s.lock := rfl
@[simp] theorem countCrc_origin (s : State) : (countCrc s).origin = s.origin := rfl
@[simp] theorem countCrc_store (s : State) : (countCrc s).store = s.store := rfl
@[simp] theorem countCrc_snap (s : State) : (countCrc s).snap = s.snap := rfl
@[simp] theorem countCrc_pixel (s : State) : (countCrc s).pixel = s.pixel := rfl
@[simp] theorem countCrc_panel (s : State) : (countCrc s).panel = s.panel := rfl
@[simp] theorem countCrc_crc (s : State) : (countCrc s).report.counts.crc = countUp s.report.counts.crc := rfl
@[simp] theorem countCrc_queue (s : State) : (countCrc s).report.queue = s.report.queue := rfl
@[simp] theorem countCrc_startWork (s : State) : (countCrc s).startWork = s.startWork := rfl
@[simp] theorem countCrc_freeDraws (s : State) : (countCrc s).freeDraws = s.freeDraws := rfl
@[simp] theorem countCrc_pending (s : State) : (countCrc s).pending = s.pending := rfl

/-! countOverflow -/

@[simp] theorem countOverflow_inReset (s : State) : (countOverflow s).inReset = s.inReset := rfl
@[simp] theorem countOverflow_straps (s : State) : (countOverflow s).straps = s.straps := rfl
@[simp] theorem countOverflow_raster (s : State) : (countOverflow s).raster = s.raster := rfl
@[simp] theorem countOverflow_table (s : State) : (countOverflow s).table = s.table := rfl
@[simp] theorem countOverflow_ring (s : State) : (countOverflow s).ring = s.ring := rfl
@[simp] theorem countOverflow_member (s : State) : (countOverflow s).member = s.member := rfl
@[simp] theorem countOverflow_lock (s : State) : (countOverflow s).lock = s.lock := rfl
@[simp] theorem countOverflow_origin (s : State) : (countOverflow s).origin = s.origin := rfl
@[simp] theorem countOverflow_store (s : State) : (countOverflow s).store = s.store := rfl
@[simp] theorem countOverflow_snap (s : State) : (countOverflow s).snap = s.snap := rfl
@[simp] theorem countOverflow_pixel (s : State) : (countOverflow s).pixel = s.pixel := rfl
@[simp] theorem countOverflow_panel (s : State) : (countOverflow s).panel = s.panel := rfl
@[simp] theorem countOverflow_overflow (s : State) : (countOverflow s).report.counts.overflow = countUp s.report.counts.overflow := rfl
@[simp] theorem countOverflow_queue (s : State) : (countOverflow s).report.queue = s.report.queue := rfl
@[simp] theorem countOverflow_startWork (s : State) : (countOverflow s).startWork = s.startWork := rfl
@[simp] theorem countOverflow_freeDraws (s : State) : (countOverflow s).freeDraws = s.freeDraws := rfl
@[simp] theorem countOverflow_pending (s : State) : (countOverflow s).pending = s.pending := rfl

/-! countStray -/

@[simp] theorem countStray_inReset (s : State) : (countStray s).inReset = s.inReset := rfl
@[simp] theorem countStray_straps (s : State) : (countStray s).straps = s.straps := rfl
@[simp] theorem countStray_raster (s : State) : (countStray s).raster = s.raster := rfl
@[simp] theorem countStray_table (s : State) : (countStray s).table = s.table := rfl
@[simp] theorem countStray_ring (s : State) : (countStray s).ring = s.ring := rfl
@[simp] theorem countStray_member (s : State) : (countStray s).member = s.member := rfl
@[simp] theorem countStray_lock (s : State) : (countStray s).lock = s.lock := rfl
@[simp] theorem countStray_origin (s : State) : (countStray s).origin = s.origin := rfl
@[simp] theorem countStray_store (s : State) : (countStray s).store = s.store := rfl
@[simp] theorem countStray_snap (s : State) : (countStray s).snap = s.snap := rfl
@[simp] theorem countStray_pixel (s : State) : (countStray s).pixel = s.pixel := rfl
@[simp] theorem countStray_panel (s : State) : (countStray s).panel = s.panel := rfl
@[simp] theorem countStray_stray (s : State) : (countStray s).report.counts.stray = countUp s.report.counts.stray := rfl
@[simp] theorem countStray_queue (s : State) : (countStray s).report.queue = s.report.queue := rfl
@[simp] theorem countStray_startWork (s : State) : (countStray s).startWork = s.startWork := rfl
@[simp] theorem countStray_freeDraws (s : State) : (countStray s).freeDraws = s.freeDraws := rfl
@[simp] theorem countStray_pending (s : State) : (countStray s).pending = s.pending := rfl

/-! countUnderrun -/

@[simp] theorem countUnderrun_inReset (s : State) : (countUnderrun s).inReset = s.inReset := rfl
@[simp] theorem countUnderrun_straps (s : State) : (countUnderrun s).straps = s.straps := rfl
@[simp] theorem countUnderrun_raster (s : State) : (countUnderrun s).raster = s.raster := rfl
@[simp] theorem countUnderrun_table (s : State) : (countUnderrun s).table = s.table := rfl
@[simp] theorem countUnderrun_ring (s : State) : (countUnderrun s).ring = s.ring := rfl
@[simp] theorem countUnderrun_member (s : State) : (countUnderrun s).member = s.member := rfl
@[simp] theorem countUnderrun_lock (s : State) : (countUnderrun s).lock = s.lock := rfl
@[simp] theorem countUnderrun_origin (s : State) : (countUnderrun s).origin = s.origin := rfl
@[simp] theorem countUnderrun_store (s : State) : (countUnderrun s).store = s.store := rfl
@[simp] theorem countUnderrun_snap (s : State) : (countUnderrun s).snap = s.snap := rfl
@[simp] theorem countUnderrun_pixel (s : State) : (countUnderrun s).pixel = s.pixel := rfl
@[simp] theorem countUnderrun_panel (s : State) : (countUnderrun s).panel = s.panel := rfl
@[simp] theorem countUnderrun_underrun (s : State) : (countUnderrun s).report.counts.underrun = countUp s.report.counts.underrun := rfl
@[simp] theorem countUnderrun_queue (s : State) : (countUnderrun s).report.queue = s.report.queue := rfl
@[simp] theorem countUnderrun_startWork (s : State) : (countUnderrun s).startWork = s.startWork := rfl
@[simp] theorem countUnderrun_freeDraws (s : State) : (countUnderrun s).freeDraws = s.freeDraws := rfl
@[simp] theorem countUnderrun_pending (s : State) : (countUnderrun s).pending = s.pending := rfl

/-! countLate -/

@[simp] theorem countLate_inReset (s : State) : (countLate s).inReset = s.inReset := rfl
@[simp] theorem countLate_straps (s : State) : (countLate s).straps = s.straps := rfl
@[simp] theorem countLate_raster (s : State) : (countLate s).raster = s.raster := rfl
@[simp] theorem countLate_table (s : State) : (countLate s).table = s.table := rfl
@[simp] theorem countLate_ring (s : State) : (countLate s).ring = s.ring := rfl
@[simp] theorem countLate_member (s : State) : (countLate s).member = s.member := rfl
@[simp] theorem countLate_lock (s : State) : (countLate s).lock = s.lock := rfl
@[simp] theorem countLate_origin (s : State) : (countLate s).origin = s.origin := rfl
@[simp] theorem countLate_store (s : State) : (countLate s).store = s.store := rfl
@[simp] theorem countLate_snap (s : State) : (countLate s).snap = s.snap := rfl
@[simp] theorem countLate_pixel (s : State) : (countLate s).pixel = s.pixel := rfl
@[simp] theorem countLate_panel (s : State) : (countLate s).panel = s.panel := rfl
@[simp] theorem countLate_late (s : State) : (countLate s).report.counts.late = countUp s.report.counts.late := rfl
@[simp] theorem countLate_queue (s : State) : (countLate s).report.queue = s.report.queue := rfl
@[simp] theorem countLate_startWork (s : State) : (countLate s).startWork = s.startWork := rfl
@[simp] theorem countLate_freeDraws (s : State) : (countLate s).freeDraws = s.freeDraws := rfl
@[simp] theorem countLate_pending (s : State) : (countLate s).pending = s.pending := rfl

/-! countFrameSlip -/

@[simp] theorem countFrameSlip_inReset (s : State) : (countFrameSlip s).inReset = s.inReset := rfl
@[simp] theorem countFrameSlip_straps (s : State) : (countFrameSlip s).straps = s.straps := rfl
@[simp] theorem countFrameSlip_raster (s : State) : (countFrameSlip s).raster = s.raster := rfl
@[simp] theorem countFrameSlip_table (s : State) : (countFrameSlip s).table = s.table := rfl
@[simp] theorem countFrameSlip_ring (s : State) : (countFrameSlip s).ring = s.ring := rfl
@[simp] theorem countFrameSlip_member (s : State) : (countFrameSlip s).member = s.member := rfl
@[simp] theorem countFrameSlip_lock (s : State) : (countFrameSlip s).lock = s.lock := rfl
@[simp] theorem countFrameSlip_origin (s : State) : (countFrameSlip s).origin = s.origin := rfl
@[simp] theorem countFrameSlip_store (s : State) : (countFrameSlip s).store = s.store := rfl
@[simp] theorem countFrameSlip_snap (s : State) : (countFrameSlip s).snap = s.snap := rfl
@[simp] theorem countFrameSlip_pixel (s : State) : (countFrameSlip s).pixel = s.pixel := rfl
@[simp] theorem countFrameSlip_panel (s : State) : (countFrameSlip s).panel = s.panel := rfl
@[simp] theorem countFrameSlip_frameSlip (s : State) : (countFrameSlip s).report.counts.frameSlip = countUp s.report.counts.frameSlip := rfl
@[simp] theorem countFrameSlip_queue (s : State) : (countFrameSlip s).report.queue = s.report.queue := rfl
@[simp] theorem countFrameSlip_startWork (s : State) : (countFrameSlip s).startWork = s.startWork := rfl
@[simp] theorem countFrameSlip_freeDraws (s : State) : (countFrameSlip s).freeDraws = s.freeDraws := rfl
@[simp] theorem countFrameSlip_pending (s : State) : (countFrameSlip s).pending = s.pending := rfl

/-! report -/

@[simp] theorem report_inReset (r : Report) (s : State) : (report r s).inReset = s.inReset := rfl
@[simp] theorem report_straps (r : Report) (s : State) : (report r s).straps = s.straps := rfl
@[simp] theorem report_raster (r : Report) (s : State) : (report r s).raster = s.raster := rfl
@[simp] theorem report_table (r : Report) (s : State) : (report r s).table = s.table := rfl
@[simp] theorem report_ring (r : Report) (s : State) : (report r s).ring = s.ring := rfl
@[simp] theorem report_member (r : Report) (s : State) : (report r s).member = s.member := rfl
@[simp] theorem report_lock (r : Report) (s : State) : (report r s).lock = s.lock := rfl
@[simp] theorem report_origin (r : Report) (s : State) : (report r s).origin = s.origin := rfl
@[simp] theorem report_store (r : Report) (s : State) : (report r s).store = s.store := rfl
@[simp] theorem report_snap (r : Report) (s : State) : (report r s).snap = s.snap := rfl
@[simp] theorem report_pixel (r : Report) (s : State) : (report r s).pixel = s.pixel := rfl
@[simp] theorem report_panel (r : Report) (s : State) : (report r s).panel = s.panel := rfl
@[simp] theorem report_report (r : Report) (s : State) : (report r s).report = reportJoin r s.raster.frame s.report := rfl
@[simp] theorem report_startWork (r : Report) (s : State) : (report r s).startWork = s.startWork := rfl
@[simp] theorem report_freeDraws (r : Report) (s : State) : (report r s).freeDraws = s.freeDraws := rfl
@[simp] theorem report_pending (r : Report) (s : State) : (report r s).pending = s.pending := rfl

/-! event -/

@[simp] theorem event_inReset (e : Event) (s : State) : (event e s).inReset = s.inReset := rfl
@[simp] theorem event_straps (e : Event) (s : State) : (event e s).straps = s.straps := rfl
@[simp] theorem event_raster (e : Event) (s : State) : (event e s).raster = s.raster := rfl
@[simp] theorem event_table (e : Event) (s : State) : (event e s).table = s.table := rfl
@[simp] theorem event_ring (e : Event) (s : State) : (event e s).ring = s.ring := rfl
@[simp] theorem event_member (e : Event) (s : State) : (event e s).member = s.member := rfl
@[simp] theorem event_lock (e : Event) (s : State) : (event e s).lock = s.lock := rfl
@[simp] theorem event_origin (e : Event) (s : State) : (event e s).origin = s.origin := rfl
@[simp] theorem event_store (e : Event) (s : State) : (event e s).store = s.store := rfl
@[simp] theorem event_snap (e : Event) (s : State) : (event e s).snap = s.snap := rfl
@[simp] theorem event_pixel (e : Event) (s : State) : (event e s).pixel = s.pixel := rfl
@[simp] theorem event_panel (e : Event) (s : State) : (event e s).panel = s.panel := rfl
@[simp] theorem event_report (e : Event) (s : State) : (event e s).report = reportJoin (.event e) s.raster.frame s.report := rfl
@[simp] theorem event_startWork (e : Event) (s : State) : (event e s).startWork = s.startWork := rfl
@[simp] theorem event_freeDraws (e : Event) (s : State) : (event e s).freeDraws = s.freeDraws := rfl
@[simp] theorem event_pending (e : Event) (s : State) : (event e s).pending = s.pending := rfl

/-! setOrigin -/

@[simp] theorem setOrigin_inReset (q : Seq) (f : OriginRecord → OriginRecord) (s : State) : (setOrigin q f s).inReset = s.inReset := rfl
@[simp] theorem setOrigin_straps (q : Seq) (f : OriginRecord → OriginRecord) (s : State) : (setOrigin q f s).straps = s.straps := rfl
@[simp] theorem setOrigin_raster (q : Seq) (f : OriginRecord → OriginRecord) (s : State) : (setOrigin q f s).raster = s.raster := rfl
@[simp] theorem setOrigin_table (q : Seq) (f : OriginRecord → OriginRecord) (s : State) : (setOrigin q f s).table = s.table := rfl
@[simp] theorem setOrigin_ring (q : Seq) (f : OriginRecord → OriginRecord) (s : State) : (setOrigin q f s).ring = s.ring := rfl
@[simp] theorem setOrigin_member (q : Seq) (f : OriginRecord → OriginRecord) (s : State) : (setOrigin q f s).member = s.member := rfl
@[simp] theorem setOrigin_lock (q : Seq) (f : OriginRecord → OriginRecord) (s : State) : (setOrigin q f s).lock = s.lock := rfl
@[simp] theorem setOrigin_list (q : Seq) (f : OriginRecord → OriginRecord) (s : State) : (setOrigin q f s).origin.list = s.origin.list.map (fun r => if r.seq = q then f r else r) := rfl
@[simp] theorem setOrigin_nextSeq (q : Seq) (f : OriginRecord → OriginRecord) (s : State) : (setOrigin q f s).origin.nextSeq = s.origin.nextSeq := rfl
@[simp] theorem setOrigin_store (q : Seq) (f : OriginRecord → OriginRecord) (s : State) : (setOrigin q f s).store = s.store := rfl
@[simp] theorem setOrigin_snap (q : Seq) (f : OriginRecord → OriginRecord) (s : State) : (setOrigin q f s).snap = s.snap := rfl
@[simp] theorem setOrigin_pixel (q : Seq) (f : OriginRecord → OriginRecord) (s : State) : (setOrigin q f s).pixel = s.pixel := rfl
@[simp] theorem setOrigin_panel (q : Seq) (f : OriginRecord → OriginRecord) (s : State) : (setOrigin q f s).panel = s.panel := rfl
@[simp] theorem setOrigin_report (q : Seq) (f : OriginRecord → OriginRecord) (s : State) : (setOrigin q f s).report = s.report := rfl
@[simp] theorem setOrigin_startWork (q : Seq) (f : OriginRecord → OriginRecord) (s : State) : (setOrigin q f s).startWork = s.startWork := rfl
@[simp] theorem setOrigin_freeDraws (q : Seq) (f : OriginRecord → OriginRecord) (s : State) : (setOrigin q f s).freeDraws = s.freeDraws := rfl
@[simp] theorem setOrigin_pending (q : Seq) (f : OriginRecord → OriginRecord) (s : State) : (setOrigin q f s).pending = s.pending := rfl

/-! dropOrigin -/

@[simp] theorem dropOrigin_inReset (q : Seq) (s : State) : (dropOrigin q s).inReset = s.inReset := rfl
@[simp] theorem dropOrigin_straps (q : Seq) (s : State) : (dropOrigin q s).straps = s.straps := rfl
@[simp] theorem dropOrigin_raster (q : Seq) (s : State) : (dropOrigin q s).raster = s.raster := rfl
@[simp] theorem dropOrigin_table (q : Seq) (s : State) : (dropOrigin q s).table = s.table := rfl
@[simp] theorem dropOrigin_ring (q : Seq) (s : State) : (dropOrigin q s).ring = s.ring := rfl
@[simp] theorem dropOrigin_member (q : Seq) (s : State) : (dropOrigin q s).member = s.member := rfl
@[simp] theorem dropOrigin_lock (q : Seq) (s : State) : (dropOrigin q s).lock = s.lock := rfl
@[simp] theorem dropOrigin_list (q : Seq) (s : State) : (dropOrigin q s).origin.list = s.origin.list.filter (fun r => !(r.seq == q)) := rfl
@[simp] theorem dropOrigin_nextSeq (q : Seq) (s : State) : (dropOrigin q s).origin.nextSeq = s.origin.nextSeq := rfl
@[simp] theorem dropOrigin_store (q : Seq) (s : State) : (dropOrigin q s).store = s.store := rfl
@[simp] theorem dropOrigin_snap (q : Seq) (s : State) : (dropOrigin q s).snap = s.snap := rfl
@[simp] theorem dropOrigin_pixel (q : Seq) (s : State) : (dropOrigin q s).pixel = s.pixel := rfl
@[simp] theorem dropOrigin_panel (q : Seq) (s : State) : (dropOrigin q s).panel = s.panel := rfl
@[simp] theorem dropOrigin_report (q : Seq) (s : State) : (dropOrigin q s).report = s.report := rfl
@[simp] theorem dropOrigin_startWork (q : Seq) (s : State) : (dropOrigin q s).startWork = s.startWork := rfl
@[simp] theorem dropOrigin_freeDraws (q : Seq) (s : State) : (dropOrigin q s).freeDraws = s.freeDraws := rfl
@[simp] theorem dropOrigin_pending (q : Seq) (s : State) : (dropOrigin q s).pending = s.pending := rfl

/-! requestBlanking -/

@[simp] theorem requestBlanking_inReset (n : Nat) (s : State) : (requestBlanking n s).inReset = s.inReset := rfl
@[simp] theorem requestBlanking_straps (n : Nat) (s : State) : (requestBlanking n s).straps = s.straps := rfl
@[simp] theorem requestBlanking_request (n : Nat) (s : State) : (requestBlanking n s).raster.request = n := rfl
@[simp] theorem requestBlanking_frame (n : Nat) (s : State) : (requestBlanking n s).raster.frame = s.raster.frame := rfl
@[simp] theorem requestBlanking_line (n : Nat) (s : State) : (requestBlanking n s).raster.line = s.raster.line := rfl
@[simp] theorem requestBlanking_blanking (n : Nat) (s : State) : (requestBlanking n s).raster.blanking = s.raster.blanking := rfl
@[simp] theorem requestBlanking_active (n : Nat) (s : State) : (requestBlanking n s).raster.active = s.raster.active := rfl
@[simp] theorem requestBlanking_table (n : Nat) (s : State) : (requestBlanking n s).table = s.table := rfl
@[simp] theorem requestBlanking_ring (n : Nat) (s : State) : (requestBlanking n s).ring = s.ring := rfl
@[simp] theorem requestBlanking_member (n : Nat) (s : State) : (requestBlanking n s).member = s.member := rfl
@[simp] theorem requestBlanking_lock (n : Nat) (s : State) : (requestBlanking n s).lock = s.lock := rfl
@[simp] theorem requestBlanking_origin (n : Nat) (s : State) : (requestBlanking n s).origin = s.origin := rfl
@[simp] theorem requestBlanking_store (n : Nat) (s : State) : (requestBlanking n s).store = s.store := rfl
@[simp] theorem requestBlanking_snap (n : Nat) (s : State) : (requestBlanking n s).snap = s.snap := rfl
@[simp] theorem requestBlanking_pixel (n : Nat) (s : State) : (requestBlanking n s).pixel = s.pixel := rfl
@[simp] theorem requestBlanking_panel (n : Nat) (s : State) : (requestBlanking n s).panel = s.panel := rfl
@[simp] theorem requestBlanking_report (n : Nat) (s : State) : (requestBlanking n s).report = s.report := rfl
@[simp] theorem requestBlanking_startWork (n : Nat) (s : State) : (requestBlanking n s).startWork = s.startWork := rfl
@[simp] theorem requestBlanking_freeDraws (n : Nat) (s : State) : (requestBlanking n s).freeDraws = s.freeDraws := rfl
@[simp] theorem requestBlanking_pending (n : Nat) (s : State) : (requestBlanking n s).pending = s.pending := rfl

/-! clearResponder -/

@[simp] theorem clearResponder_inReset (s : State) : (clearResponder s).inReset = s.inReset := rfl
@[simp] theorem clearResponder_straps (s : State) : (clearResponder s).straps = s.straps := rfl
@[simp] theorem clearResponder_raster (s : State) : (clearResponder s).raster = s.raster := rfl
@[simp] theorem clearResponder_table (s : State) : (clearResponder s).table = s.table := rfl
@[simp] theorem clearResponder_ring (s : State) : (clearResponder s).ring = s.ring := rfl
@[simp] theorem clearResponder_member (s : State) : (clearResponder s).member = s.member := rfl
@[simp] theorem clearResponder_lock (s : State) : (clearResponder s).lock = s.lock := rfl
@[simp] theorem clearResponder_origin (s : State) : (clearResponder s).origin = s.origin := rfl
@[simp] theorem clearResponder_store (s : State) : (clearResponder s).store = s.store := rfl
@[simp] theorem clearResponder_queue (s : State) : (clearResponder s).snap.queue = [] := rfl
@[simp] theorem clearResponder_progress (s : State) : (clearResponder s).snap.progress = none := rfl
@[simp] theorem clearResponder_collector (s : State) : (clearResponder s).snap.collector = s.snap.collector := rfl
@[simp] theorem clearResponder_pixel (s : State) : (clearResponder s).pixel = s.pixel := rfl
@[simp] theorem clearResponder_panel (s : State) : (clearResponder s).panel = s.panel := rfl
@[simp] theorem clearResponder_report (s : State) : (clearResponder s).report = s.report := rfl
@[simp] theorem clearResponder_startWork (s : State) : (clearResponder s).startWork = s.startWork := rfl
@[simp] theorem clearResponder_freeDraws (s : State) : (clearResponder s).freeDraws = s.freeDraws := rfl
@[simp] theorem clearResponder_pending (s : State) : (clearResponder s).pending = s.pending := rfl

/-! enterListening -/

@[simp] theorem enterListening_inReset (s : State) : (enterListening s).inReset = s.inReset := rfl
@[simp] theorem enterListening_straps (s : State) : (enterListening s).straps = s.straps := rfl
@[simp] theorem enterListening_raster (s : State) : (enterListening s).raster = s.raster := rfl
@[simp] theorem enterListening_table (s : State) : (enterListening s).table = s.table := rfl
@[simp] theorem enterListening_guard (s : State) : (enterListening s).ring.guard = true := rfl
@[simp] theorem enterListening_transmit (s : State) : (enterListening s).ring.transmit = s.ring.transmit := rfl
@[simp] theorem enterListening_state (s : State) : (enterListening s).member.state = .listening := rfl
@[simp] theorem enterListening_listen (s : State) : (enterListening s).member.listen = 0 := rfl
@[simp] theorem enterListening_stations (s : State) : (enterListening s).member.stations = s.member.stations := rfl
@[simp] theorem enterListening_lock (s : State) : (enterListening s).lock = s.lock := rfl
@[simp] theorem enterListening_origin (s : State) : (enterListening s).origin = s.origin := rfl
@[simp] theorem enterListening_store (s : State) : (enterListening s).store = s.store := rfl
@[simp] theorem enterListening_snap (s : State) : (enterListening s).snap = s.snap := rfl
@[simp] theorem enterListening_pixel (s : State) : (enterListening s).pixel = s.pixel := rfl
@[simp] theorem enterListening_panel (s : State) : (enterListening s).panel = s.panel := rfl
@[simp] theorem enterListening_report (s : State) : (enterListening s).report = s.report := rfl
@[simp] theorem enterListening_startWork (s : State) : (enterListening s).startWork = s.startWork := rfl
@[simp] theorem enterListening_freeDraws (s : State) : (enterListening s).freeDraws = s.freeDraws := rfl
@[simp] theorem enterListening_pending (s : State) : (enterListening s).pending = s.pending := rfl

/-! beginDigest -/

@[simp] theorem beginDigest_inReset (s : State) : (beginDigest s).inReset = s.inReset := rfl
@[simp] theorem beginDigest_straps (s : State) : (beginDigest s).straps = s.straps := rfl
@[simp] theorem beginDigest_raster (s : State) : (beginDigest s).raster = s.raster := rfl
@[simp] theorem beginDigest_digest (s : State) : (beginDigest s).table.digest = some (now s, tableDigest s.table.entries) := rfl
@[simp] theorem beginDigest_entries (s : State) : (beginDigest s).table.entries = s.table.entries := rfl
@[simp] theorem beginDigest_apply (s : State) : (beginDigest s).table.apply = s.table.apply := rfl
@[simp] theorem beginDigest_ring (s : State) : (beginDigest s).ring = s.ring := rfl
@[simp] theorem beginDigest_member (s : State) : (beginDigest s).member = s.member := rfl
@[simp] theorem beginDigest_lock (s : State) : (beginDigest s).lock = s.lock := rfl
@[simp] theorem beginDigest_origin (s : State) : (beginDigest s).origin = s.origin := rfl
@[simp] theorem beginDigest_store (s : State) : (beginDigest s).store = s.store := rfl
@[simp] theorem beginDigest_snap (s : State) : (beginDigest s).snap = s.snap := rfl
@[simp] theorem beginDigest_pixel (s : State) : (beginDigest s).pixel = s.pixel := rfl
@[simp] theorem beginDigest_panel (s : State) : (beginDigest s).panel = s.panel := rfl
@[simp] theorem beginDigest_report (s : State) : (beginDigest s).report = s.report := rfl
@[simp] theorem beginDigest_startWork (s : State) : (beginDigest s).startWork = s.startWork := rfl
@[simp] theorem beginDigest_freeDraws (s : State) : (beginDigest s).freeDraws = s.freeDraws := rfl
@[simp] theorem beginDigest_pending (s : State) : (beginDigest s).pending = s.pending := rfl

/-! driveLine -/

@[simp] theorem driveLine_inReset (l : List Byte) (s : State) : (driveLine l s).inReset = s.inReset := rfl
@[simp] theorem driveLine_straps (l : List Byte) (s : State) : (driveLine l s).straps = s.straps := rfl
@[simp] theorem driveLine_raster (l : List Byte) (s : State) : (driveLine l s).raster = s.raster := rfl
@[simp] theorem driveLine_table (l : List Byte) (s : State) : (driveLine l s).table = s.table := rfl
@[simp] theorem driveLine_ring (l : List Byte) (s : State) : (driveLine l s).ring = s.ring := rfl
@[simp] theorem driveLine_member (l : List Byte) (s : State) : (driveLine l s).member = s.member := rfl
@[simp] theorem driveLine_lock (l : List Byte) (s : State) : (driveLine l s).lock = s.lock := rfl
@[simp] theorem driveLine_origin (l : List Byte) (s : State) : (driveLine l s).origin = s.origin := rfl
@[simp] theorem driveLine_store (l : List Byte) (s : State) : (driveLine l s).store = s.store := rfl
@[simp] theorem driveLine_snap (l : List Byte) (s : State) : (driveLine l s).snap = s.snap := rfl
@[simp] theorem driveLine_pixel (l : List Byte) (s : State) : (driveLine l s).pixel = s.pixel := rfl
@[simp] theorem driveLine_pixels (l : List Byte) (s : State) : (driveLine l s).panel.pixels = linePixels s l := rfl
@[simp] theorem driveLine_black (l : List Byte) (s : State) : (driveLine l s).panel.black = s.panel.black := rfl
@[simp] theorem driveLine_vsync (l : List Byte) (s : State) : (driveLine l s).panel.vsync = s.panel.vsync := rfl
@[simp] theorem driveLine_report (l : List Byte) (s : State) : (driveLine l s).report = s.report := rfl
@[simp] theorem driveLine_startWork (l : List Byte) (s : State) : (driveLine l s).startWork = s.startWork := rfl
@[simp] theorem driveLine_freeDraws (l : List Byte) (s : State) : (driveLine l s).freeDraws = s.freeDraws := rfl
@[simp] theorem driveLine_pending (l : List Byte) (s : State) : (driveLine l s).pending = s.pending := rfl

/-! setSlot -/

@[simp] theorem setSlot_inReset (k : Nat) (f : Slot → Slot) (s : State) : (setSlot k f s).inReset = s.inReset := rfl
@[simp] theorem setSlot_straps (k : Nat) (f : Slot → Slot) (s : State) : (setSlot k f s).straps = s.straps := rfl
@[simp] theorem setSlot_raster (k : Nat) (f : Slot → Slot) (s : State) : (setSlot k f s).raster = s.raster := rfl
@[simp] theorem setSlot_table (k : Nat) (f : Slot → Slot) (s : State) : (setSlot k f s).table = s.table := rfl
@[simp] theorem setSlot_ring (k : Nat) (f : Slot → Slot) (s : State) : (setSlot k f s).ring = s.ring := rfl
@[simp] theorem setSlot_member (k : Nat) (f : Slot → Slot) (s : State) : (setSlot k f s).member = s.member := rfl
@[simp] theorem setSlot_lock (k : Nat) (f : Slot → Slot) (s : State) : (setSlot k f s).lock = s.lock := rfl
@[simp] theorem setSlot_origin (k : Nat) (f : Slot → Slot) (s : State) : (setSlot k f s).origin = s.origin := rfl
@[simp] theorem setSlot_store (k : Nat) (f : Slot → Slot) (s : State) : (setSlot k f s).store = s.store := rfl
@[simp] theorem setSlot_snap (k : Nat) (f : Slot → Slot) (s : State) : (setSlot k f s).snap = s.snap := rfl
@[simp] theorem setSlot_slots (k : Nat) (f : Slot → Slot) (s : State) : (setSlot k f s).pixel.slots = s.pixel.slots.map (fun x => if x.line = k then f x else x) := rfl
@[simp] theorem setSlot_outstanding (k : Nat) (f : Slot → Slot) (s : State) : (setSlot k f s).pixel.outstanding = s.pixel.outstanding := rfl
@[simp] theorem setSlot_rx (k : Nat) (f : Slot → Slot) (s : State) : (setSlot k f s).pixel.rx = s.pixel.rx := rfl
@[simp] theorem setSlot_panel (k : Nat) (f : Slot → Slot) (s : State) : (setSlot k f s).panel = s.panel := rfl
@[simp] theorem setSlot_report (k : Nat) (f : Slot → Slot) (s : State) : (setSlot k f s).report = s.report := rfl
@[simp] theorem setSlot_startWork (k : Nat) (f : Slot → Slot) (s : State) : (setSlot k f s).startWork = s.startWork := rfl
@[simp] theorem setSlot_freeDraws (k : Nat) (f : Slot → Slot) (s : State) : (setSlot k f s).freeDraws = s.freeDraws := rfl
@[simp] theorem setSlot_pending (k : Nat) (f : Slot → Slot) (s : State) : (setSlot k f s).pending = s.pending := rfl

/-! beginReport -/

@[simp] theorem beginReport_inReset (s : State) : (beginReport s).inReset = s.inReset := rfl
@[simp] theorem beginReport_straps (s : State) : (beginReport s).straps = s.straps := rfl
@[simp] theorem beginReport_raster (s : State) : (beginReport s).raster = s.raster := rfl
@[simp] theorem beginReport_table (s : State) : (beginReport s).table = s.table := rfl
@[simp] theorem beginReport_ring (s : State) : (beginReport s).ring = s.ring := rfl
@[simp] theorem beginReport_member (s : State) : (beginReport s).member = s.member := rfl
@[simp] theorem beginReport_lock (s : State) : (beginReport s).lock = s.lock := rfl
@[simp] theorem beginReport_origin (s : State) : (beginReport s).origin = s.origin := rfl
@[simp] theorem beginReport_store (s : State) : (beginReport s).store = s.store := rfl
@[simp] theorem beginReport_snap (s : State) : (beginReport s).snap = s.snap := rfl
@[simp] theorem beginReport_pixel (s : State) : (beginReport s).pixel = s.pixel := rfl
@[simp] theorem beginReport_panel (s : State) : (beginReport s).panel = s.panel := rfl
@[simp] theorem beginReport_report (s : State) : (beginReport s).report = nextSend s.report := rfl
@[simp] theorem beginReport_startWork (s : State) : (beginReport s).startWork = s.startWork := rfl
@[simp] theorem beginReport_freeDraws (s : State) : (beginReport s).freeDraws = s.freeDraws := rfl
@[simp] theorem beginReport_pending (s : State) : (beginReport s).pending = s.pending := rfl

/-! endCut -/

@[simp] theorem endCut_inReset (s : State) : (endCut s).inReset = s.inReset := rfl
@[simp] theorem endCut_straps (s : State) : (endCut s).straps = s.straps := rfl
@[simp] theorem endCut_raster (s : State) : (endCut s).raster = s.raster := rfl
@[simp] theorem endCut_table (s : State) : (endCut s).table = s.table := rfl
@[simp] theorem endCut_cut (s : State) : (endCut s).ring.cut = false := rfl
@[simp] theorem endCut_insertion (s : State) : (endCut s).ring.insertion = s.ring.insertion := rfl
@[simp] theorem endCut_transmit (s : State) : (endCut s).ring.transmit = s.ring.transmit := rfl
@[simp] theorem endCut_inFlight (s : State) : (endCut s).ring.inFlight = s.ring.inFlight := rfl
@[simp] theorem endCut_rout (s : State) : (endCut s).ring.rout = s.ring.rout := rfl
@[simp] theorem endCut_member (s : State) : (endCut s).member = s.member := rfl
@[simp] theorem endCut_lock (s : State) : (endCut s).lock = s.lock := rfl
@[simp] theorem endCut_origin (s : State) : (endCut s).origin = s.origin := rfl
@[simp] theorem endCut_store (s : State) : (endCut s).store = s.store := rfl
@[simp] theorem endCut_snap (s : State) : (endCut s).snap = s.snap := rfl
@[simp] theorem endCut_pixel (s : State) : (endCut s).pixel = s.pixel := rfl
@[simp] theorem endCut_panel (s : State) : (endCut s).panel = s.panel := rfl
@[simp] theorem endCut_report (s : State) : (endCut s).report = s.report := rfl
@[simp] theorem endCut_startWork (s : State) : (endCut s).startWork = s.startWork := rfl
@[simp] theorem endCut_freeDraws (s : State) : (endCut s).freeDraws = s.freeDraws := rfl
@[simp] theorem endCut_pending (s : State) : (endCut s).pending = s.pending := rfl

/-! giveApplySet -/

@[simp] theorem giveApplySet_inReset (s : State) : (giveApplySet s).inReset = s.inReset := rfl
@[simp] theorem giveApplySet_straps (s : State) : (giveApplySet s).straps = s.straps := rfl
@[simp] theorem giveApplySet_raster (s : State) : (giveApplySet s).raster = s.raster := rfl
@[simp] theorem giveApplySet_entries (s : State) : (giveApplySet s).table.entries = s.table.entries := rfl
@[simp] theorem giveApplySet_due (s : State) : (giveApplySet s).table.apply.due = s.store.filterMap (dueAt s.table.apply.frame) := rfl
@[simp] theorem giveApplySet_reapply (s : State) : (giveApplySet s).table.apply.reapply = retainedDue s.store := rfl
@[simp] theorem giveApplySet_staged (s : State) : (giveApplySet s).table.apply.staged = s.table.apply.staged := rfl
@[simp] theorem giveApplySet_applyFrame (s : State) : (giveApplySet s).table.apply.frame = s.table.apply.frame := rfl
@[simp] theorem giveApplySet_slot (s : State) : (giveApplySet s).table.slot = s.table.slot := rfl
@[simp] theorem giveApplySet_seeded (s : State) : (giveApplySet s).table.seeded = s.table.seeded := rfl
@[simp] theorem giveApplySet_digest (s : State) : (giveApplySet s).table.digest = s.table.digest := rfl
@[simp] theorem giveApplySet_history (s : State) : (giveApplySet s).table.history = s.table.history := rfl
@[simp] theorem giveApplySet_ring (s : State) : (giveApplySet s).ring = s.ring := rfl
@[simp] theorem giveApplySet_member (s : State) : (giveApplySet s).member = s.member := rfl
@[simp] theorem giveApplySet_lock (s : State) : (giveApplySet s).lock = s.lock := rfl
@[simp] theorem giveApplySet_origin (s : State) : (giveApplySet s).origin = s.origin := rfl
@[simp] theorem giveApplySet_store (s : State) : (giveApplySet s).store = s.store.map (handedOver s.table.apply.frame) := rfl
@[simp] theorem giveApplySet_snap (s : State) : (giveApplySet s).snap = s.snap := rfl
@[simp] theorem giveApplySet_pixel (s : State) : (giveApplySet s).pixel = s.pixel := rfl
@[simp] theorem giveApplySet_panel (s : State) : (giveApplySet s).panel = s.panel := rfl
@[simp] theorem giveApplySet_report (s : State) : (giveApplySet s).report = s.report := rfl
@[simp] theorem giveApplySet_startWork (s : State) : (giveApplySet s).startWork = s.startWork := rfl
@[simp] theorem giveApplySet_freeDraws (s : State) : (giveApplySet s).freeDraws = s.freeDraws := rfl
@[simp] theorem giveApplySet_pending (s : State) : (giveApplySet s).pending = s.pending := rfl

/-! passLine -/

@[simp] theorem passLine_inReset (s : State) : (passLine s).inReset = s.inReset := rfl
@[simp] theorem passLine_straps (s : State) : (passLine s).straps = s.straps := rfl
@[simp] theorem passLine_line (s : State) : (passLine s).raster.line = s.raster.line + 1 := rfl
@[simp] theorem passLine_frame (s : State) : (passLine s).raster.frame = s.raster.frame := rfl
@[simp] theorem passLine_blanking (s : State) : (passLine s).raster.blanking = s.raster.blanking := rfl
@[simp] theorem passLine_request (s : State) : (passLine s).raster.request = s.raster.request := rfl
@[simp] theorem passLine_active (s : State) : (passLine s).raster.active = s.raster.active := rfl
@[simp] theorem passLine_table (s : State) : (passLine s).table = s.table := rfl
@[simp] theorem passLine_ring (s : State) : (passLine s).ring = s.ring := rfl
@[simp] theorem passLine_member (s : State) : (passLine s).member = s.member := rfl
@[simp] theorem passLine_lock (s : State) : (passLine s).lock = s.lock := rfl
@[simp] theorem passLine_origin (s : State) : (passLine s).origin = s.origin := rfl
@[simp] theorem passLine_store (s : State) : (passLine s).store = s.store := rfl
@[simp] theorem passLine_snap (s : State) : (passLine s).snap = s.snap := rfl
@[simp] theorem passLine_pixel (s : State) : (passLine s).pixel = s.pixel := rfl
@[simp] theorem passLine_hsync (s : State) : (passLine s).panel.hsync = s.panel.hsync + 1 := rfl
@[simp] theorem passLine_pixels (s : State) : (passLine s).panel.pixels = [] := rfl
@[simp] theorem passLine_vsync (s : State) : (passLine s).panel.vsync = (s.panel.vsync && decide (s.raster.line + 1 < 2)) := rfl
@[simp] theorem passLine_black (s : State) : (passLine s).panel.black = s.panel.black := rfl
@[simp] theorem passLine_report (s : State) : (passLine s).report = s.report := rfl
@[simp] theorem passLine_startWork (s : State) : (passLine s).startWork = s.startWork := rfl
@[simp] theorem passLine_freeDraws (s : State) : (passLine s).freeDraws = s.freeDraws := rfl
@[simp] theorem passLine_pending (s : State) : (passLine s).pending = s.pending := rfl

/-! ageInFlight -/

@[simp] theorem ageInFlight_inReset (F : Frame) (s : State) : (ageInFlight F s).inReset = s.inReset := rfl
@[simp] theorem ageInFlight_straps (F : Frame) (s : State) : (ageInFlight F s).straps = s.straps := rfl
@[simp] theorem ageInFlight_raster (F : Frame) (s : State) : (ageInFlight F s).raster = s.raster := rfl
@[simp] theorem ageInFlight_table (F : Frame) (s : State) : (ageInFlight F s).table = s.table := rfl
@[simp] theorem ageInFlight_inFlight (F : Frame) (s : State) : (ageInFlight F s).ring.inFlight = s.ring.inFlight.filter (fun e => !aged 4 e.frame F) := rfl
@[simp] theorem ageInFlight_transmit (F : Frame) (s : State) : (ageInFlight F s).ring.transmit = s.ring.transmit := rfl
@[simp] theorem ageInFlight_member (F : Frame) (s : State) : (ageInFlight F s).member = s.member := rfl
@[simp] theorem ageInFlight_lock (F : Frame) (s : State) : (ageInFlight F s).lock = s.lock := rfl
@[simp] theorem ageInFlight_origin (F : Frame) (s : State) : (ageInFlight F s).origin = s.origin := rfl
@[simp] theorem ageInFlight_store (F : Frame) (s : State) : (ageInFlight F s).store = s.store := rfl
@[simp] theorem ageInFlight_snap (F : Frame) (s : State) : (ageInFlight F s).snap = s.snap := rfl
@[simp] theorem ageInFlight_pixel (F : Frame) (s : State) : (ageInFlight F s).pixel = s.pixel := rfl
@[simp] theorem ageInFlight_panel (F : Frame) (s : State) : (ageInFlight F s).panel = s.panel := rfl
@[simp] theorem ageInFlight_report (F : Frame) (s : State) : (ageInFlight F s).report = s.report := rfl
@[simp] theorem ageInFlight_startWork (F : Frame) (s : State) : (ageInFlight F s).startWork = s.startWork := rfl
@[simp] theorem ageInFlight_freeDraws (F : Frame) (s : State) : (ageInFlight F s).freeDraws = s.freeDraws := rfl
@[simp] theorem ageInFlight_pending (F : Frame) (s : State) : (ageInFlight F s).pending = s.pending := rfl

/-! settleWork -/

@[simp] theorem settleWork_inReset (w : FrameWork) (s : State) : (settleWork w s).inReset = s.inReset := rfl
@[simp] theorem settleWork_straps (w : FrameWork) (s : State) : (settleWork w s).straps = s.straps := rfl
@[simp] theorem settleWork_raster (w : FrameWork) (s : State) : (settleWork w s).raster = s.raster := rfl
@[simp] theorem settleWork_table (w : FrameWork) (s : State) : (settleWork w s).table = s.table := rfl
@[simp] theorem settleWork_ring (w : FrameWork) (s : State) : (settleWork w s).ring = s.ring := rfl
@[simp] theorem settleWork_member (w : FrameWork) (s : State) : (settleWork w s).member = s.member := rfl
@[simp] theorem settleWork_lock (w : FrameWork) (s : State) : (settleWork w s).lock = s.lock := rfl
@[simp] theorem settleWork_origin (w : FrameWork) (s : State) : (settleWork w s).origin = s.origin := rfl
@[simp] theorem settleWork_store (w : FrameWork) (s : State) : (settleWork w s).store = s.store := rfl
@[simp] theorem settleWork_snap (w : FrameWork) (s : State) : (settleWork w s).snap = s.snap := rfl
@[simp] theorem settleWork_pixel (w : FrameWork) (s : State) : (settleWork w s).pixel = s.pixel := rfl
@[simp] theorem settleWork_panel (w : FrameWork) (s : State) : (settleWork w s).panel = s.panel := rfl
@[simp] theorem settleWork_report (w : FrameWork) (s : State) : (settleWork w s).report = s.report := rfl
@[simp] theorem settleWork_due (w : FrameWork) (s : State) : (settleWork w s).startWork.due = s.startWork.due.filter (fun x => !(x == w)) := rfl
@[simp] theorem settleWork_workFrame (w : FrameWork) (s : State) : (settleWork w s).startWork.frame = s.startWork.frame := rfl
@[simp] theorem settleWork_workOrigin (w : FrameWork) (s : State) : (settleWork w s).startWork.origin = s.startWork.origin := rfl
@[simp] theorem settleWork_freeDraws (w : FrameWork) (s : State) : (settleWork w s).freeDraws = s.freeDraws := rfl
@[simp] theorem settleWork_pending (w : FrameWork) (s : State) : (settleWork w s).pending = s.pending := rfl

/-! State.withCommand -/

@[simp] theorem State.withCommand_inReset (c : Instr) (s : State) : (State.withCommand c s).inReset = s.inReset := rfl
@[simp] theorem State.withCommand_straps (c : Instr) (s : State) : (State.withCommand c s).straps = s.straps := rfl
@[simp] theorem State.withCommand_raster (c : Instr) (s : State) : (State.withCommand c s).raster = s.raster := rfl
@[simp] theorem State.withCommand_table (c : Instr) (s : State) : (State.withCommand c s).table = s.table := rfl
@[simp] theorem State.withCommand_ring (c : Instr) (s : State) : (State.withCommand c s).ring = s.ring := rfl
@[simp] theorem State.withCommand_member (c : Instr) (s : State) : (State.withCommand c s).member = s.member := rfl
@[simp] theorem State.withCommand_lock (c : Instr) (s : State) : (State.withCommand c s).lock = s.lock := rfl
@[simp] theorem State.withCommand_origin (c : Instr) (s : State) : (State.withCommand c s).origin = s.origin := rfl
@[simp] theorem State.withCommand_store (c : Instr) (s : State) : (State.withCommand c s).store = s.store := rfl
@[simp] theorem State.withCommand_snap (c : Instr) (s : State) : (State.withCommand c s).snap = s.snap := rfl
@[simp] theorem State.withCommand_pixel (c : Instr) (s : State) : (State.withCommand c s).pixel = s.pixel := rfl
@[simp] theorem State.withCommand_panel (c : Instr) (s : State) : (State.withCommand c s).panel = s.panel := rfl
@[simp] theorem State.withCommand_report (c : Instr) (s : State) : (State.withCommand c s).report = s.report := rfl
@[simp] theorem State.withCommand_startWork (c : Instr) (s : State) : (State.withCommand c s).startWork = s.startWork := rfl
@[simp] theorem State.withCommand_freeDraws (c : Instr) (s : State) : (State.withCommand c s).freeDraws = s.freeDraws := rfl
@[simp] theorem State.withCommand_pending (c : Instr) (s : State) : (State.withCommand c s).pending = c :: s.pending := rfl

/-! ## The report line -/

/-- The line is idle only where nothing waits (R167). -/
theorem nextSend_idle {u : ReportUnit} (h : (nextSend u).sending = none) : (nextSend u).queue = [] := by
  unfold nextSend at *; split at h <;> simp_all

/-- A send begins from the head: nothing joins the queue. -/
theorem nextSend_length (u : ReportUnit) : (nextSend u).queue.length ≤ u.queue.length := by
  unfold nextSend; split <;> simp_all

@[simp] theorem nextSend_counts (u : ReportUnit) : (nextSend u).counts = u.counts := by unfold nextSend; split <;> rfl
@[simp] theorem nextSend_lost (u : ReportUnit) : (nextSend u).lost = u.lost := by unfold nextSend; split <;> rfl
@[simp] theorem nextSend_endsAfter (u : ReportUnit) : (nextSend u).endsAfter = u.endsAfter := by unfold nextSend; split <;> rfl

@[simp] theorem reportJoin_counts (r : Report) (F : Frame) (u : ReportUnit) : (reportJoin r F u).counts = u.counts := by
  unfold reportJoin recordFormed recordJoin sendOver; repeat' split
  all_goals simp

/-- With no end announced, forming a record is joining it (R166, R168). -/
theorem reportJoin_of_unarmed {r : Report} {F : Frame} {u : ReportUnit} (h : u.endsAfter = 0) :
    reportJoin r F u = recordJoin r F u := by
  have e : (recordJoin r F u).endsAfter = 0 := by unfold recordJoin; split <;> simp [h]
  simp [reportJoin, recordFormed, e]

/-! ## Commands -/

/-- A command with its effect, outside reset. -/
theorem whenReleased_of {f : State → State} {s : State} (h : s.inReset = false) : whenReleased f s = f s := by
  simp [whenReleased, h]

/-- Under reset a command has no effect. -/
theorem whenReleased_inReset {f : State → State} {s : State} (h : s.inReset = true) : whenReleased f s = s := by
  simp [whenReleased, h]

/-- A step on a queue that is not empty. -/
theorem step_cons {s : State} {c : Instr} {rest : List Instr} (h : s.pending = c :: rest) :
    step s = exec c { s with pending := rest } := by
  simp [step, h]

/-- The cases of a step that answers a next state. -/
theorem step_cases {s t : State} (h : step s = .next t) :
    (s.pending = [] ∧ t = s) ∨ ∃ c rest, s.pending = c :: rest ∧ exec c { s with pending := rest } = .next t := by
  cases hp : s.pending with
  | nil => exact Or.inl ⟨rfl, by simpa [step, hp, eq_comm] using h⟩
  | cons c rest => exact Or.inr ⟨c, rest, rfl, by rw [step_cons hp] at h; exact h⟩

/-- Nothing due, nothing taken. -/
theorem finishWork_of_nil {s : State} (h : s.startWork.due = []) : finishWork s = s := by
  simp [finishWork, workOrder, takeWork, h]

/-- A piece that is due is taken. -/
theorem takeWork_of_mem {w : FrameWork} {s : State} (h : w ∈ s.startWork.due) :
    takeWork w s = doWork s.startWork.frame w (settleWork w s) := by
  simp [takeWork, h]

/-- A piece that is not due is not taken. -/
theorem takeWork_of_not_mem {w : FrameWork} {s : State} (h : w ∉ s.startWork.due) : takeWork w s = s := by
  simp [takeWork, h]

/-- A transition whose turn it is, with the ageing done. -/
theorem takeTransition_of {c : State → Bool} {f : State → State} {s : State} (h1 : FrameWork.transition ∈ s.startWork.due)
    (h2 : FrameWork.stationAgeing ∉ s.startWork.due) (hc : c s = true) :
    takeTransition c f s = f (settleWork .transition s) := by
  simp [takeTransition, beforeTransition, takeWork_of_not_mem h2, transitionDue, h1, hc]

end Sys2Proof.Machine
end

