-- ==== Sys2Proof/Laws/Frame.lean ====
section
/-! SUPPORT. Laws/Frame.lean: how frames (`Writes`) compose, and the frame of every shared operation, block by block: all that the
operation can change. A proof about another field cites the frame and never unfolds the operation. -/

namespace Sys2Proof.Machine

set_option Elab.async false

/-! ## The panel -/

/-- With no pixel driven DE is inactive and RGB (0, 0, 0) everywhere (R160, R165). -/
theorem blanked_of_pixels {s : State} (h : s.panel.pixels = []) : Blanked s := fun x => by simp [panelDE, panelRGB, h, black]

/-- A driven pixel is what DE and RGB show at its position. -/
theorem panelRGB_of_pixel {s : State} {x : Nat} {c : Colour} (h : s.panel.pixels[x]? = some c) : panelRGB s x = c := by
  simp [panelRGB, h]

/-! ## Composition -/

theorem Field.same_refl (f : Field) (s : State) : f.same s s := by cases f <;> rfl

theorem Field.same_trans {f : Field} {s t u : State} (h1 : f.same s t) (h2 : f.same t u) : f.same s u := by
  cases f <;> exact Eq.trans h2 h1

theorem Writes.refl {fs : List Field} (s : State) : Writes fs s s := fun f _ => f.same_refl s

theorem Writes.trans {fs : List Field} {s t u : State} (h1 : Writes fs s t) (h2 : Writes fs t u) : Writes fs s u :=
  fun f hf => Field.same_trans (h1 f hf) (h2 f hf)

/-- More fields may be listed than are written. -/
theorem Writes.mono {fs gs : List Field} {s t : State} (h : Writes fs s t)
    (sub : fs.all (fun f => gs.contains f) = true := by decide +kernel) : Writes gs s t := by
  intro f hf
  refine h f (fun hm => hf ?_)
  have := List.all_eq_true.mp sub f hm
  simpa using this

/-- One operation after another. -/
theorem Writes.comp {fs gs hs : List Field} {s t u : State} (h1 : Writes fs s t) (h2 : Writes gs t u)
    (s1 : fs.all (fun f => hs.contains f) = true := by decide +kernel)
    (s2 : gs.all (fun f => hs.contains f) = true := by decide +kernel) : Writes hs s u :=
  (h1.mono s1).trans (h2.mono s2)

theorem Writes.ite {fs : List Field} {s t u : State} {c : Prop} [Decidable c] (h1 : c → Writes fs s t)
    (h2 : ¬ c → Writes fs s u) : Writes fs s (if c then t else u) := by
  split <;> simp_all

theorem Writes.foldl {α : Type} {fs : List Field} {f : State → α → State} (h : ∀ s x, Writes fs s (f s x)) :
    ∀ (xs : List α) (s : State), Writes fs s (xs.foldl f s)
  | [], s => Writes.refl s
  | x :: xs, s => (h s x).trans (Writes.foldl h xs (f s x))

/-- A field outside the list is as it was. -/
theorem Writes.at {fs : List Field} {s t : State} (h : Writes fs s t) (f : Field)
    (hf : fs.contains f = false := by decide) : f.same s t := h f (by simpa using hf)

/-! ## Whole blocks outside a frame -/

/-- The Report Unit is as it was. -/
theorem Writes.report_eq {fs : List Field} {s t : State} (w : Writes fs s t)
    (hf : [Field.reports, .sending, .sendEnds, .lost, .crc, .overflow, .stray, .underrun, .late, .frameSlip].all
      (fun f => !fs.contains f) = true := by decide) : t.report = s.report := by
  simp only [List.all_cons, List.all_nil, Bool.and_true, Bool.and_eq_true, Bool.not_eq_true'] at hf
  obtain ⟨h1, h2, h0, h3, h4, h5, h6, h7, h8, h9⟩ := hf
  have e1 := w.at .reports h1; have e2 := w.at .sending h2; have e0 := w.at .sendEnds h0; have e3 := w.at .lost h3
  have e4 := w.at .crc h4; have e5 := w.at .overflow h5; have e6 := w.at .stray h6
  have e7 := w.at .underrun h7; have e8 := w.at .late h8; have e9 := w.at .frameSlip h9
  simp only [Field.same] at e0 e1 e2 e3 e4 e5 e6 e7 e8 e9
  rcases t with ⟨_, _, _, _, _, _, _, _, _, _, _, _, ⟨_, _, _, _, ⟨_, _, _, _, _, _⟩⟩, _, _, _⟩
  rcases s with ⟨_, _, _, _, _, _, _, _, _, _, _, _, ⟨_, _, _, _, ⟨_, _, _, _, _, _⟩⟩, _, _, _⟩
  simp_all

/-- The Ring Interface is as it was. -/
theorem Writes.ring_eq {fs : List Field} {s t : State} (w : Writes fs s t)
    (hf : [Field.insertion, .transmit, .inFlight, .tag, .streak, .guard, .duplicateSeen, .cut, .rout].all
      (fun f => !fs.contains f) = true := by decide) : t.ring = s.ring := by
  simp only [List.all_cons, List.all_nil, Bool.and_true, Bool.and_eq_true, Bool.not_eq_true'] at hf
  obtain ⟨h1, h2, h3, h4, h5, h6, h7, h0, h8⟩ := hf
  have e0 := w.at .cut h0
  have e1 := w.at .insertion h1; have e2 := w.at .transmit h2; have e3 := w.at .inFlight h3; have e4 := w.at .tag h4
  have e5 := w.at .streak h5; have e6 := w.at .guard h6; have e7 := w.at .duplicateSeen h7; have e8 := w.at .rout h8
  simp only [Field.same] at e0 e1 e2 e3 e4 e5 e6 e7 e8
  rcases t with ⟨_, _, _, _, ⟨_, _, _, _, _, _, _, _, _⟩, _, _, _, _, _, _, _, _, _, _, _⟩
  rcases s with ⟨_, _, _, _, ⟨_, _, _, _, _, _, _, _, _⟩, _, _, _, _, _, _, _, _, _, _, _⟩
  simp_all

/-- The Lock Unit is as it was. -/
theorem Writes.lock_eq {fs : List Field} {s t : State} (w : Writes fs s t)
    (hf : [Field.lockState, .lockRef, .offset].all (fun f => !fs.contains f) = true := by decide) : t.lock = s.lock := by
  simp only [List.all_cons, List.all_nil, Bool.and_true, Bool.and_eq_true, Bool.not_eq_true'] at hf
  obtain ⟨h1, h2, h3⟩ := hf
  have e1 := w.at .lockState h1; have e2 := w.at .lockRef h2; have e3 := w.at .offset h3
  simp only [Field.same] at e1 e2 e3
  rcases t with ⟨_, _, _, _, _, _, ⟨_, _, _⟩, _, _, _, _, _, _, _, _, _⟩
  rcases s with ⟨_, _, _, _, _, _, ⟨_, _, _⟩, _, _, _, _, _, _, _, _, _⟩
  simp_all

/-- The Pixel Port is as it was. -/
theorem Writes.pixel_eq {fs : List Field} {s t : State} (w : Writes fs s t)
    (hf : [Field.requests, .slots, .rx, .readbacks, .cwin, .requested, .begun].all
      (fun f => !fs.contains f) = true := by decide) : t.pixel = s.pixel := by
  simp only [List.all_cons, List.all_nil, Bool.and_true, Bool.and_eq_true, Bool.not_eq_true'] at hf
  obtain ⟨h1, h2, h3, h4, h5, h6, h7⟩ := hf
  have e1 := w.at .requests h1; have e2 := w.at .slots h2; have e3 := w.at .rx h3; have e4 := w.at .readbacks h4
  have e5 := w.at .cwin h5; have e6 := w.at .requested h6; have e7 := w.at .begun h7
  simp only [Field.same] at e1 e2 e3 e4 e5 e6 e7
  rcases t with ⟨_, _, _, _, _, _, _, _, _, _, ⟨_, _, _, _, _, _, _⟩, _, _, _, _, _⟩
  rcases s with ⟨_, _, _, _, _, _, _, _, _, _, ⟨_, _, _, _, _, _, _⟩, _, _, _, _, _⟩
  simp_all

/-! ## Reports and counts -/

theorem report_writes (r : Report) (s : State) : Writes Field.ofReport s (report r s) := by
  intro f hf
  have h : (report r s).report.counts = s.report.counts := reportJoin_counts _ _ _
  cases f <;> first | rfl | exact absurd hf (by decide) | (show _ = _; rw [h])

theorem event_writes (e : Event) (s : State) : Writes Field.ofReport s (event e s) := report_writes _ s

theorem countCrc_writes (s : State) : Writes [.crc] s (countCrc s) := by
  intro f hf; unfold countCrc; cases f <;> first | rfl | exact absurd hf (by decide)

theorem countOverflow_writes (s : State) : Writes [.overflow] s (countOverflow s) := by
  intro f hf; unfold countOverflow; cases f <;> first | rfl | exact absurd hf (by decide)

theorem countStray_writes (s : State) : Writes [.stray] s (countStray s) := by
  intro f hf; unfold countStray; cases f <;> first | rfl | exact absurd hf (by decide)

theorem countUnderrun_writes (s : State) : Writes [.underrun] s (countUnderrun s) := by
  intro f hf; unfold countUnderrun; cases f <;> first | rfl | exact absurd hf (by decide)

theorem countLate_writes (s : State) : Writes [.late] s (countLate s) := by
  intro f hf; unfold countLate; cases f <;> first | rfl | exact absurd hf (by decide)

theorem countFrameSlip_writes (s : State) : Writes [.frameSlip] s (countFrameSlip s) := by
  intro f hf; unfold countFrameSlip; cases f <;> first | rfl | exact absurd hf (by decide)

theorem whenReleased_writes {fs : List Field} {f : State → State} (h : ∀ s, Writes fs s (f s)) (s : State) :
    Writes fs s (whenReleased f s) := by
  unfold whenReleased; split
  · exact Writes.refl s
  · exact h s

/-! ## The transmit queue -/

theorem queueParcel_writes (p : Parcel) (s : State) : Writes [.transmit] s (queueParcel p s) := by
  intro f hf; unfold queueParcel; repeat' split
  all_goals cases f <;> first | rfl | exact absurd hf (by decide)

theorem queueBody_writes (n : StationNo) (b : Body) (s : State) : Writes [.transmit] s (queueBody n b s) := queueParcel_writes _ s

/-! ## The Proposal Store -/

theorem offerPropose_writes (h : Header) (b : ProposeBody) (s : State) : Writes [.store] s (offerPropose h b s).2 := by
  intro f hf; unfold offerPropose; repeat' split
  all_goals cases f <;> first | rfl | exact absurd hf (by decide)

theorem offerCommit_writes (h : Header) (q : Seq) (F : Frame) (s : State) : Writes [.store, .mark] s (offerCommit h q F s) := by
  intro f hf; unfold offerCommit; repeat' split
  all_goals cases f <;> first | rfl | exact absurd hf (by decide)

theorem offerWithdraw_writes (h : Header) (q : Seq) (s : State) : Writes [.store] s (offerWithdraw h q s) := by
  intro f hf; unfold offerWithdraw; repeat' split
  all_goals cases f <;> first | rfl | exact absurd hf (by decide)

theorem expireHeld_writes (F : Frame) (s : State) : Writes [.store, .reports, .sending, .sendEnds, .lost] s (expireHeld F s) := by
  unfold expireHeld
  refine Writes.trans (t := { s with store := s.store.filter (fun p => !heldTooLong F p) }) ?_
    (Writes.foldl (fun s e => (event_writes e s).mono) _ _)
  intro f hf; cases f <;> first | rfl | exact absurd hf (by decide)

theorem giveApplySet_writes (s : State) :
    Writes [.store, .applyPhase, .applyReapply, .applyDue] s (giveApplySet s) := by
  intro f hf; unfold giveApplySet; cases f <;> first | rfl | exact absurd hf (by decide)

theorem expireRetained_writes (F : Frame) (s : State) : Writes [.store, .applyReapply] s (expireRetained F s) := by
  intro f hf; unfold expireRetained; cases f <;> first | rfl | exact absurd hf (by decide)

/-! ## The Origin Engine -/

theorem takeSeq_writes (s : State) : Writes [.nextSeq] s (takeSeq s).2 := by
  intro f hf; unfold takeSeq; cases f <;> first | rfl | exact absurd hf (by decide)

theorem setOrigin_writes (q : Seq) (g : OriginRecord → OriginRecord) (s : State) : Writes [.originList] s (setOrigin q g s) := by
  intro f hf; unfold setOrigin; cases f <;> first | rfl | exact absurd hf (by decide)

theorem dropOrigin_writes (q : Seq) (s : State) : Writes [.originList] s (dropOrigin q s) := by
  intro f hf; unfold dropOrigin; cases f <;> first | rfl | exact absurd hf (by decide)

theorem originList_writes (s : State) (l : List OriginRecord) : Writes [.originList] s { s with origin.list := l } := by
  intro f hf; cases f <;> first | rfl | exact absurd hf (by decide)

/-- The store alone. -/
theorem store_writes (s : State) (st : List Proposal) : Writes [.store] s { s with store := st } := by
  intro f hf; cases f <;> first | rfl | exact absurd hf (by decide)

theorem acceptLoad_writes (es : List Edit) (p : Bool) (s : State) : Writes Field.ofOrigin s (acceptLoad es p s) := by
  unfold acceptLoad
  exact (takeSeq_writes s).mono.trans ((store_writes _ _).mono.trans ((queueBody_writes _ _ _).mono.trans
    ((report_writes _ _).mono.trans (originList_writes _ _).mono)))

theorem judgeLoad_writes (es : List Edit) (p : Bool) (s : State) : Writes Field.ofOrigin s (judgeLoad es p s) := by
  unfold judgeLoad; split
  · exact (report_writes _ _).mono
  · exact acceptLoad_writes _ _ _

theorem abandon_writes (q : Seq) (s : State) : Writes Field.ofOrigin s (abandon q s) := by
  unfold abandon
  exact (queueBody_writes _ _ _).mono.trans ((store_writes _ _).mono.trans
    ((report_writes _ _).mono.trans (dropOrigin_writes _ _).mono))

theorem commitRound_writes (q : Seq) (n : Byte) (s : State) : Writes Field.ofOrigin s (commitRound q n s) := by
  unfold commitRound; split
  · exact (store_writes _ _).mono.trans ((queueBody_writes _ _ _).mono.trans (setOrigin_writes _ _ _).mono)
  · exact abandon_writes _ _

theorem withdrawRound_writes (q : Seq) (s : State) : Writes Field.ofOrigin s (withdrawRound q s) := by
  unfold withdrawRound
  exact (queueBody_writes _ _ _).mono.trans ((store_writes _ _).mono.trans (setOrigin_writes _ _ _).mono)

theorem proposeReturn_writes (b : ProposeBody) (s : State) : Writes Field.ofOrigin s (proposeReturn b s) := by
  unfold proposeReturn; repeat' split
  · exact commitRound_writes _ _ _
  · exact withdrawRound_writes _ _
  · exact Writes.refl s
  · exact Writes.refl s

theorem commitReturn_writes (q : Seq) (F : Frame) (s : State) : Writes Field.ofOrigin s (commitReturn q F s) := by
  unfold commitReturn; repeat' split
  · exact (report_writes _ _).mono.trans (dropOrigin_writes _ _).mono
  all_goals exact Writes.refl s

theorem proposingDue_writes (r : OriginRecord) (s : State) : Writes Field.ofOrigin s (proposingDue r s) := by
  unfold proposingDue; split
  · exact (queueBody_writes _ _ _).mono.trans ((store_writes _ _).mono.trans (setOrigin_writes _ _ _).mono)
  · exact abandon_writes _ _

theorem newRound_writes (r : OriginRecord) (s : State) : Writes Field.ofOrigin s (newRound r s) := by
  unfold newRound
  exact (takeSeq_writes s).mono.trans ((store_writes _ _).mono.trans ((queueBody_writes _ _ _).mono.trans
    ((report_writes _ _).mono.trans (setOrigin_writes _ _ _).mono)))

theorem withdrawnDue_writes (r : OriginRecord) (s : State) : Writes Field.ofOrigin s (withdrawnDue r s) := by
  unfold withdrawnDue; repeat' split
  · exact (report_writes _ _).mono.trans (dropOrigin_writes _ _).mono
  · exact newRound_writes _ _
  · exact (report_writes _ _).mono.trans (dropOrigin_writes _ _).mono
  · exact (setOrigin_writes _ _ _).mono

theorem committingDue_writes (r : OriginRecord) (F : Frame) (s : State) :
    Writes Field.ofOrigin s (committingDue r F s) := by
  unfold committingDue; split
  · exact (queueBody_writes _ _ _).mono.trans (setOrigin_writes _ _ _).mono
  · exact (report_writes _ _).mono.trans (dropOrigin_writes _ _).mono

theorem originDue_writes (r : OriginRecord) (s : State) : Writes Field.ofOrigin s (originDue r s) := by
  unfold originDue; split
  · exact proposingDue_writes _ _
  · exact withdrawnDue_writes _ _
  · exact committingDue_writes _ _ _

theorem testOrigin_writes (F : Frame) (s : State) (q : Seq) : Writes Field.ofOrigin s (testOrigin F s q) := by
  unfold testOrigin; repeat' split
  · exact originDue_writes _ _
  all_goals exact Writes.refl s

theorem startWork_writes (s : State) (w : StartWork) : Writes [.startWork] s { s with startWork := w } := by
  intro f hf; cases f <;> first | rfl | exact absurd hf (by decide)

theorem testOrigins_writes (s : State) : Writes (.startWork :: Field.ofOrigin) s (testOrigins s) := by
  unfold testOrigins
  exact (startWork_writes s _).mono.trans (Writes.foldl (fun s q => (testOrigin_writes _ s q).mono) _ _)

theorem rejoinReports_writes (s : State) : Writes Field.ofReport s (rejoinReports s) :=
  Writes.foldl (fun s _ => report_writes _ s) _ _

/-! ## The Snapshot Unit -/

theorem clearResponder_writes (s : State) : Writes [.responder, .progress] s (clearResponder s) := by
  intro f hf; unfold clearResponder; cases f <;> first | rfl | exact absurd hf (by decide)

theorem dropRequester_writes (n : StationNo) (s : State) : Writes [.responder, .progress] s (dropRequester n s) := by
  intro f hf; unfold dropRequester; repeat' split
  all_goals cases f <;> first | rfl | exact absurd hf (by decide)

theorem offerSnapshotReq_writes (h : Header) (s : State) : Writes [.responder, .progress] s (offerSnapshotReq h s) := by
  intro f hf; unfold offerSnapshotReq; repeat' split
  all_goals cases f <;> first | rfl | exact absurd hf (by decide)

theorem advanceResponder_writes (p : Nat) (s : State) : Writes [.responder, .progress] s (advanceResponder p s) := by
  intro f hf; unfold advanceResponder; repeat' split
  all_goals cases f <;> first | rfl | exact absurd hf (by decide)

theorem offerSnapshot_writes (h : Header) (b : SnapshotBody) (s : State) : Writes [.collector, .slot] s (offerSnapshot h b s) := by
  intro f hf; unfold offerSnapshot; dsimp only; repeat' split
  all_goals cases f <;> first | rfl | exact absurd hf (by decide)

theorem buildPart_writes (s : State) : Writes [.responder, .progress, .transmit] s (buildPart s) := by
  unfold buildPart; repeat' split
  · exact (queueParcel_writes _ _).mono.trans (advanceResponder_writes _ _).mono
  all_goals exact Writes.refl s

/-- The fields the collector side can write when it asks. -/
abbrev Field.ofCollector : List Field := [.transmit, .collector]

theorem requestSnapshot_writes (n : Option StationNo) (s : State) : Writes [.transmit] s (requestSnapshot n s) := by
  unfold requestSnapshot; split
  · exact queueBody_writes _ _ _
  · exact Writes.refl s

theorem collector_writes (s : State) (c : Option Collector) : Writes [.collector] s { s with snap.collector := c } := by
  intro f hf; cases f <;> first | rfl | exact absurd hf (by decide)

theorem beginCollection_writes (s : State) : Writes Field.ofCollector s (beginCollection s) :=
  (collector_writes s _).mono.trans (requestSnapshot_writes _ _).mono

theorem failAttempt_writes (c : Collector) (n : Option StationNo) (s : State) :
    Writes Field.ofCollector s (failAttempt c n s).1 := by
  unfold failAttempt; split
  · exact (collector_writes s _).mono.trans (requestSnapshot_writes _ _).mono
  · exact (collector_writes s _).mono

theorem collectorRefChange_writes (n : Option StationNo) (s : State) :
    Writes Field.ofCollector s (collectorRefChange n s).1 := by
  unfold collectorRefChange; repeat' split
  · exact Writes.refl s
  · exact Writes.refl s
  · exact failAttempt_writes _ _ _
  · exact failAttempt_writes _ _ _
  · exact (collector_writes s _).mono.trans (requestSnapshot_writes _ _).mono
  · exact Writes.refl s

theorem collectorDeadline_writes (F : Frame) (s : State) : Writes Field.ofCollector s (collectorDeadline F s).1 := by
  unfold collectorDeadline; repeat' split
  · exact Writes.refl s
  · exact failAttempt_writes _ _ _
  · exact Writes.refl s

/-! ## The Lock Unit and the references -/

theorem requestBlanking_writes (n : Nat) (s : State) : Writes [.request] s (requestBlanking n s) := by
  intro f hf; unfold requestBlanking; cases f <;> first | rfl | exact absurd hf (by decide)

theorem lockRefChange_writes (n : Option StationNo) (s : State) : Writes Field.ofLock s (lockRefChange n s) := by
  intro f hf; unfold lockRefChange requestBlanking; repeat' split
  all_goals cases f <;> first | rfl | exact absurd hf (by decide)

theorem recomputeOnce_writes (s : State) : Writes Field.ofRefs s (recomputeOnce s).state := by
  have h1 : ∀ a b n, Writes Field.ofRefs s
      { s with member.tableRef := a, member.timingRef := b, member.mismatch := n } := by
    intro a b n f hf; cases f <;> first | rfl | exact absurd hf (by decide)
  have h2 : ∀ (u : State) (p : Prop) [Decidable p] (m : Option StationNo),
      Writes Field.ofRefs u (if p then u else lockRefChange m u) := by
    intro u p _ m; split
    · exact Writes.refl u
    · exact (lockRefChange_writes _ _).mono
  have h3 : ∀ (u : State) (p : Prop) [Decidable p] (t : Option StationNo),
      Writes Field.ofRefs u (if p then (u, false) else collectorRefChange t u).1 := by
    intro u p _ t; split
    · exact Writes.refl u
    · exact (collectorRefChange_writes _ _).mono
  exact (h1 _ _ _).trans ((h2 _ _ _).trans (h3 _ _ _))

theorem enterInService_writes (s : State) : Writes (.stationState :: Field.ofRefs) s (enterInService s) := by
  unfold enterInService
  refine Writes.trans (t := { s with member.state := .inService, member.mismatch := 0 }) ?_ (recomputeOnce_writes _).mono
  intro f hf; cases f <;> first | rfl | exact absurd hf (by decide)

theorem testService_writes (s : State) :
    Writes (Field.ofRefs ++ [.stationState, .seeded, .reports, .sending, .sendEnds, .lost]) s (testService s) := by
  unfold testService; split
  · refine Writes.trans (t := { s with table.seeded := true }) ?_
      ((enterInService_writes _).mono.trans (event_writes _ _).mono)
    intro f hf; cases f <;> first | rfl | exact absurd hf (by decide)
  · exact Writes.refl s

theorem thirdFailure_writes (s : State) :
    Writes (Field.ofRefs ++ [.stationState, .rejoinPending, .backoff, .reports, .sending, .sendEnds, .lost]) s (thirdFailure s) := by
  have hb : Writes (Field.ofRefs ++ [.stationState, .rejoinPending, .backoff, .reports, .sending, .sendEnds, .lost]) s
      { s with member.backoff := 16 } := by
    intro f hf; cases f <;> first | rfl | exact absurd hf (by decide)
  unfold thirdFailure; split
  · intro f hf; cases f <;> first | rfl | exact absurd hf (by decide)
  · exact hb.trans ((enterInService_writes _).mono.trans (event_writes _ _).mono)
  · exact hb.trans (event_writes _ _).mono
  all_goals exact Writes.refl s

theorem recompute_writes (s : State) : Writes Field.ofChange s (recompute s) := by
  unfold recompute; dsimp only
  have h := (recomputeOnce_writes s).mono (gs := Field.ofChange)
  repeat' split
  · exact h.trans ((testService_writes _).mono.trans (thirdFailure_writes _).mono)
  · exact h.trans (thirdFailure_writes _).mono
  · exact h.trans (testService_writes _).mono
  · exact h

/-! ## Changes of station state -/

/-- The station state with the fields a transition sets first. -/
theorem enterResync_writes (c : ResyncCause) (s : State) :
    Writes (Field.ofChange ++ [.responder, .progress]) s (enterResync c s) := by
  unfold enterResync
  refine Writes.trans (t := { s with member.state := .resync, member.mismatch := 0 }) ?_
    ((clearResponder_writes _).mono.trans ((event_writes _ _).mono.trans
      ((recompute_writes _).mono.trans (beginCollection_writes _).mono)))
  intro f hf; cases f <;> first | rfl | exact absurd hf (by decide)

theorem enterRingHold_writes (s : State) :
    Writes (Field.ofChange ++ [.hold, .responder, .progress]) s (enterRingHold s) := by
  unfold enterRingHold
  refine Writes.trans (t := { s with member.state := .ringHold, member.hold := 0 }) ?_
    ((clearResponder_writes _).mono.trans ((event_writes _ _).mono.trans (recompute_writes _).mono))
  intro f hf; cases f <;> first | rfl | exact absurd hf (by decide)

theorem leaveRingHold_writes (s : State) : Writes Field.ofChange s (leaveRingHold s) := by
  unfold leaveRingHold; split
  · refine Writes.trans (t := { s with member.state := .resync, member.mismatch := 0 }) ?_
      ((event_writes _ _).mono.trans (recompute_writes _).mono)
    intro f hf; cases f <;> first | rfl | exact absurd hf (by decide)
  · refine Writes.trans (t := { s with member.state := .inService, member.mismatch := 0 }) ?_
      ((event_writes _ _).mono.trans (recompute_writes _).mono)
    intro f hf; cases f <;> first | rfl | exact absurd hf (by decide)

theorem enterListening_writes (s : State) : Writes [.stationState, .listen, .guard, .duplicateSeen] s (enterListening s) := by
  intro f hf; unfold enterListening; cases f <;> first | rfl | exact absurd hf (by decide)

/-- The fields of the own beacon's record and of the own join. -/
abbrev Field.ofJoining : List Field := [.miss, .ret, .outstanding, .returned, .attempt, .joinDeadline]

theorem enterJoining_writes (s : State) : Writes (Field.ofChange ++ Field.ofJoining) s (enterJoining s) := by
  unfold enterJoining
  refine Writes.trans (t :=
      { s with member.state := .joining, member.miss := 0, member.ret := 0, member.outstanding := none,
               member.returned := false, member.attempt := some 1, member.joinDeadline := some (now s + 2) }) ?_
    ((event_writes _ _).mono.trans ((queueBody_writes _ _ _).mono.trans (recompute_writes _).mono))
  intro f hf; cases f <;> first | rfl | exact absurd hf (by decide)

theorem loseReferences_writes (s : State) : Writes Field.ofLock s (loseReferences s) := by
  unfold loseReferences; split
  · exact Writes.refl s
  · exact lockRefChange_writes _ _

/-- The fields an entry to ISOLATED can write. -/
abbrev Field.ofIsolated : List Field :=
  Field.ofMember ++ [.request, .lockState, .lockRef, .offset, .insertion, .transmit, .inFlight, .streak, .rout, .reports, .sending, .sendEnds, .lost]

theorem enterIsolated_writes (r : IsolationReason) (s : State) : Writes Field.ofIsolated s (enterIsolated r s) := by
  unfold enterIsolated
  refine (loseReferences_writes s).mono.trans (Writes.trans (t :=
    { (loseReferences s) with member := Member.reset .isolated, ring.insertion := [], ring.transmit := [],
                              ring.inFlight := [], ring.streak := 0, ring.rout := none }) ?_ (event_writes _ _).mono)
  intro f hf; cases f <;> first | rfl | exact absurd hf (by decide)

theorem duplicateNotice_writes (s : State) : Writes Field.ofIsolated s (duplicateNotice s) := by
  unfold duplicateNotice; split
  · exact enterIsolated_writes _ _
  · exact Writes.refl s

/-- The fields a rejoin can write. -/
abbrev Field.ofRejoin : List Field :=
  Field.ofMember ++ [.request, .lockState, .lockRef, .offset, .store, .originList, .responder, .progress, .collector,
    .transmit, .inFlight, .streak, .guard, .duplicateSeen, .reports, .sending, .sendEnds, .lost, .freeDraws]

theorem rejoinReset_writes (s : State) : Writes Field.ofRejoin s (rejoinReset s) := by
  unfold rejoinReset
  refine (loseReferences_writes s).mono.trans ?_
  intro f hf; cases f <;> first | rfl | exact absurd hf (by decide)

theorem doRejoin_writes (s : State) : Writes Field.ofRejoin s (doRejoin s) := by
  have h : Writes Field.ofRejoin s { s with freeDraws := s.freeDraws + 1 } := by
    intro f hf; cases f <;> first | rfl | exact absurd hf (by decide)
  unfold doRejoin; dsimp only; split
  · exact h.trans ((rejoinReports_writes _).mono.trans ((rejoinReset_writes _).trans (event_writes _ _).mono))
  · exact h.trans ((event_writes _ _).mono.trans ((rejoinReports_writes _).mono.trans (rejoinReset_writes _)))

/-! ## Returns, measurement, comparison -/

theorem joinReturn_writes (m : Bool) (s : State) :
    Writes (Field.ofChange ++ Field.ofIsolated) s (joinReturn m s) := by
  have h1 : ∀ n, Writes (Field.ofChange ++ Field.ofIsolated) s
      { s with member.state := .catchingUp, member.attempt := none, member.joinDeadline := none,
               member.snapshotNeeded := n, member.installed := false } := by
    intro n f hf; cases f <;> first | rfl | exact absurd hf (by decide)
  have h2 : ∀ (n : Bool) t, Writes (Field.ofChange ++ Field.ofIsolated) t (testService (if n then beginCollection t else t)) := by
    intro n t; split
    · exact (beginCollection_writes _).mono.trans (testService_writes _).mono
    · exact (testService_writes _).mono
  unfold joinReturn; split
  · split
    · exact (enterIsolated_writes _ _).mono
    · exact (h1 _).trans ((event_writes _ _).mono.trans ((recompute_writes _).mono.trans (h2 _ _)))
  · exact Writes.refl s

theorem beaconReturn_writes (F : Frame) (s : State) : Writes [.returned] s (beaconReturn F s) := by
  intro f hf; unfold beaconReturn; repeat' split
  all_goals cases f <;> first | rfl | exact absurd hf (by decide)

/-- The fields an adoption of a frame number can write. -/
abbrev Field.ofAdoption : List Field := [.frame, .frameSlip, .reports, .sending, .sendEnds, .lost]

theorem adopt_writes (F : Frame) (d : Int) (s : State) : Writes Field.ofAdoption s (adopt F d s) := by
  have h : Writes Field.ofAdoption s { s with raster.frame := ownFrameOf F d } := by
    intro f hf; cases f <;> first | rfl | exact absurd hf (by decide)
  have hs : Writes Field.ofAdoption s (countFrameSlip { s with raster.frame := ownFrameOf F d }) :=
    h.trans (countFrameSlip_writes _).mono
  unfold adopt; dsimp only; split
  · exact h
  · split
    · exact Writes.refl s
    · split
      · exact hs.trans (event_writes _ _).mono
      · exact hs
  · split
    · exact Writes.refl s
    · split
      · exact hs.trans (event_writes _ _).mono
      · exact hs
  · exact Writes.refl s

/-- The fields a measurement can write. -/
abbrev Field.ofMeasure : List Field :=
  Field.ofRefs ++ [.frame, .frameSlip, .stationState, .seeded, .reports, .sending, .sendEnds, .lost]

theorem measure_writes (F : Frame) (s : State) : Writes Field.ofMeasure s (measure F s) := by
  have h1 : Writes Field.ofMeasure s { s with lock.offset := some (offsetOf s.raster.line (totalLines s)) } := by
    intro f hf; cases f <;> first | rfl | exact absurd hf (by decide)
  have h2 : ∀ (t : State) (l : LockState), Writes Field.ofMeasure t { t with lock.state := l } := by
    intro t l f hf; cases f <;> first | rfl | exact absurd hf (by decide)
  unfold measure; dsimp only; repeat' split
  · exact Writes.refl s
  · exact h1.trans ((adopt_writes _ _ _).mono.trans ((h2 _ _).trans (requestBlanking_writes _ _).mono))
  · exact h1.trans ((adopt_writes _ _ _).mono.trans ((h2 _ _).trans
      ((requestBlanking_writes _ _).mono.trans (testService_writes _).mono)))

theorem compareDigest_writes (dg : Option (Frame × Digest)) (s : State) :
    Writes (Field.ofChange ++ [.responder, .progress]) s (compareDigest dg s) := by
  unfold compareDigest; repeat' split
  all_goals first
    | exact Writes.refl s
    | exact enterResync_writes _ _
    | (intro f hf; cases f <;> first | rfl | exact absurd hf (by decide))

/-- The fields a BEACON or a JOIN taken by the Membership Unit can write. -/
abbrev Field.ofBeacon : List Field := Field.ofChange ++ [.stations, .frame, .frameSlip, .responder, .progress]

theorem stations_writes (s : State) (l : List (StationNo × StationEntry)) :
    Writes [.stations] s { s with member.stations := l } := by
  intro f hf; cases f <;> first | rfl | exact absurd hf (by decide)

theorem offerBeacon_writes (h : Header) (b : BeaconBody) (s : State) : Writes Field.ofBeacon s (offerBeacon h b s) := by
  have hm : ∀ t : State, Writes Field.ofBeacon t
      (if t.member.timingRef = some h.origin then measure b.frame t else t) := by
    intro t; split
    · exact (measure_writes _ _).mono
    · exact Writes.refl t
  have hc : ∀ t : State, Writes Field.ofBeacon t
      (if t.member.tableRef = some h.origin then compareDigest b.digest t else t) := by
    intro t; split
    · exact (compareDigest_writes _ _).mono
    · exact Writes.refl t
  unfold offerBeacon; split
  · exact Writes.refl s
  · exact (stations_writes s _).mono.trans ((recompute_writes _).mono.trans ((hm _).trans (hc _)))

theorem offerJoin_writes (h : Header) (b : JoinBody) (s : State) : Writes Field.ofBeacon s (offerJoin h b s).2 := by
  unfold offerJoin; dsimp only; split
  · exact (stations_writes _ _).mono.trans ((dropRequester_writes _ _).mono.trans (recompute_writes _).mono)
  · exact Writes.refl s

/-! ## The end of an install; frame-start work -/

theorem markTest_writes (bs : List Frame) (s : State) : Writes [.mark] s (markTest bs s) := by
  intro f hf; unfold markTest; repeat' split
  all_goals cases f <;> first | rfl | exact absurd hf (by decide)

theorem installEnded_writes (bs : List Frame) (s : State) :
    Writes (Field.ofChange ++ [.mark, .installed]) s (installEnded bs s) := by
  unfold installEnded; split
  · dsimp only; split
    · refine (markTest_writes bs s).mono.trans (Writes.trans (t := { markTest bs s with member.installed := true }) ?_
        (testService_writes _).mono)
      intro f hf; cases f <;> first | rfl | exact absurd hf (by decide)
    · exact (markTest_writes bs s).mono
  · exact (markTest_writes _ _).mono.trans ((enterInService_writes _).mono.trans (event_writes _ _).mono)
  · exact (event_writes _ _).mono.trans (markTest_writes _ _).mono
  · exact (markTest_writes _ _).mono
  all_goals exact Writes.refl s

theorem ageStations_writes (s : State) :
    Writes (Field.ofChange ++ [.stations, .responder, .progress]) s (ageStations s) := by
  unfold ageStations; split
  · exact (stations_writes s _).mono.trans
      ((Writes.foldl (fun s n => (dropRequester_writes n s).mono) _ _).trans (recompute_writes _).mono)
  · exact Writes.refl s

theorem judgeBeacon_writes (s : State) : Writes [.returned, .miss, .ret] s (judgeBeacon s) := by
  intro f hf; unfold judgeBeacon; repeat' split
  all_goals cases f <;> first | rfl | exact absurd hf (by decide)

theorem listenStep_writes (s : State) :
    Writes (Field.ofChange ++ Field.ofJoining ++ [.listen]) s (listenStep s) := by
  have h : Writes (Field.ofChange ++ Field.ofJoining ++ [.listen]) s { s with member.listen := s.member.listen + 1 } := by
    intro f hf; cases f <;> first | rfl | exact absurd hf (by decide)
  unfold listenStep; dsimp only; split
  · exact h.trans (enterJoining_writes _).mono
  · exact h

theorem joinStep_writes (F : Frame) (s : State) : Writes Field.ofIsolated s (joinStep F s) := by
  have h1 : ∀ a d, Writes Field.ofIsolated s { s with member.attempt := a, member.joinDeadline := d } := by
    intro a d f hf; cases f <;> first | rfl | exact absurd hf (by decide)
  unfold joinStep; dsimp only; repeat' split
  · exact Writes.refl s
  · exact (h1 _ _).trans (queueBody_writes _ _ _).mono
  · exact enterIsolated_writes _ _
  · exact Writes.refl s

theorem markStep_writes (F : Frame) (s : State) :
    Writes (Field.ofChange ++ [.mark, .responder, .progress]) s (markStep F s) := by
  have h : Writes (Field.ofChange ++ [.mark, .responder, .progress]) s { s with member.mark := none } := by
    intro f hf; cases f <;> first | rfl | exact absurd hf (by decide)
  unfold markStep; dsimp only; repeat' split
  all_goals first
    | exact Writes.refl s
    | exact h.trans (enterResync_writes _ _).mono
    | exact h

theorem holdStep_writes (s : State) : Writes Field.ofRejoin s (holdStep s) := by
  have h : Writes Field.ofRejoin s { s with member.hold := s.member.hold + 1 } := by
    intro f hf; cases f <;> first | rfl | exact absurd hf (by decide)
  unfold holdStep; dsimp only; split
  · exact h.trans (doRejoin_writes _)
  · exact h

/-- The fields the transition of a frame start can write. -/
abbrev Field.ofTransition : List Field := Field.ofRejoin ++ [.seeded, .insertion, .rout]

theorem transitionStep_writes (F : Frame) (s : State) : Writes Field.ofTransition s (transitionStep F s) := by
  unfold transitionStep; repeat' split
  all_goals first
    | exact Writes.refl s
    | exact (listenStep_writes _).mono
    | exact (joinStep_writes _ _).mono
    | exact (doRejoin_writes _).mono
    | exact (enterRingHold_writes _).mono
    | exact (markStep_writes _ _).mono
    | exact (leaveRingHold_writes _).mono
    | exact (holdStep_writes _).mono

theorem backoffStep_writes (s : State) : Writes [.backoff] s (backoffStep s) := by
  intro f hf; unfold backoffStep; repeat' split
  all_goals cases f <;> first | rfl | exact absurd hf (by decide)

theorem queueBeacon_writes (s : State) : Writes [.transmit, .outstanding, .returned] s (queueBeacon s) := by
  unfold queueBeacon; split
  · refine Writes.trans (t := { s with member.outstanding := some (now s), member.returned := false }) ?_
      (queueBody_writes _ _ _).mono
    intro f hf; cases f <;> first | rfl | exact absurd hf (by decide)
  · exact Writes.refl s

end Sys2Proof.Machine
end

