-- ==== Sys2Proof/Laws/FrameCommands.lean ====
section
/-! SUPPORT. Laws/FrameCommands.lean: the frames of the apply operation, the ring's arrivals and sends, the Pixel Port, the frame
start and the points of a frame. -/

namespace Sys2Proof.Machine

set_option Elab.async false

/-! ## The apply operation and the digest -/

theorem lateNotice_writes (F : Frame) (s : State) (r : DueRecord) : Writes [.late, .reports, .sending, .sendEnds, .lost] s (lateNotice F s r) := by
  unfold lateNotice; split
  · exact (countLate_writes _).mono.trans (event_writes _ _).mono
  · exact Writes.refl s

theorem entries_writes (s : State) (t : Table) : Writes [.entries] s { s with table.entries := t } := by
  intro f hf; cases f <;> first | rfl | exact absurd hf (by decide)

theorem applyDue_writes (s : State) : Writes [.entries, .late, .reports, .sending, .sendEnds, .lost] s (applyDue s) := by
  unfold applyDue
  exact (entries_writes _ _).mono.trans (Writes.foldl (fun s r => (lateNotice_writes _ s r).mono) _ _)

theorem serveReadback_writes (s : State) (r : ReadbackReq) : Writes Field.ofReport s (serveReadback s r) :=
  Writes.foldl (fun s _ => report_writes _ s) _ _

theorem serveReadbacks_writes (s : State) : Writes [.readbacks, .reports, .sending, .sendEnds, .lost] s (serveReadbacks s) := by
  unfold serveReadbacks
  refine Writes.trans (t := { s with pixel.readbacks := [] }) ?_
    (Writes.foldl (fun s r => (serveReadback_writes s r).mono) _ _)
  intro f hf; cases f <;> first | rfl | exact absurd hf (by decide)

/-- The fields of the apply operation. -/
abbrev Field.ofApply : List Field := [.applyPhase, .applyFrame, .applySince, .applyStaged, .applyReapply, .applyDue]

theorem takeApply_writes (F : Frame) (s : State) : Writes (.slot :: Field.ofApply) s (takeApply F s) := by
  intro f hf; unfold takeApply; cases f <;> first | rfl | exact absurd hf (by decide)

theorem judging_writes (s : State) (n : Nat) :
    Writes [.applyPhase, .applySince] s { s with table.apply.phase := .judging, table.apply.since := n } := by
  intro f hf; cases f <;> first | rfl | exact absurd hf (by decide)

theorem phase_writes (s : State) (p : ApplyPhase) : Writes [.applyPhase] s { s with table.apply.phase := p } := by
  intro f hf; cases f <;> first | rfl | exact absurd hf (by decide)

theorem openApply_writes (s : State) : Writes [.applyPhase, .applySince, .entries, .late, .reports, .sending, .sendEnds, .lost] s (openApply s) := by
  unfold openApply; repeat' split
  · intro f hf; cases f <;> first | rfl | exact absurd hf (by decide)
  · exact (judging_writes s _).mono.trans (applyDue_writes _).mono
  · exact Writes.refl s

/-- The fields the end of an install can write. -/
abbrev Field.ofInstall : List Field := Field.ofChange ++ [.applyPhase, .applySince, .entries, .late, .mark, .installed]

theorem endInstall_writes (s : State) : Writes Field.ofInstall s (endInstall s) := by
  unfold endInstall; split
  · refine Writes.trans (t := { s with table.seeded := true, table.apply.phase := .judging,
                                       table.apply.since := s.raster.line + 1 }) ?_
      ((installEnded_writes _ _).mono.trans ((entries_writes _ _).mono.trans (applyDue_writes _).mono))
    intro f hf; cases f <;> first | rfl | exact absurd hf (by decide)
  · exact Writes.refl s

theorem endApply_writes (s : State) : Writes [.applyPhase, .readbacks, .reports, .sending, .sendEnds, .lost] s (endApply s) := by
  unfold endApply; split
  · exact (phase_writes s _).mono.trans (serveReadbacks_writes _).mono
  · exact Writes.refl s

theorem beginDigest_writes (s : State) : Writes [.digest] s (beginDigest s) := by
  intro f hf; unfold beginDigest; cases f <;> first | rfl | exact absurd hf (by decide)

theorem endDigest_writes (s : State) : Writes [.digest, .history] s (endDigest s) := by
  intro f hf; unfold endDigest; repeat' split
  all_goals cases f <;> first | rfl | exact absurd hf (by decide)

/-! ## Arrivals -/

/-- The fields an arrival's consumer can write. -/
abbrev Field.ofConsumer : List Field := Field.ofBeacon ++ [.store, .mark, .slot]

theorem consume_writes (p : Parcel) (s : State) : Writes Field.ofConsumer s (consume p s).2 := by
  unfold consume; split
  · exact (offerBeacon_writes _ _ _).mono
  · exact (offerJoin_writes _ _ _).mono
  · exact (offerPropose_writes _ _ _).mono
  · exact (offerCommit_writes _ _ _ _).mono
  · exact (offerWithdraw_writes _ _ _).mono
  · exact (offerSnapshotReq_writes _ _).mono
  · exact (offerSnapshot_writes _ _ _).mono

/-- The fields the forwarding of a parcel can write. -/
abbrev Field.ofForward : List Field := Field.ofIsolated ++ Field.ofConsumer ++ [.overflow, .stray]

theorem insertionJoin_writes (w : Waiting) (s : State) :
    Writes (.overflow :: Field.ofIsolated) s (insertionJoin w s) := by
  unfold insertionJoin; repeat' split
  · intro f hf; cases f <;> first | rfl | exact absurd hf (by decide)
  · exact (countOverflow_writes _).mono.trans (duplicateNotice_writes _).mono
  · exact (countOverflow_writes _).mono

theorem forward_writes (p : Parcel) (n : Bool) (s : State) : Writes Field.ofForward s (forward p n s) := by
  unfold forward; repeat' split
  · exact (countStray_writes _).mono.trans (duplicateNotice_writes _).mono
  · exact (countStray_writes _).mono
  · exact (consume_writes _ _).mono.trans (insertionJoin_writes _ _).mono

/-- The fields a return can write. -/
abbrev Field.ofReturn : List Field := Field.ofChange ++ Field.ofIsolated ++ Field.ofOrigin

theorem deliver_writes (b : Body) (s : State) : Writes Field.ofReturn s (deliver b s) := by
  unfold deliver; split
  · exact (beaconReturn_writes _ _).mono
  · exact (joinReturn_writes _ _).mono
  · exact (proposeReturn_writes _ _).mono
  · exact (commitReturn_writes _ _ _).mono
  all_goals exact Writes.refl s

theorem foreignParcel_writes (p : Parcel) (s : State) : Writes Field.ofIsolated s (foreignParcel p s) := by
  unfold foreignParcel; split
  · exact duplicateNotice_writes _
  · exact (event_writes _ _).mono

theorem strip_writes (p : Parcel) (s : State) : Writes Field.ofReturn s (strip p s) := by
  unfold strip; split
  · refine Writes.trans (t := { s with ring.inFlight := s.ring.inFlight.eraseP (matchesFlight p) }) ?_ (deliver_writes _ _)
    intro f hf; cases f <;> first | rfl | exact absurd hf (by decide)
  · exact (foreignParcel_writes _ _).mono

theorem ownWhileListening_writes (p : Parcel) (s : State) :
    Writes (.duplicateSeen :: Field.ofForward) s (ownWhileListening p s) := by
  unfold ownWhileListening; split
  · exact Writes.refl s
  · refine Writes.trans (t := { s with ring.duplicateSeen := true }) ?_ (forward_writes _ _ _).mono
    intro f hf; cases f <;> first | rfl | exact absurd hf (by decide)

/-- The fields an arrival on RIN can write. -/
abbrev Field.ofArrival : List Field := Field.ofForward ++ Field.ofReturn ++ [.duplicateSeen, .cut, .crc]

theorem endCut_writes (s : State) : Writes [.cut] s (endCut s) := by
  intro f hf; unfold endCut; cases f <;> first | rfl | exact absurd hf (by decide)

theorem arrive_writes (p : Parcel) (s : State) : Writes Field.ofArrival s (arrive p s) := by
  unfold arrive; dsimp only; repeat' split
  · exact Writes.refl s
  · exact (endCut_writes _).mono
  · exact (countCrc_writes _).mono
  · exact (ownWhileListening_writes _ _).mono
  · exact (strip_writes _ _).mono
  · exact (forward_writes _ _ _).mono

theorem arriveRun_writes (run : List Byte) (s : State) : Writes Field.ofArrival s (arriveRun run s) := by
  unfold arriveRun; repeat' split
  · exact Writes.refl s
  · exact (endCut_writes _).mono
  · exact arrive_writes _ _
  · exact (countCrc_writes _).mono

/-! ## Sends -/

/-- The fields the beginning of a send can write. -/
abbrev Field.ofSend : List Field := [.insertion, .transmit, .inFlight, .tag, .streak, .rout]

theorem sendForwarded_writes (s : State) : Writes Field.ofSend s (sendForwarded s) := by
  intro f hf; unfold sendForwarded; repeat' split
  all_goals cases f <;> first | rfl | exact absurd hf (by decide)

theorem sendOwn_writes (s : State) : Writes Field.ofSend s (sendOwn s) := by
  intro f hf; unfold sendOwn; repeat' split
  all_goals cases f <;> first | rfl | exact absurd hf (by decide)

theorem beginSend_writes (s : State) : Writes Field.ofSend s (beginSend s) := by
  unfold beginSend; repeat' split
  · exact Writes.refl s
  · exact sendForwarded_writes s
  · exact sendOwn_writes s
  · exact Writes.refl s

theorem endSend_writes (s : State) : Writes Field.ofIsolated s (endSend s) := by
  have h : Writes Field.ofIsolated s { s with ring.rout := none } := by
    intro f hf; cases f <;> first | rfl | exact absurd hf (by decide)
  unfold endSend; dsimp only; repeat' split
  · exact Writes.refl s
  · exact h.trans (duplicateNotice_writes _)
  · exact h

/-! ## The Pixel Port -/

/-- The fields of the lines. -/
abbrev Field.ofLines : List Field := [.slots, .requests, .requested]

theorem setSlot_writes (k : Nat) (g : Slot → Slot) (s : State) : Writes [.slots] s (setSlot k g s) := by
  intro f hf; unfold setSlot; cases f <;> first | rfl | exact absurd hf (by decide)

theorem requestLine_writes (k : Nat) (s : State) : Writes Field.ofLines s (requestLine k s) := by
  intro f hf; unfold requestLine; repeat' split
  all_goals cases f <;> first | rfl | exact absurd hf (by decide)

theorem freeSlot_writes (k : Nat) (s : State) : Writes Field.ofLines s (freeSlot k s) := by
  unfold freeSlot
  refine Writes.trans (t := { s with pixel.slots := s.pixel.slots.filter (fun x => !(x.line == k)) }) ?_
    (requestLine_writes _ _)
  intro f hf; cases f <;> first | rfl | exact absurd hf (by decide)

theorem requestPoint_writes (s : State) : Writes Field.ofLines s (requestPoint s) := by
  unfold requestPoint; split
  · exact (requestLine_writes _ _).trans (requestLine_writes _ _)
  · exact Writes.refl s

theorem endReception_writes (k : Nat) (s : State) : Writes Field.ofLines s (endReception k s) := by
  unfold endReception; repeat' split
  all_goals first
    | exact Writes.refl s
    | exact (setSlot_writes _ _ _).mono
    | exact freeSlot_writes _ _

/-- The fields the receiver's lines can write. -/
abbrev Field.ofReceiver : List Field := [.slots, .requests, .requested, .rx, .overflow]

theorem rx_writes (s : State) (r : Rx) : Writes [.rx] s { s with pixel.rx := r } := by
  intro f hf; cases f <;> first | rfl | exact absurd hf (by decide)

theorem markLine_writes (s : State) : Writes Field.ofReceiver s (markLine s) := by
  have h1 : ∀ (t : State) (q : List Nat) (r : Rx), Writes Field.ofReceiver t
      { t with pixel.outstanding := q, pixel.rx := r } := by
    intro t q r f hf; cases f <;> first | rfl | exact absurd hf (by decide)
  unfold markLine; dsimp only; repeat' split
  all_goals first
    | exact (endReception_writes _ _).mono.trans ((h1 _ _ _).trans (setSlot_writes _ _ _).mono)
    | exact (endReception_writes _ _).mono.trans ((rx_writes _ _).mono.trans (countOverflow_writes _).mono)
    | exact (h1 _ _ _).trans (setSlot_writes _ _ _).mono
    | exact (rx_writes _ _).mono.trans (countOverflow_writes _).mono

theorem lineByte_writes (k : Nat) (b : Byte) (s : State) : Writes Field.ofReceiver s (lineByte k b s) := by
  unfold lineByte; repeat' split
  all_goals first
    | exact Writes.refl s
    | exact (setSlot_writes _ _ _).mono
    | exact (rx_writes _ _).mono.trans (setSlot_writes _ _ _).mono
    | exact (rx_writes _ _).mono.trans (freeSlot_writes _ _).mono

theorem answerStatus_writes (c : Bool) (s : State) :
    Writes [.reports, .sending, .sendEnds, .lost, .crc, .overflow, .stray, .underrun, .late, .frameSlip] s (answerStatus c s) := by
  unfold answerStatus; dsimp only; split
  · refine (report_writes (.status (statusFields s)) s).mono.trans ?_
    intro f hf; cases f <;> first | rfl | exact absurd hf (by decide)
  · exact (report_writes _ s).mono

theorem acceptReadback_writes (k : Byte) (r : ReadbackReq) (s : State) :
    Writes [.readbacks, .reports, .sending, .sendEnds, .lost] s (acceptReadback k r s) := by
  unfold acceptReadback; repeat' split
  · intro f hf; cases f <;> first | rfl | exact absurd hf (by decide)
  · exact (report_writes _ _).mono
  · exact (serveReadback_writes _ _).mono

/-- The fields a packet can write. -/
abbrev Field.ofPacket : List Field :=
  Field.ofOrigin ++ [.readbacks, .crc, .overflow, .stray, .underrun, .late, .frameSlip]

theorem actPacket_writes (k : Byte) (j : Except PacketReason PacketAction) (s : State) :
    Writes Field.ofPacket s (actPacket k j s) := by
  unfold actPacket; split
  · exact (report_writes _ _).mono
  · exact (judgeLoad_writes _ _ _).mono
  · exact (acceptReadback_writes _ _ _).mono
  · exact (answerStatus_writes _ _).mono

theorem packetByte_writes (bs : List Byte) (b : Byte) (s : State) :
    Writes (.rx :: Field.ofPacket) s (packetByte bs b s) := by
  unfold packetByte; dsimp only; split
  · exact (rx_writes _ _).mono.trans (actPacket_writes _ _ _).mono
  · exact (rx_writes _ _).mono

theorem markPacket_writes (s : State) : Writes [.rx, .reports, .sending, .sendEnds, .lost] s (markPacket s) := by
  unfold markPacket; split
  · exact (rx_writes _ _).mono.trans (report_writes _ _).mono
  all_goals exact (rx_writes _ _).mono

theorem takeMark_writes (s : State) : Writes (Field.ofReceiver ++ [.reports, .sending, .sendEnds, .lost]) s (takeMark s) := by
  unfold takeMark; split
  · exact (markPacket_writes _).mono
  · exact (markLine_writes _).mono

theorem takeByte_writes (b : Byte) (s : State) : Writes (Field.ofReceiver ++ Field.ofPacket) s (takeByte b s) := by
  unfold takeByte; repeat' split
  · exact (lineByte_writes _ _ _).mono
  · exact (packetByte_writes _ _ _).mono
  · exact (rx_writes _ _).mono.trans (report_writes _ _).mono
  · exact (rx_writes _ _).mono.trans (countOverflow_writes _).mono
  all_goals exact Writes.refl s

theorem openWindow_writes (s : State) : Writes [.cwin, .rx] s (openWindow s) := by
  intro f hf; unfold openWindow; repeat' split
  all_goals cases f <;> first | rfl | exact absurd hf (by decide)

theorem closeWindow_writes (s : State) : Writes [.cwin, .rx, .reports, .sending, .sendEnds, .lost] s (closeWindow s) := by
  have h : ∀ (t : State) (c : Bool) (r : Rx), Writes [.cwin, .rx, .reports, .sending, .sendEnds, .lost] t
      { t with pixel.cwin := c, pixel.rx := r } := by
    intro t c r f hf; cases f <;> first | rfl | exact absurd hf (by decide)
  unfold closeWindow; dsimp only; repeat' split
  · exact (h s _ _).trans (report_writes _ _).mono
  · exact h s _ _
  all_goals first
    | exact Writes.refl s
    | (intro f hf; cases f <;> first | rfl | exact absurd hf (by decide))

theorem clearLines_writes (s : State) : Writes (.rx :: .begun :: Field.ofLines) s (clearLines s) := by
  intro f hf; unfold clearLines; cases f <;> first | rfl | exact absurd hf (by decide)

theorem driveLine_writes (l : List Byte) (s : State) : Writes [.pixels] s (driveLine l s) := by
  intro f hf; unfold driveLine; cases f <;> first | rfl | exact absurd hf (by decide)

/-- The fields the start of an active line can write at the Pixel Port and the panel. -/
abbrev Field.ofActiveLine : List Field := [.begun, .slots, .requests, .requested, .pixels, .underrun]

theorem underrun_writes (j : Nat) (s : State) : Writes Field.ofActiveLine s (underrun j s) :=
  (setSlot_writes _ _ _).mono.trans ((driveLine_writes _ _).mono.trans (countUnderrun_writes _).mono)

theorem consumeLine_writes (j : Nat) (s : State) : Writes Field.ofActiveLine s (consumeLine j s) := by
  have h : Writes Field.ofActiveLine s { s with pixel.begun := j + 1 } := by
    intro f hf; cases f <;> first | rfl | exact absurd hf (by decide)
  unfold consumeLine; dsimp only; repeat' split
  all_goals first
    | exact Writes.refl s
    | exact h.trans ((driveLine_writes _ _).mono.trans (freeSlot_writes _ _).mono)
    | exact h.trans (underrun_writes _ _)

theorem beginReport_writes (s : State) : Writes [.reports, .sending] s (beginReport s) := by
  intro f hf; unfold beginReport nextSend; repeat' split
  all_goals cases f <;> first | rfl | exact absurd hf (by decide)

theorem endReport_writes (n : Nat) (s : State) : Writes [.reports, .sending, .sendEnds] s (endReport n s) := by
  intro f hf; unfold endReport sendOver nextSend; repeat' split
  all_goals cases f <;> first | rfl | exact absurd hf (by decide)

/-! ## The frame start -/

theorem ageInFlight_writes (F : Frame) (s : State) : Writes [.inFlight] s (ageInFlight F s) := by
  intro f hf; unfold ageInFlight; cases f <;> first | rfl | exact absurd hf (by decide)

theorem collectorStep_writes (F : Frame) (s : State) : Writes Field.ofChange s (collectorStep F s) := by
  unfold collectorStep; dsimp only; split
  · exact (collectorDeadline_writes _ _).mono.trans (thirdFailure_writes _).mono
  · exact (collectorDeadline_writes _ _).mono

theorem closeMembership_writes (s : State) :
    Writes (Field.ofChange ++ [.outstanding, .returned]) s (closeMembership s) :=
  (backoffStep_writes s).mono.trans ((recompute_writes _).mono.trans (queueBeacon_writes _).mono)

/-- The fields the pieces of frame-start work can write. -/
abbrev Field.ofWork : List Field :=
  Field.ofTransition ++ [.nextSeq, .applyPhase, .applyReapply, .applyDue, .startWork]

theorem doWork_writes (F : Frame) (w : FrameWork) (s : State) : Writes Field.ofWork s (doWork F w s) := by
  unfold doWork; split
  · intro f hf; cases f <;> first | rfl | exact absurd hf (by decide)
  · exact (ageInFlight_writes _ _).mono
  · exact (expireHeld_writes _ _).mono.trans (giveApplySet_writes _).mono
  · exact (expireRetained_writes _ _).mono
  · exact (testOrigins_writes _).mono
  · exact (collectorStep_writes _ _).mono
  · exact (ageStations_writes _).mono
  · exact (transitionStep_writes _ _).mono
  · exact (closeMembership_writes _).mono

theorem settleWork_writes (w : FrameWork) (s : State) : Writes [.startWork] s (settleWork w s) := startWork_writes s _

theorem takeWork_writes (w : FrameWork) (s : State) : Writes Field.ofWork s (takeWork w s) := by
  unfold takeWork; split
  · exact (settleWork_writes _ _).mono.trans (doWork_writes _ _ _)
  · exact Writes.refl s

theorem finishWork_writes (s : State) : Writes Field.ofWork s (finishWork s) :=
  Writes.foldl (fun s w => takeWork_writes w s) _ _

theorem advanceFrame_writes (s : State) : Writes [.frame, .line, .blanking, .request, .active, .vsync, .hsync, .pixels] s (advanceFrame s) := by
  intro f hf; unfold advanceFrame; cases f <;> first | rfl | exact absurd hf (by decide)

theorem leaveOffRing_writes (m : Bool) (s : State) :
    Writes ([.stationState, .listen, .guard, .duplicateSeen, .cut] ++ Field.ofReport) s (leaveOffRing m s) := by
  unfold leaveOffRing; split
  · refine Writes.trans (t := { s with ring.cut := m }) ?_ ((enterListening_writes _).mono.trans (event_writes _ _).mono)
    intro f hf; cases f <;> first | rfl | exact absurd hf (by decide)
  · exact Writes.refl s

/-- The fields that what a frame start does at once can write. -/
abbrev Field.ofOpening : List Field :=
  [.frame, .line, .blanking, .request, .active, .vsync, .hsync, .pixels, .startWork, .stationState, .listen, .guard, .duplicateSeen,
   .cut, .returned, .miss, .ret, .slot, .rx, .begun] ++ Field.ofReport ++ Field.ofApply ++ Field.ofLines

theorem openFrame_writes (m : Bool) (s : State) : Writes Field.ofOpening s (openFrame m s) := by
  unfold openFrame
  exact (advanceFrame_writes s).mono.trans ((startWork_writes _ _).mono.trans ((leaveOffRing_writes _ _).mono.trans
    ((judgeBeacon_writes _).mono.trans ((takeApply_writes _ _).mono.trans (clearLines_writes _).mono))))

theorem startFrame_writes (l : List FrameWork) (m : Bool) (s : State) :
    Writes (Field.ofOpening ++ Field.ofWork) s (startFrame l m s) := by
  unfold startFrame
  exact (openFrame_writes m s).mono.trans (Writes.foldl (fun s w => (takeWork_writes w s).mono) _ _)

theorem takeTransition_writes {fs : List Field} {c : State → Bool} {g : State → State} (s : State)
    (h : ∀ t, Writes fs t (g t)) (sub : Field.ofWork.all (fun f => fs.contains f) = true := by decide +kernel) :
    Writes fs s (takeTransition c g s) := by
  have h1 : Writes fs s (beforeTransition s) := (takeWork_writes _ s).mono sub
  unfold takeTransition; dsimp only; split
  · exact h1.trans (((settleWork_writes _ _).mono (gs := Field.ofWork)).mono sub |>.trans (h _))
  · exact h1

theorem takeOrigin_writes (m : Phase → Bool) (s : State) :
    Writes (.startWork :: Field.ofOrigin) s (takeOrigin m s) := by
  have hw : ∀ (t : State) (l : List Seq), Writes [.startWork] t { t with startWork.origin := l } := by
    intro t l f hf; cases f <;> first | rfl | exact absurd hf (by decide)
  unfold takeOrigin; repeat' split
  · exact (hw _ _).mono.trans (originDue_writes _ _).mono
  · exact Writes.refl s
  · exact (hw _ _).mono.trans (settleWork_writes _ _).mono
  · exact Writes.refl s

/-! ## The points of a frame -/

theorem openApplyWindow_writes (s : State) :
    Writes ([.applyPhase, .applySince, .entries, .late] ++ Field.ofReport) s (openApplyWindow s) := by
  unfold openApplyWindow; split
  · exact (openApply_writes s).mono
  · exact Writes.refl s

theorem beginActive_writes (s : State) : Writes [.digest, .black, .active] s (beginActive s) := by
  have h : ∀ (t : State) (b : Bool), Writes [.black, .active] t { t with panel.black := b, raster.active := true } := by
    intro t b f hf; cases f <;> first | rfl | exact absurd hf (by decide)
  unfold beginActive; split
  · exact (beginDigest_writes s).mono.trans (h _ _).mono
  · exact Writes.refl s

/-- The fields the start of an active line can write, line V's points among them. -/
abbrev Field.ofShown : List Field := [.digest, .black, .active] ++ Field.ofActiveLine

theorem beginLine_writes (j : Nat) (s : State) : Writes Field.ofShown s (beginLine j s) := by
  unfold beginLine; split
  · exact (beginActive_writes s).mono.trans (consumeLine_writes _ _).mono
  · exact Writes.refl s

theorem endActive_writes (s : State) : Writes [.active, .pixels, .digest, .history] s (endActive s) := by
  unfold endActive; split
  · refine Writes.trans (t := { s with raster.active := false, panel.pixels := [] }) ?_ (endDigest_writes _).mono
    intro f hf; cases f <;> first | rfl | exact absurd hf (by decide)
  · exact Writes.refl s

theorem endFrame_writes (s : State) : Writes (.history :: Field.ofShown) s (endFrame s) := by
  unfold endFrame; split
  · exact (beginLine_writes _ s).mono.trans (endActive_writes _).mono
  · exact Writes.refl s

/-! ## A line as a whole -/

/-- The fields the points of a frame can write, from line 1 to the frame's end. -/
abbrev Field.ofPoints : List Field :=
  Field.ofInstall ++ Field.ofShown ++ [.readbacks, .cwin, .rx, .history]

theorem startLine_writes (s : State) : Writes Field.ofPoints s (startLine s) :=
  (openApplyWindow_writes s).mono.trans ((openWindow_writes _).mono.trans
    ((requestPoint_writes _).mono.trans (beginLine_writes _ _).mono))

theorem endLine_writes (s : State) : Writes Field.ofPoints s (endLine s) := by
  have h1 : ∀ t : State, Writes Field.ofPoints t (if installDue t then endInstall t else t) := by
    intro t; split
    · exact (endInstall_writes t).mono
    · exact Writes.refl t
  have h2 : ∀ t : State, Writes Field.ofPoints t (if applyOver t then endApply t else t) := by
    intro t; split
    · exact (endApply_writes t).mono
    · exact Writes.refl t
  exact (h1 s).trans ((h2 _).trans ((closeWindow_writes _).mono.trans (endFrame_writes _).mono))

/-- The fields that everything of one line can write. -/
abbrev Field.ofLine : List Field := Field.ofWork ++ Field.ofPoints

theorem bringLine_writes (s : State) : Writes Field.ofLine s (bringLine s) :=
  (finishWork_writes s).mono.trans ((startLine_writes _).mono.trans (endLine_writes _).mono)

theorem passLine_writes (s : State) : Writes [.line, .hsync, .pixels, .vsync] s (passLine s) := by
  intro f hf; unfold passLine; cases f <;> first | rfl | exact absurd hf (by decide)

theorem advanceLine_writes (s : State) : Writes (Field.ofLine ++ [.line, .hsync, .vsync]) s (advanceLine s) := by
  unfold advanceLine; split
  · exact (bringLine_writes s).mono.trans (passLine_writes _).mono
  · exact Writes.refl s

/-- The fields a frame start can write, what it brings of its last line included. -/
abbrev Field.ofFrameStart : List Field := Field.ofLine ++ Field.ofOpening

theorem nextFrame_writes (l : List FrameWork) (m : Bool) (s : State) : Writes Field.ofFrameStart s (nextFrame l m s) := by
  unfold nextFrame; split
  · exact (bringLine_writes s).mono.trans (startFrame_writes _ _ _).mono
  · exact Writes.refl s

end Sys2Proof.Machine
end

