-- ==== Sys2Proof/Laws/Lists.lean ====
section
/-! SUPPORT. Laws/Lists.lean: the list operations of the blocks: sorting, the first free value, the queues with a fixed number of
places. -/

namespace Sys2Proof.Machine

/-! ## Sorting -/

theorem insertBefore_perm {α : Type} (b : α → α → Bool) (x : α) : ∀ xs : List α, (insertBefore b x xs).Perm (x :: xs)
  | [] => List.Perm.refl _
  | y :: ys => by
    unfold insertBefore; split
    · exact List.Perm.refl _
    · exact ((insertBefore_perm b x ys).cons y).trans (List.Perm.swap x y ys)

theorem sortBy_perm {α : Type} (b : α → α → Bool) : ∀ xs : List α, (sortBy b xs).Perm xs
  | [] => List.Perm.refl _
  | x :: xs => (insertBefore_perm b x _).trans ((sortBy_perm b xs).cons x)

/-- Sorting keeps the members. -/
theorem mem_sortBy {α : Type} {b : α → α → Bool} {x : α} {xs : List α} : x ∈ sortBy b xs ↔ x ∈ xs := (sortBy_perm b xs).mem_iff

theorem insertBefore_sorted {α : Type} {b : α → α → Bool} {r : α → α → Prop} {x : α} :
    ∀ {xs : List α}, (∀ y ∈ xs, b x y = true → r x y) → (∀ y ∈ xs, b x y = false → r y x) →
      (∀ y ∈ xs, ∀ z ∈ xs, r x y → r y z → r x z) → xs.Pairwise r → (insertBefore b x xs).Pairwise r
  | [], _, _, _, _ => List.pairwise_singleton _ _
  | y :: ys, hb, hn, ht, h => by
    obtain ⟨h1, h2⟩ := List.pairwise_cons.mp h
    have hy : y ∈ y :: ys := List.mem_cons_self
    have up : ∀ z ∈ ys, z ∈ y :: ys := fun z hz => List.mem_cons_of_mem _ hz
    unfold insertBefore; split
    · rename_i hxy
      refine List.pairwise_cons.mpr ⟨fun z hz => ?_, h⟩
      rcases List.mem_cons.mp hz with rfl | hz
      · exact hb _ hy hxy
      · exact ht _ hy _ (up z hz) (hb _ hy hxy) (h1 z hz)
    · rename_i hxy
      refine List.pairwise_cons.mpr ⟨fun z hz => ?_, insertBefore_sorted (fun z hz => hb z (up z hz))
        (fun z hz => hn z (up z hz)) (fun z hz w hw => ht z (up z hz) w (up w hw)) h2⟩
      rcases List.mem_cons.mp ((insertBefore_perm b x ys).mem_iff.mp hz) with rfl | hz
      · exact hn _ hy (by simpa using hxy)
      · exact h1 z hz

/-- A list is sorted by every relation that orders its members, pairwise distinct in `apart`, as the test decides. -/
theorem sortBy_sorted {α : Type} {b : α → α → Bool} {r apart : α → α → Prop} :
    ∀ {xs : List α}, xs.Pairwise apart → (∀ x ∈ xs, ∀ y ∈ xs, apart x y → b x y = true → r x y) →
      (∀ x ∈ xs, ∀ y ∈ xs, apart x y → b x y = false → r y x) →
      (∀ x ∈ xs, ∀ y ∈ xs, ∀ z ∈ xs, r x y → r y z → r x z) → (sortBy b xs).Pairwise r
  | [], _, _, _, _ => List.Pairwise.nil
  | x :: xs, ha, hb, hn, ht => by
    obtain ⟨h1, h2⟩ := List.pairwise_cons.mp ha
    have hx : x ∈ x :: xs := List.mem_cons_self
    have up : ∀ z ∈ xs, z ∈ x :: xs := fun z hz => List.mem_cons_of_mem _ hz
    exact insertBefore_sorted (fun y hy => hb x hx y (up y (mem_sortBy.mp hy)) (h1 y (mem_sortBy.mp hy)))
      (fun y hy => hn x hx y (up y (mem_sortBy.mp hy)) (h1 y (mem_sortBy.mp hy)))
      (fun y hy z hz => ht x hx y (up y (mem_sortBy.mp hy)) z (up z (mem_sortBy.mp hz)))
      (sortBy_sorted h2 (fun y hy z hz => hb y (up y hy) z (up z hz)) (fun y hy z hz => hn y (up y hy) z (up z hz))
        (fun y hy z hz w hw => ht y (up y hy) z (up z hz) w (up w hw)))

/-! ## The first free value -/

theorem nextFree_eq (used : List (BitVec 8)) : ∀ (n : Nat) (q : BitVec 8),
    (nextFree used n q ∉ used) ∨ (∀ i < n, q + BitVec.ofNat 8 i ∈ used)
  | 0, _ => Or.inr (fun _ hi => absurd hi (Nat.not_lt_zero _))
  | n + 1, q => by
    unfold nextFree; split
    · rename_i hq
      rcases nextFree_eq used n (q + 1) with h | h
      · exact Or.inl h
      · refine Or.inr (fun i hi => ?_)
        rcases i with _ | i
        · simpa using hq
        · have := h i (by omega)
          have e : q + 1 + BitVec.ofNat 8 i = q + BitVec.ofNat 8 (i + 1) := by
            apply BitVec.eq_of_toNat_eq; simp [BitVec.toNat_add, BitVec.toNat_ofNat]; omega
          rwa [e] at this
    · rename_i hq
      exact Or.inl (by simpa using hq)

/-- With fewer than 256 values in use, the first free value is free. -/
theorem nextFree_not_mem {used : List (BitVec 8)} (h : used.length < 256) (q : BitVec 8) : nextFree used 256 q ∉ used := by
  rcases nextFree_eq used 256 q with h1 | h1
  · exact h1
  · exfalso
    have hsub : (List.range 256).map (fun i => q + BitVec.ofNat 8 i) ⊆ used := by
      intro x hx
      obtain ⟨i, hi, rfl⟩ := List.mem_map.mp hx
      exact h1 i (List.mem_range.mp hi)
    have hnd : ((List.range 256).map (fun i => q + BitVec.ofNat 8 i)).Nodup := by
      refine List.Nodup.map_on (fun i hi j hj hij => ?_) List.nodup_range
      have := congrArg BitVec.toNat ((BitVec.add_right_inj q).mp hij)
      simp only [BitVec.toNat_ofNat] at this
      have := List.mem_range.mp hi; have := List.mem_range.mp hj; omega
    have := (List.Nodup.subperm hnd hsub).length_le
    simp at this; omega

/-- What the search passes is used: the first value at which it stops lies some steps on, and every value before it is used. -/
theorem nextFree_passes (used : List (BitVec 8)) : ∀ (n : Nat) (q : BitVec 8),
    ∃ k : Nat, nextFree used n q = q + BitVec.ofNat 8 k ∧ ∀ j < k, q + BitVec.ofNat 8 j ∈ used
  | 0, q => ⟨0, by simp [nextFree], fun _ hj => absurd hj (Nat.not_lt_zero _)⟩
  | n + 1, q => by
    unfold nextFree; split
    · rename_i hq
      obtain ⟨k, hk, hu⟩ := nextFree_passes used n (q + 1)
      have step : ∀ i : Nat, q + 1 + BitVec.ofNat 8 i = q + BitVec.ofNat 8 (i + 1) := by
        intro i; apply BitVec.eq_of_toNat_eq; simp [BitVec.toNat_add, BitVec.toNat_ofNat]; omega
      refine ⟨k + 1, by rw [hk, step], fun j hj => ?_⟩
      rcases j with _ | j
      · simpa using hq
      · rw [← step]; exact hu j (by omega)
    · exact ⟨0, by simp, fun _ hj => absurd hj (Nat.not_lt_zero _)⟩

/-- With fewer than 256 values in use, the search from q + 1 stops at the first free value after q. -/
theorem nextFree_after {used : List (BitVec 8)} (h : used.length < 256) (q : BitVec 8) :
    NextFree used q (nextFree used 256 (q + 1)) := by
  obtain ⟨k, hk, hu⟩ := nextFree_passes used 256 (q + 1)
  have step : ∀ i : Nat, q + 1 + BitVec.ofNat 8 i = q + BitVec.ofNat 8 (i + 1) := by
    intro i; apply BitVec.eq_of_toNat_eq; simp [BitVec.toNat_add, BitVec.toNat_ofNat]; omega
  exact ⟨nextFree_not_mem h _, k, by rw [hk, step], fun j hj => by rw [← step]; exact hu j hj⟩

/-! ## Queues -/

/-- The transmit queue never holds more than its places, for a parcel that finds it within them. -/
theorem transmitJoin_length {p : Parcel} {q r : List Parcel} (h : transmitJoin p q = some r)
    (hq : q.length ≤ Config.transmitPlaces) : r.length ≤ Config.transmitPlaces := by
  unfold transmitJoin at h
  split at h <;> split at h
  · rename_i hany
    have hlt : (q.filter (fun x => !isBeacon x)).length < q.length := by
      obtain ⟨x, hx, hbx⟩ := List.any_eq_true.mp hany
      exact List.length_filter_lt_length_iff_exists.mpr ⟨x, hx, by simp [hbx]⟩
    simp only [Option.some.injEq] at h
    subst h; simp only [List.length_cons]; omega
  · split at h <;> simp only [Option.some.injEq, reduceCtorEq] at h
    subst h; simp only [List.length_cons]; omega
  · simp only [Option.some.injEq] at h
    subst h; simp only [List.length_append, List.length_cons, List.length_nil]; omega
  · exact absurd h (by simp)

/-- An own parcel that is no BEACON joins the tail where there is a place (R44). -/
theorem transmitJoin_tail {p : Parcel} {q : List Parcel} (hp : isBeacon p = false) (hq : q.length < Config.transmitPlaces) :
    transmitJoin p q = some (q ++ [p]) := by
  simp [transmitJoin, hp, hq]

/-- The report queue never holds more than its places, and the line is idle only where nothing waits (R166, R167). -/
theorem reportJoin_ok (r : Report) (F : Frame) (u : ReportUnit) (h : u.queue.length ≤ Config.reportPlaces)
    (hi : u.sending = none → u.queue = [] ∧ u.endsAfter = 0) :
    (reportJoin r F u).queue.length ≤ Config.reportPlaces
      ∧ ((reportJoin r F u).sending = none → (reportJoin r F u).queue = [] ∧ (reportJoin r F u).endsAfter = 0) := by
  have hj : (recordJoin r F u).queue.length ≤ Config.reportPlaces
      ∧ ((recordJoin r F u).sending = none → (recordJoin r F u).queue = [] ∧ (recordJoin r F u).endsAfter = 0) := by
    unfold recordJoin; split
    · refine ⟨(nextSend_length _).trans (by simp only [List.length_append, List.length_cons, List.length_nil]; omega), fun hn => ?_⟩
      refine ⟨nextSend_idle hn, ?_⟩
      cases hs : u.sending with
      | none => simpa using (hi hs).2
      | some x => simp [nextSend, hs] at hn
    · exact ⟨h, hi⟩
  unfold reportJoin recordFormed; split
  · exact hj
  · split
    · exact ⟨(nextSend_length _).trans hj.1, fun hn => ⟨nextSend_idle hn, by simp [sendOver]⟩⟩
    · rename_i h0 _
      exact ⟨hj.1, fun hn => absurd (hj.2 hn).2 h0⟩

/-- The digest history never holds more than four pairs (R17). -/
theorem historyJoin_length (p : Frame × Digest) (h : List (Frame × Digest)) (hl : h.length ≤ Config.historyPlaces) :
    (historyJoin p h).length ≤ Config.historyPlaces := by
  unfold historyJoin; split
  · rename_i hany
    obtain ⟨x, hx, hbx⟩ := List.any_eq_true.mp hany
    have : (h.filter (fun x => !(x.1 == p.1))).length < h.length :=
      List.length_filter_lt_length_iff_exists.mpr ⟨x, hx, by simp [hbx]⟩
    simp only [List.length_append, List.length_cons, List.length_nil]; omega
  · split
    · rename_i h4
      have : 1 ≤ h.length := Nat.le_trans (by decide) h4
      simp only [List.length_append, List.length_tail, List.length_cons, List.length_nil]; omega
    · simp only [List.length_append, List.length_cons, List.length_nil]; omega

end Sys2Proof.Machine
end

