-- ==== Sys2Proof/Laws/References.lean ====
section
/-! SUPPORT. Laws/References.lean: what a recomputation of the references does, said once: it leaves the references of the station table
as it stands, and it changes nothing where they already are. -/

namespace Sys2Proof.Machine

/-- The references are those of the station table as it stands. -/
def RefsOk (s : State) : Prop := s.member.tableRef = computeTableRef s ∧ s.member.timingRef = computeTimingRef s

/-- The references depend on the own number, the own state and the station table only. -/
theorem computeTableRef_congr {s t : State} (h1 : t.straps = s.straps) (h2 : t.member.state = s.member.state)
    (h3 : t.member.stations = s.member.stations) : computeTableRef t = computeTableRef s := by
  simp [computeTableRef, presentStations, ownEntry, own, h1, h2, h3]

theorem computeTimingRef_congr {s t : State} (h1 : t.straps = s.straps) (h2 : t.member.state = s.member.state)
    (h3 : t.member.stations = s.member.stations) : computeTimingRef t = computeTimingRef s := by
  simp [computeTimingRef, computeTableRef_congr h1 h2 h3, presentStations, ownEntry, own, h1, h2, h3]

/-- An operation that leaves the references and what they come from alone keeps them right. -/
theorem RefsOk.of_writes {fs : List Field} {s t : State} (w : Writes fs s t) (h : RefsOk s)
    (hf : [Field.straps, .stationState, .stations, .tableRef, .timingRef].all (fun f => !fs.contains f) = true := by decide) :
    RefsOk t := by
  simp only [List.all_cons, List.all_nil, Bool.and_true, Bool.and_eq_true, Bool.not_eq_true'] at hf
  have e1 : t.straps = s.straps := w.at .straps hf.1
  have e2 : t.member.state = s.member.state := w.at .stationState hf.2.1
  have e3 : t.member.stations = s.member.stations := w.at .stations hf.2.2.1
  have e4 : t.member.tableRef = s.member.tableRef := w.at .tableRef hf.2.2.2.1
  have e5 : t.member.timingRef = s.member.timingRef := w.at .timingRef hf.2.2.2.2
  exact ⟨by rw [e4, h.1, computeTableRef_congr e1 e2 e3], by rw [e5, h.2, computeTimingRef_congr e1 e2 e3]⟩

theorem refsOk_recomputeOnce (s : State) : RefsOk (recomputeOnce s).state := by
  have w1 : ∀ a b n, Writes [.tableRef, .timingRef, .mismatch] s
      { s with member.tableRef := a, member.timingRef := b, member.mismatch := n } := by
    intro a b n f hf; cases f <;> first | rfl | exact absurd hf (by decide)
  have h1 : ∀ n, RefsOk { s with member.tableRef := computeTableRef s, member.timingRef := computeTimingRef s, member.mismatch := n } :=
    fun n => ⟨(computeTableRef_congr rfl rfl rfl).symm, (computeTimingRef_congr rfl rfl rfl).symm⟩
  unfold recomputeOnce; dsimp only
  split <;> split
  · exact h1 _
  · exact (h1 _).of_writes (lockRefChange_writes _ _)
  · exact (h1 _).of_writes (collectorRefChange_writes _ _)
  · exact ((h1 _).of_writes (lockRefChange_writes _ _)).of_writes (collectorRefChange_writes _ _)

theorem refsOk_enterInService (s : State) : RefsOk (enterInService s) := refsOk_recomputeOnce _

theorem refsOk_testService {s : State} (h : RefsOk s) : RefsOk (testService s) := by
  unfold testService; split
  · exact (refsOk_enterInService _).of_writes (event_writes _ _)
  · exact h

theorem refsOk_thirdFailure {s : State} (h : RefsOk s) : RefsOk (thirdFailure s) := by
  unfold thirdFailure; split
  · exact h
  · exact (refsOk_enterInService _).of_writes (event_writes _ _)
  · exact RefsOk.of_writes (fs := [.reports, .sending, .sendEnds, .lost]) (s := { s with member.backoff := 16 }) (event_writes _ _) h
  all_goals exact h

/-- After a recomputation the references are those of the table as it stands. -/
theorem refsOk_recompute (s : State) : RefsOk (recompute s) := by
  have h := refsOk_recomputeOnce s
  unfold recompute; dsimp only
  split <;> split
  · exact refsOk_thirdFailure (refsOk_testService h)
  · exact refsOk_thirdFailure h
  · exact refsOk_testService h
  · exact h

/-- Where the references stand already, a recomputation changes nothing. -/
theorem recompute_of_refsOk {s : State} (h : RefsOk s) : recompute s = s := by
  have e : recomputeOnce s = { state := s, lockChanged := false, thirdFailure := false } := by
    have h1 := h.1; have h2 := h.2
    simp [recomputeOnce, ← h1, ← h2]
  simp [recompute, e]

/-- What the recomputation alone brings at the Lock Unit (R81). -/
theorem lockFollows_recomputeOnce (s : State) : LockFollows s (recomputeOnce s).state := by
  have hc : ∀ (u : State) (p : Prop) [Decidable p] (t : Option StationNo),
      let r := (if p then (u, false) else collectorRefChange t u).1
      r.lock = u.lock ∧ r.raster.request = u.raster.request ∧ r.member.timingRef = u.member.timingRef := by
    intro u p _ t; dsimp only
    split
    · exact ⟨rfl, rfl, rfl⟩
    · have w := collectorRefChange_writes t u
      have hl : ∀ x y : Lock, x.state = y.state → x.ref = y.ref → x.offset = y.offset → x = y := by
        rintro ⟨⟩ ⟨⟩ rfl rfl rfl; rfl
      exact ⟨hl _ _ (w.at .lockState) (w.at .lockRef) (w.at .offset), w.at .request, w.at .timingRef⟩
  unfold LockFollows recomputeOnce; dsimp only
  obtain ⟨h1, h2, h3⟩ := hc (if computeTimingRef s = s.member.timingRef then
      { s with member.tableRef := computeTableRef s, member.timingRef := computeTimingRef s,
               member.mismatch := if computeTableRef s = s.member.tableRef then s.member.mismatch else 0 }
      else lockRefChange (computeTimingRef s)
        { s with member.tableRef := computeTableRef s, member.timingRef := computeTimingRef s,
                 member.mismatch := if computeTableRef s = s.member.tableRef then s.member.mismatch else 0 })
    (computeTableRef s = s.member.tableRef) (computeTableRef s)
  rw [h1, h2, h3]
  by_cases hm : computeTimingRef s = s.member.timingRef
  · simp [hm]
  · by_cases ho : computeTimingRef s = some (own s) <;> simp [hm, ho, lockRefChange, requestBlanking, own, nominal] <;> simp_all [own]

/-- An own parcel that is no BEACON joins the tail of a transmit queue with a place. -/
theorem queued_queueBody {n : StationNo} {b : Body} (s : State) (hb : isBeacon (ownParcel s n b) = false) :
    Queued s (queueBody n b s) n b := by
  intro h1 h2
  simp [queueBody, queueParcel, h1, transmitJoin, hb, h2]

/-- What a change of table reference brings the collector (R139, R140). -/
theorem collectorMoves_collectorRefChange (ref : Option StationNo) (s : State) (h : ref ≠ s.member.tableRef) :
    CollectorMoves ref s (collectorRefChange ref s).1 := by
  have hq : ∀ (u : State) (r : StationNo), u.inReset = s.inReset → u.member = s.member → u.ring = s.ring → u.straps = s.straps →
      Queued s (queueBody r .snapshotReq u) r .snapshotReq := by
    intro u r h0 h1 h2 h3 hb hl
    have hb' : bypass u = false := by simpa [bypass, h0, h1] using hb
    have := queued_queueBody (n := r) (b := .snapshotReq) u rfl hb' (by rw [h2]; exact hl)
    rw [this, h2]; simp [ownParcel, own, h3]
  refine ⟨fun hc => ?_, fun c hc _ => ⟨fun ht => ?_, fun r ht hr => ?_, fun ht hn ha => ?_, fun ht hn ha => ?_⟩⟩
  · rcases hc with hc | hc
    · simp [collectorRefChange, hc]
    · exact absurd hc h
  · cases hr : ref <;> simp [collectorRefChange, hc, ht, hr]
  · subst hr
    refine ⟨?_, ?_⟩
    · simp only [collectorRefChange, hc, ht, requestSnapshot]
      exact ((queueBody_writes _ _ _).at .collector)
    · simp only [collectorRefChange, hc, ht, requestSnapshot]
      exact hq _ r rfl rfl rfl rfl
  · obtain ⟨x, hx⟩ := Option.ne_none_iff_exists'.mp ht
    cases hr : ref with
    | none =>
      simp [collectorRefChange, hc, hx, failAttempt, ha, requestSnapshot]
    | some r =>
      have hxr : x ≠ r := fun e => hn (by rw [hx, hr, e])
      simp only [collectorRefChange, hc, hx, hxr, if_false, failAttempt, ha, if_true, requestSnapshot]
      refine ⟨(queueBody_writes _ _ _).at .collector, fun r' e => ?_, nofun⟩
      cases e; exact hq _ r rfl rfl rfl rfl
  · obtain ⟨x, hx⟩ := Option.ne_none_iff_exists'.mp ht
    have ha' : ¬ c.attempt < 3 := by omega
    cases hr : ref with
    | none => simp [collectorRefChange, hc, hx, failAttempt, ha']
    | some r =>
      have hxr : x ≠ r := fun e => hn (by rw [hx, hr, e])
      simp [collectorRefChange, hc, hx, hxr, failAttempt, ha']

/-- What the entry to ISOLATED does (R54, R78). -/
theorem isolated_enterIsolated (r : IsolationReason) (s : State) :
    Isolated s (enterIsolated r s) ∧ Raised s (enterIsolated r s) (.stateChange .isolated (some r))
      ∧ Writes (Field.ofIsolation ++ Field.ofReport) s (enterIsolated r s) := by
  have hl : loseReferences s = s ∨ loseReferences s = { s with lock := { state := .free, ref := none, offset := none } } := by
    unfold loseReferences lockRefChange; split
    · exact Or.inl rfl
    · exact Or.inr rfl
  refine ⟨⟨rfl, ?_, rfl, rfl, rfl, rfl, rfl, fun h => ?_, fun h => ?_⟩, ?_, ?_⟩
  · simp [enterIsolated, bypass, Member.reset, receiving]
  · simp [enterIsolated, loseReferences, h, lockRefChange]
  · simp [enterIsolated, loseReferences, h]
  · rcases hl with e | e <;> simp only [Raised, Reported, enterIsolated, e] <;> rfl
  · unfold enterIsolated
    rcases hl with e | e <;> rw [e] <;> refine Writes.trans ?_ (event_writes _ _).mono <;>
      · intro f hf; cases f <;> first | rfl | exact absurd hf (by decide)

/-- In a state that no consequence of a recomputation is about, it writes the references and what they are passed on to, and nothing
else. -/
theorem recompute_writes_refs {s : State} (h1 : s.member.state ≠ .catchingUp) (h2 : s.member.state ≠ .resync)
    (h3 : s.member.state ≠ .ringHold) : Writes Field.ofRefs s (recompute s) := by
  have w := recomputeOnce_writes s
  have e : (recomputeOnce s).state.member.state = s.member.state := w.at .stationState
  have ht : ∀ t : State, t.member.state = s.member.state → testService t = t := by
    intro t ht; simp [testService, ht, h1]
  have hf : ∀ t : State, t.member.state = s.member.state → thirdFailure t = t := by
    intro t ht; unfold thirdFailure; rw [ht]
    cases hs : s.member.state <;> simp_all
  unfold recompute; dsimp only
  split <;> split <;> simp only [ht _ e, hf _ e, w]

end Sys2Proof.Machine
end

