-- ==== Sys2Proof/Laws/Invariants.lean ====
section
/-! SUPPORT. Laws/Invariants.lean: an operation whose frame leaves an invariant's fields alone keeps the invariant. -/

namespace Sys2Proof.Machine

/-! ## Lines that bring nothing -/

theorem activeLines_pos (s : State) : 400 ≤ activeLines s := by
  unfold activeLines Profile.lines; split <;> omega

/-- A line consumed already is not consumed again (R150). -/
theorem consumeLine_of_begun {j : Nat} {s : State} (h : j < s.pixel.begun) : consumeLine j s = s := by
  unfold consumeLine; rw [if_neg (fun hh => absurd hh.2 (by omega))]

/-- Off its lines a point of the blanking brings nothing. -/
theorem openWindow_off {s : State} (h : s.raster.line ≠ 2) : openWindow s = s := by simp [openWindow, h]
theorem openApplyWindow_off {s : State} (h : s.raster.line ≠ 1) : openApplyWindow s = s := by simp [openApplyWindow, h]
theorem requestPoint_off {s : State} (h : s.raster.line + 2 ≠ s.raster.blanking) : requestPoint s = s := by simp [requestPoint, h]
theorem closeWindow_off {s : State} (h : s.raster.line + 5 ≠ s.raster.blanking) : closeWindow s = s := by simp [closeWindow, h]
theorem beginActive_off {s : State} (h : s.raster.line ≠ s.raster.blanking ∨ s.raster.active = true) : beginActive s = s := by
  unfold beginActive; rw [if_neg]; rintro ⟨h1, h2, _⟩; rcases h with h | h <;> simp_all
theorem endFrame_off {s : State} (h : s.raster.line + 1 ≠ totalLines s) : endFrame s = s := by simp [endFrame, h]

/-- With no apply operation in progress a line's end takes no step of one. -/
theorem endLine_of_idle {s : State} (h : s.table.apply.phase = .idle) : endLine s = endFrame (closeWindow s) := by
  simp [endLine, endInstall, applyOver, h]

/-- At the end of a frame whose points have all been brought there is nothing to bring. -/
theorem bringLine_of_settled {s : State} (h : Settled s) : bringLine s = s := by
  obtain ⟨h1, h2, h3, h4, h5, h6⟩ := h
  have hA := activeLines_pos s
  have hT : totalLines s = s.raster.blanking + activeLines s := rfl
  have hl : s.raster.line = s.raster.blanking + (activeLines s - 1) := by omega
  have hb : ∀ j, beginLine j s = s := by
    intro j; unfold beginLine; split
    · rw [beginActive_off (Or.inl (by omega)), consumeLine_of_begun (by omega)]
    · rfl
  rw [bringLine, finishWork_of_nil h2, startLine, openApplyWindow_off (by omega), openWindow_off (by omega),
    requestPoint_off (by omega), hb, endLine_of_idle h3, closeWindow_off (by omega), endFrame, if_pos h1, hb, endActive, h5]
  rfl

/-- A plain line brings nothing. -/
theorem bringLine_of_plain {s : State} (h : Plain s) (hl : s.raster.line + 1 < totalLines s) : bringLine s = s := by
  obtain ⟨h1, h2, h3, h⟩ := h
  rw [bringLine, finishWork_of_nil h1, startLine]
  rcases h with ⟨h4, h5⟩ | ⟨h4, h5, h6⟩
  · have hb : beginLine (s.raster.line - s.raster.blanking) s = s := by
      unfold beginLine; rw [if_neg (by omega)]
    rw [openApplyWindow_off (by omega), openWindow_off (by omega), requestPoint_off (by omega), hb, endLine_of_idle h2,
      closeWindow_off h5, endFrame_off (by omega)]
  · have hb : beginLine (s.raster.line - s.raster.blanking) s = s := by
      unfold beginLine; rw [if_pos (by omega), beginActive_off (Or.inr h5), consumeLine_of_begun (by omega)]
    rw [openApplyWindow_off (by omega), openWindow_off (by omega), requestPoint_off (by omega), hb, endLine_of_idle h2,
      closeWindow_off (by omega), endFrame_off (by omega)]

/-! ## Staged snapshots -/

theorem PartsOk.index_lt {ps : List Part} (h : PartsOk ps) : ∀ p ∈ ps, ∀ e ∈ p.entries, e.index.toNat < tableSize := by
  intro p hp e he
  obtain ⟨h8, hi⟩ := h.2 p hp
  have hm : e.index.toNat ∈ partIndices p.number := hi ▸ List.mem_map_of_mem (f := fun x : SnapEntry => x.index.toNat) he
  simp only [partIndices, partSize, List.mem_map, List.mem_range] at hm
  obtain ⟨i, h, e1⟩ := hm
  split at h <;> simp only [tableSize] <;> omega

/-- An entry lies in the part that its index names. -/
theorem PartsOk.part_of {ps : List Part} (h : PartsOk ps) : ∀ p ∈ ps, ∀ e ∈ p.entries, e.index.toNat / 32 = p.number := by
  intro p hp e he
  obtain ⟨h8, hi⟩ := h.2 p hp
  have hm : e.index.toNat ∈ partIndices p.number := hi ▸ List.mem_map_of_mem (f := fun x : SnapEntry => x.index.toNat) he
  simp only [partIndices, partSize, List.mem_map, List.mem_range] at hm
  obtain ⟨i, h, e1⟩ := hm
  split at h <;> omega

/-- A staged snapshot has every part. -/
theorem SnapshotOk.part {ps : List Part} (h : SnapshotOk ps) {n : Nat} (hn : n ≤ 8) : ∃ p ∈ ps, p.number = n := by
  have hs : ps.map (·.number) ⊆ List.range 9 := by
    intro x hx
    obtain ⟨p, hp, rfl⟩ := List.mem_map.mp hx
    exact List.mem_range.mpr (by have := (h.1.2 p hp).1; omega)
  have hl : (ps.map (·.number)).length = (List.range 9).length := by simp [h.2]
  have hp := (List.subperm_of_subset h.1.1 hs).perm_of_length_le (by omega)
  obtain ⟨p, hp, rfl⟩ := List.mem_map.mp (hp.mem_iff.mpr (List.mem_range.mpr (by omega : n < 9)))
  exact ⟨p, hp, rfl⟩

/-- A staged snapshot has an entry for every index of the table. -/
theorem SnapshotOk.entry {ps : List Part} (h : SnapshotOk ps) {i : Nat} (hi : i < tableSize) :
    ∃ e ∈ ps.flatMap (·.entries), e.index.toNat = i := by
  simp only [tableSize] at hi
  obtain ⟨p, hp, hn⟩ := h.part (show i / 32 ≤ 8 by omega)
  have hm : i ∈ partIndices p.number := by
    simp only [partIndices, partSize, List.mem_map, List.mem_range]
    exact ⟨i % 32, by split <;> omega, by omega⟩
  rw [← (h.1.2 p hp).2] at hm
  obtain ⟨e, he, hei⟩ := List.mem_map.mp hm
  exact ⟨e, List.mem_flatMap.mpr ⟨p, hp, he⟩, hei⟩

/-! ## What a command that leaves an invariant's fields alone keeps -/

theorem RingOk.of_writes {fs : List Field} {s t : State} (w : Writes fs s t) (h : RingOk s)
    (hf : [Field.insertion, .transmit, .inFlight, .tag, .streak].all
      (fun f => !fs.contains f) = true := by decide) : RingOk t := by
  simp only [List.all_cons, List.all_nil, Bool.and_true, Bool.and_eq_true, Bool.not_eq_true'] at hf
  obtain ⟨h1, h2, h3, h4, h5⟩ := hf
  have e1 : t.ring.insertion = s.ring.insertion := w.at .insertion h1
  have e2 : t.ring.transmit = s.ring.transmit := w.at .transmit h2
  have e3 : t.ring.inFlight = s.ring.inFlight := w.at .inFlight h3
  have e4 : t.ring.tag = s.ring.tag := w.at .tag h4
  have e5 : t.ring.streak = s.ring.streak := w.at .streak h5
  exact ⟨by simpa only [e1] using h.insertion, by simpa only [e1] using h.hops, by simpa only [e2] using h.transmit,
    by simpa only [e2] using h.beaconFirst, by simpa only [e3] using h.inFlight, by simpa only [e3] using h.tags,
    by simpa only [e3, e4] using h.freeTag, by simpa only [e5] using h.streak⟩

theorem RasterOk.of_writes {fs : List Field} {s t : State} (w : Writes fs s t) (h : RasterOk s)
    (hf : [Field.line, .blanking, .request, .straps].all
      (fun f => !fs.contains f) = true := by decide) : RasterOk t := by
  simp only [List.all_cons, List.all_nil, Bool.and_true, Bool.and_eq_true, Bool.not_eq_true'] at hf
  obtain ⟨h1, h2, h3, h4⟩ := hf
  have e1 : t.raster.line = s.raster.line := w.at .line h1
  have e2 : t.raster.blanking = s.raster.blanking := w.at .blanking h2
  have e3 : t.raster.request = s.raster.request := w.at .request h3
  have e4 : t.straps = s.straps := w.at .straps h4
  exact ⟨by simpa only [totalLines, e1, e2, e4] using h.line, by simpa only [nominal, e2, e4] using h.blanking,
    by simpa only [nominal, e3, e4] using h.request⟩

theorem TableOk.of_writes {fs : List Field} {s t : State} (w : Writes fs s t) (h : TableOk s)
    (hf : [Field.entries, .history, .active, .applyPhase, .digest, .slot, .applyStaged, .collector].all
      (fun f => !fs.contains f) = true := by decide) : TableOk t := by
  simp only [List.all_cons, List.all_nil, Bool.and_true, Bool.and_eq_true, Bool.not_eq_true'] at hf
  obtain ⟨h1, h2, h3, h4, h5, h6, h7, h8⟩ := hf
  have e1 : t.table.entries = s.table.entries := w.at .entries h1
  have e2 : t.table.history = s.table.history := w.at .history h2
  have e3 : t.raster.active = s.raster.active := w.at .active h3
  have e4 : t.table.apply.phase = s.table.apply.phase := w.at .applyPhase h4
  have e5 : t.table.digest = s.table.digest := w.at .digest h5
  have e6 : t.table.slot = s.table.slot := w.at .slot h6
  have e7 : t.table.apply.staged = s.table.apply.staged := w.at .applyStaged h7
  have e8 : t.snap.collector = s.snap.collector := w.at .collector h8
  exact ⟨by simpa only [e1] using h.wf, by simpa only [e2] using h.historyPlaces, by simpa only [e2] using h.historyFrames,
    by simpa only [e3, e4] using h.still, by simpa only [e3, e5] using h.digestActive, by simpa only [e1, e5] using h.digest,
    by simpa only [e6] using h.slot, by simpa only [e7] using h.staged, by simpa only [e8] using h.collected⟩

theorem UpdatesOk.of_writes {fs : List Field} {s t : State} (w : Writes fs s t) (h : UpdatesOk s)
    (hf : [Field.store, .originList, .nextSeq, .applyDue, .applyReapply, .straps, .applyFrame].all
      (fun f => !fs.contains f) = true := by decide) : UpdatesOk t := by
  simp only [List.all_cons, List.all_nil, Bool.and_true, Bool.and_eq_true, Bool.not_eq_true'] at hf
  obtain ⟨h1, h2, h3, h4, h5, h6, h7⟩ := hf
  have e1 : t.store = s.store := w.at .store h1
  have e2 : t.origin.list = s.origin.list := w.at .originList h2
  have e3 : t.origin.nextSeq = s.origin.nextSeq := w.at .nextSeq h3
  have e4 : t.table.apply.due = s.table.apply.due := w.at .applyDue h4
  have e5 : t.table.apply.reapply = s.table.apply.reapply := w.at .applyReapply h5
  have e6 : t.straps = s.straps := w.at .straps h6
  have e7 : t.table.apply.frame = s.table.apply.frame := w.at .applyFrame h7
  exact ⟨by simpa only [e1] using h.storePlaces, by simpa only [e1] using h.storeKeys, by simpa only [e1] using h.storeEdits,
    by simpa only [e2] using h.originPlaces, by simpa only [e2] using h.originSeqs, by simpa only [e2] using h.originEdits,
    by simpa only [e2] using h.originCounts, by simpa only [e2, e3] using h.nextFreeOrigin,
    by simpa only [own, e1, e3, e6] using h.nextFreeStore, by simpa only [e4, e5] using h.applyPlaces,
    by simpa only [e4, e5] using h.applyKeys, by simpa only [e4, e7] using h.dueReached,
    by simpa only [e4] using h.dueEdits, by simpa only [e5] using h.reapplyEdits⟩

theorem ServiceOk.of_writes {fs : List Field} {s t : State} (w : Writes fs s t) (h : ServiceOk s)
    (hf : [Field.stationState, .seeded, .originList, .responder, .progress, .collector, .transmit, .inFlight, .insertion, .rout, .stations, .store].all
      (fun f => !fs.contains f) = true := by decide) : ServiceOk t := by
  simp only [List.all_cons, List.all_nil, Bool.and_true, Bool.and_eq_true, Bool.not_eq_true'] at hf
  obtain ⟨h1, h2, h3, h4, h5, h6, h7, h8, h9, h10, h11, h12⟩ := hf
  have e1 : t.member.state = s.member.state := w.at .stationState h1
  have e2 : t.table.seeded = s.table.seeded := w.at .seeded h2
  have e3 : t.origin.list = s.origin.list := w.at .originList h3
  have e4 : t.snap.queue = s.snap.queue := w.at .responder h4
  have e5 : t.snap.progress = s.snap.progress := w.at .progress h5
  have e6 : t.snap.collector = s.snap.collector := w.at .collector h6
  have e7 : t.ring.transmit = s.ring.transmit := w.at .transmit h7
  have e8 : t.ring.inFlight = s.ring.inFlight := w.at .inFlight h8
  have e9 : t.ring.insertion = s.ring.insertion := w.at .insertion h9
  have e10 : t.ring.rout = s.ring.rout := w.at .rout h10
  have e11 : t.member.stations = s.member.stations := w.at .stations h11
  have e12 : t.store = s.store := w.at .store h12
  exact ⟨by simpa only [e1, e2] using h.seeded, by simpa only [e1, e3] using h.updates, by simpa only [e1, e12] using h.unstored, by simpa only [e1, e4] using h.responder,
    by simpa only [e4] using h.responderPlaces, by simpa only [e4] using h.responderOnce, by simpa only [e4, e5] using h.progress,
    by simpa only [e5] using h.progressPart, by simpa only [e1, e6] using h.collector,
    by simpa only [e1, e7, e8] using h.quiet, by simpa only [e1, e9, e10, e11] using h.bypassed⟩

theorem LockOk.of_writes {fs : List Field} {s t : State} (w : Writes fs s t) (h : LockOk s)
    (hf : [Field.straps, .stationState, .stations, .tableRef, .timingRef, .lockState, .lockRef, .offset, .collector].all
      (fun f => !fs.contains f) = true := by decide) : LockOk t := by
  simp only [List.all_cons, List.all_nil, Bool.and_true, Bool.and_eq_true, Bool.not_eq_true'] at hf
  obtain ⟨h1, h2, h3, h4, h5, h6, h7, h8, h9⟩ := hf
  have e1 : t.straps = s.straps := w.at .straps h1
  have e2 : t.member.state = s.member.state := w.at .stationState h2
  have e3 : t.member.stations = s.member.stations := w.at .stations h3
  have e4 : t.member.tableRef = s.member.tableRef := w.at .tableRef h4
  have e5 : t.member.timingRef = s.member.timingRef := w.at .timingRef h5
  have e6 : t.lock.state = s.lock.state := w.at .lockState h6
  have e7 : t.lock.ref = s.lock.ref := w.at .lockRef h7
  have e8 : t.lock.offset = s.lock.offset := w.at .offset h8
  have e9 : t.snap.collector = s.snap.collector := w.at .collector h9
  exact ⟨by rw [e4, h.tableRef, computeTableRef_congr e1 e2 e3], by rw [e5, h.timingRef, computeTimingRef_congr e1 e2 e3],
    by rw [e5, e7, h.copy], by simpa only [own, e1, e6, e7] using h.reference, by simpa only [e6, e8] using h.measured,
    by simpa only [e6, e8] using h.unmeasured, by simpa only [e4, e9] using h.target⟩

theorem MemberOk.of_writes {fs : List Field} {s t : State} (w : Writes fs s t) (h : MemberOk s)
    (hf : [Field.straps, .stationState, .stations, .miss, .ret, .mismatch, .backoff, .hold, .listen, .attempt, .joinDeadline].all
      (fun f => !fs.contains f) = true := by decide) : MemberOk t := by
  simp only [List.all_cons, List.all_nil, Bool.and_true, Bool.and_eq_true, Bool.not_eq_true'] at hf
  obtain ⟨h1, h2, h3, h4, h5, h6, h7, h8, h9, h10, h11⟩ := hf
  have e1 : t.straps = s.straps := w.at .straps h1
  have e2 : t.member.state = s.member.state := w.at .stationState h2
  have e3 : t.member.stations = s.member.stations := w.at .stations h3
  have e4 : t.member.miss = s.member.miss := w.at .miss h4
  have e5 : t.member.ret = s.member.ret := w.at .ret h5
  have e6 : t.member.mismatch = s.member.mismatch := w.at .mismatch h6
  have e7 : t.member.backoff = s.member.backoff := w.at .backoff h7
  have e8 : t.member.hold = s.member.hold := w.at .hold h8
  have e9 : t.member.listen = s.member.listen := w.at .listen h9
  have e10 : t.member.attempt = s.member.attempt := w.at .attempt h10
  have e11 : t.member.joinDeadline = s.member.joinDeadline := w.at .joinDeadline h11
  exact ⟨by simpa only [e4] using h.miss, by simpa only [e5] using h.ret, by simpa only [e6] using h.mismatch,
    by simpa only [e7] using h.backoff, by simpa only [e8] using h.hold, by simpa only [e2, e9] using h.listen,
    by simpa only [e2, e10] using h.attempt, by simpa only [e10, e11] using h.deadline, by simpa only [e10] using h.attempts,
    by simpa only [e3] using h.rising, by simpa only [own, e1, e3] using h.peers⟩

theorem PixelOk.of_writes {fs : List Field} {s t : State} (w : Writes fs s t) (h : PixelOk s)
    (hf : [Field.straps, .slots, .requested, .requests, .rx, .begun, .readbacks, .pixels].all
      (fun f => !fs.contains f) = true := by decide) : PixelOk t := by
  simp only [List.all_cons, List.all_nil, Bool.and_true, Bool.and_eq_true, Bool.not_eq_true'] at hf
  obtain ⟨h1, h2, h3, h4, h5, h6, h7, h8⟩ := hf
  have e1 : t.straps = s.straps := w.at .straps h1
  have e2 : t.pixel.slots = s.pixel.slots := w.at .slots h2
  have e3 : t.pixel.requested = s.pixel.requested := w.at .requested h3
  have e4 : t.pixel.outstanding = s.pixel.outstanding := w.at .requests h4
  have e5 : t.pixel.rx = s.pixel.rx := w.at .rx h5
  have e6 : t.pixel.begun = s.pixel.begun := w.at .begun h6
  have e7 : t.pixel.readbacks = s.pixel.readbacks := w.at .readbacks h7
  have e8 : t.panel.pixels = s.panel.pixels := w.at .pixels h8
  exact ⟨by simpa only [e2] using h.slots, by simpa only [e2] using h.lines, by simpa only [e2, e3] using h.unrequested,
    by simpa only [lineWidth, e1, e2] using h.form, by simpa only [e2, e4] using h.awaited, by simpa only [e4] using h.outstandingOnce,
    by simpa only [e2, e4] using h.outstandingBound, by simpa only [e2, e4, e5] using h.reception,
    by simpa only [activeLines, e1, e6] using h.begun, by simpa only [e7] using h.readbacks,
    by simpa only [lineWidth, e1, e8] using h.pixels⟩

theorem ReportOk.of_writes {fs : List Field} {s t : State} (w : Writes fs s t) (h : ReportOk s)
    (hf : [Field.reports, .sending, .sendEnds].all
      (fun f => !fs.contains f) = true := by decide) : ReportOk t := by
  simp only [List.all_cons, List.all_nil, Bool.and_true, Bool.and_eq_true, Bool.not_eq_true'] at hf
  obtain ⟨h1, h2, h3⟩ := hf
  have e1 : t.report.queue = s.report.queue := w.at .reports h1
  have e2 : t.report.sending = s.report.sending := w.at .sending h2
  have e3 : t.report.endsAfter = s.report.endsAfter := w.at .sendEnds h3
  exact ⟨by simpa only [e1] using h.places, by simpa only [e1, e2, e3] using h.idle⟩

/-- A report handed over keeps the report line's invariant. -/
theorem ReportOk.report (r : Report) {s : State} (h : ReportOk s) : ReportOk (Machine.report r s) :=
  have k := reportJoin_ok r s.raster.frame s.report h.places h.idle
  ⟨k.1, k.2⟩

theorem PointsOk.of_writes {fs : List Field} {s t : State} (w : Writes fs s t) (h : PointsOk s)
    (hf : [Field.startWork, .applyPhase, .applyFrame, .applySince, .applyStaged, .applyReapply, .applyDue, .cwin, .requested, .active,
      .begun, .vsync, .line, .blanking, .straps, .inReset, .pixels].all (fun f => !fs.contains f) = true := by decide) : PointsOk t := by
  simp only [List.all_cons, List.all_nil, Bool.and_true, Bool.and_eq_true, Bool.not_eq_true'] at hf
  obtain ⟨h1, h2, h3, h4, h5, h6, h7, h8, h9, h10, h11, h12, h13, h14, h15, h16, h17⟩ := hf
  have e1 : t.startWork = s.startWork := w.at .startWork h1
  have e2 : t.table.apply.phase = s.table.apply.phase := w.at .applyPhase h2
  have e3 : t.table.apply.frame = s.table.apply.frame := w.at .applyFrame h3
  have e4 : t.table.apply.since = s.table.apply.since := w.at .applySince h4
  have e5 : t.table.apply.staged = s.table.apply.staged := w.at .applyStaged h5
  have e6 : t.table.apply.reapply = s.table.apply.reapply := w.at .applyReapply h6
  have e7 : t.table.apply.due = s.table.apply.due := w.at .applyDue h7
  have e8 : t.pixel.cwin = s.pixel.cwin := w.at .cwin h8
  have e9 : t.pixel.requested = s.pixel.requested := w.at .requested h9
  have e10 : t.raster.active = s.raster.active := w.at .active h10
  have e11 : t.pixel.begun = s.pixel.begun := w.at .begun h11
  have e12 : t.panel.vsync = s.panel.vsync := w.at .vsync h12
  have e13 : t.raster.line = s.raster.line := w.at .line h13
  have e14 : t.raster.blanking = s.raster.blanking := w.at .blanking h14
  have e15 : t.straps = s.straps := w.at .straps h15
  have e16 : t.inReset = s.inReset := w.at .inReset h16
  have e17 : t.panel.pixels = s.panel.pixels := w.at .pixels h17
  have ej : judgeLines t.table.apply = judgeLines s.table.apply := by
    simp only [judgeLines, judgedEdits, e3, e5, e6, e7]
  exact ⟨by simpa only [e1, e13] using h.work, by simpa only [e2, e13] using h.taken, by simpa only [e2, e13] using h.installing,
    by simpa only [e2, e4, e13, ej] using h.judging, by simpa only [e8, e13, e14] using h.window,
    by simpa only [e9, e13, e14] using h.requests, by simpa only [e10, e13, e14] using h.active,
    by simpa only [e10, e13, e14, totalLines, e15] using h.shown, by simpa only [e11, e13, e14] using h.begun,
    by simpa only [e11, e13, e14] using h.reached, by simpa only [e12, e13, e16] using h.vsync,
    by simpa only [e13, e14, e16, e17] using h.driven⟩

end Sys2Proof.Machine
end

