-- ==== Sys2Proof/Laws/Table.lean ====
section
/-! SUPPORT. Laws/Table.lean: reading and writing the colour table, and every operation over it keeps its canonical form. -/

namespace Sys2Proof.Machine

theorem Memory.wfFrom_mono {lo hi : Nat} (h : lo ≤ hi) : ∀ {t : Table}, Memory.wfFrom hi t = true → Memory.wfFrom lo t = true
  | [], _ => rfl
  | (i, e) :: rest, hw => by
    simp only [Memory.wfFrom, Bool.and_eq_true, decide_eq_true_eq] at hw ⊢
    exact ⟨⟨⟨Nat.le_trans h hw.1.1.1, hw.1.1.2⟩, hw.1.2⟩, hw.2⟩

/-- Below the first listed index the reset entry is read. -/
theorem Memory.read_of_wfFrom {i : Nat} : ∀ {t : Table}, Memory.wfFrom (i + 1) t = true → Memory.read t i = resetEntry i
  | [], _ => rfl
  | (j, e) :: rest, hw => by
    simp only [Memory.wfFrom, Bool.and_eq_true, decide_eq_true_eq] at hw
    have hij : i + 1 ≤ j := hw.1.1.1
    simp only [Memory.read, if_neg (show ¬ j = i by omega)]
    exact Memory.read_of_wfFrom (Memory.wfFrom_mono (by omega) hw.2)

theorem Memory.wfFrom_write {e : Entry} {i : Nat} (hi : i < tableSize) :
    ∀ {lo : Nat} {t : Table}, lo ≤ i → Memory.wfFrom lo t = true → Memory.wfFrom lo (Memory.write t i e) = true
  | lo, [], hlo, _ => by
    by_cases he : e = resetEntry i
    · simp [Memory.write, he, Memory.wfFrom]
    · simp [Memory.write, he, Memory.wfFrom, hlo, hi]
  | lo, (j, f) :: rest, hlo, hw => by
    have hw' := hw
    simp only [Memory.wfFrom, Bool.and_eq_true, decide_eq_true_eq] at hw'
    obtain ⟨⟨⟨h1, h2⟩, h3⟩, h4⟩ := hw'
    by_cases hlt : i < j
    · by_cases he : e = resetEntry i
      · simpa [Memory.write, hlt, he] using hw
      · simp [Memory.write, hlt, he, Memory.wfFrom, hlo, hi, h2, h3, h4]
    · by_cases heq : i = j
      · subst heq
        by_cases he : e = resetEntry i
        · simpa [Memory.write, he] using Memory.wfFrom_mono (by omega) h4
        · simp [Memory.write, he, Memory.wfFrom, hlo, hi, h4]
      · simp only [Memory.write, hlt, heq, if_false, Memory.wfFrom, Bool.and_eq_true, decide_eq_true_eq]
        exact ⟨⟨⟨h1, h2⟩, h3⟩, Memory.wfFrom_write hi (by omega) h4⟩

/-- A write keeps the canonical form. -/
theorem Memory.wf_write {t : Table} {i : Nat} {e : Entry} (hi : i < tableSize) (h : Memory.wf t = true) :
    Memory.wf (Memory.write t i e) = true := Memory.wfFrom_write hi (Nat.zero_le _) h

theorem Memory.read_write_from {e : Entry} {i k : Nat} :
    ∀ {lo : Nat} {t : Table}, Memory.wfFrom lo t = true →
      Memory.read (Memory.write t i e) k = if k = i then e else Memory.read t k
  | lo, [], _ => by
    by_cases he : e = resetEntry i
    · by_cases hk : k = i
      · simp [Memory.write, Memory.read, he, hk]
      · simp [Memory.write, Memory.read, he, hk]
    · by_cases hk : k = i
      · simp [Memory.write, Memory.read, he, hk]
      · simp [Memory.write, Memory.read, he, hk, Ne.symm hk]
  | lo, (j, f) :: rest, hw => by
    have hw' := hw
    simp only [Memory.wfFrom, Bool.and_eq_true, decide_eq_true_eq] at hw'
    obtain ⟨⟨⟨h1, h2⟩, h3⟩, h4⟩ := hw'
    by_cases hlt : i < j
    · have hr : Memory.read ((j, f) :: rest) i = resetEntry i := by
        simp only [Memory.read, if_neg (show ¬ j = i by omega)]
        exact Memory.read_of_wfFrom (Memory.wfFrom_mono (by omega) h4)
      by_cases he : e = resetEntry i
      · by_cases hk : k = i
        · subst hk; simp [Memory.write, hlt, he, hr]
        · simp [Memory.write, hlt, he, hk]
      · by_cases hk : k = i
        · subst hk; simp [Memory.write, hlt, he, Memory.read]
        · simp [Memory.write, hlt, he, hk, Memory.read, Ne.symm hk]
    · by_cases heq : i = j
      · subst heq
        have hr : Memory.read rest i = resetEntry i := Memory.read_of_wfFrom h4
        by_cases he : e = resetEntry i
        · by_cases hk : k = i
          · subst hk; simp [Memory.write, he, hr]
          · simp [Memory.write, he, hk, Memory.read, Ne.symm hk]
        · by_cases hk : k = i
          · subst hk; simp [Memory.write, he, Memory.read]
          · simp [Memory.write, he, hk, Memory.read, Ne.symm hk]
      · simp only [Memory.write, hlt, heq, if_false, Memory.read]
        by_cases hjk : j = k
        · subst hjk; simp [Ne.symm heq]
        · simp only [hjk, if_false]; exact Memory.read_write_from h4

/-- A write is read back at its index and nowhere else. -/
theorem Memory.read_write {t : Table} {i k : Nat} {e : Entry} (h : Memory.wf t = true) :
    Memory.read (Memory.write t i e) k = if k = i then e else Memory.read t k := Memory.read_write_from h

/-- A property that every step of a fold keeps. -/
theorem foldl_keeps {α β : Type} {P : β → Prop} {f : β → α → β} :
    ∀ (xs : List α) (b : β), (∀ b x, x ∈ xs → P b → P (f b x)) → P b → P (xs.foldl f b)
  | [], _, _, hb => hb
  | x :: xs, b, hf, hb =>
    foldl_keeps xs (f b x) (fun b y hy => hf b y (List.mem_cons_of_mem _ hy)) (hf b x List.mem_cons_self hb)

theorem wf_judgeEdit {F : Frame} {st : Stamp} {t : Table} (e : Edit) (h : Memory.wf t = true) :
    Memory.wf (judgeEdit F st t e) = true := by
  unfold judgeEdit; dsimp only; repeat' split
  · exact h
  · exact Memory.wf_write (by omega) h
  · exact h

theorem wf_applyRecord {F : Frame} {t : Table} (r : DueRecord) (h : Memory.wf t = true) :
    Memory.wf (applyRecord F t r) = true :=
  foldl_keeps (P := fun t => Memory.wf t = true) _ _ (fun _ e _ ht => wf_judgeEdit e ht) h

theorem wf_reapplyAll {ps : List Part} {F : Frame} {rs : List DueRecord} {t : Table} (h : Memory.wf t = true) :
    Memory.wf (reapplyAll ps F rs t) = true :=
  foldl_keeps (P := fun t => Memory.wf t = true) _ _ (fun _ _ _ ht =>
    foldl_keeps (P := fun t => Memory.wf t = true) _ _ (fun _ e _ hu => wf_judgeEdit e hu) ht) h

/-- An install of parts that name entries of the table. -/
theorem wf_installParts {ps : List Part} {t : Table} (hp : ∀ p ∈ ps, ∀ e ∈ p.entries, e.index.toNat < tableSize)
    (h : Memory.wf t = true) : Memory.wf (installParts ps t) = true :=
  foldl_keeps (P := fun t => Memory.wf t = true) ps t (fun t p hpm ht => foldl_keeps (P := fun t => Memory.wf t = true) p.entries t
    (fun _ e he hu => Memory.wf_write (hp p hpm e he) hu) ht) h

theorem wf_reset : Memory.wf State.reset.table.entries = true := rfl

end Sys2Proof.Machine
end

