-- ==== Sys2Proof/WellFormed.lean ====
section
/-! DEFINITION. WellFormed.lean: which commands are as their rows describe them. The meanings cover every command: an
ill-formed parcel is counted and discarded (R37), an ill-formed packet is a PACKET_ERROR (R154). -/

namespace Sys2Proof

/-- A parcel that passes the form check of R37. -/
def Parcel.wf (h : Header) (b : Body) : Bool := Machine.parcelOk { header := h, body := b }

/-- The packet of this kind and body passes the tests of R154. -/
def packetOk (kind : Byte) (body : List Byte) : Bool := (Machine.judgeBody kind body).isOk

/-- The command is one that its row describes. -/
def Instr.wf : Instr → Bool
  | .frameStart later _ => decide later.Nodup
  | .activeLine j => decide (j < 768)
  | .tableLoad start components => packetOk 0x01 (start :: components)
  | .paramSet records => packetOk 0x02 (Machine.paramBody records)
  | .readback start count => packetOk 0x03 [hiByte start, loByte start, count]
  | .statusReq clear => packetOk 0x04 [clear]
  | .beacon h b => Parcel.wf h (.beacon b)
  | .join h b => Parcel.wf h (.join b)
  | .propose h b => Parcel.wf h (.propose b)
  | .commit h seq effective => Parcel.wf h (.commit seq effective)
  | .withdraw h seq => Parcel.wf h (.withdraw seq)
  | .snapshotReq h => Parcel.wf h .snapshotReq
  | .snapshot h b => Parcel.wf h (.snapshot b)
  | .failedParcelArrival run => (Machine.readRun run).isNone
  | .resetAssert | .resetRelease _ _ _ | .lineAdvance | .listenGuardClear | .listenCountExpiry | .joinDeadline
  | .inFlightAgeing | .stationEntryAgeOut | .missStreakLimit | .returnStreakLimit | .holdCountLimit | .rejoin
  | .backoffExpiry | .resyncDueMarkTest | .proposeDeadline | .withdrawnDeadline | .commitDeadline | .holdExpiry
  | .retentionExpiry | .snapshotDeadline | .applyWindowOpen | .installEnd | .applyEnd | .controlWindowOpen
  | .controlWindowClose | .lineRequestPoint | .firstActiveLine | .frameEnd | .pmark | .pixelByte _
  | .snapshotPartBuild | .sendBegin | .sendEnd | .reportSendBegin | .reportSendEnd _ => true

end Sys2Proof
end

