-- ==== Sys2Proof/Tests/Slice0.lean ====
section
/-! SUPPORT. Tests/Slice0.lean: the ill-formed commands the check refuses, the spec's own worked numbers, one small step of each family,
and a witness for the hypotheses of every statement. -/

namespace Sys2Proof.Machine

set_option Elab.async false

/-! ## Small states -/

/-- The state after a command. -/
def after (c : Instr) (s : State) : State :=
  match exec c s with
  | .next t => t
  | .fault _ => s
  | .refused _ => s

/-- Station 2 of profile 0 and lead 2, out of reset, in a station state. -/
def base (st : StationState) : State :=
  { State.reset with inReset := false, straps := ⟨2, .p0, .two⟩, member.state := st }

/-- The same with these peers, its references and its Lock Unit as the table gives them. -/
def with_peers (st : StationState) (l : List (StationNo × StationEntry)) : State :=
  let s := { base st with member.stations := l }
  let r := computeTimingRef s
  { s with member.tableRef := computeTableRef s, member.timingRef := r,
           lock := ⟨if r = some 2 then .reference else .free, r, none⟩ }

/-- At a line; at the frame's last line, everything of it brought. -/
def at_ (l : Nat) (s : State) : State := { s with raster.line := l }
def last (s : State) : State := { s with raster.line := 443, pixel.begun := 400 }

/-- Alone. -/
def live (st : StationState) : State := with_peers st []

/-- Beside station 1 in service, which is then both references. -/
def beside (st : StationState) : State := with_peers st [(1, ⟨.inService, 0, true, none⟩)]

/-- With pieces of frame-start work due at the frame start 100. -/
def due (ws : List FrameWork) (s : State) : State := { s with raster.frame := 100, startWork := ⟨100, ws, []⟩ }

/-- A transition due. -/
def turn (s : State) : State := due [.transition, .backoff] s

/-- An edit, a proposal record, an origin record. -/
def anEdit : Edit := ⟨7, ⟨1, 2, 3⟩⟩
def aProposal (o : StationNo) (q : Seq) (st : RecordState) : Proposal := ⟨o, q, [anEdit], st⟩
def anOrigin (q : Seq) (p : Phase) (attempt round : Nat) (d : Frame) : OriginRecord := ⟨q, [anEdit], p, attempt, round, d, false⟩

/-- An in-service station with this origin record, whose deadline is being tested at frame start 100, and this store. -/
def testing (st : StationState) (r : OriginRecord) (p : List Proposal) : State :=
  { due [.originDeadlines] (live st) with
    origin := ⟨[r], 9⟩, store := p, startWork := ⟨100, [.originDeadlines], [r.seq]⟩ }

/-- A header from an origin to all. -/
def from_ (o : StationNo) : Header := ⟨o, 0, 5, 0⟩

/-- A beacon body. -/
def aBeacon (F : Frame) (st : StationState) (d : Option (Frame × Digest)) : BeaconBody := ⟨F, st, .reference, d, 12⟩

/-! ## Invariants by evaluation -/

theorem lockOk_of {s : State} (h : (decide (s.member.tableRef = computeTableRef s) && decide (s.member.timingRef = computeTimingRef s)
    && decide (s.lock.ref = s.member.timingRef) && decide (s.lock.state = .reference ↔ s.lock.ref = some (own s))
    && s.lock.offset.isNone && (decide (s.lock.state = .reference) || decide (s.lock.state = .free))
    && s.snap.collector.all (fun c => decide (c.target = s.member.tableRef))) = true) : LockOk s := by
  simp only [Bool.and_eq_true, Bool.or_eq_true, decide_eq_true_eq, Option.isNone_iff_eq_none] at h
  obtain ⟨⟨⟨⟨⟨⟨h1, h2⟩, h3⟩, h4⟩, h5⟩, h6⟩, h7⟩ := h
  exact ⟨h1, h2, h3, h4, by simp [h5], by simp [h5, h6], fun c hc => by simpa [hc] using h7⟩

theorem memberOk_of {s : State} (h : (decide (s.member.miss ≤ 3) && decide (s.member.ret ≤ 2) && decide (s.member.mismatch ≤ 1)
    && decide (s.member.backoff ≤ 16) && decide (s.member.hold ≤ 63) && decide (s.member.listen ≤ 3)
    && s.member.attempt.isNone && s.member.joinDeadline.isNone && decide (s.member.state ≠ .joining)
    && decide ((s.member.stations.map (fun e => e.1.toNat)).Pairwise (· < ·))
    && s.member.stations.all (fun e => isStation e.1 && decide (e.1 ≠ own s) && decide (e.2.missed ≤ 3))) = true) : MemberOk s := by
  simp only [Bool.and_eq_true, decide_eq_true_eq, Option.isNone_iff_eq_none, List.all_eq_true] at h
  obtain ⟨⟨⟨⟨⟨⟨⟨⟨⟨⟨h1, h2⟩, h3⟩, h4⟩, h5⟩, h6⟩, h7⟩, h8⟩, h9⟩, h10⟩, h11⟩ := h
  exact ⟨h1, h2, h3, h4, h5, fun _ => h6, by simp [h7, h9], by simp [h7, h8], by simp [h7], h10,
    fun e he => ⟨(h11 e he).1.1, (h11 e he).1.2, (h11 e he).2⟩⟩

theorem updatesOk_of {s : State} (h : (decide (s.store.length ≤ 12) && decide ((s.store.map (fun p => (p.origin, p.seq))).Nodup)
    && s.store.all (fun p => decide (p.edits = [anEdit])) && decide (s.origin.list.length ≤ 4)
    && decide ((s.origin.list.map (·.seq)).Nodup)
    && s.origin.list.all (fun r => decide (r.edits = [anEdit]) && decide (1 ≤ r.attempt ∧ r.attempt ≤ 3 ∧ 1 ≤ r.round ∧ r.round ≤ 3))
    && decide (s.origin.nextSeq ∉ s.origin.list.map (·.seq)) && s.store.all (fun p => decide (p.seq ≠ s.origin.nextSeq))
    && decide (s.table.apply.due.length + s.table.apply.reapply.length ≤ 12)
    && decide (((s.table.apply.due ++ s.table.apply.reapply).map (fun r => (r.origin, r.seq))).Nodup)
    && s.table.apply.due.all (fun r => atOrBefore r.effective s.table.apply.frame && decide (r.edits = [anEdit]))
    && s.table.apply.reapply.all (fun r => decide (r.edits = [anEdit]))) = true) : UpdatesOk s := by
  simp only [Bool.and_eq_true, decide_eq_true_eq, List.all_eq_true] at h
  obtain ⟨⟨⟨⟨⟨⟨⟨⟨⟨⟨⟨h1, h2⟩, h3⟩, h4⟩, h5⟩, h6⟩, h7⟩, h8⟩, h9⟩, h10⟩, h11⟩, h12⟩ := h
  exact ⟨h1, h2, fun p hp => by rw [h3 p hp]; exact ⟨by decide, by decide⟩, h4, h5,
    fun r hr => by rw [(h6 r hr).1]; exact ⟨by decide, by decide⟩, fun r hr => (h6 r hr).2, h7, fun p hp _ => h8 p hp,
    h9, h10, fun r hr => (h11 r hr).1, fun r hr => by rw [(h11 r hr).2]; exact ⟨by decide, by decide⟩,
    fun r hr => by rw [h12 r hr]; exact ⟨by decide, by decide⟩⟩

theorem pointsOk_of {s : State} (h : decide (
    (s.startWork.due ≠ [] → s.raster.line = 0) ∧ (s.table.apply.phase = .taken → s.raster.line ≤ 1)
    ∧ (s.table.apply.phase = .installing → 1 ≤ s.raster.line ∧ s.raster.line ≤ 9)
    ∧ (s.table.apply.phase = .judging → 1 ≤ s.raster.line ∧ s.table.apply.since ≤ 10
        ∧ s.raster.line < s.table.apply.since + max 1 (judgeLines s.table.apply))
    ∧ (s.pixel.cwin = true → 2 ≤ s.raster.line ∧ s.raster.line + 5 ≤ s.raster.blanking)
    ∧ (0 < s.pixel.requested → s.raster.blanking ≤ s.raster.line + 2)
    ∧ (s.raster.active = true → s.raster.blanking ≤ s.raster.line)
    ∧ (s.raster.blanking < s.raster.line → s.raster.line + 1 < totalLines s → s.raster.active = true)
    ∧ s.pixel.begun ≤ s.raster.line + 1 - s.raster.blanking
    ∧ (s.raster.blanking ≤ s.raster.line → s.raster.line ≤ s.raster.blanking + s.pixel.begun)
    ∧ s.panel.vsync = (!s.inReset && decide (s.raster.line ≤ 1))
    ∧ (s.panel.pixels ≠ [] → s.inReset = false ∧ s.raster.blanking ≤ s.raster.line)) = true) : PointsOk s := by
  obtain ⟨h1, h2, h3, h4, h5, h6, h7, h8, h9, h10, h11, h12⟩ := of_decide_eq_true h
  exact ⟨h1, h2, h3, h4, h5, h6, h7, h8, h9, h10, h11, h12⟩

/-- The Pixel Port of a port with these slots and requests and this receiver state. -/
def port (slots : List Slot) (asked : List Nat) (rx : Rx) (begun : Nat) : State :=
  { base .inService with pixel := ⟨asked, slots, rx, [], false, 2, begun⟩ }

theorem pixelOk_empty {s : State} (h1 : s.pixel.slots = []) (h2 : s.pixel.outstanding = []) (h3 : s.pixel.rx = .wait)
    (h4 : s.pixel.readbacks = []) (h5 : s.pixel.begun ≤ activeLines s) (h6 : s.panel.pixels = []) : PixelOk s :=
  ⟨by simp [h1], by simp [h1], by simp [h1], by simp [h1], by simp [h1], by simp [h2], by simp [h2], by simp [h3], h5,
   by simp [h4], by simp [h6]⟩

/-- A port with line 0 in the given state and line 1 awaited. -/
def twoLines (st : SlotState) (bytes : List Byte) (count : Nat) (asked : List Nat) (rx : Rx) : State :=
  port [⟨0, st, bytes, count⟩, ⟨1, .awaiting, [], 0⟩] asked rx 0

theorem pixelOk_two {st : SlotState} {bytes : List Byte} {count : Nat} {asked : List Nat} {rx : Rx}
    (hf : SlotOk 640 ⟨0, st, bytes, count⟩) (ha : st = .awaiting → 0 ∈ asked) (h1 : 1 ∈ asked) (hn : asked.Nodup)
    (hb : ∀ k ∈ asked, k = 1 ∨ (k = 0 ∧ (st = .awaiting ∨ st = .abandoned)))
    (hr : ∀ k, rx = .line k → k = 0 ∧ 0 ∉ asked ∧ (st = .receiving ∨ st = .abandoned)) :
    PixelOk (twoLines st bytes count asked rx) := by
  refine ⟨Nat.le_refl 2, (by decide : [0, 1].Nodup), by simp [twoLines, port], ?_, ?_, hn, ?_, ?_, Nat.zero_le _, Nat.zero_le _, Or.inl rfl⟩
  · intro x hx
    rcases List.mem_cons.mp hx with rfl | hx
    · exact hf
    · rw [List.mem_singleton.mp hx]; exact ⟨rfl, rfl⟩
  · intro x hx hs
    rcases List.mem_cons.mp hx with rfl | hx
    · exact ha hs
    · rw [List.mem_singleton.mp hx]; exact h1
  · intro k hk
    rcases hb k hk with rfl | ⟨rfl, h⟩
    · exact ⟨⟨1, .awaiting, [], 0⟩, by simp [twoLines, port], rfl, Or.inl rfl⟩
    · exact ⟨⟨0, st, bytes, count⟩, by simp [twoLines, port], rfl, h⟩
  · intro k hk
    obtain ⟨rfl, h, h'⟩ := hr k hk
    exact ⟨h, ⟨0, st, bytes, count⟩, by simp [twoLines, port], rfl, h'⟩

theorem pixelOk_active {l : Nat} {s : State} (h : PixelOk s) : PixelOk { at_ l s with raster.active := true } :=
  ⟨h.slots, h.lines, h.unrequested, h.form, h.awaited, h.outstandingOnce, h.outstandingBound, h.reception, h.begun, h.readbacks,
   h.pixels⟩

/-! ## WellFormed refuses -/

theorem test_wf_origin_0 : Instr.wf (.withdraw ⟨0, 0, 0, 0⟩ 1) = false := by decide
theorem test_wf_origin_31 : Instr.wf (.snapshotReq ⟨31, 0, 0, 0⟩) = false := by decide
theorem test_wf_target_31 : Instr.wf (.commit ⟨1, 31, 0, 0⟩ 1 5) = false := by decide
theorem test_wf_edits_0 : Instr.wf (.propose (from_ 1) ⟨1, [], 0, 0⟩) = false := by decide
theorem test_wf_edits_33 : Instr.wf (.propose (from_ 1) ⟨1, List.replicate 33 anEdit, 0, 0⟩) = false := by decide +kernel
theorem test_wf_part_9 : Instr.wf (.snapshot (from_ 1) ⟨9, 0, List.replicate 4 ⟨0, ⟨0, 0, 0⟩, .null⟩⟩) = false := by decide
theorem test_wf_part_entries : Instr.wf (.snapshot (from_ 1) ⟨8, 0, List.replicate 5 ⟨0, ⟨0, 0, 0⟩, .null⟩⟩) = false := by decide
theorem test_wf_stamp_31 : Instr.wf (.snapshot (from_ 1) ⟨8, 0, List.replicate 4 ⟨0, ⟨0, 0, 0⟩, .mark 0 31 0⟩⟩) = false := by
  decide
theorem test_wf_good : Instr.wf (.snapshot (from_ 30) ⟨8, 0, List.replicate 4 ⟨0, ⟨0, 0, 0⟩, .mark 0 30 0⟩⟩) = true := by decide
theorem test_wf_load_short : Instr.wf (.tableLoad 0 [1, 2]) = false := by decide
theorem test_wf_load_long : Instr.wf (.tableLoad 0 (List.replicate 97 1)) = false := by decide +kernel
theorem test_wf_param_5 : Instr.wf (.paramSet (List.replicate 5 ⟨0, ⟨0, 0, 0⟩⟩)) = false := by decide
theorem test_wf_param_control : Instr.wf (.paramSet [⟨4, ⟨0, 0, 0⟩⟩]) = false := by decide
theorem test_wf_readback_260 : Instr.wf (.readback 260 1) = false := by decide
theorem test_wf_readback_17 : Instr.wf (.readback 0 17) = false := by decide
theorem test_wf_status_2 : Instr.wf (.statusReq 2) = false := by decide
theorem test_wf_line_768 : Instr.wf (.activeLine 768) = false := by decide
theorem test_wf_work_twice : Instr.wf (.frameStart [.backoff, .backoff] false) = false := by decide
theorem test_wf_run_good : Instr.wf (.failedParcelArrival (runOf ⟨from_ 1, .withdraw 9⟩)) = false := by decide +kernel

/-! ## Formats and the spec's own numbers -/

/-- The check value of this CRC-16 over the digits 1 to 9. -/
theorem test_crc16 : crc16 [0x31, 0x32, 0x33, 0x34, 0x35, 0x36, 0x37, 0x38, 0x39] = 0x29B1#16 := by decide +kernel
/-- The check value of this CRC-32 over the digits 1 to 9. -/
theorem test_crc32 : crc32 [0x31, 0x32, 0x33, 0x34, 0x35, 0x36, 0x37, 0x38, 0x39] = 0xCBF43926#32 := by decide +kernel
theorem test_commit_bytes : parcelBytes ⟨⟨3, 0, 17, 2⟩, .commit 9 0x1234⟩ = [4, 3, 0, 17, 2, 9, 0x12, 0x34] := by decide
theorem test_run_reads_back : readRun (runOf ⟨⟨3, 0, 17, 2⟩, .commit 9 0x1234⟩) = some ⟨⟨3, 0, 17, 2⟩, .commit 9 0x1234⟩ := by
  decide +kernel
theorem test_record_bytes : recordBytes ⟨.event (.holdExpired 7 12 2203 2211), true, 2211⟩ =
    [7, 8, 1, 8, 163, 3, 7, 12, 8, 155, 8, 163, - sum8 [7, 8, 1, 8, 163, 3, 7, 12, 8, 155, 8, 163]] := by decide +kernel
/-- The table of R32. -/
theorem test_frame_order : [(1000, 1002), (1002, 1000), (65534, 1), (1, 65534), (500, 500), (100, 32868), (32868, 100)].map
    (fun p : Frame × Frame => (atOrBefore p.1 p.2, later p.1 p.2)) =
    [(true, false), (false, true), (true, false), (false, true), (true, false), (false, true), (false, true)] := by decide
/-- The table of R162. -/
theorem test_mapping : [(0, 255, 37), (250, 255, 10), (16, 15, 3), (16, 15, 250), (0, 240, 37), (7, 0, 99)].map
    (fun p : Byte × Byte × Byte => mappedEntry p.1 p.2.1 p.2.2) = [37, 4, 3, 10, 32, 0] := by decide
/-- A run wraps from entry 255 to entry 0 (R155). -/
theorem test_triplets_wrap : (tripletEdits 254 [1, 1, 1, 2, 2, 2, 3, 3, 3, 4]).map (·.index.toNat) = [254, 255, 0] := by decide
/-- The last record of a control number gives its colour, the first its place (R156). -/
theorem test_control_edits : controlEdits [⟨2, ⟨1, 0, 0⟩⟩, ⟨0, ⟨2, 0, 0⟩⟩, ⟨2, ⟨3, 0, 0⟩⟩] = [⟨258, ⟨3, 0, 0⟩⟩, ⟨256, ⟨2, 0, 0⟩⟩] := by
  decide
/-- Sequences wrap in stamp order (R6). -/
theorem test_stamp_seq : (stampLater (.mark 9 3 1) (.mark 9 3 255), stampLater (.mark 9 3 255) (.mark 9 3 1),
    stampLater (.mark 9 3 0) (.mark 9 3 128)) = (true, false, false) := by decide
/-- A stamp 63 frames old is live, one 64 frames old or later than F has aged out (R5). -/
theorem test_stamp_age : [(37 : Frame), 36, 101].map (fun f => stampAt 100 (.mark f 1 0)) = [.mark 37 1 0, .null, .null] := by decide
theorem test_reset_mask : Memory.read State.reset.table.entries 257 = ⟨⟨255, 0, 0⟩, .null⟩ := by decide
theorem test_decode_none : decodeTableWord 8 0 = none := rfl

/-! ## One step of each family -/

theorem test_release_30 : (after (.resetRelease 30 3 3) State.reset).straps = ⟨30, .p3, .six⟩ := by decide
theorem test_release_31 : (after (.resetRelease 31 0 0) State.reset).member.state = .isolated := by decide
theorem test_line : (after .lineAdvance (live .inService)).raster.line = 1 := by decide +kernel
theorem test_first_frame : (after (.frameStart [] false) (last (live .offRing))).member.state = .listening := by decide +kernel
theorem test_beacon_queued : ((after (.frameStart [] false) (last (live .inService))).ring.transmit.map (fun p => Body.kind p.body)) = [.beacon] := by
  decide +kernel
theorem test_join_return_locked :
    let s := { beside .joining with lock := ⟨.locked, some 1, some 0⟩, member.attempt := some 1, ring.inFlight := [⟨5, .join, none, 0⟩] }
    let t := after (.join (from_ 2) ⟨.p0, .two, 1, false⟩) s
    t.member.state = .catchingUp ∧ t.member.attempt = none ∧ t.snap.collector = some ⟨some 1, 1, 6, []⟩
      ∧ t.report = reportJoin (.event (.stateChange .catchingUp none)) 0 s.report := by decide +kernel

theorem test_joining : (after .listenCountExpiry (turn { live .listening with member.listen := 3 })).member.state = .joining := by
  decide +kernel
theorem test_ring_hold : (after .missStreakLimit (turn { live .inService with member.miss := 3 })).member.state = .ringHold := by
  decide +kernel
theorem test_load : ((after (.tableLoad 0 [9, 8, 7]) (live .inService)).store.map (·.seq)) = [0] := by decide +kernel
theorem test_load_refused : ((after (.tableLoad 0 [9, 8, 7]) (live .resync)).report.sending.map (·.report)) =
    some (.updateRejected .notInService none) := by decide +kernel
theorem test_window : (after .controlWindowOpen (at_ 2 (live .inService))).pixel.cwin = true := by decide +kernel
theorem test_lines_requested : (after .lineRequestPoint (at_ 42 (live .inService))).pixel.outstanding = [0, 1] := by decide +kernel
theorem test_mark_unrequested : (after .pmark (live .inService)).report.counts.overflow = 1 := by decide +kernel
theorem test_status : (after (.statusReq 1) (live .inService)).report.sending.isSome = true := by decide +kernel
/-- The first of two records begins its send at once (R167). -/
theorem test_readback_end : ((after (.readback 258 5) (live .inService)).report.queue.length) = 1 := by decide +kernel
theorem test_beacon : ((after (.beacon (from_ 1) (aBeacon 50 .inService none)) (live .listening)).member.tableRef) = some 1 := by
  decide +kernel
theorem test_beacon_adopted : (after (.beacon (from_ 1) (aBeacon 50 .inService none)) (live .listening)).raster.frame = 50 := by
  decide +kernel
theorem test_join_mismatch : ((after (.join (from_ 4) ⟨.p1, .two, 1, false⟩) (live .inService)).ring.insertion.map (·.parcel.body)) =
    [.join ⟨.p1, .two, 1, true⟩] := by decide +kernel
theorem test_propose : ((after (.propose (from_ 4) ⟨3, [anEdit], 0, 0⟩) (live .inService)).ring.insertion.map (·.parcel.body)) =
    [.propose ⟨3, [anEdit], 1, 0⟩] := by decide +kernel
theorem test_commit_missed : (after (.commit (from_ 4) 3 77) (live .inService)).member.mark = some 77 := by decide +kernel
theorem test_stray : (after (.withdraw ⟨4, 0, 0, 29⟩ 3) (live .inService)).report.counts.stray = 1 := by decide +kernel
theorem test_bad_run : (after (.failedParcelArrival [1, 2, 3]) (live .inService)).report.counts.crc = 1 := by decide +kernel
theorem test_foreign : ((after (.withdraw (from_ 2) 3) (live .inService)).report.sending.map (·.report)) =
    some (.event (.duplicateStation .withdraw 5)) := by decide +kernel
/-- DE and RGB of a line of two pixels, at a pixel and behind the last; in blanking and under RESET# (R160, R165). -/
theorem test_panel_pins : (let s := { live .inService with panel.pixels := [⟨1, 2, 3⟩, ⟨4, 5, 6⟩] }
      (panelDE s 1, panelRGB s 1) = (true, ⟨4, 5, 6⟩) ∧ (panelDE s 2, panelRGB s 2) = (false, ⟨0, 0, 0⟩))
    ∧ Blanked (live .inService) ∧ Blanked State.reset :=
  ⟨by decide, fun _ => ⟨rfl, rfl⟩, fun _ => ⟨rfl, rfl⟩⟩
/-- RESET# in an active line cuts the drive off (R165); the end of the active lines too. -/
theorem test_reset_blanks : (after .resetAssert { live .inService with panel.pixels := [⟨1, 2, 3⟩] }).panel.pixels = [] := by decide
/-- Each point of R26 is brought with its own line, by LINE_ADVANCE alone. -/
theorem test_points_brought : (after .lineAdvance (at_ 2 (live .inService))).pixel.cwin = true
    ∧ (after .lineAdvance (at_ 39 { live .inService with pixel.cwin := true })).pixel.cwin = false
    ∧ (after .lineAdvance (at_ 42 (live .inService))).pixel.outstanding = [0, 1]
    ∧ (after .lineAdvance (at_ 44 (live .inService))).pixel.begun = 1 := by decide +kernel
/-- A frame start within the frame has no effect; at the last line a station leaves OFF_RING with a parcel cut (R24, R36). -/
theorem test_frame_start_line : after (.frameStart [] false) (at_ 442 (live .inService)) = at_ 442 (live .inService)
    ∧ (after (.frameStart [] true) (last (live .offRing))).ring.cut = true := by decide +kernel
/-- The worked case of R167: 16 and 16 entries read with the line idle, one in sending and 16 kept. -/
theorem test_reports_kept : ((after (.readback 16 16) (after (.readback 0 16) (live .inService))).report.queue.length) = 16
    ∧ ((after (.readback 16 16) (after (.readback 0 16) (live .inService))).report.lost) = true := by decide +kernel
/-- An end announced for after one record leaves a place for the one formed next (R168). -/
theorem test_send_end_between : let s := after (.readback 0 16) (live .inService)
    ((after (.readback 16 2) (after (.reportSendEnd 1) s)).report.queue.map (·.report == .entry 17 ⟨0, 0, 0⟩ .null)).getLast?
      = some true := by decide +kernel
/-- A byte on a link and on RPT, least significant bit first (R175). -/
theorem test_bits : linkBits [0x06] = [false, true, true, false, false, false, false, false]
    ∧ serialByte 0x06 = [false, false, true, true, false, false, false, false, false, true]
    ∧ bytesOfBits (linkBits [1, 2, 254]) = [1, 2, 254] := by decide
/-- With a full store the oldest retained record gives way (7.8). -/
theorem test_eviction : (insertHeld 2040 9 1 [anEdit] ((List.range 12).map (fun i => aProposal 3 (BitVec.ofNat 8 i)
    (.applied (BitVec.ofNat 16 (2033 + i % 6)))))).map (·.seq.toNat) = [1, 2, 3, 4, 5, 6, 7, 8, 9, 10, 11, 1] := by decide +kernel


/-! ## Witnesses: the hypotheses of each statement are met, clause by clause -/

theorem witness_StepRunsFront : State.reset.pending = [] := rfl

theorem witness_ResetAssertResets : State.reset.inReset = true ∧ Instr.lineAdvance ≠ .resetAssert
    ∧ ∀ sn prf lead, Instr.lineAdvance ≠ .resetRelease sn prf lead := by
  exact ⟨rfl, by decide, fun _ _ _ => Instr.noConfusion⟩

theorem witness_ResetReleaseBegins : State.reset.inReset = true
    ∧ ([1, 30] : List (BitVec 5)).all (fun sn => decide (1 ≤ sn.toNat ∧ sn.toNat ≤ 30))
    ∧ ([0, 31] : List (BitVec 5)).all (fun sn => decide (sn.toNat = 0 ∨ sn.toNat = 31)) := by decide

/-- The lines of profile 0 with a point: 2, 39 (V - 5), 42 (V - 2), 44 (V), 46, at their starts; 442 has a next line, 443 has none; a
line away from the points, in blanking and active. -/
theorem witness_LineAdvanceCountsLine : ([1, 2, 9, 39, 42, 44, 46, 442] : List Nat).all (fun l =>
      let s := at_ l (live .inService)
      decide (s.inReset = false ∧ s.raster.line = l ∧ s.raster.line + 1 < totalLines s ∧ s.raster.blanking = 44))
    ∧ (let s := at_ 443 (live .inService); s.inReset = false ∧ totalLines s ≤ s.raster.line + 1)
    ∧ PointsOk { at_ 44 (live .inService) with raster.active := false, pixel.begun := 0 }
    ∧ PointsOk { at_ 46 (live .inService) with raster.active := true, pixel.begun := 2 }
    ∧ PointsOk { at_ 46 (live .inService) with raster.active := true, pixel.begun := 3 }
    ∧ Plain (at_ 3 (live .inService)) ∧ Plain { at_ 46 (live .inService) with raster.active := true, pixel.begun := 3 } := by
  refine ⟨by decide +kernel, by decide +kernel, pointsOk_of (by decide +kernel), pointsOk_of (by decide +kernel),
    pointsOk_of (by decide +kernel), ⟨rfl, rfl, by decide, by decide⟩, ⟨rfl, rfl, by decide, by decide⟩⟩

theorem settled_last (st : StationState) : Settled (last (live st)) ∧ (last (live st)).inReset = false :=
  ⟨⟨rfl, rfl, rfl, rfl, rfl, Nat.le_refl 400⟩, rfl⟩

theorem witness_FrameStartSettlesRaster : ((last (live .inService)).inReset = false ∧ Settled (last (live .inService))
      ∧ (last (live .inService)).raster.blanking = nominal (live .inService))
    ∧ (let s := at_ 444 (last { live .inService with raster.blanking := 45 })
       s.inReset = false ∧ Settled s ∧ s.raster.blanking ≠ nominal s)
    ∧ (at_ 442 (live .inService)).raster.line + 1 ≠ totalLines (live .inService) :=
  ⟨⟨rfl, (settled_last _).1, rfl⟩, ⟨rfl, ⟨rfl, rfl, rfl, rfl, rfl, Nat.le_refl 400⟩, by decide⟩, by decide⟩

theorem witness_FrameKeepsItsShape : ∃ t, exec .pmark { live .inService with raster.active := true } = .next t
    ∧ Instr.pmark ≠ .lineAdvance ∧ (∀ l m, Instr.pmark ≠ .frameStart l m)
    ∧ (live .inService).table.apply.phase = .idle :=
  ⟨_, rfl, by decide, fun _ _ => Instr.noConfusion, rfl⟩

/-- With a beacon outstanding, returned or not, or none; off the ring; with a staged snapshot and without. -/
theorem witness_FrameStartTakesItems : (∀ (r : Bool) (o : Option Frame) (ps : Option (List Part)),
      let s := last { live .inService with member.outstanding := o, member.returned := r, table.slot := ps }
      s.inReset = false ∧ Settled s ∧ s.member.state ≠ .offRing ∧ onRing s.member.state = true
        ∧ s.member.outstanding = o ∧ s.member.returned = r ∧ s.table.slot = ps)
    ∧ (Settled (last (live .listening)) ∧ (live .listening).member.state ≠ .offRing ∧ onRing (live .listening).member.state = false) :=
  ⟨fun _ _ _ => ⟨rfl, ⟨rfl, rfl, rfl, rfl, rfl, Nat.le_refl 400⟩, (by decide : StationState.inService ≠ .offRing), rfl, rfl, rfl, rfl⟩,
   (settled_last _).1, by decide, rfl⟩

theorem serviceOk_idle {s : State} (h : (decide (serving s.member.state = false) && s.origin.list.isEmpty && s.store.isEmpty
    && s.snap.queue.isEmpty && s.snap.progress.isNone && s.snap.collector.isNone && s.ring.transmit.isEmpty && s.ring.inFlight.isEmpty
    && s.ring.insertion.isEmpty && s.ring.rout.isNone && s.member.stations.isEmpty) = true) : ServiceOk s := by
  simp only [Bool.and_eq_true, List.isEmpty_iff, Option.isNone_iff_eq_none, decide_eq_true_eq] at h
  obtain ⟨⟨⟨⟨⟨⟨⟨⟨⟨⟨h1, h2⟩, h3⟩, h4⟩, h5⟩, h6⟩, h7⟩, h8⟩, h9⟩, h10⟩, h11⟩ := h
  exact ⟨by simp [h1], by simp [h2], by simp [h3], by simp [h4], by simp [h4], by simp [h4], by simp [h4, h5], by simp [h5], by simp [h6],
    by simp [h7, h8], by simp [h9, h10, h11]⟩

theorem witness_FrameStartEntersListening : let s := last (live .offRing)
    s.inReset = false ∧ Settled s ∧ s.member.state = .offRing ∧ s.ring.guard = false ∧ ServiceOk s ∧ LockOk s :=
  ⟨rfl, (settled_last _).1, rfl, rfl, serviceOk_idle (by decide), lockOk_of (by decide +kernel)⟩

theorem test_first_frame_report : (after (.frameStart [] false) (last (live .offRing))).report.sending
    = some ⟨.event (.stateChange .listening none), false, 1⟩ := by decide +kernel

theorem witness_RingFrameStartWork : let s := due [.listenGuard, .inFlightAgeing] (live .inService)
    s.inReset = false ∧ FrameWork.listenGuard ∈ s.startWork.due ∧ FrameWork.inFlightAgeing ∈ s.startWork.due := by decide

/-- Records of age 7 and 8, held and applied, one due and one scheduled for a later frame; with and without hold expiry due. -/
theorem witness_StoreRecordsExpire : ∀ ws : List FrameWork, ws = [.holdExpiry, .retentionExpiry] ∨ ws = [.retentionExpiry] →
    let s := { due ws (live .inService) with
      store := [aProposal 3 1 (.held 92), aProposal 3 2 (.held 93), aProposal 4 1 (.applied 92), aProposal 4 2 (.applied 93),
        aProposal 5 1 (.scheduled 100), aProposal 5 2 (.scheduled 101)]
      origin.nextSeq := 9, table.apply.frame := 100 }
    s.inReset = false ∧ UpdatesOk s ∧ s.startWork.due = ws
      ∧ s.store.map (fun p => (heldTooLong s.startWork.frame p, retainedTooLong s.startWork.frame p))
        = [(true, false), (false, false), (false, true), (false, false), (false, false), (false, false)]
      ∧ s.store.filterMap (dueAt 100) = [⟨5, 1, 100, [anEdit]⟩] := by
  rintro ws (rfl | rfl) <;> exact ⟨rfl, updatesOk_of (by decide +kernel), rfl, by decide, by decide⟩

/-- A peer heard, one missed three times, one missed twice; the first two are served, the one that becomes absent first. -/
def ageing : State := { due [.stationAgeing] (with_peers .inService
    [(1, ⟨.inService, 3, true, none⟩), (3, ⟨.joining, 3, false, none⟩), (4, ⟨.resync, 2, false, none⟩)]) with
  snap := ⟨[3, 1], some 4, none⟩ }

theorem test_requester_aged_out : (after .stationEntryAgeOut ageing).snap = ⟨[1], some 0, none⟩ := by decide +kernel

theorem witness_StationTableAges : Receives ageing ∧ MemberOk ageing ∧ FrameWork.stationAgeing ∈ ageing.startWork.due :=
  ⟨⟨rfl, rfl, rfl⟩, memberOk_of (by decide +kernel), by decide⟩

/-- Station 1, both references, becomes absent; station 3 is in service. -/
def leaving (st : StationState) (three : Bool) (c : Option Collector) : State :=
  { due [.stationAgeing] (with_peers st ((1, ⟨.inService, 3, false, none⟩) :: if three then [(3, ⟨.inService, 0, true, none⟩)] else [])) with
    snap.collector := c }

/-- The references change under a collector in every state that collects, to another station and to none. -/
theorem witness_StationTableAges_references : ∀ st ∈ ([.catchingUp, .resync, .ringHold] : List StationState),
    ∀ (three : Bool) (a : Option Nat), let s := leaving st three (a.map (fun n => ⟨some 1, n, 9, []⟩))
    Receives s ∧ MemberOk s ∧ LockOk s ∧ FrameWork.stationAgeing ∈ s.startWork.due
      ∧ s.snap.collector = a.map (fun n => ⟨some 1, n, 9, []⟩) ∧ s.member.state = st
      ∧ s.member.tableRef = some 1 ∧ s.member.timingRef = some 1 ∧ installDone s = true := by
  intro st hst three a
  simp only [List.mem_cons, List.not_mem_nil, or_false] at hst
  have hl : LockOk (leaving st three none) := by rcases hst with rfl | rfl | rfl <;> cases three <;> exact lockOk_of (by decide +kernel)
  have hm : MemberOk (leaving st three none) := by rcases hst with rfl | rfl | rfl <;> cases three <;> exact memberOk_of (by decide +kernel)
  have ht : (leaving st three none).member.tableRef = some 1 := by rcases hst with rfl | rfl | rfl <;> cases three <;> rfl
  refine ⟨⟨rfl, ?_, rfl⟩, ⟨hm.miss, hm.ret, hm.mismatch, hm.backoff, hm.hold, hm.listen, hm.attempt, hm.deadline, hm.attempts, hm.rising, hm.peers⟩,
    ⟨hl.tableRef, hl.timingRef, hl.copy, hl.reference, hl.measured, hl.unmeasured, ?_⟩, List.mem_singleton.mpr rfl, rfl, rfl, ht, ?_, rfl⟩
  · rcases hst with rfl | rfl | rfl <;> rfl
  · intro c hc
    cases a with
    | none => exact absurd hc nofun
    | some n => cases Option.some.inj hc; exact ht.symm
  · rcases hst with rfl | rfl | rfl <;> cases three <;> rfl

/-- What the change brings the collector (R139, R140), by its target and attempt; alone, station 2 becomes the timing reference, and in
CATCHING_UP that brings it into service (R64, R81). -/
theorem test_reference_leaves : ([(none, 1), (some 3, 2), (some 1, 2), (some 1, 3)] : List (Option StationNo × Nat)).map (fun x =>
      (after .stationEntryAgeOut (leaving .resync true (some ⟨x.1, x.2, 9, []⟩))).snap.collector)
      = [some ⟨some 3, 1, 106, []⟩, some ⟨some 3, 2, 9, []⟩, some ⟨some 3, 3, 106, []⟩, none]
    ∧ (after .stationEntryAgeOut (leaving .resync false (some ⟨some 1, 2, 9, []⟩))).snap.collector = some ⟨none, 3, 106, []⟩
    ∧ (after .stationEntryAgeOut (leaving .catchingUp false none)).lock = ⟨.reference, some 2, none⟩
    ∧ (after .stationEntryAgeOut (leaving .catchingUp false none)).member.state = .inService := by decide +kernel

theorem turn_next (s : State) (h : s.inReset = false) : TransitionNext (turn s) := ⟨h, by simp [turn, due], by simp [turn, due]⟩

/-- Counts 2 and 3. -/
theorem witness_ListenCountRises : ∀ n : Nat, n = 2 ∨ n = 3 →
    let s := turn { live .listening with member.listen := n }
    TransitionNext s ∧ s.member.state = .listening ∧ s.member.listen = n ∧ s.ring.transmit.length < Config.transmitPlaces :=
  fun _ _ => ⟨turn_next _ rfl, rfl, rfl, (by decide : 0 < 8)⟩

theorem witness_ListenCountRises_lock : LockOk (turn { live .listening with member.listen := 3 }) := lockOk_of (by decide +kernel)

/-- Deadlines 101 and 100 at frame start 100, attempts 2 and 3. -/
theorem witness_JoinDeadlineActs : (∀ (D : Frame) (n : Nat),
      let s := turn { live .joining with member.attempt := some n, member.joinDeadline := some D }
      TransitionNext s ∧ s.member.state = .joining ∧ s.member.joinDeadline = some D ∧ s.member.attempt = some n
        ∧ s.startWork.frame = 100)
    ∧ ¬ (100#16 - 101#16).toNat < 32768 ∧ (100#16 - 100#16).toNat < 32768 :=
  ⟨fun _ _ => ⟨turn_next _ rfl, rfl, rfl, rfl, rfl⟩, by decide, by decide⟩

theorem witness_ThirdMissActs : ∀ (st : StationState) (c : Option Collector), st = .inService ∨ st = .resync ∨ st = .catchingUp →
    let s := turn { live st with member.miss := 3, snap.collector := c }
    TransitionNext s ∧ 3 ≤ s.member.miss ∧ s.member.state = st ∧ s.snap.collector = c :=
  fun _ _ _ => ⟨turn_next _ rfl, Nat.le_refl 3, rfl, rfl⟩

/-- Leaving IN_SERVICE alone takes the table reference away, and a third attempt at it fails (R139, R140). -/
theorem test_third_failure_in_hold : let s := turn { live .inService with member.miss := 3, snap.collector := some ⟨some 2, 3, 200, []⟩ }
    (after .missStreakLimit s).member.backoff = 16 ∧ (after .missStreakLimit s).member.tableRef = none := by decide +kernel

/-- Two returns in a hold, with a collection unfinished and without; one return, at hold counts 62 and 63. -/
theorem witness_HoldEndsOrCounts : (∀ a : Option Nat,
      let s := turn { live .ringHold with member.ret := 2, snap.collector := a.map (fun n => ⟨none, n, 9, []⟩) }
      TransitionNext s ∧ s.member.state = .ringHold ∧ LockOk s ∧ 2 ≤ s.member.ret ∧ resyncUnfinished s = a.isSome)
    ∧ (∀ n : Nat, n = 62 ∨ n = 63 → let s := turn { live .ringHold with member.ret := 1, member.hold := n }
      TransitionNext s ∧ s.member.state = .ringHold ∧ s.member.ret < 2 ∧ s.member.hold = n) := by
  refine ⟨fun a => ⟨turn_next _ rfl, rfl, ?_, Nat.le_refl 2, by cases a <;> rfl⟩, fun _ _ => ⟨turn_next _ rfl, rfl, Nat.one_lt_two, rfl⟩⟩
  cases a with
  | none => exact lockOk_of (s := turn { live .ringHold with member.ret := 2 }) rfl
  | some n => exact lockOk_of (s := turn { live .ringHold with member.ret := 2, snap.collector := some ⟨none, n, 9, []⟩ }) rfl

/-- The end of a hold makes the own station both references, and the Lock Unit takes it (R70, R81). -/
theorem test_hold_ends_reference : let s := { turn { with_peers .ringHold [(1, ⟨.joining, 0, true, none⟩)] with member.ret := 2 } with
      raster.request := 50 }
    (after .returnStreakLimit s).lock = ⟨.reference, some 2, none⟩ ∧ (after .returnStreakLimit s).raster.request = 44
      ∧ s.lock = ⟨.free, some 1, none⟩ := by decide +kernel

/-- The three causes. -/
theorem witness_RejoinReturnsToListening : (let s := turn { live .catchingUp with member.miss := 3 }
      TransitionNext s ∧ s.member.state = .catchingUp ∧ (3 ≤ s.member.miss ∨ s.member.rejoinPending = true))
    ∧ (let s := turn { live .catchingUp with member.rejoinPending := true }
      TransitionNext s ∧ s.member.state = .catchingUp ∧ (3 ≤ s.member.miss ∨ s.member.rejoinPending = true))
    ∧ (let s := turn { live .ringHold with member.hold := 63, member.ret := 1 }
      TransitionNext s ∧ s.member.state = .ringHold ∧ s.member.ret < 2 ∧ 64 ≤ s.member.hold + 1
        ∧ s.member.timingRef ≠ none) :=
  ⟨⟨turn_next _ rfl, rfl, Or.inl (by decide)⟩, ⟨turn_next _ rfl, rfl, Or.inr rfl⟩,
   ⟨turn_next _ rfl, rfl, by decide, by decide, by decide +kernel⟩⟩

/-- On the ring and in LISTENING. -/
theorem witness_BackoffFallsAndBeaconQueued : ∀ st : StationState, st = .inService ∨ st = .listening →
    let s := due [.backoff] { live st with member.backoff := 1 }
    s.inReset = false ∧ LockOk s ∧ FrameWork.backoff ∈ s.startWork.due ∧ FrameWork.transition ∉ s.startWork.due
      ∧ FrameWork.stationAgeing ∉ s.startWork.due ∧ receiving s.member.state = true
      ∧ onRing s.member.state = decide (st = .inService) ∧ s.ring.transmit.length < Config.transmitPlaces := by
  rintro st (rfl | rfl) <;>
    exact ⟨rfl, lockOk_of (by decide +kernel), by decide, by decide, by decide, rfl, rfl, by decide⟩

/-- Marks 100 and 99 at frame start 100, alone and beside the reference. -/
theorem witness_MarkBringsResync : (∀ M : Frame, let s := turn { live .inService with member.mark := some M }
      TransitionNext s ∧ LockOk s ∧ s.member.state = .inService ∧ s.member.miss < 3 ∧ s.member.mark = some M
        ∧ s.member.tableRef = some (own s) ∧ s.startWork.frame = 100)
    ∧ (∀ M : Frame, let s := turn { beside .inService with member.mark := some M }
      TransitionNext s ∧ LockOk s ∧ s.member.state = .inService ∧ s.member.miss < 3 ∧ s.member.mark = some M
        ∧ s.member.tableRef = some 1 ∧ 1 ≠ own s ∧ s.startWork.frame = 100)
    ∧ later 100 100 = false ∧ later 100 99 = true :=
  ⟨fun M => ⟨turn_next _ rfl, lockOk_of (s := turn { live .inService with member.mark := some M }) rfl, rfl, (by decide : 0 < 3), rfl,
      (by decide +kernel : (live .inService).member.tableRef = some 2), rfl⟩,
   fun M => ⟨turn_next _ rfl, lockOk_of (s := turn { beside .inService with member.mark := some M }) rfl, rfl, (by decide : 0 < 3), rfl,
      (by decide +kernel : (beside .inService).member.tableRef = some 1), (by decide : (1 : StationNo) ≠ 2), rfl⟩,
   by decide, by decide⟩

/-- The one record of `testing`, its deadline 100, is next. -/
theorem testing_next (st : StationState) (q : Seq) (ph : Phase) (a r : Nat) (p : List Proposal) :
    OriginNext (testing st (anOrigin q ph a r 100) p) q (anOrigin q ph a r 100) := by
  refine ⟨rfl, by simp [testing, due], ⟨[], [], rfl, nofun⟩, ?_, ?_⟩
  · simp [findOrigin, testing, anOrigin]
  · simp [originReached, testing, due, anOrigin, reached, atOrBefore]

/-- A record is next behind an older one whose deadline is not reached (R105; log entry 7); both are then tested. -/
theorem witness_OriginNext_behind : let old := anOrigin 7 .proposing 1 1 101
    let r := anOrigin 8 .proposing 2 1 100
    let s := { testing .inService r [aProposal 2 8 (.held 98)] with origin := ⟨[old, r], 9⟩, startWork.origin := [7, 8] }
    OriginNext s 8 r ∧ (after .proposeDeadline s).origin.list = [old, { r with attempt := 3, deadline := 102 }]
      ∧ (after .proposeDeadline s).startWork.origin = [] :=
  ⟨⟨rfl, by decide, ⟨[7], [], rfl, by decide⟩, rfl, rfl⟩, by decide +kernel, by decide +kernel⟩

/-- Attempts 2 and 3 with the own record held; attempt 2 without it. -/
theorem witness_ProposeDeadlineActs : (∀ a : Nat, a = 2 ∨ a = 3 →
      let s := testing .inService (anOrigin 8 .proposing a 1 100) [aProposal 2 8 (.held 98)]
      OriginNext s 8 (anOrigin 8 .proposing a 1 100) ∧ hasHeld (own s) 8 s.store = true)
    ∧ (let s := testing .inService (anOrigin 8 .proposing 2 1 100) []
      OriginNext s 8 (anOrigin 8 .proposing 2 1 100) ∧ hasHeld (own s) 8 s.store = false) :=
  ⟨fun _ _ => ⟨testing_next _ _ _ _ _ _,
    (by decide : hasHeld 2 8 [aProposal 2 8 (.held 98)] = true)⟩, testing_next _ _ _ _ _ _, by decide⟩

/-- Records of other stations, open. -/
def openRecords (n : Nat) : List Proposal := (List.range n).map (fun i => aProposal 3 (BitVec.ofNat 8 (20 + i)) (.held 98))

/-- Rounds 2 and 3, 11 and 12 open records, and a station out of service. -/
theorem witness_WithdrawnDeadlineActs :
    ∀ c ∈ ([(.inService, 2, 11), (.inService, 2, 12), (.inService, 3, 0), (.ringHold, 2, 0)] : List (StationState × Nat × Nat)),
    let r := anOrigin 8 (.withdrawn false) 1 c.2.1 100
    let s := testing c.1 r (openRecords c.2.2)
    OriginNext s 8 r ∧ UpdatesOk s ∧ r.round = c.2.1 ∧ s.member.state = c.1 ∧ openCount s.store = c.2.2 := by
  simp only [List.forall_mem_cons, List.not_mem_nil, false_implies, implies_true, and_true]
  refine ⟨⟨testing_next _ _ _ _ _ _, updatesOk_of (by decide +kernel), rfl, rfl, by decide +kernel⟩,
    ⟨testing_next _ _ _ _ _ _, updatesOk_of (by decide +kernel), rfl, rfl, by decide +kernel⟩,
    ⟨testing_next _ _ _ _ _ _, updatesOk_of (by decide +kernel), rfl, rfl, by decide +kernel⟩,
    ⟨testing_next _ _ _ _ _ _, updatesOk_of (by decide +kernel), rfl, rfl, by decide +kernel⟩⟩

/-- Twelve retained records, the two oldest of one frame and origin. -/
def retained : List Proposal := (List.range 12).map (fun i => aProposal 3 (BitVec.ofNat 8 (20 + i)) (.applied (BitVec.ofNat 16 (65530 + i / 2))))

/-- A new round with the store full of retained records. -/
theorem witness_WithdrawnDeadlineActs_eviction : let r := anOrigin 8 (.withdrawn false) 1 2 100
    let s := testing .inService r retained
    OriginNext s 8 r ∧ UpdatesOk s ∧ s.member.state = .inService ∧ openCount s.store < 12 ∧ s.store.length = 12 :=
  ⟨testing_next _ _ _ _ _ _, updatesOk_of (by decide +kernel), rfl, by decide +kernel, by decide +kernel⟩

theorem witness_CommitDeadlineActs : ∀ a : Nat, a = 2 ∨ a = 3 →
    OriginNext (testing .inService (anOrigin 8 (.committing 99 3) a 1 100) []) 8 (anOrigin 8 (.committing 99 3) a 1 100) :=
  fun _ _ => testing_next _ _ _ _ _ _

/-- Collections with deadlines 101 and 100 at frame start 100, attempts 2 and 3, in the three states that collect. -/
theorem witness_SnapshotDeadlineActs : ∀ (st : StationState) (a : Nat) (d : Frame),
    let c : Collector := ⟨none, a, d, []⟩
    let s := due [.collectorDeadline] { live st with snap.collector := some c }
    s.inReset = false ∧ FrameWork.collectorDeadline ∈ s.startWork.due ∧ s.snap.collector = some c ∧ s.startWork.frame = 100
      ∧ s.member.state = st := fun _ _ _ => ⟨rfl, List.mem_singleton.mpr rfl, rfl, rfl, rfl⟩

/-- Entry 259 with a stamp of age 63 and 64; index 260. -/
theorem witness_EditJudged : (∀ f : Frame, f = 37 ∨ f = 36 → let t : Table := [(259, ⟨⟨1, 2, 3⟩, .mark f 3 9⟩)]
      Memory.wf t = true ∧ (259 : BitVec 16).toNat < tableSize ∧ (Memory.read t 259).stamp = .mark f 3 9)
    ∧ (100 - 37#16).toNat = 63 ∧ (100 - 36#16).toNat = 64 ∧ tableSize ≤ (260 : BitVec 16).toNat
    ∧ (Memory.read [] 259).stamp = .null := by
  refine ⟨?_, by decide, by decide, by decide, by decide⟩
  rintro f (rfl | rfl) <;> decide

theorem live_updatesOk (st : StationState) : UpdatesOk (live st) := updatesOk_of rfl
theorem live_lockOk (st : StationState) : LockOk (live st) := by cases st <;> exact lockOk_of (by decide +kernel)
theorem live_rasterOk (st : StationState) : RasterOk (live st) :=
  ⟨(by decide : 0 < 444), (by decide : 44 - 8 ≤ 44 ∧ 44 ≤ 44 + 8), (by decide : 44 - 8 ≤ 44 ∧ 44 ≤ 44 + 8)⟩

/-- At line 1 in a point of the apply operation of frame 100, before which two records were APPLIED. -/
def applying (st : StationState) (ph : ApplyPhase) (ps : Option (List Part)) (rs : List DueRecord) : State :=
  { at_ 1 (live st) with table.apply := ⟨ph, 100, 1, ps, [⟨4, 1, 99, [anEdit]⟩, ⟨4, 2, 90, [anEdit]⟩], rs⟩, panel.vsync := true }

theorem witness_ApplyFitsItsWindow : UpdatesOk (live .inService) ∧ RasterOk (live .inService)
    ∧ (let s := applying .inService .judging none [⟨3, 1, 100, [anEdit]⟩]
       UpdatesOk s ∧ RasterOk s ∧ PointsOk s ∧ s.table.apply.phase ≠ .idle) :=
  ⟨live_updatesOk _, live_rasterOk _, updatesOk_of (by decide +kernel),
   ⟨by decide +kernel, by decide +kernel, by decide +kernel⟩, pointsOk_of (by decide +kernel), ApplyPhase.noConfusion⟩

/-- A whole staged snapshot, built in frame 95. -/
def snapshot : List Part := (List.range 9).map (fun n => ⟨n, 95, (partIndices n).map (fun i => ⟨BitVec.ofNat 16 i, ⟨9, 0, 0⟩, .null⟩)⟩)

theorem snapshot_ok : SnapshotOk snapshot := by
  refine ⟨⟨by decide +kernel, ?_⟩, by decide +kernel⟩
  exact List.forall_iff_forall_mem.mp (by decide +kernel : List.Forall _ snapshot)

theorem tableOk_of {s : State} (h : (s.table.entries.isEmpty && s.table.history.isEmpty && !s.raster.active && s.table.digest.isNone
    && s.table.slot.isNone && s.snap.collector.isNone) = true) (hs : ∀ ps, s.table.apply.staged = some ps → SnapshotOk ps) :
    TableOk s := by
  simp only [Bool.and_eq_true, List.isEmpty_iff, Bool.not_eq_true', Option.isNone_iff_eq_none] at h
  obtain ⟨⟨⟨⟨⟨h1, h2⟩, h3⟩, h4⟩, h5⟩, h6⟩ := h
  exact ⟨by rw [h1]; rfl, by simp [h2], by simp [h2], by simp [h3], by simp [h3, h4], by simp [h4], by simp [h5], hs, by simp [h6]⟩

/-- Two records late and one on time: R12 takes frame 98 before 99 before 100, and origin 2 before origin 3. -/
def dueRecords : List DueRecord := [⟨3, 1, 100, [anEdit]⟩, ⟨3, 2, 99, [anEdit]⟩, ⟨2, 250, 99, [anEdit]⟩, ⟨9, 9, 98, [anEdit]⟩]

theorem test_due_order : (sortBy dueBefore dueRecords).map (·.origin.toNat) = [9, 2, 3, 3]
    ∧ (lateReports 100 (sortBy dueBefore dueRecords)).length = 3 := by decide +kernel

/-- A staged snapshot; an apply set with late records, whose order R12 gives; another line, and nothing taken. -/
theorem witness_ApplyWindowOpens : (∀ ps : Option (List Part), ps = some snapshot ∨ ps = none →
      let s := applying .inService .taken ps dueRecords
      s.inReset = false ∧ s.raster.line = 1 ∧ s.table.apply.phase = .taken ∧ s.table.apply.staged = ps ∧ TableOk s ∧ UpdatesOk s)
    ∧ (sortBy dueBefore dueRecords).all (fun r => later 100 r.effective || decide (r.effective = 100)) = true
    ∧ (applying .inService .idle none []).table.apply.phase ≠ .taken ∧ (at_ 2 (live .inService)).raster.line ≠ 1 := by
  refine ⟨?_, by decide +kernel, ApplyPhase.noConfusion, by decide⟩
  rintro ps (rfl | rfl)
  · exact ⟨rfl, rfl, rfl, rfl, tableOk_of rfl (fun _ h => Option.some.inj h ▸ snapshot_ok), updatesOk_of (by decide +kernel)⟩
  · exact ⟨rfl, rfl, rfl, rfl, tableOk_of rfl nofun, updatesOk_of (by decide +kernel)⟩

/-- Installing in every station state, with a mark that the build frames are later than and one that they are not; in CATCHING_UP with
the lock as it serves and as it does not, the snapshot-needed flag set and clear; a re-applied record later than the build frames and one at or before them. -/
theorem witness_InstallEnds : (∀ (st : StationState) (m : Option Frame) (n : Bool),
      let s := { applying st .installing (some snapshot) dueRecords with member.mark := m, member.snapshotNeeded := n }
      s.inReset = false ∧ s.table.apply.phase = .installing ∧ s.table.apply.staged = some snapshot ∧ TableOk s ∧ UpdatesOk s
        ∧ s.member.state = st ∧ s.member.mark = m ∧ s.member.snapshotNeeded = n)
    ∧ later 95 94 = true ∧ later 95 95 = false ∧ later 99 95 = true ∧ later 90 95 = false
    ∧ lockServes (applying .catchingUp .installing (some snapshot) []).lock.state = true
    ∧ (let s := { beside .catchingUp with table.apply.phase := .installing, member.snapshotNeeded := true }
       s.member.state = .catchingUp ∧ lockServes s.lock.state = false ∧ s.member.snapshotNeeded = true) := by
  refine ⟨fun st m n => ⟨rfl, rfl, rfl, tableOk_of rfl (fun _ h => Option.some.inj h ▸ snapshot_ok), ?_, rfl, rfl, rfl⟩, by decide, by decide,
    by decide, by decide, by decide +kernel, by decide +kernel⟩
  have h : UpdatesOk (applying st .installing (some snapshot) dueRecords) := by cases st <;> exact updatesOk_of (by decide +kernel)
  exact ⟨h.storePlaces, h.storeKeys, h.storeEdits, h.originPlaces, h.originSeqs, h.originEdits, h.originCounts, h.nextFreeOrigin,
    h.nextFreeStore, h.applyPlaces, h.applyKeys, h.dueReached, h.dueEdits, h.reapplyEdits⟩

/-- R11 in one case: the record of frame 99 is re-applied over parts built in 95, the one of 90 is not. -/
theorem test_reapply : (reapplies snapshot 100 ⟨4, 1, 99, [anEdit]⟩ anEdit, reapplies snapshot 100 ⟨4, 2, 90, [anEdit]⟩ anEdit)
    = (true, false) := by decide +kernel

theorem witness_ApplyEnds : let s := { applying .inService .judging none [] with pixel.readbacks := [⟨259, 16⟩] }
    s.inReset = false ∧ s.table.apply.phase = .judging
      ∧ s.pixel.readbacks.flatMap readbackIndices = [259] := by decide +kernel

/-- Lines 2, 39 (V - 5) and 42 (V - 2) of profile 0, and line 3, where none of the three points stands. -/
theorem witness_PixelPortPoints : (let s := at_ 2 (live .inService); s.inReset = false ∧ s.raster.line = 2 ∧ s.pixel.cwin = false)
    ∧ (∀ rx : Rx, let s := { at_ 39 (live .inService) with pixel.cwin := true, pixel.rx := rx }
        s.inReset = false ∧ s.raster.line + 5 = s.raster.blanking ∧ s.pixel.cwin = true ∧ s.pixel.rx = rx)
    ∧ (let s := at_ 42 (live .inService)
       s.raster.line + 2 = s.raster.blanking ∧ s.pixel.requested = 0 ∧ s.pixel.slots = [])
    ∧ (let s := at_ 3 (live .inService)
       s.raster.line ≠ 2 ∧ s.raster.line + 5 ≠ s.raster.blanking ∧ s.raster.line + 2 ≠ s.raster.blanking) :=
  ⟨⟨rfl, rfl, rfl⟩, fun _ => ⟨rfl, rfl, rfl, rfl⟩, ⟨rfl, rfl, rfl⟩, by decide⟩

theorem witness_ActiveLinesBegin : (let s := at_ 44 (live .inService)
      s.inReset = false ∧ s.raster.line = s.raster.blanking ∧ s.table.apply.phase = .idle ∧ s.raster.active = false)
    ∧ (at_ 43 (live .inService)).raster.line ≠ (live .inService).raster.blanking := ⟨⟨rfl, rfl, rfl, rfl⟩, by decide⟩

/-- Line 0 complete, short and in reception; line 399 without a slot. -/
theorem witness_ActiveLineShown : (let s := { at_ 44 (twoLines .complete (List.replicate 640 0) 640 [1] .wait) with raster.active := true }
      s.inReset = false ∧ s.raster.line = s.raster.blanking + 0 ∧ s.raster.active = true ∧ s.pixel.begun = 0 ∧ 0 < activeLines s
        ∧ PixelOk s
        ∧ findSlot 0 s = some ⟨0, .complete, List.replicate 640 0, 640⟩)
    ∧ (let s := { at_ 44 (twoLines .short [] 0 [1] .wait) with raster.active := true }
      PixelOk s ∧ findSlot 0 s = some ⟨0, .short, [], 0⟩)
    ∧ (let s := { at_ 44 (twoLines .receiving [] 0 [1] (.line 0)) with raster.active := true }
      PixelOk s ∧ findSlot 0 s = some ⟨0, .receiving, [], 0⟩)
    ∧ (let s := { at_ 443 (port [] [] .wait 399) with raster.active := true }
      s.inReset = false ∧ s.raster.line = s.raster.blanking + 399 ∧ s.raster.active = true ∧ s.pixel.begun = 399
        ∧ 399 < activeLines s ∧ PixelOk s ∧ findSlot 399 s = none)
    ∧ (at_ 44 (live .inService)).raster.line ≠ (live .inService).raster.blanking + 1 := by
  refine ⟨⟨rfl, rfl, rfl, rfl, (by decide : 0 < 400), pixelOk_active (pixelOk_two List.length_replicate ?_ ?_ ?_ ?_ ?_), rfl⟩,
    ⟨pixelOk_active (pixelOk_two ?_ ?_ ?_ ?_ ?_ ?_), rfl⟩, ⟨pixelOk_active (pixelOk_two ?_ ?_ ?_ ?_ ?_ ?_), rfl⟩,
    ⟨rfl, rfl, rfl, rfl, (by decide : 399 < 400), pixelOk_active (pixelOk_empty rfl rfl rfl rfl (by decide) rfl), rfl⟩, by decide⟩ <;>
    simp [SlotOk]

theorem witness_FrameEndEntersDigest : ∀ h : List (Frame × Digest), h.length = 3 ∨ h.length = 4 →
    let s := last { live .inService with raster.active := true, table.digest := some (9, 1), table.history := h }
    s.inReset = false ∧ s.raster.line + 1 = totalLines s ∧ activeLines s ≤ s.pixel.begun ∧ s.raster.active = true
      ∧ s.table.digest = some (9, 1) ∧ s.table.history.length ≤ 4 ∧ (at_ 442 s).raster.line + 1 ≠ totalLines s := by
  intro h hh
  exact ⟨rfl, rfl, Nat.le_refl 400, rfl, rfl, by show h.length ≤ 4; omega, (by decide : 442 + 1 ≠ 444)⟩

/-- A line in reception while another request is open; an abandoned one; no request; the control window. -/
theorem witness_PmarkBegins : (let s := twoLines .receiving [5] 1 [1] (.line 0)
      s.inReset = false ∧ PixelOk s ∧ s.pixel.cwin = false ∧ s.pixel.outstanding = [1] ∧ s.pixel.rx = .line 0
        ∧ findSlot 0 s = some ⟨0, .receiving, [5], 1⟩ ∧ findSlot 1 s = some ⟨1, .awaiting, [], 0⟩)
    ∧ (let s := twoLines .abandoned [] 639 [1] (.line 0)
      PixelOk s ∧ s.pixel.rx = .line 0 ∧ findSlot 0 s = some ⟨0, .abandoned, [], 639⟩)
    ∧ (let s := twoLines .abandoned [] 0 [0, 1] .wait
      PixelOk s ∧ s.pixel.outstanding = [0, 1] ∧ findSlot 0 s = some ⟨0, .abandoned, [], 0⟩)
    ∧ (PixelOk (live .inService) ∧ (live .inService).pixel.outstanding = [])
    ∧ (∀ rx : Rx, rx = .wait ∨ rx = .packet [1] → let s := { live .inService with pixel.cwin := true, pixel.rx := rx }
        PixelOk s ∧ s.pixel.cwin = true ∧ s.pixel.rx = rx) := by
  refine ⟨⟨rfl, pixelOk_two ?_ ?_ ?_ ?_ ?_ ?_, rfl, rfl, rfl, rfl, rfl⟩, ⟨pixelOk_two ?_ ?_ ?_ ?_ ?_ ?_, rfl, rfl⟩,
    ⟨pixelOk_two ?_ ?_ ?_ ?_ ?_ ?_, rfl, rfl⟩, ⟨pixelOk_empty rfl rfl rfl rfl (Nat.zero_le _) rfl, rfl⟩, ?_⟩
  case refine_19 =>
    rintro rx (rfl | rfl)
    · exact ⟨pixelOk_empty rfl rfl rfl rfl (Nat.zero_le _) rfl, rfl, rfl⟩
    · refine ⟨⟨?_, ?_, ?_, ?_, ?_, ?_, ?_, ?_, Nat.zero_le _, Nat.zero_le _, Or.inl rfl⟩, rfl, rfl⟩ <;>
        simp [live, with_peers, base, State.reset, Pixel.reset]
  all_goals simp [SlotOk]

/-- Bytes 639 and 640 of a line in reception and of an abandoned one; a packet before its check byte and at it, good and bad. -/
theorem witness_PixelByteTaken : (∀ (st : SlotState) (n : Nat), st = .receiving ∨ st = .abandoned → n = 638 ∨ n = 639 →
      let s := twoLines st [] n [1] (.line 0)
      s.inReset = false ∧ s.pixel.rx = .line 0 ∧ findSlot 0 s = some ⟨0, st, [], n⟩ ∧ lineWidth s = 640)
    ∧ (∀ rx : Rx, let s := { base .inService with pixel.rx := rx }; s.inReset = false ∧ s.pixel.rx = rx)
    ∧ packetComplete ([4, 1] ++ [1]) = false ∧ packetComplete ([4, 1, 1] ++ [0xFA]) = true ∧ sum8 [4, 1, 1, 0xFA] = 0
    ∧ packetComplete ([4, 1, 1] ++ [0xFB]) = true ∧ sum8 [4, 1, 1, 0xFB] ≠ 0
    ∧ packetComplete ([1, 0] ++ [0xFF]) = true ∧ sum8 [1, 0, 0xFF] = 0
    ∧ packetComplete ([2, 3, 0, 0, 0] ++ [0xFB]) = true ∧ sum8 [2, 3, 0, 0, 0, 0xFB] = 0 :=
  ⟨fun _ _ _ _ => ⟨rfl, rfl, rfl, rfl⟩, fun _ => ⟨rfl, rfl⟩, by decide⟩

/-- Three origin records and 11 open records: the last places. -/
def loading : State :=
  { live .inService with origin := ⟨[anOrigin 1 .proposing 1 1 9, anOrigin 2 .proposing 1 1 9, anOrigin 3 .proposing 1 1 9], 4⟩,
                         store := openRecords 11 }

theorem witness_LoadAccepted : loading.inReset = false ∧ UpdatesOk loading ∧ loading.member.state = .inService
    ∧ loading.origin.list.length = 3 ∧ openCount loading.store = 11
    ∧ ([3, 5, 96] : List Nat).all (fun n =>
        let comps : List Byte := (List.range n).map (BitVec.ofNat 8)
        let es := tripletEdits 254 comps
        decide (3 ≤ comps.length ∧ comps.length ≤ 96 ∧ es.length = comps.length / 3
          ∧ ∀ i (h : i < es.length), es[i].index = (254 + BitVec.ofNat 8 i).setWidth 16
            ∧ some es[i].colour.red = comps[3 * i]? ∧ some es[i].colour.green = comps[3 * i + 1]?
            ∧ some es[i].colour.blue = comps[3 * i + 2]?))
    ∧ ([1, 4] : List Nat).all (fun n => (List.replicate n (⟨3, ⟨1, 2, 3⟩⟩ : ParamRecord)).all (fun r => decide (r.control.toNat ≤ 3))) := by
  refine ⟨rfl, updatesOk_of (by decide +kernel), rfl, rfl, by decide +kernel, by decide +kernel, by decide⟩

/-- A load with the store full of retained records, and that one gives way, the first of the two oldest (R112). -/
theorem witness_LoadAccepted_eviction : let s := { live .inService with store := retained }
    UpdatesOk s ∧ s.member.state = .inService ∧ s.origin.list.length < 4 ∧ openCount s.store < 12 ∧ s.store.length = 12
      ∧ (after (.tableLoad 0 [9, 8, 7]) s).store.map (·.seq.toNat) = [21, 22, 23, 24, 25, 26, 27, 28, 29, 30, 31, 0] :=
  ⟨updatesOk_of (by decide +kernel), rfl, by decide, by decide +kernel, by decide +kernel, by decide +kernel⟩

/-- The three refusals, and the packets that fail a test, at the bounds. -/
theorem witness_PacketsTurnedAway : (live .resync).inReset = false ∧ (live .resync).member.state ≠ .inService
    ∧ (let s := { loading with origin.list := anOrigin 8 .proposing 1 1 9 :: loading.origin.list }
       s.member.state = .inService ∧ 4 ≤ s.origin.list.length)
    ∧ (let s := { loading with store := openRecords 12 }
       s.member.state = .inService ∧ s.origin.list.length < 4 ∧ 12 ≤ openCount s.store)
    ∧ ([] : List Byte).length = 0 ∧ ([1, 2] : List Byte).length ≤ 2 ∧ 96 < (List.replicate 97 (1 : Byte)).length
    ∧ 4 < (List.replicate 5 (⟨0, ⟨0, 0, 0⟩⟩ : ParamRecord)).length ∧ 3 < (4 : Byte).toNat
    ∧ 260 ≤ (260 : BitVec 16).toNat ∧ 16 < (17 : Byte).toNat ∧ 1 < (2 : Byte).toNat := by
  refine ⟨rfl, by decide, ⟨rfl, by decide⟩, ⟨rfl, by decide, by decide +kernel⟩, by decide⟩

/-- The last index, with the operation idle and running, and the list of waiting READBACKs with a place and full. -/
theorem witness_ReadbackServed : (live .inService).inReset = false ∧ (259 : BitVec 16).toNat < 260 ∧ 1 ≤ (1 : Byte).toNat
    ∧ (16 : Byte).toNat ≤ 16 ∧ (live .inService).table.apply.phase = .idle
    ∧ (∀ n : Nat, n = 3 ∨ n = 4 → let s := { applying .inService .judging none [] with pixel.readbacks := List.replicate n ⟨0, 1⟩ }
        s.inReset = false ∧ s.table.apply.phase ≠ .idle ∧ s.pixel.readbacks.length = n) := by
  refine ⟨rfl, by decide, by decide, by decide, rfl, ?_⟩
  rintro n (rfl | rfl) <;> decide

theorem witness_StatusAnswered : (live .inService).inReset = false ∧ (0 : Byte).toNat ≤ 1 ∧ (1 : Byte).toNat ≤ 1 := ⟨rfl, by decide⟩

/-! ### The ring -/

theorem passes_live (st : StationState) (hr : receiving st = true) (h : Header) (b : Body)
    (hb : (parcelOk ⟨h, b⟩ && decide (h.origin ≠ 2) && decide (h.hop.toNat < 29)) = true) : Passes (live st) ⟨h, b⟩ := by
  simp only [Bool.and_eq_true, decide_eq_true_eq] at hb
  exact ⟨⟨rfl, hr, rfl⟩, hb.1.1, hb.1.2, hb.2, (by decide : 0 < 4)⟩

theorem passes_beside (st : StationState) (hr : receiving st = true) (h : Header) (b : Body)
    (hb : (parcelOk ⟨h, b⟩ && decide (h.origin ≠ 2) && decide (h.hop.toNat < 29)) = true) : Passes (beside st) ⟨h, b⟩ := by
  simp only [Bool.and_eq_true, decide_eq_true_eq] at hb
  exact ⟨⟨rfl, hr, rfl⟩, hb.1.1, hb.1.2, hb.2, (by decide : 0 < 4)⟩

/-- To all, to this station and to another, with 28 hops before this one. -/
theorem witness_BeaconUpdatesTable : ∀ n ∈ ([0, 2, 3] : List StationNo),
    Passes (live .inService) ⟨⟨30, n, 5, 28⟩, .beacon (aBeacon 50 .inService none)⟩ := by
  intro n hn
  exact passes_live _ rfl _ _ (by revert n; decide)

/-- A joining station hears station 1, which becomes the timing reference and is measured at once (R70, R80); a station that collects
hears station 3, which becomes the table reference only. -/
theorem witness_BeaconUpdatesTable_references : (let s := live .joining
      Passes s ⟨from_ 1, .beacon (aBeacon 50 .inService none)⟩ ∧ s.member.timingRef = some 2
        ∧ (after (.beacon (from_ 1) (aBeacon 50 .inService none)) s).member.timingRef = some 1)
    ∧ (let s := with_peers .resync [(1, ⟨.joining, 0, true, none⟩), (3, ⟨.inService, 0, true, none⟩)]
      Passes s ⟨from_ 3, .beacon (aBeacon 50 .resync none)⟩ ∧ LockOk s ∧ s.member.tableRef = some 3
        ∧ (after (.beacon (from_ 3) (aBeacon 50 .resync none)) s).member.timingRef = some 1
        ∧ (after (.beacon (from_ 3) (aBeacon 50 .resync none)) s).raster.frame = 0) := by
  refine ⟨⟨passes_live _ rfl _ _ (by decide), by decide +kernel, by decide +kernel⟩,
    ⟨⟨rfl, rfl, rfl⟩, by decide, by decide, by decide, (by decide : 0 < 4)⟩, lockOk_of (by decide +kernel), by decide +kernel,
    by decide +kernel, by decide +kernel⟩

/-- In IN_SERVICE a station of a lower number takes the reference over, with a digest that differs from the own one (R75). -/
theorem witness_BeaconUpdatesTable_digest : let s := { live .inService with table.history := [(40, 7)] }
    let b := aBeacon 50 .inService (some (40, 8))
    Passes s ⟨from_ 1, .beacon b⟩ ∧ LockOk s ∧ MemberOk s ∧ computeTimingRef (heardFrom (from_ 1) b s) = some 1
      ∧ s.member.timingRef = some 2 ∧ DigestDiffers b s ∧ (after (.beacon (from_ 1) b) s).member.mismatch = 1 :=
  ⟨⟨⟨rfl, rfl, rfl⟩, by decide, by decide, by decide, (by decide : 0 < 4)⟩, lockOk_of (by decide +kernel), memberOk_of (by decide +kernel),
    by rfl, by rfl, ⟨rfl, 40, 8, 7, rfl, rfl, by decide⟩, by decide +kernel⟩

/-- Beside station 1 in every state that goes on, FREE or LOCKED, at the lines whose offsets are 0, 2, 3, 8, 9, 221, -222, -9, -8, -3,
-2 and -1; in CATCHING_UP with the install done. -/
theorem witness_ReferenceBeaconMeasured : ∀ (st : StationState) (l : Nat) (k : Lock),
    st = .resync ∨ st = .inService ∨ st = .catchingUp → k = ⟨.free, some 1, none⟩ ∨ k = ⟨.locked, some 1, some 2⟩ →
    l ∈ ([0, 2, 3, 8, 9, 221, 222, 435, 436, 441, 442, 443] : List Nat) →
    let s := { at_ l (beside st) with lock := k }
    let b := aBeacon 50 .inService none
    Passes s ⟨from_ 1, .beacon b⟩ ∧ (from_ 1).target = 0 ∧ LockOk s ∧ MemberOk s ∧ s.member.timingRef = some 1
      ∧ b.digest = none ∧ installDone s = true ∧ now s = 0
      ∧ computeTimingRef (heardFrom (from_ 1) b s) = some 1 ∧ ¬ ThirdFailed (computeTableRef (heardFrom (from_ 1) b s)) s
      ∧ totalLines s = 444 := by
  intro st l k hst hk _
  refine ⟨passes_beside st (by rcases hst with rfl | rfl | rfl <;> rfl) _ _ (by decide), rfl, ?_, ?_, ?_, rfl, rfl, rfl, ?_,
    fun hf => by obtain ⟨_, c, hc, _⟩ := hf; exact absurd hc nofun, rfl⟩
  · rcases hk with rfl | rfl
    · rcases hst with rfl | rfl | rfl
      · exact lockOk_of (s := { at_ l (beside .resync) with lock := ⟨.free, some 1, none⟩ }) rfl
      · exact lockOk_of (s := { at_ l (beside .inService) with lock := ⟨.free, some 1, none⟩ }) rfl
      · exact lockOk_of (s := { at_ l (beside .catchingUp) with lock := ⟨.free, some 1, none⟩ }) rfl
    · rcases hst with rfl | rfl | rfl <;>
        exact ⟨by rfl, by rfl, by rfl, by simp [at_, beside, with_peers, base, own], by simp [lockOf], by simp, nofun⟩
  · rcases hst with rfl | rfl | rfl
    · exact memberOk_of (s := { at_ l (beside .resync) with lock := k }) rfl
    · exact memberOk_of (s := { at_ l (beside .inService) with lock := k }) rfl
    · exact memberOk_of (s := { at_ l (beside .catchingUp) with lock := k }) rfl
  · rcases hst with rfl | rfl | rfl <;> rfl
  · rcases hst with rfl | rfl | rfl <;> rfl

/-- Beside station 1 in state x, which is the timing reference, with a collector at attempt n that waits for, or asks, the table
reference. -/
def besideIn (st x : StationState) (n : Nat) : State :=
  let s := with_peers st [(1, ⟨x, 0, true, none⟩)]
  { s with snap.collector := some ⟨s.member.tableRef, n, 9, []⟩ }

/-- The timing reference becomes the table reference, or stops being it, by the state it carries: the waiting attempt is sent, the next
begins, the third fails; it stays the timing reference and is measured. -/
theorem witness_ReferenceBeaconMeasured_state : ∀ st ∈ ([.catchingUp, .ringHold, .resync] : List StationState),
    ∀ x ∈ ([(.joining, .inService), (.inService, .resync)] : List (StationState × StationState)), ∀ n ∈ ([2, 3] : List Nat),
    let s := besideIn st x.1 n
    let b := aBeacon 50 x.2 none
    Passes s ⟨from_ 1, .beacon b⟩ ∧ LockOk s ∧ MemberOk s ∧ s.member.timingRef = some 1
      ∧ computeTimingRef (heardFrom (from_ 1) b s) = some 1
      ∧ computeTableRef (heardFrom (from_ 1) b s) ≠ s.member.tableRef
      ∧ s.snap.collector = some ⟨if x.1 = .inService then some 1 else none, n, 9, []⟩ := by
  intro st hst x hx n hn
  simp only [List.mem_cons, List.not_mem_nil, or_false] at hst hx hn
  rcases hst with rfl | rfl | rfl <;> rcases hx with rfl | rfl <;> rcases hn with rfl | rfl <;>
    exact ⟨⟨⟨rfl, rfl, rfl⟩, by decide, by decide, by decide, (by decide : 0 < 4)⟩, lockOk_of (by decide +kernel), memberOk_of (by decide +kernel),
      by rfl, by rfl, by decide, by rfl⟩

/-- In RING_HOLD the third failure comes before the measurement, and in RESYNC it makes the own station the reference, which measures
nothing (R139, R140, R87). -/
theorem test_reference_state : (let t := after (.beacon (from_ 1) (aBeacon 50 .resync none)) (besideIn .ringHold .inService 3)
      t.snap.collector = none ∧ t.member.backoff = 16 ∧ t.raster.frame = 50 ∧ t.report.sending = some ⟨.event .resyncFailed, false, 0⟩)
    ∧ (let t := after (.beacon (from_ 1) (aBeacon 50 .resync none)) (besideIn .resync .inService 3)
      t.member.state = .inService ∧ t.member.timingRef = some 2 ∧ t.raster.frame = 0)
    ∧ (after (.beacon (from_ 1) (aBeacon 50 .inService none)) (besideIn .resync .joining 2)).snap.collector = some ⟨some 1, 2, 6, []⟩ := by
  decide +kernel

/-- A change of number in IN_SERVICE is FRAME_SLIP, formed with the adopted number; in CATCHING_UP the first LOCKED measurement brings
IN_SERVICE (R84, R86). -/
theorem test_measured : ((after (.beacon (from_ 1) (aBeacon 50 .inService none))
      { beside .inService with lock := ⟨.locked, some 1, some 2⟩ }).report.sending = some ⟨.event (.frameSlip 0 50 0), false, 50⟩)
    ∧ ((after (.beacon (from_ 1) (aBeacon 50 .inService none)) (beside .catchingUp)).report.sending
      = some ⟨.event (.stateChange .inService none), false, 50⟩) := by decide +kernel

/-- A beacon of the table reference, with a digest of a frame that the history holds, equal and not, at streaks 0 and 1; in the
backoff; without a digest; of a frame that the history does not hold. -/
theorem witness_DigestsCompared : ∀ (m k : Nat) (d : Option (Frame × Digest)), m = 0 ∨ m = 1 → k = 0 ∨ k = 16 →
    d = some (40, 7) ∨ d = some (40, 8) ∨ d = some (41, 7) ∨ d = none →
    let s := { beside .inService with member.mismatch := m, member.backoff := k, table.history := [(40, 7)] }
    Passes s ⟨from_ 1, .beacon (aBeacon 50 .inService d)⟩ ∧ (from_ 1).target = 0 ∧ LockOk s ∧ MemberOk s
      ∧ s.member.state = .inService ∧ s.member.tableRef = some 1
      ∧ findStation 1 s.member.stations = some ⟨.inService, 0, true, none⟩
      ∧ digestFor 40 s = some 7 ∧ digestFor 41 s = none := by
  intro m k d hm hk _
  refine ⟨passes_beside .inService rfl _ _ rfl, rfl, ?_, ?_, rfl, (by decide +kernel : (beside .inService).member.tableRef = some 1),
    (by decide +kernel : findStation 1 (beside .inService).member.stations = some ⟨.inService, 0, true, none⟩), rfl, rfl⟩
  · exact lockOk_of (s := { beside .inService with member.mismatch := m, member.backoff := k, table.history := [(40, 7)] }) rfl
  · rcases hm with rfl | rfl <;> rcases hk with rfl | rfl <;> exact memberOk_of (by decide +kernel)

/-- On the ring and in LISTENING, to all, to this station and to another. -/
theorem witness_JoinRecorded : ∀ n ∈ ([0, 2, 3] : List StationNo),
    Passes (live .inService) ⟨⟨30, n, 5, 28⟩, .join ⟨.p1, .two, 1, false⟩⟩
    ∧ Passes { live .inService with snap := ⟨[30, 3], some 4, none⟩ } ⟨⟨30, n, 5, 28⟩, .join ⟨.p1, .two, 1, false⟩⟩
    ∧ Passes (live .listening) ⟨⟨30, n, 5, 28⟩, .join ⟨.p1, .two, 1, false⟩⟩ := by
  intro n hn
  have h : Passes (live .inService) ⟨⟨30, n, 5, 28⟩, .join ⟨.p1, .two, 1, false⟩⟩ := passes_live _ rfl _ _ (by revert n; decide)
  exact ⟨h, ⟨⟨rfl, rfl, rfl⟩, h.2.1, h.2.2.1, h.2.2.2.1, h.2.2.2.2⟩, passes_live _ rfl _ _ (by clear h; revert n; decide)⟩

/-- The JOIN of the table reference takes the reference away while it is collected from (R70, R139, R140). -/
theorem witness_JoinRecorded_references : let s := { beside .resync with snap.collector := some ⟨some 1, 1, 9, []⟩ }
    Passes s ⟨from_ 1, .join ⟨.p0, .two, 1, false⟩⟩ ∧ LockOk s ∧ MemberOk s ∧ s.member.tableRef = some 1
      ∧ (after (.join (from_ 1) ⟨.p0, .two, 1, false⟩) s).member.tableRef = none
      ∧ (after (.join (from_ 1) ⟨.p0, .two, 1, false⟩) s).snap.collector = some ⟨none, 2, 6, []⟩ :=
  ⟨⟨⟨rfl, rfl, rfl⟩, by decide, by decide, by decide, (by decide : 0 < 4)⟩, lockOk_of (by decide +kernel), memberOk_of (by decide +kernel),
    by decide +kernel, by decide +kernel, by decide +kernel⟩

/-- A store with 11 and with 12 open records, neither holding the record, and one holding it. -/
theorem witness_ProposeStored : ∀ n : Nat, n = 11 ∨ n = 12 →
    let s := { live .inService with store := openRecords n }
    let b : ProposeBody := ⟨20, [anEdit], 0, 0⟩
    Passes s ⟨from_ 4, .propose b⟩ ∧ Passes s ⟨from_ 3, .propose b⟩ ∧ UpdatesOk s ∧ onRing s.member.state = true
      ∧ findRecord 4 20 s.store = none ∧ findRecord 3 20 s.store = some (aProposal 3 20 (.held 98)) ∧ openCount s.store = n := by
  rintro n (rfl | rfl)
  · exact ⟨passes_live _ rfl _ _ (by decide), passes_live _ rfl _ _ (by decide), updatesOk_of (by decide +kernel), rfl,
      by decide +kernel, by decide +kernel, by decide +kernel⟩
  · exact ⟨passes_live _ rfl _ _ (by decide), passes_live _ rfl _ _ (by decide), updatesOk_of (by decide +kernel), rfl,
      by decide +kernel, by decide +kernel, by decide +kernel⟩

/-- A store full of retained records, the oldest of which gives way. -/
theorem witness_ProposeStored_eviction : let s := { live .inService with store := retained }
    Passes s ⟨from_ 4, .propose ⟨20, [anEdit], 0, 0⟩⟩ ∧ UpdatesOk s ∧ findRecord 4 20 s.store = none ∧ openCount s.store < 12
      ∧ s.store.length = 12 :=
  ⟨passes_live _ rfl _ _ (by decide), updatesOk_of (by decide +kernel), by decide +kernel, by decide +kernel, by decide +kernel⟩

/-- With the record held and not held; in IN_SERVICE, JOINING and LISTENING; without a mark, and with one that 150 does and does not
replace, the last 32768 frames away. -/
theorem witness_CommitAndWithdrawTaken : (∀ (st : StationState) (p : List Proposal) (m : Option Frame), receiving st = true →
      let s := { live st with store := p, member.mark := m }
      Passes s ⟨from_ 3, .withdraw 20⟩ ∧ s.member.state = st ∧ s.member.mark = m ∧ s.store = p)
    ∧ findRecord 3 20 [aProposal 3 20 (.held 98)] ≠ none ∧ findRecord 3 20 [] = none
    ∧ later 150 150 = false ∧ later 150 149 = true ∧ later 149 150 = false
    ∧ later 150 (150 + 32768) = true ∧ later (150 + 32768) 150 = true := by
  refine ⟨fun st p m hr => ⟨⟨⟨rfl, hr, rfl⟩, rfl, (by decide : (3 : StationNo) ≠ 2), (by decide : (0 : Byte).toNat < 29),
    (by decide : 0 < 4)⟩, rfl, rfl, rfl⟩, by decide⟩

/-- The requester present, with three and four others waiting. -/
theorem witness_SnapshotReqAdmitted : ∀ q : List StationNo, q = [] ∨ q = [3, 4, 5] ∨ q = [3, 4, 5, 6] →
    let s := { beside .inService with snap.queue := q }
    Passes s ⟨⟨1, 2, 0, 0⟩, .snapshotReq⟩ ∧ s.member.state = .inService ∧ isPresent 1 s = true ∧ (1 : StationNo) ∉ s.snap.queue
      ∧ s.snap.queue = q ∧ own s = 2 := by
  rintro q (rfl | rfl | rfl) <;>
    exact ⟨passes_beside .inService rfl _ _ (by decide), rfl, rfl, by decide, rfl, rfl⟩

/-- The eight parts 0 to 7 gathered. -/
def gathered : List Part := (List.range 8).map (fun i => ⟨i, 90, []⟩)

/-- The last four entries, as part 8 carries them. -/
def lastPart : SnapshotBody := ⟨8, 90, [256, 257, 258, 259].map (fun i => ⟨i, ⟨1, 2, 3⟩, .mark 5 0 1⟩)⟩

/-- Part 8 as the first and as the ninth part; from another station; without a collection. -/
theorem witness_SnapshotPartStaged : (∀ ps : List Part, ps = [] ∨ ps = gathered →
      let s := { live .catchingUp with snap.collector := some ⟨some 1, 1, 6, ps⟩ }
      Passes s ⟨⟨1, 2, 0, 0⟩, .snapshot lastPart⟩ ∧ s.snap.collector = some ⟨some 1, 1, 6, ps⟩ ∧ own s = 2
        ∧ (∀ x ∈ ps, x.number ≠ lastPart.part.toNat)
        ∧ lastPart.entries.map (·.index.toNat) = partIndices lastPart.part.toNat
        ∧ Passes s ⟨⟨3, 2, 0, 0⟩, .snapshot lastPart⟩)
    ∧ gathered.length + 1 = 9
    ∧ (Passes (live .catchingUp) ⟨⟨1, 2, 0, 0⟩, .snapshot lastPart⟩ ∧ (live .catchingUp).snap.collector = none) := by
  refine ⟨?_, rfl, passes_live .catchingUp rfl _ _ (by decide), rfl⟩
  rintro ps (rfl | rfl) <;>
    exact ⟨passes_live .catchingUp rfl _ _ (by decide), rfl, rfl, by decide, by decide, passes_live .catchingUp rfl _ _ (by decide)⟩

/-- BYPASS asserted; a parcel begun under it; a run of no parcel, a parcel of origin 31, one after 29 hops, one that finds the insertion
buffer full; a listener's own number under the guard and without it, first and later, after 28 and 29 hops, with three and four parcels
in the buffer. -/
theorem witness_BadParcelsCounted : bypass (live .isolated) = true
    ∧ (let s := { live .inService with ring.cut := true }; bypass s = false ∧ s.ring.cut = true)
    ∧ Receives (live .inService) ∧ readRun [] = none
    ∧ parcelOk ⟨⟨31, 0, 0, 0⟩, .withdraw 1⟩ = false
    ∧ (parcelOk ⟨⟨30, 0, 0, 29⟩, .withdraw 1⟩ = true ∧ (30 : StationNo) ≠ own (live .inService) ∧ 29 ≤ (29 : Byte).toNat)
    ∧ (let s := { live .inService with ring.insertion := List.replicate 4 ⟨⟨from_ 1, .withdraw 1⟩, false⟩ }
       Receives s ∧ parcelOk ⟨from_ 1, .withdraw 1⟩ = true ∧ (from_ 1).origin ≠ own s ∧ (from_ 1).hop.toNat < 29
         ∧ 4 ≤ s.ring.insertion.length)
    ∧ (∀ (g d : Bool) (n : Nat), n = 3 ∨ n = 4 → let s := { live .listening with
          ring.insertion := List.replicate n ⟨⟨from_ 1, .withdraw 1⟩, false⟩, ring.guard := g, ring.duplicateSeen := d }
       Receives s ∧ s.member.state = .listening ∧ own s = 2 ∧ s.ring.guard = g ∧ s.ring.duplicateSeen = d
         ∧ s.ring.insertion.length = n)
    ∧ (∀ k ∈ ([28, 29] : List Byte), parcelOk ⟨⟨2, 0, 0, k⟩, .withdraw 1⟩ = true) := by
  refine ⟨by decide, by decide, ⟨rfl, rfl, rfl⟩, by decide, by decide, by decide, ⟨⟨rfl, rfl, rfl⟩, by decide, by decide, by decide, by decide⟩,
    fun g d n _ => ⟨⟨rfl, rfl, rfl⟩, rfl, rfl, rfl, rfl, List.length_replicate⟩, by decide⟩

/-- With an in-flight entry for this parcel, whose tag is 5. -/
def flying (k : Kind) (q : Option Seq) (s : State) : State := { s with ring.inFlight := [⟨5, k, q, 0⟩] }

theorem returns_of (s : State) (k : Kind) (q : Option Seq) (b : Body) (h0 : s.inReset = false) (h1 : onRing s.member.state = true)
    (hc : s.ring.cut = false) (h2 : own s = 2) (h3 : (parcelOk ⟨from_ 2, b⟩ && decide (Body.kind b = k) && decide (Body.seq b = q)) = true) :
    Returns (flying k q s) ⟨from_ 2, b⟩ := by
  simp only [Bool.and_eq_true, decide_eq_true_eq] at h3
  refine ⟨⟨h0, h1, hc⟩, h3.1.1, h2.symm, ?_⟩
  simp [flying, matchesFlight, from_, h3.1.2, h3.2]

/-- The own PROPOSE without and with a refusal, the own record held and gone; the own COMMIT. -/
theorem witness_UpdateReturnsTaken : (∀ (p : List Proposal) (k : Byte), p = [] ∨ p = [aProposal 2 8 (.held 98)] → k = 0 ∨ k = 1 →
      let s := flying .propose (some 8) { live .inService with origin := ⟨[anOrigin 8 .proposing 1 1 9], 9⟩, store := p }
      Returns s ⟨from_ 2, .propose ⟨8, [anEdit], 4, k⟩⟩ ∧ findOrigin 8 s = some (anOrigin 8 .proposing 1 1 9)
        ∧ hasHeld (own s) 8 s.store = !p.isEmpty)
    ∧ (let s := flying .commit (some 8) { live .ringHold with origin := ⟨[anOrigin 8 (.committing 9 3) 1 1 9], 9⟩ }
      Returns s ⟨from_ 2, .commit 8 9⟩ ∧ findOrigin 8 s = some (anOrigin 8 (.committing 9 3) 1 1 9))
    ∧ (∀ k : Kind × Option Seq × Body, k ∈ ([(.propose, some 8, .propose ⟨8, [anEdit], 4, 0⟩), (.commit, some 8, .commit 8 9),
          (.withdraw, some 8, .withdraw 8), (.snapshotReq, none, .snapshotReq)] : List (Kind × Option Seq × Body)) →
      Returns (flying k.1 k.2.1 (live .inService)) ⟨from_ 2, k.2.2⟩ ∧ findOrigin 8 (live .inService) = none) := by
  refine ⟨?_, ⟨returns_of _ _ _ _ rfl rfl rfl rfl (by decide), rfl⟩, fun k hk => ⟨returns_of _ _ _ _ rfl rfl rfl rfl ?_, rfl⟩⟩
  rotate_left
  · revert k; decide
  rintro p k (rfl | rfl) (rfl | rfl) <;> exact ⟨returns_of _ _ _ _ rfl rfl rfl rfl (by decide), rfl, by decide⟩

/-- The own JOIN marked and unmarked, alone and beside a reference, and out of JOINING; the own BEACON, outstanding and older; a foreign parcel. -/
theorem witness_JoinReturnsTaken : (∀ f : Bool, let s := flying .join none (beside .joining)
      OnRing s ∧ Returns s ⟨from_ 2, .join ⟨.p0, .two, 1, f⟩⟩ ∧ s.member.state = .joining ∧ LockOk s
        ∧ lockServes s.lock.state = false ∧ s.member.stations.any (fun e => e.2.state == .inService) = true)
    ∧ (let s := flying .join none (live .joining)
      Returns s ⟨from_ 2, .join ⟨.p0, .two, 1, false⟩⟩ ∧ s.member.state = .joining ∧ LockOk s ∧ lockServes s.lock.state = true
        ∧ s.member.stations.any (fun e => e.2.state == .inService) = false)
    ∧ (∀ st ∈ ([.catchingUp, .inService, .ringHold, .resync] : List StationState), let s := flying .join none (live st)
      OnRing s ∧ Returns s ⟨from_ 2, .join ⟨.p0, .two, 1, true⟩⟩ ∧ s.member.state ≠ .joining)
    ∧ (∀ F : Frame, let s := flying .beacon none { live .inService with member.outstanding := some 50 }
      Returns s ⟨from_ 2, .beacon (aBeacon F .inService none)⟩ ∧ s.member.outstanding = some 50)
    ∧ (∀ st : StationState, st = .joining ∨ st = .inService →
      OnRing (live st) ∧ parcelOk ⟨from_ 2, .snapshotReq⟩ = true ∧ (from_ 2).origin = own (live st)
        ∧ (live st).ring.inFlight.any (matchesFlight ⟨from_ 2, .snapshotReq⟩) = false) := by
  refine ⟨fun f => ?_, ⟨returns_of _ _ _ _ rfl rfl rfl rfl (by decide), rfl, ?_, by decide +kernel, rfl⟩,
    fun st hst => ?_, fun F => ⟨returns_of _ _ _ _ rfl rfl rfl rfl rfl, rfl⟩, ?_⟩
  · exact ⟨⟨rfl, rfl, rfl⟩, returns_of _ _ _ _ rfl rfl rfl rfl (by cases f <;> decide), rfl, lockOk_of (by decide +kernel),
      by decide +kernel, by decide⟩
  · exact lockOk_of (by decide +kernel)
  · simp only [List.mem_cons, List.not_mem_nil, or_false] at hst
    rcases hst with rfl | rfl | rfl | rfl <;> exact ⟨⟨rfl, rfl, rfl⟩, returns_of _ _ _ _ rfl rfl rfl rfl (by decide), by decide⟩
  · rintro st (rfl | rfl) <;> exact ⟨⟨rfl, rfl, rfl⟩, by decide, rfl, rfl⟩

/-- Parts 0, 7 and 8, the transmit queue with three parcels, one requester and two. -/
theorem witness_SnapshotPartBuilt : ∀ p ∈ ([0, 7, 8] : List Nat), ∀ rest ∈ ([[], [3]] : List (List StationNo)),
    let s := { live .inService with raster.active := true, snap := ⟨1 :: rest, some p, none⟩,
                                    ring.transmit := List.replicate 3 ⟨from_ 2, .snapshotReq⟩ }
    s.inReset = false ∧ s.member.state = .inService ∧ s.raster.active = true ∧ s.ring.transmit.length < 4
      ∧ s.snap.queue = 1 :: rest ∧ s.snap.progress = some p ∧ p ≤ 8 := by
  intro p hp rest _
  refine ⟨rfl, rfl, rfl, (by decide : 3 < 4), rfl, rfl, ?_⟩
  revert p; decide

/-- An own parcel and a forwarded one, the streak at 7 and 8, the in-flight list with 7 and 8 entries. -/
def sending (k n : Nat) : State :=
  { live .inService with
      ring.streak := k
      ring.insertion := [⟨⟨from_ 1, .withdraw 1⟩, false⟩]
      ring.transmit := [⟨from_ 2, .snapshotReq⟩]
      ring.inFlight := (List.range n).map (fun i => ⟨BitVec.ofNat 8 (1 + i), .snapshotReq, none, 0⟩) }

theorem witness_SendsBeginAndEnd : (bypass (sending 7 7) = false ∧ (sending 7 7).ring.rout = none ∧ (sending 7 7).ring.streak < 8
      ∧ headReady (sending 7 7) = true)
    ∧ headReady (sending 8 8) = false
    ∧ ((sending 8 7).ring.inFlight.length < 8 ∧ 8 ≤ (sending 8 7).ring.streak)
    ∧ ((live .listening).ring.insertion = [] ∧ headReady (live .listening) = false ∧ bypass (live .listening) = false)
    ∧ (∀ (st : StationState) (n : Bool), let s := { live st with ring.rout := some ⟨⟨from_ 2, .withdraw 1⟩, n⟩ }
       s.inReset = false ∧ s.ring.rout = some ⟨⟨from_ 2, .withdraw 1⟩, n⟩ ∧ s.member.state = st) := by
  refine ⟨by decide, by decide, by decide, by decide, fun _ _ => ⟨rfl, rfl, rfl⟩⟩

/-- The counter passes the tags in flight (R47): the example's two sends. -/
theorem test_tag : let s := { sending 8 0 with ring.tag := 4, ring.inFlight := [⟨5, .snapshotReq, none, 0⟩, ⟨7, .snapshotReq, none, 0⟩] }
    (after .sendBegin s).ring.tag = 6
      ∧ (after .sendBegin { after .sendBegin s with ring.rout := none, ring.streak := 8, ring.transmit := [⟨from_ 2, .snapshotReq⟩] }).ring.tag
        = 8 := by decide +kernel

/-- A notice taken in JOINING isolates the station as in LISTENING (R63). -/
theorem test_notice_joining : (after .sendEnd { live .joining with ring.rout := some ⟨⟨from_ 2, .withdraw 1⟩, true⟩ }).member.state
    = .isolated := by decide +kernel

/-- The line idle; a record in sending with 15 records and with 16 behind it; an end announced for after one record and two. -/
theorem witness_ReportLineWorks : (live .inService).report.endsAfter = 0 ∧ (live .inService).report.sending = none
    ∧ (live .inService).report.queue = []
    ∧ (∀ (n k : Nat), let r : ReportRecord := ⟨.event .ringHold, false, 0⟩
       let s := { live .inService with report.sending := some r, report.queue := List.replicate n r, report.endsAfter := k }
       s.inReset = false ∧ s.report.sending.isSome = true ∧ s.report.queue.length = n ∧ s.report.endsAfter = k)
    ∧ (let s := { live .inService with report.queue := [⟨.event .ringHold, false, 0⟩] }
       s.inReset = false ∧ s.report.sending = none ∧ s.report.queue = [⟨.event .ringHold, false, 0⟩]) :=
  ⟨rfl, rfl, rfl, fun _ _ => ⟨rfl, rfl, List.length_replicate, rfl⟩, ⟨rfl, rfl, rfl⟩⟩

theorem witness_ParcelsReadBack : parcelOk ⟨from_ 30, .snapshot lastPart⟩ = true
    ∧ parcelOk ⟨from_ 1, .propose ⟨1, List.replicate 32 anEdit, 29, 29⟩⟩ = true := by decide +kernel

/-! ### What every step keeps: a state of the machine in service, with a command waiting, that meets every invariant -/

/-- In service alone, a frame start waiting. -/
def running : State := { last (live .inService) with table.seeded := true, pending := [.frameStart [] false] }

theorem witness_kept : RingOk running ∧ RasterOk running ∧ ReportOk running ∧ TableOk running ∧ UpdatesOk running
    ∧ ServiceOk running ∧ LockOk running ∧ MemberOk running ∧ PixelOk running ∧ PointsOk running ∧ ∃ t, step running = .next t := by
  refine ⟨⟨by decide, ?_, by decide, ?_, by decide, by decide, by decide, by decide⟩,
    ⟨by decide, by decide, by decide⟩, ⟨by decide, fun _ => ⟨rfl, rfl⟩⟩,
    ⟨rfl, by decide, by decide, nofun, rfl, nofun, nofun, nofun,
      nofun⟩,
    updatesOk_of (by decide +kernel),
    ⟨fun _ => rfl, fun h => absurd rfl h, nofun, fun h => absurd rfl h, by decide, by decide, rfl, nofun, nofun,
      nofun, nofun⟩,
    lockOk_of (by decide +kernel), memberOk_of (by decide +kernel),
    pixelOk_empty rfl rfl rfl rfl (Nat.le_refl 400) rfl, pointsOk_of (by decide +kernel), _, rfl⟩
  · exact nofun
  · exact nofun

end Sys2Proof.Machine
end

