-- ==== Sys2Proof/Proofs/FrameNumbers.lean ====
section
/-! SUPPORT. Proofs/FrameNumbers.lean: the order of frame numbers on the circle of 65536, as arithmetic (R32). -/

namespace Sys2Proof.Machine

/-- The 16-bit difference of two frame numbers is their distance on the circle, counted forward from a to b. -/
theorem frame_toNat_sub (a b : Frame) : (b - a).toNat = (b.toNat + 65536 - a.toNat) % 65536 := by
  have ha : a.toNat < 65536 := a.isLt
  rw [BitVec.toNat_sub]
  omega

/-- R32's first relation. -/
theorem atOrBefore_iff (a b : Frame) : atOrBefore a b = true ↔ (b.toNat + 65536 - a.toNat) % 65536 < 32768 := by
  rw [atOrBefore, decide_eq_true_iff, frame_toNat_sub]

/-- R32's second relation, by its definition from the first. -/
theorem later_iff_not_atOrBefore (a b : Frame) : later a b = true ↔ ¬ atOrBefore a b = true := by
  rw [later, Bool.not_eq_true', Bool.not_eq_true]

/-- Settles O6: the circle distance is the 16-bit difference, and later is the negation of at-or-before. -/
theorem frameOrder : Obligations.FrameOrder := by
  intro a b
  exact ⟨atOrBefore_iff a b, (later_iff_not_atOrBefore a b).trans (not_congr (atOrBefore_iff a b))⟩

end Sys2Proof.Machine
end

