-- ==== Sys2Proof/Proofs/RingFrameStart.lean ====
section
/-! SUPPORT. Proofs/RingFrameStart.lean: what a row that takes one piece of frame-start work answers, and the Ring Interface's two rows:
the listen guard (R40) and the ageing of the in-flight entries (R49). -/

namespace Sys2Proof.Machine

/-! ## A row that takes one piece -/

/-- A row whose meaning is one piece of work answers, outside reset and with the piece due, the piece done at the frame start's number
on the state in which it is settled. -/
theorem answers_takeWork {c : Instr} {w : FrameWork} {s : State} {P : State → Prop}
    (hc : exec c s = .next (whenReleased (takeWork w) s)) (h0 : s.inReset = false) (hw : w ∈ s.startWork.due)
    (hP : P (doWork s.startWork.frame w (settleWork w s))) : Answers c s P :=
  ⟨_, by rw [hc, whenReleased_of h0, takeWork_of_mem hw], hP⟩

/-! ## The meanings of the two rows, and of their pieces -/

theorem exec_listenGuardClear (s : State) : exec .listenGuardClear s = .next (whenReleased (takeWork .listenGuard) s) := rfl

theorem exec_inFlightAgeing (s : State) : exec .inFlightAgeing s = .next (whenReleased (takeWork .inFlightAgeing) s) := rfl

theorem doWork_listenGuard (F : Frame) (s : State) : doWork F .listenGuard s = { s with ring.guard := false } := rfl

theorem doWork_inFlightAgeing (F : Frame) (s : State) : doWork F .inFlightAgeing s = ageInFlight F s := rfl

theorem guard_writes (s : State) (g : Bool) : Writes [.guard] s { s with ring.guard := g } := by
  intro f hf
  cases f with
  | guard => exact absurd List.mem_cons_self hf
  | _ => rfl

/-! ## The two rows -/

/-- LISTEN_GUARD_CLEAR with its piece due clears the guard (R40). -/
theorem listenGuardClear_answers {s : State} (h0 : s.inReset = false) (hw : FrameWork.listenGuard ∈ s.startWork.due) :
    Answers .listenGuardClear s fun t => t.ring.guard = false ∧ Writes [.guard, .startWork] s t := by
  apply answers_takeWork (exec_listenGuardClear s) h0 hw
  rw [doWork_listenGuard]
  exact ⟨rfl, (settleWork_writes _ s).comp (guard_writes _ false)⟩

/-- IN_FLIGHT_AGEING with its piece due keeps the entries that the age test of R33 does not meet at the frame start's number (R49). -/
theorem inFlightAgeing_answers {s : State} (h0 : s.inReset = false) (hw : FrameWork.inFlightAgeing ∈ s.startWork.due) :
    Answers .inFlightAgeing s fun t =>
      t.ring.inFlight = s.ring.inFlight.filter (fun e => !aged 4 e.frame s.startWork.frame)
        ∧ Writes [.inFlight, .startWork] s t := by
  apply answers_takeWork (exec_inFlightAgeing s) h0 hw
  rw [doWork_inFlightAgeing]
  exact ⟨by rw [ageInFlight_inFlight, settleWork_ring], (settleWork_writes _ s).comp (ageInFlight_writes _ _)⟩

/-- Settles O12, one row at a time; the statement's two bounds on the 16-bit difference are R33's age test with 4 frames. -/
theorem ringFrameStartWork : Obligations.RingFrameStartWork :=
  fun _ h0 => ⟨listenGuardClear_answers h0, inFlightAgeing_answers h0⟩

end Sys2Proof.Machine
end

