-- ==== Sys2Proof/Proofs/JoinDeadline.lean ====
section
/-! SUPPORT. Proofs/JoinDeadline.lean: what a row that takes the transition of the frame start answers, and JOINING's
join deadline (R62). -/

namespace Sys2Proof.Machine

/-! ## A row that takes the transition -/

/-- A row whose meaning is a transition of R79 answers, with that transition next and its turn, the transition made on the state in which
it is settled. -/
theorem answers_takeTransition {c : Instr} {turn : State → Bool} {f : State → State} {s : State} {P : State → Prop}
    (hc : exec c s = .next (whenReleased (takeTransition turn f) s)) (hn : TransitionNext s) (ht : turn s = true)
    (hP : P (f (settleWork .transition s))) : Answers c s P := by
  obtain ⟨h0, hdue, haged⟩ := hn
  exact ⟨_, by rw [hc, whenReleased_of h0, takeTransition_of hdue haged ht], hP⟩

theorem exec_joinDeadline (s : State) :
    exec .joinDeadline s = .next (whenReleased (takeTransition joinTurn (joinStep s.startWork.frame)) s) := rfl

theorem joinTurn_of {s : State} (h : s.member.state = .joining) : joinTurn s = true := by
  rw [joinTurn, decide_eq_true_iff]
  exact h

/-! ## The test of the deadline -/

/-- The deadline test of R33. -/
theorem reached_iff (D F : Frame) : reached D F = true ↔ (F - D).toNat < 32768 := by
  rw [reached, atOrBefore, decide_eq_true_iff]

/-- The deadline not reached changes nothing. -/
theorem joinStep_of_not_reached {F D : Frame} {s : State} (hD : s.member.joinDeadline = some D)
    (h : reached D F = false) : joinStep F s = s := by
  simp [joinStep, hD, h]

/-- The attempt number and the deadline that a retry sets (R62). -/
def setAttempt (n : Nat) (D : Frame) (s : State) : State :=
  { s with member.attempt := some n, member.joinDeadline := some D }

/-- The deadline reached before the third attempt: the next attempt with its deadline, and its JOIN queued. -/
theorem joinStep_of_retry {F D : Frame} {n : Nat} {s : State} (hD : s.member.joinDeadline = some D)
    (ha : s.member.attempt = some n) (h : reached D F = true) (hn : n < 3) :
    joinStep F s = queueBody 0 (joinBody s (n + 1)) (setAttempt (n + 1) (now s + 2) s) := by
  simp [joinStep, setAttempt, hD, ha, h, hn]

/-- The deadline reached at the third attempt: ISOLATED with NO_RETURN. -/
theorem joinStep_of_last {F D : Frame} {n : Nat} {s : State} (hD : s.member.joinDeadline = some D)
    (ha : s.member.attempt = some n) (h : reached D F = true) (hn : 3 ≤ n) :
    joinStep F s = enterIsolated .noReturn s := by
  simp [joinStep, hD, ha, h, Nat.not_lt.mpr hn]

/-! ## What the row's three outcomes leave -/

theorem setAttempt_writes (n : Nat) (D : Frame) (s : State) : Writes [.attempt, .joinDeadline] s (setAttempt n D s) := by
  intro f hf
  cases f with
  | attempt | joinDeadline => exact absurd hf (by decide)
  | _ => rfl

/-- A body queued after a retry's attempt and deadline are set leaves those two as they were set; the queue and the frame are those of
the state before. -/
theorem queueBody_setAttempt {b : Body} (n : Nat) (D : Frame) (s : State) (hb : isBeacon (ownParcel s 0 b) = false) :
    (queueBody 0 b (setAttempt n D s)).member.attempt = some n
      ∧ (queueBody 0 b (setAttempt n D s)).member.joinDeadline = some D
      ∧ Queued s (queueBody 0 b (setAttempt n D s)) 0 b
      ∧ Writes [.attempt, .joinDeadline, .transmit] s (queueBody 0 b (setAttempt n D s)) := by
  have hq : Writes [.transmit] (setAttempt n D s) (queueBody 0 b (setAttempt n D s)) := queueBody_writes 0 b _
  exact ⟨hq.at .attempt, hq.at .joinDeadline, queued_queueBody (setAttempt n D s) hb, (setAttempt_writes n D s).comp hq⟩

/-- Settles O16: the three outcomes of the deadline test, each on the state in which the transition is settled. -/
theorem joinDeadlineActs : Obligations.JoinDeadlineActs := by
  intro s D n hnext hstate hD ha
  have hset : Writes [.startWork] s (settleWork .transition s) := settleWork_writes .transition s
  rw [← settleWork_member .transition s] at hD ha
  apply answers_takeTransition (exec_joinDeadline s) hnext (joinTurn_of hstate)
  rw [← reached_iff, Bool.not_eq_true]
  refine ⟨fun hF => ?early, fun hF hn => ?retry, fun hF hn => ?last⟩
  case early =>
    rw [joinStep_of_not_reached hD hF]
    exact hset
  case retry =>
    rw [joinStep_of_retry hD ha hF hn]
    obtain ⟨hattempt, hdeadline, hqueued, hwrites⟩ :=
      queueBody_setAttempt (b := joinBody s (n + 1)) (n + 1) (now s + 2) (settleWork .transition s) rfl
    exact ⟨hattempt, hdeadline, hqueued, hset.comp hwrites⟩
  case last =>
    rw [joinStep_of_last hD ha hF hn]
    obtain ⟨hisolated, hraised, hwrites⟩ := isolated_enterIsolated .noReturn (settleWork .transition s)
    exact ⟨hisolated, hraised, hset.comp hwrites⟩

end Sys2Proof.Machine
end

