-- ==== Sys2Proof/Proofs/OriginRows.lean ====
section
/-! SUPPORT. Proofs/OriginRows.lean: what a row of the Origin Engine's deadlines answers (R105), the origin list under its own
operations, and what queuing a parcel and replacing the store leave. -/

namespace Sys2Proof.Machine

/-! ## A row of the Origin Engine -/

/-- The Origin Engine's queue of records not yet tested, shortened. -/
def untested (rest : List Seq) (s : State) : State := { s with startWork.origin := rest }

theorem untested_writes (rest : List Seq) (s : State) : Writes [.startWork] s (untested rest s) := startWork_writes s _

/-- A row in whose phase the next record is acts on that record, which leaves the queue with those before it (R105; log entry 7). -/
theorem answers_takeOrigin {c : Instr} {mine : Phase → Bool} {s : State} {q : Seq} {r : OriginRecord} {P : State → Prop}
    (hc : exec c s = .next (whenReleased (takeOrigin mine) s)) (hn : OriginNext s q r) (hm : mine r.phase = true)
    (hP : ∀ rest, P (originDue r (untested rest s))) : Answers c s P := by
  obtain ⟨h0, hdue, ⟨before, rest, hqueue, hbefore⟩, hfind, hreached⟩ := hn
  have hnext : nextOrigin s.startWork.frame s s.startWork.origin = some (r, rest) := by
    rw [hqueue]
    exact nextOrigin_of_reached hfind hreached before hbefore
  have htake : takeOrigin mine s = originDue r (untested rest s) := by
    simp [takeOrigin, hdue, hnext, hm, untested]
  exact ⟨_, by rw [hc, whenReleased_of h0, htake], hP rest⟩

/-- The next record is the one found under its seq. -/
theorem OriginNext.found {s : State} {q : Seq} {r : OriginRecord} (h : OriginNext s q r) : findOrigin q s = some r := by
  obtain ⟨_, _, _, hfind, _⟩ := h
  exact hfind

/-! ## The origin list under its operations -/

/-- Nothing that leaves the origin list as it was changes what is found in it. -/
theorem findOrigin_of_writes {fs : List Field} {s t : State} (w : Writes fs s t) (x : Seq)
    (hf : fs.contains .originList = false := by decide) : findOrigin x t = findOrigin x s := by
  have hlist : t.origin.list = s.origin.list := w.at .originList hf
  simp only [findOrigin, hlist]

/-- The record changed is found under the seq that the change gives it, where that is its own or no other record's. -/
theorem findOrigin_setOrigin {q x : Seq} {f : OriginRecord → OriginRecord} {s : State} {r : OriginRecord}
    (hf : ∀ y, y.seq = q → (f y).seq = x) (hx : x = q ∨ findOrigin x s = none) (h : findOrigin q s = some r) :
    findOrigin x (setOrigin q f s) = some (f r) := by
  have hseq : r.seq = q := (findOrigin_seq h).1
  have hsame : s.origin.list.find? ((fun y => y.seq == x) ∘ fun y => if y.seq = q then f y else y)
      = s.origin.list.find? (fun y => y.seq == q) := by
    refine List.find?_congr fun y hy => ?_
    by_cases hyq : y.seq = q
    · simp [hyq, hf y hyq]
    · have hyx : y.seq ≠ x := by
        rcases hx with rfl | hnone
        · exact hyq
        · simpa using List.find?_eq_none.mp hnone y hy
      simp [hyq, hyx]
  unfold findOrigin at h
  rw [findOrigin, setOrigin_list, List.find?_map, hsame, h, Option.map_some, if_pos hseq]

/-- Once every record of a seq has another, none has it. -/
theorem findOrigin_setOrigin_old {q : Seq} {f : OriginRecord → OriginRecord} (s : State) (hf : ∀ y, y.seq = q → (f y).seq ≠ q) :
    findOrigin q (setOrigin q f s) = none := by
  rw [findOrigin, setOrigin_list, List.find?_eq_none]
  intro y hy
  obtain ⟨z, _, rfl⟩ := List.mem_map.mp hy
  split
  · rename_i hz
    simpa using hf z hz
  · rename_i hz
    simpa using hz

/-! ## What queuing a parcel leaves -/

@[simp] theorem now_queueBody (n : StationNo) (b : Body) (s : State) : now (queueBody n b s) = now s :=
  (queueBody_writes n b s).at .frame

@[simp] theorem own_queueBody (n : StationNo) (b : Body) (s : State) : own (queueBody n b s) = own s :=
  congrArg Straps.station ((queueBody_writes n b s).at .straps)

@[simp] theorem queueBody_store (n : StationNo) (b : Body) (s : State) : (queueBody n b s).store = s.store :=
  (queueBody_writes n b s).at .store

@[simp] theorem queueBody_report (n : StationNo) (b : Body) (s : State) : (queueBody n b s).report = s.report :=
  (queueBody_writes n b s).report_eq

/-! ## The store replaced -/

/-- The state with another Proposal Store. -/
def withStore (st : List Proposal) (s : State) : State := { s with store := st }

theorem withStore_writes (st : List Proposal) (s : State) : Writes [.store] s (withStore st s) := store_writes s st

/-- A parcel queued and the store changed leave the Report Unit, the origin list and all else as they were. -/
theorem withStore_queueBody_writes (st : List Proposal) (n : StationNo) (b : Body) (s : State) :
    Writes [.store, .transmit] s (withStore st (queueBody n b s)) := (queueBody_writes n b s).comp (withStore_writes st _)

end Sys2Proof.Machine
end

