-- ==== Sys2Proof/Proofs/OriginDeadlines.lean ====
section
/-! SUPPORT. Proofs/OriginDeadlines.lean: the deadlines of a PROPOSING record (R100) and of a COMMITTING one (R104). -/

namespace Sys2Proof.Machine

/-! ## The attempt that follows -/

/-- The record with its next attempt begun at frame F. -/
def retried (F : Frame) (r : OriginRecord) : OriginRecord := { r with attempt := r.attempt + 1, deadline := F + 2 }

/-- The next attempt begun on the record of seq q is found there, and every other record stands. -/
theorem findOrigin_retried {q : Seq} {F : Frame} {s : State} {r : OriginRecord} (h : findOrigin q s = some r) :
    findOrigin q (setOrigin q (retried F) s) = some (retried F r)
      ∧ ∀ x, x ≠ q → findOrigin x (setOrigin q (retried F) s) = findOrigin x s :=
  ⟨findOrigin_setOrigin (fun _ hy => hy) (Or.inl rfl) h,
    fun _ hx => findOrigin_setOrigin_ne s (fun _ hy => hy ▸ Ne.symm hx) hx⟩

/-! ## A record that leaves with its report -/

/-- A record that leaves the list with its final report: it is gone, the others stand, the report is handed over (R91). -/
theorem dropOrigin_of_report (q : Seq) (m : Report) (s : State) :
    findOrigin q (dropOrigin q (report m s)) = none
      ∧ Reported s (dropOrigin q (report m s)) m
      ∧ (∀ x, x ≠ q → findOrigin x (dropOrigin q (report m s)) = findOrigin x s)
      ∧ Writes (Field.ofReport ++ [.originList]) s (dropOrigin q (report m s)) :=
  ⟨findOrigin_dropOrigin q _, rfl,
    fun x hx => (findOrigin_dropOrigin_ne _ hx).trans (findOrigin_of_writes (report_writes m s) x),
    (report_writes m s).comp (dropOrigin_writes q _)⟩

/-! ## COMMIT_DEADLINE (R104) -/

theorem exec_commitDeadline (s : State) : exec .commitDeadline s = .next (whenReleased (takeOrigin isCommitting) s) := rfl

theorem committingDue_of_retry {r : OriginRecord} (F : Frame) {s : State} (h : r.attempt < 3) :
    committingDue r F s = setOrigin r.seq (retried (now s)) (queueBody 0 (.commit r.seq F) s) := by
  rw [committingDue, if_pos h, ← now_queueBody 0 (.commit r.seq F) s]
  rfl

theorem committingDue_of_last {r : OriginRecord} (F : Frame) {s : State} (h : 3 ≤ r.attempt) :
    committingDue r F s = dropOrigin r.seq (report (.updateUnconfirmed r.seq F) s) := by
  simp [committingDue, Nat.not_lt.mpr h]

theorem originDue_committing {r : OriginRecord} {F : Frame} {n : Byte} (s : State) (h : r.phase = .committing F n) :
    originDue r s = committingDue r F s := by
  simp [originDue, h]

/-- Attempts 1 and 2: the same COMMIT again. -/
theorem committingDue_retry {q : Seq} {r : OriginRecord} (F : Frame) {s : State} (hq : findOrigin q s = some r) (h : r.attempt < 3) :
    findOrigin q (committingDue r F s) = some (retried (now s) r)
      ∧ Queued s (committingDue r F s) 0 (.commit q F)
      ∧ (∀ x, x ≠ q → findOrigin x (committingDue r F s) = findOrigin x s)
      ∧ Writes [.originList, .transmit] s (committingDue r F s) := by
  have hseq : r.seq = q := (findOrigin_seq hq).1
  have hw := queueBody_writes 0 (.commit q F) s
  obtain ⟨hfound, hothers⟩ := findOrigin_retried (F := now s) ((findOrigin_of_writes hw q).trans hq)
  rw [committingDue_of_retry F h, hseq]
  exact ⟨hfound, queued_queueBody s rfl, fun x hx => (hothers x hx).trans (findOrigin_of_writes hw x),
    hw.comp (setOrigin_writes q _ _)⟩

/-- Settles O24: the two outcomes of the deadline, on the state in which the record has been taken from those not yet tested. -/
theorem commitDeadlineActs : Obligations.CommitDeadlineActs := by
  intro s q r F n hnext hphase
  apply answers_takeOrigin (exec_commitDeadline s) hnext (by rw [hphase]; rfl)
  intro rest
  have hset := untested_writes rest s
  have hq : findOrigin q (untested rest s) = some r := hnext.found
  rw [originDue_committing _ hphase]
  rcases Nat.lt_or_ge r.attempt 3 with hlt | hge
  case inl =>
    obtain ⟨hfound, hqueued, hothers, hwrites⟩ := committingDue_retry F hq hlt
    exact ⟨hothers, fun _ => ⟨hfound, hqueued, hset.comp hwrites⟩, fun h => absurd hlt (Nat.not_lt.mpr h)⟩
  case inr =>
    obtain ⟨hgone, hreported, hothers, hwrites⟩ := dropOrigin_of_report q (.updateUnconfirmed q F) (untested rest s)
    rw [committingDue_of_last F hge, (findOrigin_seq hq).1]
    exact ⟨hothers, fun h => absurd h (Nat.not_lt.mpr hge), fun _ => ⟨hgone, hreported, hset.comp hwrites⟩⟩

/-! ## PROPOSE_DEADLINE (R100) -/

theorem exec_proposeDeadline (s : State) : exec .proposeDeadline s = .next (whenReleased (takeOrigin isProposing) s) := rfl

theorem originDue_proposing {r : OriginRecord} (s : State) (h : r.phase = .proposing) : originDue r s = proposingDue r s := by
  simp [originDue, h]

theorem proposingDue_of_retry {r : OriginRecord} {s : State} (h : r.attempt < 3) (hh : hasHeld (own s) r.seq s.store = true) :
    proposingDue r s = setOrigin r.seq (retried (now s))
      (withStore (setHeld (own s) r.seq (.held (now s)) s.store) (queueBody 0 (proposeBody r.seq r.edits) s)) := by
  rw [proposingDue, if_pos ⟨h, hh⟩, ← now_queueBody 0 (proposeBody r.seq r.edits) s,
    ← own_queueBody 0 (proposeBody r.seq r.edits) s, ← queueBody_store 0 (proposeBody r.seq r.edits) s]
  rfl

theorem proposingDue_of_last {r : OriginRecord} {s : State} (h : ¬ (r.attempt < 3 ∧ hasHeld (own s) r.seq s.store = true)) :
    proposingDue r s = abandon r.seq s := if_neg h

theorem abandon_eq (q : Seq) (s : State) : abandon q s = dropOrigin q (report (.updateRejected .ring (some q))
    (withStore (removeHeld (own s) q s.store) (queueBody 0 (.withdraw q) s))) := by
  rw [← own_queueBody 0 (.withdraw q) s, ← queueBody_store 0 (.withdraw q) s]
  rfl

/-- Attempts 1 and 2 with the own record HELD: the same PROPOSE again, the own record refreshed. -/
theorem proposingDue_retry {q : Seq} {r : OriginRecord} {s : State} (hq : findOrigin q s = some r) (h : r.attempt < 3)
    (hh : hasHeld (own s) q s.store = true) :
    findOrigin q (proposingDue r s) = some (retried (now s) r)
      ∧ (proposingDue r s).store = setHeld (own s) q (.held (now s)) s.store
      ∧ Queued s (proposingDue r s) 0 (proposeBody q r.edits)
      ∧ (∀ x, x ≠ q → findOrigin x (proposingDue r s) = findOrigin x s)
      ∧ Writes [.originList, .store, .transmit] s (proposingDue r s) := by
  have hseq : r.seq = q := (findOrigin_seq hq).1
  have hw := withStore_queueBody_writes (setHeld (own s) q (.held (now s)) s.store) 0 (proposeBody q r.edits) s
  obtain ⟨hfound, hothers⟩ := findOrigin_retried (F := now s) ((findOrigin_of_writes hw q).trans hq)
  rw [proposingDue_of_retry h (hseq ▸ hh), hseq]
  exact ⟨hfound, rfl, queued_queueBody s rfl, fun x hx => (hothers x hx).trans (findOrigin_of_writes hw x),
    hw.comp (setOrigin_writes q _ _)⟩

/-- An update abandoned (R100). -/
theorem abandon_spec (q : Seq) (s : State) :
    findOrigin q (abandon q s) = none
      ∧ (abandon q s).store = removeHeld (own s) q s.store
      ∧ Queued s (abandon q s) 0 (.withdraw q)
      ∧ Reported s (abandon q s) (.updateRejected .ring (some q))
      ∧ (∀ x, x ≠ q → findOrigin x (abandon q s) = findOrigin x s)
      ∧ Writes (Field.ofReport ++ [.originList, .store, .transmit]) s (abandon q s) := by
  have hw := withStore_queueBody_writes (removeHeld (own s) q s.store) 0 (.withdraw q) s
  obtain ⟨hgone, hreported, hothers, hwrites⟩ := dropOrigin_of_report q (.updateRejected .ring (some q))
    (withStore (removeHeld (own s) q s.store) (queueBody 0 (.withdraw q) s))
  rw [abandon_eq]
  refine ⟨hgone, rfl, queued_queueBody s rfl, ?reported, fun x hx => (hothers x hx).trans (findOrigin_of_writes hw x),
    hw.comp hwrites⟩
  case reported =>
    rw [Reported, ← now_queueBody 0 (.withdraw q) s, ← queueBody_report 0 (.withdraw q) s]
    exact hreported

/-- Settles O22: the two outcomes of the deadline, on the state in which the record has been taken from those not yet tested. -/
theorem proposeDeadlineActs : Obligations.ProposeDeadlineActs := by
  intro s q r hnext hphase
  apply answers_takeOrigin (exec_proposeDeadline s) hnext (by rw [hphase]; rfl)
  intro rest
  have hset := untested_writes rest s
  have hq : findOrigin q (untested rest s) = some r := hnext.found
  rw [originDue_proposing _ hphase]
  refine ⟨fun hlt hheld => ?retry, fun hlast => ?last⟩
  case retry =>
    obtain ⟨hfound, hstore, hqueued, hothers, hwrites⟩ := proposingDue_retry hq hlt hheld
    exact ⟨hfound, hstore, hqueued, hothers, hset.comp hwrites⟩
  case last =>
    obtain ⟨hgone, hstore, hqueued, hreported, hothers, hwrites⟩ := abandon_spec q (untested rest s)
    have hseq : r.seq = q := (findOrigin_seq hq).1
    rw [proposingDue_of_last (hseq ▸ hlast), hseq]
    exact ⟨hgone, hstore, hqueued, hreported, hothers, hset.comp hwrites⟩

end Sys2Proof.Machine
end

