-- ==== Sys2Proof/Proofs/StoreEntry.lean ====
section
/-! SUPPORT. Proofs/StoreEntry.lean: how a HELD record enters the Proposal Store, and which retained record gives way to it in a full
store (R112; log entry 14). -/

namespace Sys2Proof.Machine

/-! ## The order of sequences and of the apply set -/

/-- Of two different sequences one is taken before the other, by the test of `seqBefore` (R6). -/
theorem seqBefore_iff (a b : Seq) : seqBefore a b = true ↔
    (1 ≤ (b - a).toNat ∧ (b - a).toNat ≤ 127) ∨ ((b - a).toNat = 128 ∧ a.toNat < b.toNat) := by
  have hhalf : (a - b).toNat = 128 ↔ (b - a).toNat = 128 := by bv_omega
  simp only [seqBefore, seqLater, Bool.or_eq_true, Bool.and_eq_true, decide_eq_true_iff, hhalf]

theorem seqBefore_of_not {a b : Seq} (hne : a ≠ b) (h : seqBefore a b = false) : seqBefore b a = true := by
  rw [seqBefore_iff]
  have hn := mt (seqBefore_iff a b).mpr (by simp [h])
  bv_omega

/-- The test of the apply set's order on two records of one effective frame (R12). -/
theorem dueBefore_of_effective_eq {a b : DueRecord} (h : a.effective = b.effective) :
    dueBefore a b = true ↔ a.origin.toNat < b.origin.toNat ∨ (a.origin = b.origin ∧ seqBefore a.seq b.seq = true) := by
  simp [dueBefore, h]

/-- Records of one effective frame and origin are taken in the order of their sequences (R6, R12). -/
theorem takenBefore_of_seqBefore {a b : DueRecord} (he : a.effective = b.effective) (ho : a.origin = b.origin)
    (hq : seqBefore a.seq b.seq = true) : TakenBefore a b :=
  Or.inr (Or.inr ⟨he, ho, (seqBefore_iff _ _).mp hq⟩)

/-! ## Which retained record gives way -/

/-- Among the records of effective frame e the order of R12 is one. -/
def OrderedAt (e : Frame) (ds : List DueRecord) : Prop :=
  ∀ a ∈ ds, ∀ b ∈ ds, ∀ c ∈ ds, a.effective = e → b.effective = e → c.effective = e →
    TakenBefore a b → TakenBefore b c → TakenBefore a c

/-- Of the retained records ds, a gives way before b: the older, and of one effective frame the one that the apply set takes first, where
sequences do not run in a circle (R112; log entry 14). -/
def GivesWay (cur : Frame) (ds : List DueRecord) (a b : DueRecord) : Prop :=
  (cur - b.effective).toNat < (cur - a.effective).toNat
    ∨ (b.effective = a.effective ∧ (a.origin.toNat < b.origin.toNat
        ∨ (a.origin = b.origin ∧ (OrderedAt a.effective ds → TakenBefore a b))))

/-- Two records of equal age have one effective frame. -/
theorem effective_eq_of_age {cur : Frame} {a b : DueRecord} (h : (cur - a.effective).toNat = (cur - b.effective).toNat) :
    a.effective = b.effective := by
  bv_omega

theorem givesWay_of_evictedBefore {cur : Frame} {ds : List DueRecord} {a b : DueRecord} (h : evictedBefore cur a b = true) :
    GivesWay cur ds a b := by
  unfold evictedBefore at h
  split at h
  case isTrue hage =>
    have he := effective_eq_of_age hage
    rcases (dueBefore_of_effective_eq he).mp h with hlt | ⟨ho, hq⟩
    · exact Or.inr ⟨he.symm, Or.inl hlt⟩
    · exact Or.inr ⟨he.symm, Or.inr ⟨ho, fun _ => takenBefore_of_seqBefore he ho hq⟩⟩
  case isFalse => exact Or.inl (of_decide_eq_true h)

theorem givesWay_of_not_evictedBefore {cur : Frame} {ds : List DueRecord} {a b : DueRecord}
    (hne : (a.origin, a.seq) ≠ (b.origin, b.seq)) (h : evictedBefore cur a b = false) : GivesWay cur ds b a := by
  unfold evictedBefore at h
  split at h
  case isTrue hage =>
    have he := effective_eq_of_age hage
    have hn := mt (dueBefore_of_effective_eq he).mpr (by simp [h])
    rcases Nat.lt_trichotomy a.origin.toNat b.origin.toNat with hlt | heq | hgt
    · exact absurd (Or.inl hlt) hn
    · have ho : a.origin = b.origin := BitVec.eq_of_toNat_eq heq
      have hq : seqBefore a.seq b.seq = false := by simpa using fun hq => hn (Or.inr ⟨ho, hq⟩)
      have hseq : a.seq ≠ b.seq := fun hs => hne (by rw [ho, hs])
      exact Or.inr ⟨he, Or.inr ⟨ho.symm, fun _ => takenBefore_of_seqBefore he.symm ho.symm (seqBefore_of_not hseq hq)⟩⟩
    · exact Or.inr ⟨he, Or.inl hgt⟩
  case isFalse hage => exact Or.inl (by have := of_decide_eq_false h; omega)

theorem givesWay_trans {cur : Frame} {ds : List DueRecord} {a b c : DueRecord} (ha : a ∈ ds) (hb : b ∈ ds) (hc : c ∈ ds)
    (hab : GivesWay cur ds a b) (hbc : GivesWay cur ds b c) : GivesWay cur ds a c := by
  rcases hab with hab | ⟨heab, hab⟩
  · rcases hbc with hbc | ⟨hebc, _⟩
    · exact Or.inl (hbc.trans hab)
    · exact Or.inl (hebc ▸ hab)
  · rcases hbc with hbc | ⟨hebc, hbc⟩
    · exact Or.inl (heab ▸ hbc)
    · refine Or.inr ⟨hebc.trans heab, ?_⟩
      rcases hab with hab | ⟨hoab, hab⟩
      · rcases hbc with hbc | ⟨hobc, _⟩
        · exact Or.inl (hab.trans hbc)
        · exact Or.inl (hobc ▸ hab)
      · rcases hbc with hbc | ⟨hobc, hbc⟩
        · exact Or.inl (hoab ▸ hbc)
        · exact Or.inr ⟨hoab.trans hobc, fun h =>
            h a ha b hb c hc rfl heab (hebc.trans heab) (hab h) (hbc (heab ▸ h))⟩

/-! ## The retained records of a store -/

theorem mem_retainedDue {st : List Proposal} {d : DueRecord} :
    d ∈ retainedDue st ↔ ∃ p ∈ st, ∃ e, p.state = .applied e ∧ d = dueOf e p := by
  unfold retainedDue
  rw [List.mem_filterMap]
  refine exists_congr fun p => and_congr_right fun _ => ?_
  cases p.state <;> simp [eq_comm]

/-- The store's records have different keys, and so have its retained ones as the Table Store takes them. -/
theorem retainedDue_pairwise {st : List Proposal} (h : (st.map (fun p => (p.origin, p.seq))).Nodup) :
    (retainedDue st).Pairwise (fun a b => (a.origin, a.seq) ≠ (b.origin, b.seq)) := by
  refine List.Pairwise.filterMap _ (fun p p' hne d hd d' hd' => ?_) (List.pairwise_map.mp h)
  split at hd <;> simp only [Option.some.injEq, reduceCtorEq] at hd
  split at hd' <;> simp only [Option.some.injEq, reduceCtorEq] at hd'
  subst hd hd'
  exact hne

/-- A store with fewer open records than records has a retained one (R111). -/
theorem exists_retained {st : List Proposal} (h : openCount st < st.length) : retainedDue st ≠ [] := by
  obtain ⟨p, hp, hopen⟩ := List.countP_lt_length_iff.mp h
  cases hstate : p.state with
  | applied e => exact List.ne_nil_of_mem (mem_retainedDue.mpr ⟨p, hp, e, hstate, rfl⟩)
  | held _ | scheduled _ => simp [isOpen, isRetained, hstate] at hopen

/-- Where keys differ, the record of a member's key is that member. -/
theorem isRecord_iff_eq {st : List Proposal} (h : (st.map (fun p => (p.origin, p.seq))).Nodup) {g x : Proposal} (hg : g ∈ st)
    (hx : x ∈ st) : isRecord g.origin g.seq x = true ↔ x = g := by
  have hinj : (x.origin, x.seq) = (g.origin, g.seq) → x = g := fun he => List.inj_on_of_nodup_map h hx hg he
  constructor
  · intro hr
    exact hinj (by simpa [isRecord] using hr)
  · rintro rfl
    simp [isRecord]

/-- What eviction removes: one retained record, which gives way before every other (R112). -/
theorem evictOldest_spec (cur : Frame) {st : List Proposal} (h : (st.map (fun p => (p.origin, p.seq))).Nodup)
    (hr : retainedDue st ≠ []) :
    ∃ g ∈ st, ∃ e, g.state = .applied e ∧ evictOldest cur st = st.filter (fun x => decide (x ≠ g))
      ∧ ∀ x ∈ st, x ≠ g → ∀ f, x.state = .applied f → GivesWay cur (retainedDue st) (dueOf e g) (dueOf f x) := by
  have hsorted : (sortBy (evictedBefore cur) (retainedDue st)).Pairwise (GivesWay cur (retainedDue st)) :=
    sortBy_sorted (retainedDue_pairwise h) (fun _ _ _ _ _ => givesWay_of_evictedBefore)
      (fun _ _ _ _ => givesWay_of_not_evictedBefore) (fun _ ha _ hb _ hc => givesWay_trans ha hb hc)
  cases hs : sortBy (evictedBefore cur) (retainedDue st) with
  | nil => exact absurd (List.Perm.nil_eq (hs ▸ sortBy_perm _ _)).symm hr
  | cons d ds =>
    have hd : d ∈ retainedDue st := mem_sortBy.mp (hs ▸ List.mem_cons_self)
    obtain ⟨g, hg, e, hstate, rfl⟩ := mem_retainedDue.mp hd
    refine ⟨g, hg, e, hstate, ?removed, fun x hx hne f hf => ?first⟩
    case removed =>
      rw [evictOldest, hs]
      refine List.filter_congr fun x hx => ?_
      have hkey : isRecord (dueOf e g).origin (dueOf e g).seq x = decide (x = g) :=
        Bool.eq_iff_iff.mpr ((isRecord_iff_eq h hg hx).trans decide_eq_true_iff.symm)
      rw [hkey, decide_not]
    case first =>
      have hmem : dueOf f x ∈ dueOf e g :: ds := hs ▸ mem_sortBy.mpr (mem_retainedDue.mpr ⟨x, hx, f, hf, rfl⟩)
      rcases List.mem_cons.mp hmem with heq | hmem
      · have hkey : isRecord g.origin g.seq x = true := by
          have hO : x.origin = g.origin := congrArg DueRecord.origin heq
          have hQ : x.seq = g.seq := congrArg DueRecord.seq heq
          simp [isRecord, hO, hQ]
        exact absurd ((isRecord_iff_eq h hg hx).mp hkey) hne
      · exact (List.pairwise_cons.mp (hs ▸ hsorted)).1 _ hmem

/-! ## The record entered -/

/-- A HELD record enters the store as R112 says, where not every place is an open record's. -/
theorem entered_insertHeld (cur : Frame) (o : StationNo) (q : Seq) (es : List Edit) {st : List Proposal}
    (h : (st.map (fun p => (p.origin, p.seq))).Nodup) (hopen : openCount st < 12) :
    Entered cur st (insertHeld cur o q es st) { origin := o, seq := q, edits := es, state := .held cur } := by
  refine ⟨fun hlt => by rw [insertHeld, if_pos hlt], fun hfull => ?full⟩
  obtain ⟨g, hg, e, hstate, hremoved, hfirst⟩ := evictOldest_spec cur h (exists_retained (Nat.lt_of_lt_of_le hopen hfull))
  exact ⟨g, hg, e, hstate, by rw [insertHeld, if_neg (Nat.not_lt.mpr hfull), hremoved], hfirst⟩

/-- Eviction leaves no record that was not in the store. -/
theorem mem_evictOldest {cur : Frame} {st : List Proposal} {p : Proposal} (h : p ∈ evictOldest cur st) : p ∈ st := by
  unfold evictOldest at h
  split at h
  · exact List.mem_of_mem_filter h
  · exact h

/-- A record entered under a key that the store does not have is the one found under it. -/
theorem findRecord_insertHeld (cur : Frame) {o : StationNo} {q : Seq} (es : List Edit) {st : List Proposal}
    (hnew : ∀ p ∈ st, p.origin = o → p.seq ≠ q) :
    findRecord o q (insertHeld cur o q es st) = some { origin := o, seq := q, edits := es, state := .held cur } := by
  have hnone : (if st.length < Config.storePlaces then st else evictOldest cur st).find? (isRecord o q) = none := by
    refine List.find?_eq_none.mpr fun p hp => ?_
    have hmem : p ∈ st := by
      split at hp
      · exact hp
      · exact mem_evictOldest hp
    simpa [isRecord] using hnew p hmem
  rw [findRecord, insertHeld, List.find?_append, hnone]
  simp [isRecord]

end Sys2Proof.Machine
end

