-- ==== Sys2Proof/Proofs/WithdrawnDeadline.lean ====
section
/-! SUPPORT. Proofs/WithdrawnDeadline.lean: what a round begins with (R92, R94, R101), and the deadline of a WITHDRAWN record (R101,
R102). -/

namespace Sys2Proof.Machine

/-! ## What a round begins with -/

theorem canTake_iff (st : List Proposal) : canTake st = true ↔ openCount st < 12 := by
  rw [canTake, decide_eq_true_iff]

theorem usedSeqs_eq_takenSeqs (s : State) : usedSeqs s.origin.nextSeq s = takenSeqs s := by
  simp only [usedSeqs, takenSeqs, beq_eq_decide]

/-- The values next-seq passes are few: its own, four of the origin list and twelve of the store at most (R91, R92, R110). -/
theorem takenSeqs_length_lt {s : State} (h : UpdatesOk s) : (takenSeqs s).length < 256 := by
  have hlist : s.origin.list.length ≤ 4 := h.originPlaces
  have hstore : s.store.length ≤ 12 := h.storePlaces
  have hown := s.store.length_filter_le (fun p => decide (p.origin = own s))
  simp only [takenSeqs, List.length_append, List.length_cons, List.length_map]
  omega

/-- next-seq advances to the first value after it that is not taken (R92). -/
theorem nextFree_takeSeq {s : State} (h : UpdatesOk s) :
    NextFree (takenSeqs s) s.origin.nextSeq (takeSeq s).2.origin.nextSeq := by
  rw [takeSeq, usedSeqs_eq_takenSeqs]
  exact nextFree_after (takenSeqs_length_lt h) _

/-- A round of these edits begun: next-seq taken, the own record HELD under it, the PROPOSE queued (R94, R101). -/
def startRound (es : List Edit) (s : State) : State :=
  queueBody 0 (proposeBody s.origin.nextSeq es)
    (withStore (insertHeld (now s) (own s) s.origin.nextSeq es s.store) (takeSeq s).2)

theorem startRound_writes (es : List Edit) (s : State) : Writes [.nextSeq, .store, .transmit] s (startRound es s) :=
  (takeSeq_writes s).comp ((withStore_writes _ _).comp (hs := [.store, .transmit]) (queueBody_writes _ _ _))

@[simp] theorem now_startRound (es : List Edit) (s : State) : now (startRound es s) = now s := (startRound_writes es s).at .frame

@[simp] theorem startRound_report (es : List Edit) (s : State) : (startRound es s).report = s.report :=
  (startRound_writes es s).report_eq

theorem startRound_store (es : List Edit) (s : State) :
    (startRound es s).store = insertHeld (now s) (own s) s.origin.nextSeq es s.store := queueBody_store _ _ _

theorem startRound_nextSeq (es : List Edit) (s : State) : (startRound es s).origin.nextSeq = (takeSeq s).2.origin.nextSeq :=
  (queueBody_writes _ _ _).at .nextSeq

/-- The PROPOSE of the round takes its place in the transmit queue. -/
theorem queued_startRound (es : List Edit) (s : State) :
    Queued s (startRound es s) 0 (proposeBody s.origin.nextSeq es) :=
  queued_queueBody (withStore (insertHeld (now s) (own s) s.origin.nextSeq es s.store) (takeSeq s).2) rfl

/-! ## A new round (R101) -/

/-- The record with a new round begun at frame F under seq q. -/
def renewed (q : Seq) (F : Frame) (r : OriginRecord) : OriginRecord :=
  { r with seq := q, round := r.round + 1, phase := .proposing, attempt := 1, deadline := F + 2 }

/-- The report of a new round. -/
def roundReport (r : OriginRecord) (s : State) : Report :=
  .updateQueued s.origin.nextSeq r.edits.length r.partialLoad (r.round + 1) (some r.seq)

theorem newRound_eq (r : OriginRecord) (s : State) : newRound r s =
    setOrigin r.seq (renewed s.origin.nextSeq (now s)) (report (roundReport r s) (startRound r.edits s)) := by
  rw [← now_startRound r.edits s]
  rfl

/-- The record goes on under the new seq, no record keeps the old one, and every other stands. -/
theorem findOrigin_newRound {q : Seq} {r : OriginRecord} {s : State} (hq : findOrigin q s = some r)
    (hfree : s.origin.nextSeq ∉ s.origin.list.map (·.seq)) :
    findOrigin s.origin.nextSeq (newRound r s) = some (renewed s.origin.nextSeq (now s) r)
      ∧ findOrigin q (newRound r s) = none
      ∧ ∀ x, x ≠ q → x ≠ s.origin.nextSeq → findOrigin x (newRound r s) = findOrigin x s := by
  obtain ⟨hseq, hmem⟩ := findOrigin_seq hq
  have hne : s.origin.nextSeq ≠ q := fun he => hfree (he ▸ hseq ▸ List.mem_map_of_mem hmem)
  have hnone : findOrigin s.origin.nextSeq s = none :=
    List.find?_eq_none.mpr fun y hy => by
      simpa using fun he : y.seq = s.origin.nextSeq => hfree (he ▸ List.mem_map_of_mem hy)
  have hw : Writes (.nextSeq :: .store :: .transmit :: Field.ofReport) s (report (roundReport r s) (startRound r.edits s)) :=
    (startRound_writes r.edits s).comp (report_writes _ _)
  have hsame : ∀ x, findOrigin x (report (roundReport r s) (startRound r.edits s)) = findOrigin x s := findOrigin_of_writes hw
  rw [newRound_eq, hseq]
  exact ⟨findOrigin_setOrigin (fun _ _ => rfl) (Or.inr ((hsame _).trans hnone)) ((hsame q).trans hq),
    findOrigin_setOrigin_old _ (fun _ _ => hne),
    fun x hxq hxn => (findOrigin_setOrigin_ne _ (fun _ _ => Ne.symm hxn) hxq).trans (hsame x)⟩

theorem newRound_store (r : OriginRecord) (s : State) :
    (newRound r s).store = insertHeld (now s) (own s) s.origin.nextSeq r.edits s.store := by
  rw [newRound_eq]
  exact startRound_store r.edits s

theorem queued_newRound (r : OriginRecord) (s : State) :
    Queued s (newRound r s) 0 (proposeBody s.origin.nextSeq r.edits) := by
  rw [newRound_eq]
  exact queued_startRound r.edits s

theorem reported_newRound (r : OriginRecord) (s : State) : Reported s (newRound r s) (roundReport r s) := by
  rw [newRound_eq, Reported, ← now_startRound r.edits s, ← startRound_report r.edits s]
  rfl

theorem nextFree_newRound (r : OriginRecord) {s : State} (h : UpdatesOk s) :
    NextFree (takenSeqs s) s.origin.nextSeq (newRound r s).origin.nextSeq := by
  rw [newRound_eq, setOrigin_nextSeq, report_origin, startRound_nextSeq]
  exact nextFree_takeSeq h

/-! ## WITHDRAWN_DEADLINE (R101, R102) -/

theorem exec_withdrawnDeadline (s : State) : exec .withdrawnDeadline s = .next (whenReleased (takeOrigin isWithdrawn) s) := rfl

theorem originDue_withdrawn {r : OriginRecord} {w : Bool} (s : State) (h : r.phase = .withdrawn w) :
    originDue r s = withdrawnDue r s := by
  simp [originDue, h]

theorem withdrawnDue_of_newRound {r : OriginRecord} {s : State} (hr : r.round < 3) (hs : s.member.state = .inService)
    (ho : openCount s.store < 12) : withdrawnDue r s = newRound r s := by
  rw [withdrawnDue, if_neg (Nat.not_le.mpr hr), if_pos hs, if_pos ((canTake_iff _).mpr ho)]

theorem withdrawnDue_of_refused {r : OriginRecord} {s : State}
    (h : 3 ≤ r.round ∨ (s.member.state = .inService ∧ 12 ≤ openCount s.store)) :
    withdrawnDue r s = dropOrigin r.seq (report (.updateRejected .refused (some r.seq)) s) := by
  unfold withdrawnDue
  split
  case isTrue => rfl
  case isFalse hr =>
    obtain ⟨hs, ho⟩ := h.resolve_left hr
    rw [if_pos hs, if_neg (mt (canTake_iff _).mp (Nat.not_lt.mpr ho))]

/-- The record that waits for IN_SERVICE, its deadline reached for good (R102). -/
def waiting (r : OriginRecord) : OriginRecord := { r with phase := .withdrawn true }

theorem withdrawnDue_of_waiting {r : OriginRecord} {s : State} (hr : r.round < 3) (hs : s.member.state ≠ .inService) :
    withdrawnDue r s = setOrigin r.seq waiting s := by
  rw [withdrawnDue, if_neg (Nat.not_le.mpr hr), if_neg hs]
  rfl

/-- Settles O23: the three outcomes of the deadline, on the state in which the record has been taken from those not yet tested. -/
theorem withdrawnDeadlineActs : Obligations.WithdrawnDeadlineActs := by
  intro s q r w hnext hphase hok
  apply answers_takeOrigin (exec_withdrawnDeadline s) hnext (by rw [hphase]; rfl)
  intro rest
  have hset := untested_writes rest s
  have hq : findOrigin q (untested rest s) = some r := hnext.found
  have hseq : r.seq = q := (findOrigin_seq hq).1
  rw [originDue_withdrawn _ hphase]
  refine ⟨fun hr hs ho => ?newRound, fun hrefused => ?refused, fun hr hs => ?waits⟩
  case newRound =>
    rw [withdrawnDue_of_newRound (s := untested rest s) hr hs ho]
    obtain ⟨hfound, hold, hothers⟩ := findOrigin_newRound hq hok.nextFreeOrigin
    have hstore := newRound_store r (untested rest s)
    refine ⟨hfound, ?_, ?_, queued_newRound r (untested rest s), hseq ▸ reported_newRound r (untested rest s), hold,
      nextFree_newRound r (hok.of_writes hset), hothers, hset.comp (newRound_writes r _)⟩
    · rw [hstore]
      exact findRecord_insertHeld _ _ hok.nextFreeStore
    · rw [hstore]
      exact entered_insertHeld _ _ _ _ hok.storeKeys ho
  case refused =>
    rw [withdrawnDue_of_refused (s := untested rest s) hrefused, hseq]
    obtain ⟨hgone, hreported, hothers, hwrites⟩ := dropOrigin_of_report q (.updateRejected .refused (some q)) (untested rest s)
    exact ⟨hgone, hreported, hothers, hset.comp hwrites⟩
  case waits =>
    have hwaits : withdrawnDue r (untested rest s) = setOrigin q waiting (untested rest s) :=
      hseq ▸ withdrawnDue_of_waiting hr hs
    rw [hwaits]
    exact ⟨findOrigin_setOrigin (f := waiting) (fun _ hy => hy) (Or.inl rfl) hq,
      fun x hx => findOrigin_setOrigin_ne _ (fun _ hy => hy ▸ Ne.symm hx) hx, hset.comp (setOrigin_writes q waiting _)⟩

end Sys2Proof.Machine
end

