-- ==== Sys2Proof/Proofs/PacketTests.lean ====
section
/-! SUPPORT. Proofs/PacketTests.lean: the tests of R154 on each kind of packet, and the packets and loads that are turned away with one
report (R93, R154). -/

namespace Sys2Proof.Machine

/-! ## The packets as commands -/

theorem exec_tableLoad (start : Byte) (comps : List Byte) (s : State) :
    exec (.tableLoad start comps) s = .next (whenReleased (actPacket 1 (judgeBody 1 (start :: comps))) s) := rfl

theorem exec_paramSet (rs : List ParamRecord) (s : State) :
    exec (.paramSet rs) s = .next (whenReleased (actPacket 2 (judgeBody 2 (paramBody rs))) s) := rfl

theorem exec_readback (start : BitVec 16) (n : Byte) (s : State) :
    exec (.readback start n) s = .next (whenReleased (actPacket 3 (judgeBody 3 [hiByte start, loByte start, n])) s) := rfl

theorem exec_statusReq (flag : Byte) (s : State) :
    exec (.statusReq flag) s = .next (whenReleased (actPacket 4 (judgeBody 4 [flag])) s) := rfl

/-! ## TABLE_LOAD's tests (R155) -/

theorem judgeBody_tableLoad (start : Byte) (comps : List Byte) : judgeBody 1 (start :: comps) =
    if comps.length = 0 ∨ 96 < comps.length then .error .length
    else if comps.length < 3 then .error .empty
    else .ok (.load (tripletEdits start comps) (decide (comps.length % 3 ≠ 0))) := by
  have hlen : ((start :: comps).length < 2 ∨ 97 < (start :: comps).length) ↔ (comps.length = 0 ∨ 96 < comps.length) := by
    rw [List.length_cons]
    omega
  have hempty : (start :: comps).length < 4 ↔ comps.length < 3 := by
    rw [List.length_cons]
    omega
  simp only [judgeBody, hlen, hempty]
  rfl

theorem judgeBody_tableLoad_length (start : Byte) {comps : List Byte} (h : comps.length = 0 ∨ 96 < comps.length) :
    judgeBody 1 (start :: comps) = .error .length := by
  rw [judgeBody_tableLoad, if_pos h]

theorem judgeBody_tableLoad_empty (start : Byte) {comps : List Byte} (h1 : 1 ≤ comps.length) (h2 : comps.length ≤ 2) :
    judgeBody 1 (start :: comps) = .error .empty := by
  rw [judgeBody_tableLoad, if_neg (by omega), if_pos (by omega)]

theorem judgeBody_tableLoad_ok (start : Byte) {comps : List Byte} (h1 : 3 ≤ comps.length) (h2 : comps.length ≤ 96) :
    judgeBody 1 (start :: comps) = .ok (.load (tripletEdits start comps) (decide (comps.length % 3 ≠ 0))) := by
  rw [judgeBody_tableLoad, if_neg (by omega), if_neg (by omega)]

/-! ## PARAM_SET's tests (R156) -/

theorem paramBody_cons (r : ParamRecord) (rs : List ParamRecord) :
    paramBody (r :: rs) = r.control :: r.colour.red :: r.colour.green :: r.colour.blue :: paramBody rs := rfl

theorem paramBody_length : ∀ rs : List ParamRecord, (paramBody rs).length = 4 * rs.length
  | [] => rfl
  | r :: rs => by
    simp only [paramBody_cons, List.length_cons, paramBody_length rs]
    omega

/-- A PARAM_SET's body reads back as its records (R178). -/
theorem paramRecords_paramBody : ∀ rs : List ParamRecord, paramRecords (paramBody rs) = rs
  | [] => rfl
  | r :: rs => by rw [paramBody_cons, paramRecords, paramRecords_paramBody rs]

theorem judgeBody_paramSet (rs : List ParamRecord) : judgeBody 2 (paramBody rs) =
    if rs.length = 0 ∨ 4 < rs.length then .error .length
    else if ∀ r ∈ rs, r.control.toNat ≤ 3 then .ok (.load (controlEdits rs) false)
    else .error .length := by
  have hlen : ((paramBody rs).length < 4 ∨ 16 < (paramBody rs).length ∨ (paramBody rs).length % 4 ≠ 0)
      ↔ (rs.length = 0 ∨ 4 < rs.length) := by
    rw [paramBody_length]
    omega
  simp only [judgeBody, hlen, paramRecords_paramBody, List.all_eq_true, decide_eq_true_iff]
  rfl

theorem judgeBody_paramSet_length {rs : List ParamRecord}
    (h : rs.length = 0 ∨ 4 < rs.length ∨ ∃ x ∈ rs, 3 < x.control.toNat) : judgeBody 2 (paramBody rs) = .error .length := by
  rw [judgeBody_paramSet]
  split
  case isTrue => rfl
  case isFalse hlen =>
    obtain ⟨x, hx, hcontrol⟩ := (or_assoc.mpr h).resolve_left hlen
    exact if_neg fun hall => absurd (hall x hx) (Nat.not_le.mpr hcontrol)

theorem judgeBody_paramSet_ok {rs : List ParamRecord} (h1 : 1 ≤ rs.length) (h2 : rs.length ≤ 4)
    (h3 : ∀ r ∈ rs, r.control.toNat ≤ 3) : judgeBody 2 (paramBody rs) = .ok (.load (controlEdits rs) false) := by
  rw [judgeBody_paramSet, if_neg (by omega), if_pos h3]

/-! ## READBACK's and STATUS_REQ's tests (R158, R159) -/

theorem word16_bytes (w : BitVec 16) : word16 (hiByte w) (loByte w) = w :=
  (BitVec.extractLsb'_append_extractLsb'_eq_extractLsb' rfl).trans BitVec.extractLsb'_eq_self

theorem judgeBody_readback (start : BitVec 16) (n : Byte) : judgeBody 3 [hiByte start, loByte start, n] =
    if start.toNat < 260 ∧ 1 ≤ n.toNat ∧ n.toNat ≤ 16 then .ok (.readback { start := start.toNat, count := n.toNat })
    else .error .length := by
  simp only [judgeBody, word16_bytes]
  rfl

theorem judgeBody_readback_length {start : BitVec 16} {n : Byte} (h : 260 ≤ start.toNat ∨ n.toNat = 0 ∨ 16 < n.toNat) :
    judgeBody 3 [hiByte start, loByte start, n] = .error .length := by
  rw [judgeBody_readback, if_neg (by omega)]

theorem judgeBody_statusReq_length {flag : Byte} (h : 1 < flag.toNat) : judgeBody 4 [flag] = .error .length := by
  have h0 : flag ≠ 0 := by bv_omega
  have h1 : flag ≠ 1 := by bv_omega
  have hnone : flagOfCode flag = none := by rw [flagOfCode, if_neg h0, if_neg h1]
  simp [judgeBody, hnone]

/-! ## What is turned away -/

/-- A command that only hands a report over answers with that report, and nothing else changes. -/
theorem answers_report {c : Instr} {s : State} {m : Report} (hc : exec c s = .next (report m s)) :
    Answers c s fun t => Reported s t m ∧ Writes Field.ofReport s t :=
  ⟨_, hc, rfl, report_writes m s⟩

/-- A packet that fails a test is one PACKET_ERROR (R154). -/
theorem answers_packetError {c : Instr} {k : Byte} {body : List Byte} {r : PacketReason} {s : State}
    (hc : exec c s = .next (whenReleased (actPacket k (judgeBody k body)) s)) (h0 : s.inReset = false)
    (hj : judgeBody k body = .error r) :
    Answers c s fun t => Reported s t (.packetError r (some k)) ∧ Writes Field.ofReport s t :=
  answers_report (by rw [hc, whenReleased_of h0, hj]; rfl)

/-- A load that fails a condition is one UPDATE_REJECTED without a seq (R93). -/
theorem answers_loadRefused {c : Instr} {k : Byte} {body : List Byte} {es : List Edit} {part : Bool} {r : RejectReason} {s : State}
    (hc : exec c s = .next (whenReleased (actPacket k (judgeBody k body)) s)) (h0 : s.inReset = false)
    (hj : judgeBody k body = .ok (.load es part)) (hr : loadRefusal s = some r) :
    Answers c s fun t => Reported s t (.updateRejected r none) ∧ Writes Field.ofReport s t :=
  answers_report (by rw [hc, whenReleased_of h0, hj, actPacket, judgeLoad, hr])

/-- The first condition of R93 that fails is the reason. -/
theorem loadRefusal_of {s : State} {r : RejectReason}
    (h : (s.member.state ≠ .inService ∧ r = .notInService)
      ∨ (s.member.state = .inService ∧ 4 ≤ s.origin.list.length ∧ r = .busy)
      ∨ (s.member.state = .inService ∧ s.origin.list.length < 4 ∧ 12 ≤ openCount s.store ∧ r = .storeFull)) :
    loadRefusal s = some r := by
  rcases h with ⟨hs, rfl⟩ | ⟨hs, hl, rfl⟩ | ⟨hs, hl, ho, rfl⟩
  · rw [loadRefusal, if_pos hs]
  · rw [loadRefusal, if_neg (not_not_intro hs), if_pos hl]
  · rw [loadRefusal, if_neg (not_not_intro hs), if_neg (Nat.not_le.mpr hl), if_neg (mt (canTake_iff _).mp (Nat.not_lt.mpr ho))]

/-- Settles O38: both kinds of load fail on the conditions of R93, and each kind of packet on its own tests of R154. -/
theorem packetsTurnedAway : Obligations.PacketsTurnedAway := by
  refine fun s h0 => ⟨fun c r hc hr => ?refused, fun c r k hc => ?failed⟩
  case refused =>
    rcases hc with ⟨start, comps, rfl, h1, h2⟩ | ⟨rs, rfl, h1, h2, h3⟩
    · exact answers_loadRefused (exec_tableLoad start comps s) h0 (judgeBody_tableLoad_ok start h1 h2) (loadRefusal_of hr)
    · exact answers_loadRefused (exec_paramSet rs s) h0 (judgeBody_paramSet_ok h1 h2 h3) (loadRefusal_of hr)
  case failed =>
    rcases hc with ⟨start, comps, rfl, rfl, h⟩ | ⟨rs, rfl, rfl, rfl, h⟩ | ⟨start, n, rfl, rfl, rfl, h⟩ | ⟨f, rfl, rfl, rfl, h⟩
    · refine answers_packetError (exec_tableLoad start comps s) h0 ?_
      rcases h with ⟨h, rfl⟩ | ⟨h1, h2, rfl⟩ | ⟨h, rfl⟩
      · exact judgeBody_tableLoad_length start (Or.inl h)
      · exact judgeBody_tableLoad_empty start h1 h2
      · exact judgeBody_tableLoad_length start (Or.inr h)
    · exact answers_packetError (exec_paramSet rs s) h0 (judgeBody_paramSet_length h)
    · exact answers_packetError (exec_readback start n s) h0 (judgeBody_readback_length h)
    · exact answers_packetError (exec_statusReq f s) h0 (judgeBody_statusReq_length h)

end Sys2Proof.Machine
end

