-- ==== Sys2Proof/Proofs/PixelByte.lean ====
section
/-! SUPPORT. Proofs/PixelByte.lean: what PIXEL_BYTE does by the receiver state: a byte of a line (R148, R151), of a packet (R153, R154),
of a stray run. -/

namespace Sys2Proof.Machine

/-! ## A freed slot and the line two on (R145) -/

theorem findSlot_eq_none {k : Nat} {s : State} : findSlot k s = none ↔ ∀ x ∈ s.pixel.slots, x.line ≠ k := by
  simp [findSlot, List.find?_eq_none]

theorem findSlot_freeSlot (k : Nat) (s : State) : findSlot k (freeSlot k s) = none := by
  rw [freeSlot, findSlot_requestLine_ne _ (by omega), findSlot_eq_none]
  simp

/-- With the line two on in the frame and a slot empty, a freed line's slot goes to that line, the last of the outstanding requests. -/
theorem freeSlot_of {k : Nat} {s : State} (hk : k + 2 < activeLines s)
    (hroom : (s.pixel.slots.filter (fun x => !(x.line == k))).length < Config.slots) :
    freeSlot k s = { s with pixel.slots := s.pixel.slots.filter (fun x => !(x.line == k)) ++ [boundSlot (k + 2) s],
                            pixel.outstanding := s.pixel.outstanding ++ [k + 2], pixel.requested := s.pixel.requested + 1 } :=
  if_pos ⟨hk, hroom⟩

theorem findSlot_append_bound {k : Nat} {l : List Slot} {y : Slot} (hl : ∀ x ∈ l, x.line ≠ k) (hy : y.line = k) :
    (l ++ [y]).find? (fun x => x.line == k) = some y := by
  rw [List.find?_append, List.find?_eq_none.mpr (by simpa using hl)]
  simp [hy]

/-- A bound line leaves the slot of its parity to no other, so that the line two on has none (R145). -/
theorem PixelOk.next_unbound {k : Nat} {s : State} {x : Slot} (h : PixelOk s) (hx : findSlot k s = some x) :
    ∀ y ∈ s.pixel.slots, y.line ≠ k + 2 := by
  obtain ⟨hline, hmem⟩ := findSlot_line hx
  intro y hy hnext
  have hsame : y = x := List.inj_on_of_nodup_map h.lines hy hmem (by omega)
  rw [hsame] at hnext
  omega

/-- A slot is empty once a bound one is freed. -/
theorem PixelOk.freed_room {k : Nat} {s : State} {x : Slot} (h : PixelOk s) (hx : findSlot k s = some x) :
    (s.pixel.slots.filter (fun y => !(y.line == k))).length < Config.slots := by
  obtain ⟨hline, hmem⟩ := findSlot_line hx
  exact (List.length_filter_lt_length_iff_exists.mpr ⟨x, hmem, by simp [hline]⟩).trans_le h.slots

/-- A freed slot goes to the line two on, ABANDONED where that line's time has gone (R145). -/
theorem freeSlot_requests_next {k : Nat} {s : State} {x : Slot} (h : PixelOk s) (hx : findSlot k s = some x)
    (hk : k + 2 < activeLines s) :
    (freeSlot k s).pixel.outstanding = s.pixel.outstanding ++ [k + 2] ∧ (freeSlot k s).pixel.requested = s.pixel.requested + 1
      ∧ findSlot (k + 2) (freeSlot k s) = some (boundSlot (k + 2) s) := by
  rw [freeSlot_of hk (h.freed_room hx)]
  exact ⟨rfl, rfl, findSlot_append_bound (fun y hy => h.next_unbound hx y (List.mem_of_mem_filter hy)) rfl⟩

/-- The receiver may always go back to WAIT. -/
theorem PixelOk.waiting {s : State} (h : PixelOk s) : PixelOk { s with pixel.rx := .wait } :=
  { h with reception := nofun }

/-! ## A byte by the receiver state -/

theorem exec_pixelByte (b : Byte) (s : State) : exec (.pixelByte b) s = .next (whenReleased (takeByte b) s) := rfl

theorem takeByte_line {k : Nat} {s : State} (b : Byte) (h : s.pixel.rx = .line k) : takeByte b s = lineByte k b s := by
  rw [takeByte, h]

theorem takeByte_packet {bytes : List Byte} {s : State} (b : Byte) (h : s.pixel.rx = .packet bytes) :
    takeByte b s = packetByte bytes b s := by
  rw [takeByte, h]

theorem takeByte_wait {s : State} (b : Byte) (h : s.pixel.rx = .wait) : takeByte b s =
    if s.pixel.cwin then packetError .outside none { s with pixel.rx := .discard }
    else countOverflow { s with pixel.rx := .discard } := by
  rw [takeByte, h]

theorem takeByte_ignored {s : State} (b : Byte) (h : s.pixel.rx = .discard ∨ s.pixel.rx = .drain) : takeByte b s = s := by
  rcases h with h | h <;> rw [takeByte, h]

/-! ## A byte of a line (R148, R151) -/

section Line
variable {k : Nat} {s : State} {x : Slot} (b : Byte) (hrx : s.pixel.rx = .line k) (hx : findSlot k s = some x)
include hrx hx

/-- A byte of a line in reception before the W-th is kept (R148). -/
theorem takeByte_keeps (hst : x.state = .receiving) (hc : x.count + 1 < lineWidth s) :
    findSlot k (takeByte b s) = some { x with bytes := x.bytes ++ [b], count := x.count + 1 }
      ∧ (∀ m, m ≠ k → findSlot m (takeByte b s) = findSlot m s) ∧ Writes [.slots] s (takeByte b s) := by
  have ht : takeByte b s = setSlot k (fun x => { x with bytes := x.bytes ++ [b], count := x.count + 1 }) s := by
    rw [takeByte_line b hrx, lineByte, hx]
    simp only [hst, if_pos hc]
  rw [ht]
  exact ⟨findSlot_setSlot (fun _ => rfl) hx, fun m hm => findSlot_setSlot_ne s (fun _ => rfl) hm, setSlot_writes _ _ s⟩

/-- The W-th byte completes the line in reception (R148). -/
theorem takeByte_completes (hst : x.state = .receiving) (hc : lineWidth s ≤ x.count + 1) :
    findSlot k (takeByte b s) = some { x with state := .complete, bytes := x.bytes ++ [b], count := x.count + 1 }
      ∧ (takeByte b s).pixel.rx = .wait ∧ (∀ m, m ≠ k → findSlot m (takeByte b s) = findSlot m s)
      ∧ Writes [.slots, .rx] s (takeByte b s) := by
  have ht : takeByte b s = setSlot k (fun x => { x with state := .complete, bytes := x.bytes ++ [b], count := x.count + 1 })
      { s with pixel.rx := .wait } := by
    rw [takeByte_line b hrx, lineByte, hx]
    simp only [hst, if_neg (Nat.not_lt.mpr hc)]
  rw [ht]
  exact ⟨findSlot_setSlot (fun _ => rfl) hx, rfl, fun m hm => findSlot_setSlot_ne _ (fun _ => rfl) hm,
    (rx_writes s .wait).comp (setSlot_writes _ _ _)⟩

/-- A byte of an abandoned line before the W-th is counted and not kept (R151). -/
theorem takeByte_counts (hst : x.state = .abandoned) (hc : x.count + 1 < lineWidth s) :
    findSlot k (takeByte b s) = some { x with count := x.count + 1 }
      ∧ (∀ m, m ≠ k → findSlot m (takeByte b s) = findSlot m s) ∧ Writes [.slots] s (takeByte b s) := by
  have ht : takeByte b s = setSlot k (fun x => { x with count := x.count + 1 }) s := by
    rw [takeByte_line b hrx, lineByte, hx]
    simp only [hst, if_pos hc]
  rw [ht]
  exact ⟨findSlot_setSlot (fun _ => rfl) hx, fun m hm => findSlot_setSlot_ne s (fun _ => rfl) hm, setSlot_writes _ _ s⟩

/-- The W-th byte of an abandoned line frees its slot, for the line two on (R145, R151). -/
theorem takeByte_frees (hst : x.state = .abandoned) (hc : lineWidth s ≤ x.count + 1) :
    findSlot k (takeByte b s) = none ∧ (takeByte b s).pixel.rx = .wait
      ∧ (∀ m, m ≠ k → m ≠ k + 2 → findSlot m (takeByte b s) = findSlot m s)
      ∧ (PixelOk s → k + 2 < activeLines s → (takeByte b s).pixel.outstanding = s.pixel.outstanding ++ [k + 2]
        ∧ (takeByte b s).pixel.requested = s.pixel.requested + 1
        ∧ ∃ y, findSlot (k + 2) (takeByte b s) = some y ∧ y.state = (if k + 2 < s.pixel.begun then .abandoned else .awaiting))
      ∧ Writes [.slots, .requests, .requested, .rx] s (takeByte b s) := by
  have ht : takeByte b s = freeSlot k { s with pixel.rx := .wait } := by
    rw [takeByte_line b hrx, lineByte, hx]
    simp only [hst, if_neg (Nat.not_lt.mpr hc)]
  rw [ht]
  refine ⟨findSlot_freeSlot k _, (freeSlot_writes k _).at .rx, fun m hm hm2 => findSlot_freeSlot_ne _ hm hm2,
    fun hok hk => ?next, (rx_writes s .wait).comp (freeSlot_writes k _)⟩
  case next =>
    obtain ⟨hout, hreq, hslot⟩ := freeSlot_requests_next hok.waiting hx hk
    exact ⟨hout, hreq, _, hslot, rfl⟩

end Line

/-! ## A packet's five tests on its bytes (R154) -/

theorem judgePacket_check {bytes : List Byte} (h : sum8 bytes ≠ 0) : judgePacket bytes = .error .check := if_pos h

/-- The body of a packet of good check lies between its length byte and its check byte. -/
theorem judgePacket_body {k len b : Byte} {body : List Byte} (h : sum8 (k :: len :: body ++ [b]) = 0) :
    judgePacket (k :: len :: body ++ [b]) = judgeBody k body := by
  rw [judgePacket, if_neg (not_not_intro h)]
  simp

/-- No kind is known but the four of R154. -/
theorem judgeBody_kind {k : Byte} (h : k ∉ ([1, 2, 3, 4] : List Byte)) (body : List Byte) : judgeBody k body = .error .kind := by
  obtain ⟨h1, h2, h3, h4⟩ : k ≠ 1#8 ∧ k ≠ 2#8 ∧ k ≠ 3#8 ∧ k ≠ 4#8 := by simpa using h
  exact (if_neg h1).trans <| (if_neg h2).trans <| (if_neg h3).trans (if_neg h4)

theorem judgePacket_kind {k b : Byte} {bytes : List Byte} (h : sum8 (bytes ++ [b]) = 0) (hk : bytes.head? = some k)
    (hkind : k ∉ ([1, 2, 3, 4] : List Byte)) : judgePacket (bytes ++ [b]) = .error .kind := by
  obtain ⟨rest, rfl⟩ := List.head?_eq_some_iff.mp hk
  rw [judgePacket, if_neg (not_not_intro h)]
  exact judgeBody_kind hkind _

/-- A body of a length that no command of its kind has. -/
theorem judgeBody_length {k : Byte} {body : List Byte}
    (h : (k = 1 ∧ body = []) ∨ (k = 2 ∧ body.length % 4 ≠ 0) ∨ (k = 3 ∧ body.length ≠ 3) ∨ (k = 4 ∧ body.length ≠ 1)) :
    judgeBody k body = .error .length := by
  rcases h with ⟨rfl, rfl⟩ | ⟨rfl, h⟩ | ⟨rfl, h⟩ | ⟨rfl, h⟩
  case inl => rfl
  case inr.inl => exact if_pos (Or.inr (Or.inr h))
  case inr.inr.inl =>
    match body with
    | [_, _, _] => exact absurd rfl h
    | [] | [_] | [_, _] | _ :: _ :: _ :: _ :: _ => rfl
  case inr.inr.inr =>
    match body with
    | [_] => exact absurd rfl h
    | [] | _ :: _ :: _ => rfl

theorem hiByte_word16 (hi lo : Byte) : hiByte (word16 hi lo) = hi := BitVec.extractLsb'_append_eq_left

theorem loByte_word16 (hi lo : Byte) : loByte (word16 hi lo) = lo := BitVec.extractLsb'_append_eq_right

/-! ## A byte of a packet (R153, R154) -/

section Packet
variable {bytes : List Byte} {b : Byte} {s : State} (hrx : s.pixel.rx = .packet bytes)
include hrx

theorem takeByte_packet_grows (hc : packetComplete (bytes ++ [b]) = false) :
    takeByte b s = { s with pixel.rx := .packet (bytes ++ [b]) } := by
  rw [takeByte_packet b hrx, packetByte]
  simp only [hc, Bool.false_eq_true, if_false]

/-- At its check byte the packet is judged, with the receiver back in WAIT. -/
theorem takeByte_packet_ends (hc : packetComplete (bytes ++ [b]) = true) :
    takeByte b s = actPacket ((bytes ++ [b]).headD 0) (judgePacket (bytes ++ [b])) { s with pixel.rx := .wait } := by
  rw [takeByte_packet b hrx, packetByte]
  exact if_pos hc

theorem takeByte_packet_rx (hc : packetComplete (bytes ++ [b]) = true) : (takeByte b s).pixel.rx = .wait := by
  rw [takeByte_packet_ends hrx hc]
  exact (actPacket_writes _ _ _).at .rx

/-- A packet that fails a test is one PACKET_ERROR with its kind. -/
theorem takeByte_packet_error {r : PacketReason} (hc : packetComplete (bytes ++ [b]) = true)
    (hj : judgePacket (bytes ++ [b]) = .error r) :
    Reported s (takeByte b s) (.packetError r (bytes ++ [b]).head?) ∧ Writes (Field.ofReport ++ [.rx]) s (takeByte b s) := by
  have hkind : (bytes ++ [b]).head? = some ((bytes ++ [b]).headD 0) := by cases bytes <;> rfl
  rw [takeByte_packet_ends hrx hc, hj, hkind]
  exact ⟨rfl, (rx_writes s .wait).comp (report_writes _ _)⟩

end Packet

/-- A packet of good check, of its kind and body, is the command that acts on that kind and body. -/
theorem exec_eq_takeByte {c : Instr} {k len b : Byte} {body : List Byte} {s : State}
    (hcmd : ∀ u, exec c u = .next (whenReleased (actPacket k (judgeBody k body)) u)) (h0 : s.inReset = false)
    (hrx : s.pixel.rx = .packet (k :: len :: body)) (hc : packetComplete (k :: len :: body ++ [b]) = true)
    (hsum : sum8 (k :: len :: body ++ [b]) = 0) :
    exec c { s with pixel.rx := .wait } = .next (takeByte b s) := by
  have hact : takeByte b s = actPacket k (judgeBody k body) { s with pixel.rx := .wait } := by
    rw [takeByte_packet_ends hrx hc, judgePacket_body hsum]
    rfl
  rw [hcmd, hact]
  exact congrArg _ (whenReleased_of h0)

/-- A packet of good check whose kind has no body of its length is a LENGTH error. -/
theorem takeByte_packet_length {k len b : Byte} {body : List Byte} {s : State} (hrx : s.pixel.rx = .packet (k :: len :: body))
    (hc : packetComplete (k :: len :: body ++ [b]) = true) (hsum : sum8 (k :: len :: body ++ [b]) = 0)
    (h : (k = 1 ∧ body = []) ∨ (k = 2 ∧ body.length % 4 ≠ 0) ∨ (k = 3 ∧ body.length ≠ 3) ∨ (k = 4 ∧ body.length ≠ 1)) :
    Reported s (takeByte b s) (.packetError .length (some k)) ∧ Writes (Field.ofReport ++ [.rx]) s (takeByte b s) :=
  takeByte_packet_error hrx hc ((judgePacket_body hsum).trans (judgeBody_length h))

/-- A packet of good check and of no known kind is a KIND error. -/
theorem takeByte_packet_kind {k b : Byte} {bytes : List Byte} {s : State} (hrx : s.pixel.rx = .packet bytes)
    (hc : packetComplete (bytes ++ [b]) = true) (hsum : sum8 (bytes ++ [b]) = 0) (hk : bytes.head? = some k)
    (hkind : k ∉ ([1, 2, 3, 4] : List Byte)) :
    Reported s (takeByte b s) (.packetError .kind (some k)) ∧ Writes (Field.ofReport ++ [.rx]) s (takeByte b s) := by
  have hhead : (bytes ++ [b]).head? = some k := List.head?_append_of_ne_nil _ (by rintro rfl; cases hk) |>.trans hk
  exact hhead ▸ takeByte_packet_error hrx hc (judgePacket_kind hsum hk hkind)

/-! ## A stray byte (R148, R153) -/

/-- Inside the control window a stray byte begins a run with one OUTSIDE error (R153). -/
theorem takeByte_outside {s : State} (b : Byte) (hrx : s.pixel.rx = .wait) (hw : s.pixel.cwin = true) :
    (takeByte b s).pixel.rx = .discard ∧ Reported s (takeByte b s) (.packetError .outside none)
      ∧ Writes (Field.ofReport ++ [.rx]) s (takeByte b s) := by
  rw [takeByte_wait b hrx, if_pos hw]
  exact ⟨rfl, rfl, (rx_writes s .discard).comp (report_writes _ _)⟩

/-- Outside the control window it begins a run with one overflow (R148). -/
theorem takeByte_overflow {s : State} (b : Byte) (hrx : s.pixel.rx = .wait) (hw : s.pixel.cwin = false) :
    (takeByte b s).pixel.rx = .discard ∧ (takeByte b s).report.counts.overflow = countUp s.report.counts.overflow
      ∧ Writes [.rx, .overflow] s (takeByte b s) := by
  rw [takeByte_wait b hrx, if_neg (ne_true_of_eq_false hw)]
  exact ⟨rfl, rfl, (rx_writes s .discard).comp (countOverflow_writes _)⟩

/-- Settles O36, by the receiver state: the line's byte by its slot and count, the packet's by its end and its tests, the stray byte by the
control window. -/
theorem pixelByteTaken : Obligations.PixelByteTaken := by
  refine fun s b h0 => ⟨takeByte b s, by rw [exec_pixelByte, whenReleased_of h0],
    fun k x => takeByte_keeps b, fun k x => takeByte_completes b, fun k x => takeByte_counts b, fun k x => takeByte_frees b,
    fun bytes hrx hc => ?grows, fun bytes hrx hc => ⟨takeByte_packet_rx hrx hc, fun hsum => ?check, fun hsum => ?good⟩,
    takeByte_outside b, takeByte_overflow b, takeByte_ignored b⟩
  case grows =>
    rw [takeByte_packet_grows hrx hc]
    exact ⟨rfl, rx_writes s _⟩
  case check => exact takeByte_packet_error hrx hc (judgePacket_check hsum)
  case good =>
    refine ⟨?tableLoad, ?paramSet, ?readback, ?statusReq, ?length, fun k => takeByte_packet_kind hrx hc hsum⟩
    case tableLoad =>
      rintro len start comps rfl
      exact exec_eq_takeByte (exec_tableLoad start comps) h0 hrx hc hsum
    case paramSet =>
      rintro len rs rfl
      exact exec_eq_takeByte (exec_paramSet rs) h0 hrx hc hsum
    case readback =>
      rintro len hi lo n rfl
      refine exec_eq_takeByte (fun u => ?_) h0 hrx hc hsum
      rw [exec_readback, hiByte_word16, loByte_word16]
    case statusReq =>
      rintro len f rfl
      exact exec_eq_takeByte (exec_statusReq f) h0 hrx hc hsum
    case length =>
      rintro k len body rfl
      exact takeByte_packet_length hrx hc hsum

end Sys2Proof.Machine
end

