-- ==== Sys2Proof/Proofs/StatusRequest.lean ====
section
/-! SUPPORT. Proofs/StatusRequest.lean: the STATUS record of the fields as they stand (R172), and the six counts cleared after it
(R159, R173). -/

namespace Sys2Proof.Machine

/-! ## The STATUS record (R172) -/

/-- The present stations are the entries of the table, and the station itself in an on-ring state (R68). -/
theorem presentCount_eq (s : State) :
    presentCount s = s.member.stations.length + if onRing s.member.state then 1 else 0 := by
  rw [presentCount, presentStations, ownEntry, List.length_append, List.length_map]
  split <;> rfl

/-! ## The counts cleared (R173) -/

/-- The state with the six counts of the Report Unit at 0. -/
def clearCounts (s : State) : State := { s with report.counts := ⟨0, 0, 0, 0, 0, 0⟩ }

@[simp] theorem clearCounts_report (s : State) :
    (clearCounts s).report = { s.report with counts := ⟨0, 0, 0, 0, 0, 0⟩ } := rfl

theorem clearCounts_writes (s : State) : Writes [.crc, .overflow, .stray, .underrun, .late, .frameSlip] s (clearCounts s) := by
  intro f hf
  cases f with
  | crc | overflow | stray | underrun | late | frameSlip => exact absurd hf (by decide)
  | _ => rfl

/-! ## STATUS_REQ -/

theorem answerStatus_false (s : State) : answerStatus false s = report (.status (statusFields s)) s := rfl

theorem answerStatus_true (s : State) : answerStatus true s = clearCounts (report (.status (statusFields s)) s) := rfl

/-- A STATUS_REQ packet whose flag byte is a flag's code passes the five tests of R154. -/
theorem judgeBody_statusReq_ok {flag : Byte} {c : Bool} (h : flagOfCode flag = some c) :
    judgeBody 4 [flag] = .ok (.status c) := by
  simp [judgeBody, h]

/-- Outside reset a STATUS_REQ of a valid flag is answered (R159). -/
theorem exec_statusReq_ok {flag : Byte} {c : Bool} {s : State} (h0 : s.inReset = false) (h : flagOfCode flag = some c) :
    exec (.statusReq flag) s = .next (answerStatus c s) := by
  rw [exec_statusReq, whenReleased_of h0, judgeBody_statusReq_ok h]
  rfl

/-- Settles O40, by the clear flag: with either value the record is formed of the fields as they stand, and with 1 the counts are
cleared on the state that has the record. -/
theorem statusAnswered : Obligations.StatusAnswered := by
  intro s flag h0 hflag
  rw [← presentCount_eq s]
  obtain rfl | rfl : flag = 0 ∨ flag = 1 := by bv_omega
  case inl =>
    refine ⟨_, exec_statusReq_ok h0 (c := false) rfl, _, rfl, fun _ => ?_, fun h => absurd h (by decide)⟩
    rw [answerStatus_false]
    exact ⟨report_report _ s, report_writes _ s⟩
  case inr =>
    refine ⟨_, exec_statusReq_ok h0 (c := true) rfl, _, rfl, fun h => absurd h (by decide), fun _ => ?_⟩
    rw [answerStatus_true]
    exact ⟨clearCounts_report _, (report_writes _ s).comp (clearCounts_writes _)⟩

end Sys2Proof.Machine
end

