-- ==== Sys2Proof/Proofs/Commands.lean ====
section
/-! SUPPORT. Proofs/Commands.lean: every command as one operation of a block: what a command answers said once, and the two reset
commands. -/

namespace Sys2Proof.Machine

set_option Elab.async false

/-! ## Pieces of work in a row -/

/-- The pieces taken one after another, where they are still due. -/
def takeAll (ws : List FrameWork) (s : State) : State := ws.foldl (fun s w => takeWork w s) s

@[simp] theorem takeAll_nil (s : State) : takeAll [] s = s := rfl

@[simp] theorem takeAll_cons (w : FrameWork) (ws : List FrameWork) (s : State) : takeAll (w :: ws) s = takeAll ws (takeWork w s) := rfl

theorem finishWork_eq (s : State) : finishWork s = takeAll workOrder s := rfl

theorem startFrame_eq (later : List FrameWork) (mid : Bool) (s : State) :
    startFrame later mid s = takeAll (workOrder.filter (fun w => !(leftWork later).contains w)) (openFrame mid s) := rfl

/-- What every piece keeps, taking them in a row keeps. -/
theorem takeAll_keeps {P : State → Prop} (h : ∀ w s, P s → P (takeWork w s)) (ws : List FrameWork) {s : State} (hs : P s) :
    P (takeAll ws s) :=
  foldl_keeps ws s (fun b w _ hb => h w b hb) hs

theorem takeAll_writes (ws : List FrameWork) (s : State) : Writes Field.ofWork s (takeAll ws s) :=
  Writes.foldl (fun s w => takeWork_writes w s) ws s

/-- What doing a due piece keeps, taking it keeps, where settling it does too. -/
theorem takeWork_keeps {P : State → Prop} (hset : ∀ w s, P s → P (settleWork w s)) (hdo : ∀ F w s, P s → P (doWork F w s))
    (w : FrameWork) (s : State) (hs : P s) : P (takeWork w s) := by
  unfold takeWork
  split
  · exact hdo _ _ _ (hset w s hs)
  · exact hs

/-! ## The rows of the transition -/

theorem settleWork_frame (w : FrameWork) (s : State) : (settleWork w s).startWork.frame = s.startWork.frame := rfl

/-- The ageing leaves the frame start's number. -/
theorem stationAgeing_frame (s : State) : (takeWork .stationAgeing s).startWork.frame = s.startWork.frame := by
  unfold takeWork
  split
  · have hage : (doWork s.startWork.frame .stationAgeing (settleWork .stationAgeing s)).startWork
        = (settleWork .stationAgeing s).startWork := (ageStations_writes _).at .startWork
    rw [hage, settleWork_frame]
  · rfl

/-- A row whose operation is the transition of the present state, where it is this row's turn, is the ageing alone or the ageing and the
transition (R79). -/
theorem takeTransition_cases {c : State → Bool} {f : State → State} {s : State}
    (hf : ∀ u, c u = true → f (settleWork .transition u) = transitionStep s.startWork.frame (settleWork .transition u)) :
    takeTransition c f s = takeAll [.stationAgeing] s ∨ takeTransition c f s = takeAll [.stationAgeing, .transition] s := by
  unfold takeTransition
  dsimp only
  split
  case isFalse => exact Or.inl rfl
  case isTrue h =>
    obtain ⟨hdue, hc⟩ := Bool.and_eq_true_iff.mp h
    have hdue' : (beforeTransition s).startWork.due.contains .transition = true := hdue
    have hdone : takeWork .transition (beforeTransition s)
        = transitionStep s.startWork.frame (settleWork .transition (beforeTransition s)) := by
      rw [takeWork, if_pos hdue', ← stationAgeing_frame s]
      rfl
    refine Or.inr ?_
    rw [hf _ hc, ← hdone]
    rfl

theorem listenTurn_step {F : Frame} {u : State} (h : listenTurn u = true) :
    listenStep (settleWork .transition u) = transitionStep F (settleWork .transition u) := by
  have hs : (settleWork .transition u).member.state = .listening := of_decide_eq_true h
  simp only [transitionStep, hs]

theorem joinTurn_step {F : Frame} {u : State} (h : joinTurn u = true) :
    joinStep F (settleWork .transition u) = transitionStep F (settleWork .transition u) := by
  have hs : (settleWork .transition u).member.state = .joining := of_decide_eq_true h
  simp only [transitionStep, hs]

theorem missTurn_step {F : Frame} {u : State} (h : missTurn u = true) :
    missStep (settleWork .transition u) = transitionStep F (settleWork .transition u) := by
  simp only [missTurn, Bool.and_eq_true, Bool.or_eq_true, decide_eq_true_iff] at h
  obtain ⟨hm, (hs | hs) | hs⟩ := h <;>
    simp [transitionStep, missStep, mustRejoin, settleWork_member, hs, hm]

theorem returnTurn_step {F : Frame} {u : State} (h : returnTurn u = true) :
    leaveRingHold (settleWork .transition u) = transitionStep F (settleWork .transition u) := by
  simp only [returnTurn, Bool.and_eq_true, decide_eq_true_iff] at h
  obtain ⟨hs, hr⟩ := h
  simp [transitionStep, settleWork_member, hs, hr]

theorem holdTurn_step {F : Frame} {u : State} (h : holdTurn u = true) :
    holdStep (settleWork .transition u) = transitionStep F (settleWork .transition u) := by
  simp only [holdTurn, Bool.and_eq_true, decide_eq_true_iff] at h
  obtain ⟨hs, hr⟩ := h
  simp [transitionStep, settleWork_member, hs, Nat.not_le.mpr hr]

theorem markTurn_step {F : Frame} {u : State} (h : markTurn u = true) :
    markStep F (settleWork .transition u) = transitionStep F (settleWork .transition u) := by
  simp only [markTurn, Bool.and_eq_true, decide_eq_true_iff] at h
  obtain ⟨hs, hr⟩ := h
  simp [transitionStep, settleWork_member, hs, Nat.not_le.mpr hr]

/-! ## Every command as an operation -/

/-- What a command can do: nothing, or, out of reset, one operation of a block. The rows of the frame-start work are runs of pieces; the
arrivals of the seven kinds are one. The command is kept where its effect is its own. -/
inductive Effect (s : State) : Instr → State → Prop
  | stay {c : Instr} : Effect s c s
  | resetAssert : Effect s .resetAssert (assertReset s)
  | resetRelease (sn : BitVec 5) (prf lead : BitVec 2) (h : s.inReset = true) : Effect s (.resetRelease sn prf lead) (releaseReset sn prf lead s)
  | lineAdvance (h : s.inReset = false) : Effect s .lineAdvance (advanceLine s)
  | frameStart (later : List FrameWork) (mid : Bool) (h : s.inReset = false) : Effect s (.frameStart later mid) (nextFrame later mid s)
  | work {c : Instr} (ws : List FrameWork) (h : s.inReset = false) : Effect s c (takeAll ws s)
  | rejoin {c : Instr} (h : s.inReset = false) (turn : rejoinTurn (takeWork .stationAgeing s) = true) :
      Effect s c (doRejoin (settleWork .transition (takeWork .stationAgeing s)))
  | origin {c : Instr} (mine : Phase → Bool) (h : s.inReset = false) : Effect s c (takeOrigin mine s)
  | applyOpen {c : Instr} (h : s.inReset = false) : Effect s c (openApplyWindow s)
  | installEnd {c : Instr} (h : s.inReset = false) : Effect s c (endInstall s)
  | applyEnd {c : Instr} (h : s.inReset = false) : Effect s c (endApply s)
  | windowOpen {c : Instr} (h : s.inReset = false) : Effect s c (openWindow s)
  | windowClose {c : Instr} (h : s.inReset = false) : Effect s c (closeWindow s)
  | requestPoint {c : Instr} (h : s.inReset = false) : Effect s c (requestPoint s)
  | beginActive {c : Instr} (h : s.inReset = false) : Effect s c (beginActive s)
  | activeLine {c : Instr} (j : Nat) (h : s.inReset = false) : Effect s c (beginLine j s)
  | frameEnd {c : Instr} (h : s.inReset = false) : Effect s c (endFrame s)
  | pmark {c : Instr} (h : s.inReset = false) : Effect s c (takeMark s)
  | byte {c : Instr} (b : Byte) (h : s.inReset = false) : Effect s c (takeByte b s)
  | packet {c : Instr} (k : Byte) (body : List Byte) (h : s.inReset = false) : Effect s c (actPacket k (judgeBody k body) s)
  | arrive {c : Instr} (p : Parcel) : Effect s c (arrive p s)
  | badRun {c : Instr} (h : bypass s = false) (hcut : s.ring.cut = false) : Effect s c (countCrc s)
  | build {c : Instr} (h : s.inReset = false) : Effect s c (buildPart s)
  | sendBegin {c : Instr} : Effect s c (beginSend s)
  | sendEnd {c : Instr} (h : s.inReset = false) : Effect s c (endSend s)
  | reportBegin {c : Instr} (h : s.inReset = false) : Effect s c (beginReport s)
  | reportEnd {c : Instr} (n : Nat) (h : s.inReset = false) : Effect s c (endReport n s)

/-- A command that waits for the release has its effect out of reset only. -/
theorem effect_whenReleased {c : Instr} {f : State → State} {s : State} (h : s.inReset = false → Effect s c (f s)) :
    Effect s c (whenReleased f s) := by
  cases h0 : s.inReset with
  | true => rw [whenReleased_inReset h0]; exact .stay
  | false => rw [whenReleased_of h0]; exact h h0

/-- A row of the transition. -/
theorem effect_takeTransition {i : Instr} {c : State → Bool} {f : State → State} {s : State}
    (hf : ∀ u, c u = true → f (settleWork .transition u) = transitionStep s.startWork.frame (settleWork .transition u)) :
    Effect s i (whenReleased (takeTransition c f) s) := by
  refine effect_whenReleased fun h => ?_
  rcases takeTransition_cases hf with e | e <;> rw [e] <;> exact .work _ h

/-- REJOIN: the ageing alone, or the rejoin after it. -/
theorem effect_takeRejoin {c : Instr} {s : State} (h : s.inReset = false) : Effect s c (takeTransition rejoinTurn doRejoin s) := by
  unfold takeTransition
  dsimp only
  split
  case isTrue hc => exact .rejoin h (Bool.and_eq_true_iff.mp hc).2
  case isFalse => exact .work [.stationAgeing] h

/-- A run of bytes is a parcel's arrival, a parcel cut off, or a bad run. -/
theorem effect_arriveRun {c : Instr} (run : List Byte) (s : State) : Effect s c (arriveRun run s) := by
  unfold arriveRun
  split
  case isTrue => exact .stay
  case isFalse hb =>
    split
    case isTrue hcut =>
      have hcutArrival : Machine.arrive ⟨⟨0, 0, 0, 0⟩, .snapshotReq⟩ s = endCut s := by
        simp [Machine.arrive, hb, hcut]
      exact hcutArrival ▸ .arrive _
    case isFalse hcut =>
      split
      · exact .arrive _
      · exact .badRun (by simpa using hb) (by simpa using hcut)

/-- Every command answers a next state, and has one of the effects. -/
theorem exec_effect (c : Instr) (s : State) : ∃ t, exec c s = .next t ∧ Effect s c t := by
  cases c with
  | resetAssert => exact ⟨_, rfl, .resetAssert⟩
  | resetRelease sn prf lead =>
    refine ⟨_, rfl, ?_⟩
    split
    case isTrue h => exact .resetRelease sn prf lead h
    case isFalse => exact .stay
  | lineAdvance => exact ⟨_, rfl, effect_whenReleased .lineAdvance⟩
  | frameStart later mid => exact ⟨_, rfl, effect_whenReleased (.frameStart later mid)⟩
  | listenGuardClear => exact ⟨_, rfl, effect_whenReleased (.work [.listenGuard])⟩
  | inFlightAgeing => exact ⟨_, rfl, effect_whenReleased (.work [.inFlightAgeing])⟩
  | stationEntryAgeOut => exact ⟨_, rfl, effect_whenReleased (.work [.stationAgeing])⟩
  | holdExpiry => exact ⟨_, rfl, effect_whenReleased (.work [.holdExpiry])⟩
  | retentionExpiry => exact ⟨_, rfl, effect_whenReleased (.work [.holdExpiry, .retentionExpiry])⟩
  | snapshotDeadline => exact ⟨_, rfl, effect_whenReleased (.work [.collectorDeadline])⟩
  | backoffExpiry => exact ⟨_, rfl, effect_whenReleased (.work [.stationAgeing, .transition, .backoff])⟩
  | listenCountExpiry => exact ⟨_, rfl, effect_takeTransition fun _ => listenTurn_step⟩
  | joinDeadline => exact ⟨_, rfl, effect_takeTransition fun _ => joinTurn_step⟩
  | missStreakLimit => exact ⟨_, rfl, effect_takeTransition fun _ => missTurn_step⟩
  | returnStreakLimit => exact ⟨_, rfl, effect_takeTransition fun _ => returnTurn_step⟩
  | holdCountLimit => exact ⟨_, rfl, effect_takeTransition fun _ => holdTurn_step⟩
  | resyncDueMarkTest => exact ⟨_, rfl, effect_takeTransition fun _ => markTurn_step⟩
  | rejoin => exact ⟨_, rfl, effect_whenReleased effect_takeRejoin⟩
  | proposeDeadline => exact ⟨_, rfl, effect_whenReleased (.origin isProposing)⟩
  | withdrawnDeadline => exact ⟨_, rfl, effect_whenReleased (.origin isWithdrawn)⟩
  | commitDeadline => exact ⟨_, rfl, effect_whenReleased (.origin isCommitting)⟩
  | applyWindowOpen => exact ⟨_, rfl, effect_whenReleased .applyOpen⟩
  | installEnd => exact ⟨_, rfl, effect_whenReleased .installEnd⟩
  | applyEnd => exact ⟨_, rfl, effect_whenReleased .applyEnd⟩
  | controlWindowOpen => exact ⟨_, rfl, effect_whenReleased .windowOpen⟩
  | controlWindowClose => exact ⟨_, rfl, effect_whenReleased .windowClose⟩
  | lineRequestPoint => exact ⟨_, rfl, effect_whenReleased .requestPoint⟩
  | firstActiveLine => exact ⟨_, rfl, effect_whenReleased .beginActive⟩
  | activeLine j => exact ⟨_, rfl, effect_whenReleased (.activeLine j)⟩
  | frameEnd => exact ⟨_, rfl, effect_whenReleased .frameEnd⟩
  | pmark => exact ⟨_, rfl, effect_whenReleased .pmark⟩
  | pixelByte b => exact ⟨_, rfl, effect_whenReleased (.byte b)⟩
  | tableLoad start comps => exact ⟨_, exec_tableLoad start comps s, effect_whenReleased (.packet _ _)⟩
  | paramSet rs => exact ⟨_, exec_paramSet rs s, effect_whenReleased (.packet _ _)⟩
  | readback start n => exact ⟨_, exec_readback start n s, effect_whenReleased (.packet _ _)⟩
  | statusReq flag => exact ⟨_, exec_statusReq flag s, effect_whenReleased (.packet _ _)⟩
  | beacon h b => exact ⟨_, rfl, .arrive _⟩
  | join h b => exact ⟨_, rfl, .arrive _⟩
  | propose h b => exact ⟨_, rfl, .arrive _⟩
  | commit h q F => exact ⟨_, rfl, .arrive _⟩
  | withdraw h q => exact ⟨_, rfl, .arrive _⟩
  | snapshotReq h => exact ⟨_, rfl, .arrive _⟩
  | snapshot h b => exact ⟨_, rfl, .arrive _⟩
  | failedParcelArrival run => exact ⟨_, rfl, effect_arriveRun run s⟩
  | snapshotPartBuild => exact ⟨_, rfl, effect_whenReleased .build⟩
  | sendBegin => exact ⟨_, rfl, .sendBegin⟩
  | sendEnd => exact ⟨_, rfl, effect_whenReleased .sendEnd⟩
  | reportSendBegin => exact ⟨_, rfl, effect_whenReleased .reportBegin⟩
  | reportSendEnd n => exact ⟨_, rfl, effect_whenReleased (.reportEnd n)⟩

/-- What a command that answers t does. -/
theorem effect_of_exec {c : Instr} {s t : State} (h : exec c s = .next t) : Effect s c t := by
  obtain ⟨u, hu, he⟩ := exec_effect c s
  obtain rfl : u = t := Host.Outcome.next.inj (hu.symm.trans h)
  exact he

/-- What a step does: nothing, or the effect of a command on the state with the rest of the queue. -/
theorem step_effect {s t : State} (h : step s = .next t) : ∃ c rest, Effect { s with pending := rest } c t := by
  rcases step_cases h with ⟨_, rfl⟩ | ⟨c, rest, _, hc⟩
  · exact ⟨.lineAdvance, t.pending, .stay⟩
  · exact ⟨c, rest, effect_of_exec hc⟩

/-- Nothing that is no command's own field depends on the queue. -/
theorem pending_writes (s : State) (rest : List Instr) : Writes [.pending] s { s with pending := rest } := by
  intro f hf
  cases f with
  | pending => exact absurd List.mem_cons_self hf
  | _ => rfl

/-- An invariant that does not speak of the queue and that every effect keeps is kept by every step. -/
theorem step_keeps {P : State → Prop} (hpending : ∀ s rest, P s → P { s with pending := rest }) (heffect : ∀ {s c t}, Effect s c t → P s → P t)
    {s t : State} (hs : P s) (h : step s = .next t) : P t := by
  obtain ⟨_, rest, he⟩ := step_effect h
  exact heffect he (hpending s rest hs)

/-! ## What no command writes -/

/-- The queue of commands is no block's. -/
theorem Effect.pending {s t : State} {c : Instr} (h : Effect s c t) : t.pending = s.pending := by
  cases h with
  | stay => rfl
  | resetAssert => rfl
  | resetRelease sn prf lead =>
    unfold releaseReset
    dsimp only
    split
    · rfl
    · exact (event_writes _ _).at .pending
  | lineAdvance => exact (advanceLine_writes s).at .pending
  | frameStart later mid => exact (nextFrame_writes later mid s).at .pending
  | work ws => exact (takeAll_writes ws s).at .pending
  | rejoin =>
    exact ((takeWork_writes .stationAgeing s).trans ((settleWork_writes .transition _).mono.trans (doRejoin_writes _).mono)).at .pending
  | origin mine => exact (takeOrigin_writes mine s).at .pending
  | applyOpen => exact (openApplyWindow_writes s).at .pending
  | installEnd => exact (endInstall_writes s).at .pending
  | applyEnd => exact (endApply_writes s).at .pending
  | windowOpen => exact (openWindow_writes s).at .pending
  | windowClose => exact (closeWindow_writes s).at .pending
  | requestPoint => exact (requestPoint_writes s).at .pending
  | beginActive => exact (beginActive_writes s).at .pending
  | activeLine j => exact (beginLine_writes j s).at .pending
  | frameEnd => exact (endFrame_writes s).at .pending
  | pmark => exact (takeMark_writes s).at .pending
  | byte b => exact (takeByte_writes b s).at .pending
  | packet k body => exact (actPacket_writes k _ s).at .pending
  | arrive p => exact (arrive_writes p s).at .pending
  | badRun => rfl
  | build => exact (buildPart_writes s).at .pending
  | sendBegin => exact (beginSend_writes s).at .pending
  | sendEnd => exact (endSend_writes s).at .pending
  | reportBegin => rfl
  | reportEnd n => exact (endReport_writes n s).at .pending

/-! ## The machine and its reset -/

/-- Settles O1, by the two cases of the queue. -/
theorem stepRunsFront : Obligations.StepRunsFront :=
  ⟨fun c rest s => step_cons (s := { s with pending := c :: rest }) rfl, fun s h => by simp [step, h]⟩

/-- Settles O2: every command has an effect, and none of them writes the queue. -/
theorem everyCommandCompletes : Obligations.EveryCommandCompletes := by
  intro c s
  obtain ⟨t, ht, he⟩ := exec_effect c s
  exact ⟨t, ht, he.pending⟩

/-- While RESET# is asserted a command that is no reset command has no effect: it waits for the release, or BYPASS is asserted. -/
theorem exec_inReset {c : Instr} {s : State} (h : s.inReset = true) (h1 : c ≠ .resetAssert)
    (h2 : ∀ sn prf lead, c ≠ .resetRelease sn prf lead) : exec c s = .next s := by
  have hbypass : bypass s = true := by simp [bypass, h]
  have harrive : ∀ p, arrive p s = s := fun p => by simp [arrive, hbypass]
  have hrun : ∀ run, arriveRun run s = s := fun run => by simp [arriveRun, hbypass]
  have hsend : beginSend s = s := by simp [beginSend, hbypass]
  have hwait : ∀ f : State → State, whenReleased f s = s := fun f => whenReleased_inReset h
  cases c with
  | resetAssert => exact absurd rfl h1
  | resetRelease sn prf lead => exact absurd rfl (h2 sn prf lead)
  | beacon | join | propose | commit | withdraw | snapshotReq | snapshot => exact congrArg _ (harrive _)
  | failedParcelArrival run => exact congrArg _ (hrun run)
  | sendBegin => exact congrArg _ hsend
  | _ => exact congrArg _ (hwait _)

/-- Settles O3: off the reset commands by the release they wait for; RESET_ASSERT's state by its definition. -/
theorem resetAssertResets : Obligations.ResetAssertResets := by
  refine ⟨fun c s h h1 h2 => exec_inReset h h1 h2, fun s => ⟨assertReset s, rfl, ?_⟩⟩
  have hblank : Blanked (assertReset s) := blanked_of_pixels rfl
  have hread : ∀ i, Memory.read (assertReset s).table.entries i = resetEntry i := fun _ => rfl
  simp only [hblank, hread, implies_true, true_and]
  and_intros <;> rfl

/-- Settles O5: with every list empty and every count at 0 each clause is about values only. -/
theorem resetMeetsInvariants : Obligations.ResetMeetsInvariants where
  ring := ⟨by decide, nofun, by decide, nofun, by decide, List.nodup_nil, by decide, by decide⟩
  raster := ⟨by decide, by decide, by decide⟩
  table := ⟨rfl, by decide, List.nodup_nil, nofun, rfl, nofun, nofun, nofun, nofun⟩
  updates := ⟨by decide, List.nodup_nil, nofun, by decide, List.nodup_nil, nofun, nofun, by decide, nofun, by decide,
    List.nodup_nil, nofun, nofun, nofun⟩
  service := ⟨nofun, fun h => absurd rfl h, fun _ => rfl, fun h => absurd rfl h, by decide, List.nodup_nil, rfl, nofun, nofun,
    fun _ => ⟨rfl, rfl⟩, fun _ => ⟨rfl, rfl, rfl⟩⟩
  lock := ⟨rfl, rfl, rfl, by decide, nofun, by decide, nofun⟩
  member := ⟨by decide, by decide, by decide, by decide, by decide, nofun, by decide, rfl, nofun, List.Pairwise.nil, nofun⟩
  pixel := ⟨by decide, List.nodup_nil, fun _ => rfl, nofun, nofun, List.nodup_nil, nofun, nofun, by decide, by decide, Or.inl rfl⟩
  report := ⟨by decide, fun _ => ⟨rfl, rfl⟩⟩
  points := ⟨fun h => absurd rfl h, nofun, nofun, nofun, nofun, nofun, nofun, by decide, by decide, by decide, rfl,
    fun h => absurd rfl h⟩

/-! ## The release of RESET# (R55, R176) -/

theorem validNumber_iff (sn : BitVec 5) : validNumber sn = true ↔ 1 ≤ sn.toNat ∧ sn.toNat ≤ 30 := by
  have hwidth : (sn.setWidth 8).toNat = sn.toNat := BitVec.toNat_setWidth_of_le (by decide)
  rw [validNumber, isStation, Bool.and_eq_true, decide_eq_true_iff, decide_eq_true_iff, hwidth]

/-- The released machine before its report, in the station state given. -/
def released (st : StationState) (sn : BitVec 5) (prf lead : BitVec 2) (s : State) : State :=
  { State.reset with inReset := false,
                     straps := { station := sn.setWidth 8, profile := profileOfStrap prf, lead := leadOfStrap lead },
                     raster := Raster.reset (profileOfStrap prf), member := Member.reset st, panel.vsync := true,
                     freeDraws := s.freeDraws, pending := s.pending }

theorem releaseReset_of_valid {sn : BitVec 5} (prf lead : BitVec 2) (s : State) (h : validNumber sn = true) :
    releaseReset sn prf lead s = released .offRing sn prf lead s := by
  simp [releaseReset, released, h]

theorem releaseReset_of_invalid {sn : BitVec 5} (prf lead : BitVec 2) (s : State) (h : validNumber sn = false) :
    releaseReset sn prf lead s = event (.stateChange .isolated (some .invalidStrap)) (released .isolated sn prf lead s) := by
  simp [releaseReset, released, h]

theorem profileOfStrap_eq (prf : BitVec 2) : (prf = 0 → profileOfStrap prf = .p0) ∧ (prf = 1 → profileOfStrap prf = .p1)
    ∧ (prf = 2 → profileOfStrap prf = .p2) ∧ (prf = 3 → profileOfStrap prf = .p3) := by
  refine ⟨?_, ?_, ?_, ?_⟩ <;> rintro rfl <;> rfl

theorem leadOfStrap_eq (lead : BitVec 2) : (lead = 0 → leadOfStrap lead = .two) ∧ (lead = 1 → leadOfStrap lead = .three)
    ∧ (lead = 2 → leadOfStrap lead = .four) ∧ (lead = 3 → leadOfStrap lead = .six) := by
  refine ⟨?_, ?_, ?_, ?_⟩ <;> rintro rfl <;> rfl

/-- Settles O4: the two kinds of strapped number, each with its released machine; the report of ISOLATED writes the Report Unit only. -/
theorem resetReleaseBegins : Obligations.ResetReleaseBegins := by
  intro sn prf lead s h
  have hexec : exec (.resetRelease sn prf lead) s = .next (releaseReset sn prf lead s) := by
    show Host.Outcome.next _ = _
    rw [if_pos h]
  obtain ⟨p0, p1, p2, p3⟩ := profileOfStrap_eq prf
  obtain ⟨l0, l1, l2, l3⟩ := leadOfStrap_eq lead
  refine ⟨_, hexec, ?_⟩
  cases hv : validNumber sn with
  | true =>
    have hn := (validNumber_iff sn).mp hv
    rw [releaseReset_of_valid prf lead s hv]
    exact ⟨rfl, rfl, p0, p1, p2, p3, l0, l1, l2, l3, rfl, rfl, rfl, rfl, rfl, rfl, rfl, rfl, blanked_of_pixels rfl, rfl, rfl,
      fun _ _ => ⟨rfl, rfl⟩, fun hbad => by omega, rfl, rfl, rfl, rfl, rfl, rfl, rfl⟩
  | false =>
    have hn := mt (validNumber_iff sn).mpr (by simp [hv])
    rw [releaseReset_of_invalid prf lead s hv]
    exact ⟨rfl, rfl, p0, p1, p2, p3, l0, l1, l2, l3, rfl, rfl, rfl, rfl, rfl, rfl, rfl, rfl, blanked_of_pixels rfl, rfl, rfl,
      fun h1 h30 => absurd ⟨h1, h30⟩ hn, fun _ => ⟨rfl, rfl⟩, rfl, rfl, rfl, rfl, rfl, rfl, rfl⟩

/-! ## The shape of a frame (R15, R23, R28) -/

/-- From line V to the frame's last line with the apply operation over. -/
def Shown (s : State) : Prop := s.raster.active = true ∧ s.table.apply.phase = .idle

/-- An operation that leaves the apply operation's phase and the active lines alone keeps them shown. -/
theorem Shown.of_writes {fs : List Field} {s t : State} (w : Writes fs s t) (h : Shown s)
    (hf : [Field.active, .applyPhase].all (fun f => !fs.contains f) = true := by decide) : Shown t := by
  simp only [List.all_cons, List.all_nil, Bool.and_true, Bool.and_eq_true, Bool.not_eq_true'] at hf
  exact ⟨(w.at .active hf.1).trans h.1, (w.at .applyPhase hf.2).trans h.2⟩

/-- In the active lines the hand-over begins no apply operation (R14). -/
theorem shown_takeWork (w : FrameWork) (s : State) (h : Shown s) : Shown (takeWork w s) := by
  refine takeWork_keeps (fun w s h => h) (fun F w s h => ?_) w s h
  cases w with
  | listenGuard => exact h
  | holdExpiry =>
    have hex := h.of_writes (expireHeld_writes F s)
    refine ⟨hex.1, ?_⟩
    simp [doWork, storeStep, giveApplySet, hex.1]
  | inFlightAgeing => exact h.of_writes (ageInFlight_writes F s)
  | retentionExpiry => exact h.of_writes (expireRetained_writes F s)
  | originDeadlines => exact h.of_writes (testOrigins_writes s)
  | collectorDeadline => exact h.of_writes (collectorStep_writes F s)
  | stationAgeing => exact h.of_writes (ageStations_writes s)
  | transition => exact h.of_writes (transitionStep_writes F s)
  | backoff => exact h.of_writes (closeMembership_writes s)

theorem openApplyWindow_of_idle {s : State} (h : s.table.apply.phase = .idle) : openApplyWindow s = s := by
  simp [openApplyWindow, openApply, h]

theorem endInstall_of_idle {s : State} (h : s.table.apply.phase = .idle) : endInstall s = s := by
  simp [endInstall, h]

theorem shown_beginLine (j : Nat) {s : State} (h : Shown s) : Shown (beginLine j s) := by
  unfold beginLine
  split
  · rw [beginActive_off (Or.inr h.1)]
    exact h.of_writes (consumeLine_writes j s)
  · exact h

theorem shown_startLine {s : State} (h : Shown s) : Shown (startLine s) := by
  rw [startLine, openApplyWindow_of_idle h.2]
  exact shown_beginLine _ ((h.of_writes (openWindow_writes s)).of_writes (requestPoint_writes _))

/-- With the apply operation over, a line writes no entry (R15). -/
theorem bringLine_entries {s : State} (h : Shown s) : (bringLine s).table.entries = s.table.entries := by
  have hwork : Shown (finishWork s) := takeAll_keeps shown_takeWork workOrder h
  have hstart := shown_startLine hwork
  have hpoints : (startLine (finishWork s)).table.entries = (finishWork s).table.entries := by
    rw [startLine, openApplyWindow_of_idle hwork.2]
    exact ((beginLine_writes _ _).at .entries).trans (((requestPoint_writes _).at .entries).trans ((openWindow_writes _).at .entries))
  calc (bringLine s).table.entries
      = (endFrame (closeWindow (startLine (finishWork s)))).table.entries := by rw [bringLine, endLine_of_idle hstart.2]
    _ = (closeWindow (startLine (finishWork s))).table.entries := (endFrame_writes _).at .entries
    _ = (startLine (finishWork s)).table.entries := (closeWindow_writes _).at .entries
    _ = (finishWork s).table.entries := hpoints
    _ = s.table.entries := (finishWork_writes s).at .entries

theorem advanceLine_entries {s : State} (h : Shown s) : (advanceLine s).table.entries = s.table.entries := by
  unfold advanceLine
  split
  · exact ((passLine_writes _).at .entries).trans (bringLine_entries h)
  · rfl

/-- What the statement says of a command: the blanking length stays, the line too but at LINE_ADVANCE, and in the active lines the table. -/
def KeepsShape (c : Instr) (s t : State) : Prop :=
  t.raster.blanking = s.raster.blanking ∧ (c ≠ .lineAdvance → t.raster.line = s.raster.line)
    ∧ (Shown s → t.table.entries = s.table.entries)

/-- An operation that writes neither the line nor the table. -/
theorem keepsShape_of_writes {fs : List Field} {c : Instr} {s t : State} (w : Writes fs s t)
    (hf : [Field.blanking, .line, .entries].all (fun f => !fs.contains f) = true := by decide) : KeepsShape c s t := by
  simp only [List.all_cons, List.all_nil, Bool.and_true, Bool.and_eq_true, Bool.not_eq_true'] at hf
  obtain ⟨hblanking, hline, hentries⟩ := hf
  exact ⟨w.at .blanking hblanking, fun _ => w.at .line hline, fun _ => w.at .entries hentries⟩

/-- A step of the apply operation, which the active lines do not have. -/
theorem keepsShape_of_apply {fs : List Field} {c : Instr} {s t : State} (w : Writes fs s t) (hoff : Shown s → t = s)
    (hf : [Field.blanking, .line].all (fun f => !fs.contains f) = true := by decide) : KeepsShape c s t := by
  simp only [List.all_cons, List.all_nil, Bool.and_true, Bool.and_eq_true, Bool.not_eq_true'] at hf
  exact ⟨w.at .blanking hf.1, fun _ => w.at .line hf.2, fun h => by rw [hoff h]⟩

theorem Effect.keepsShape {c : Instr} {s t : State} (h : Effect s c t) (h1 : c ≠ .resetAssert)
    (h2 : ∀ sn prf lead, c ≠ .resetRelease sn prf lead) (h3 : ∀ left mid, c ≠ .frameStart left mid) : KeepsShape c s t := by
  cases h with
  | stay => exact keepsShape_of_writes (Writes.refl (fs := []) s)
  | resetAssert => exact absurd rfl h1
  | resetRelease sn prf lead => exact absurd rfl (h2 sn prf lead)
  | lineAdvance => exact ⟨(advanceLine_writes s).at .blanking, fun hc => absurd rfl hc, advanceLine_entries⟩
  | frameStart later mid => exact absurd rfl (h3 later mid)
  | work ws => exact keepsShape_of_writes (takeAll_writes ws s)
  | rejoin =>
    exact keepsShape_of_writes
      ((takeWork_writes .stationAgeing s).trans ((settleWork_writes .transition _).mono.trans (doRejoin_writes _).mono))
  | origin mine => exact keepsShape_of_writes (takeOrigin_writes mine s)
  | applyOpen => exact keepsShape_of_apply (openApplyWindow_writes s) fun h => openApplyWindow_of_idle h.2
  | installEnd => exact keepsShape_of_apply (endInstall_writes s) fun h => endInstall_of_idle h.2
  | applyEnd => exact keepsShape_of_writes (endApply_writes s)
  | windowOpen => exact keepsShape_of_writes (openWindow_writes s)
  | windowClose => exact keepsShape_of_writes (closeWindow_writes s)
  | requestPoint => exact keepsShape_of_writes (requestPoint_writes s)
  | beginActive => exact keepsShape_of_writes (beginActive_writes s)
  | activeLine j => exact keepsShape_of_writes (beginLine_writes j s)
  | frameEnd => exact keepsShape_of_writes (endFrame_writes s)
  | pmark => exact keepsShape_of_writes (takeMark_writes s)
  | byte b => exact keepsShape_of_writes (takeByte_writes b s)
  | packet k body => exact keepsShape_of_writes (actPacket_writes k _ s)
  | arrive p => exact keepsShape_of_writes (arrive_writes p s)
  | badRun => exact keepsShape_of_writes (countCrc_writes s)
  | build => exact keepsShape_of_writes (buildPart_writes s)
  | sendBegin => exact keepsShape_of_writes (beginSend_writes s)
  | sendEnd => exact keepsShape_of_writes (endSend_writes s)
  | reportBegin => exact keepsShape_of_writes (beginReport_writes s)
  | reportEnd n => exact keepsShape_of_writes (endReport_writes n s)

/-- Settles O9, effect by effect. -/
theorem frameKeepsItsShape : Obligations.FrameKeepsItsShape := by
  intro c s t hexec h1 h2 h3
  obtain ⟨hblanking, hline, hentries⟩ := (effect_of_exec hexec).keepsShape h1 h2 h3
  exact ⟨hblanking, hline, fun hactive hidle => hentries ⟨hactive, hidle⟩⟩

end Sys2Proof.Machine
end

