-- ==== Sys2Proof/Proofs/Stability.lean ====
section
/-! SUPPORT. Proofs/Stability.lean: the operations of the Membership Unit, the Origin Engine, the Snapshot Unit and the Ring Interface as
runs of a few primitive writes, said once: a property that the primitive writes keep is kept by every such operation. The invariants of
the other blocks are properties of this kind. -/

namespace Sys2Proof.Machine

set_option Elab.async false

/-! ## The primitive writes -/

/-- The fields that no invariant but those of the membership and of the updates reads. -/
abbrev Field.ofQuiet : List Field :=
  Field.ofMember ++ [.lockState, .lockRef, .offset, .seeded, .guard, .duplicateSeen, .cut, .rout, .responder, .progress, .store,
    .originList, .nextSeq, .lost, .crc, .overflow, .stray, .underrun, .late, .frameSlip, .frame, .freeDraws]

/-- A collector that holds no part but those that were gathered already (R138, R139). -/
def PartsFrom (s : State) (o : Option Collector) : Prop :=
  ∀ c, o = some c → c.parts = [] ∨ ∃ b, s.snap.collector = some b ∧ c.parts = b.parts

theorem partsFrom_same {s : State} {c c' : Collector} (hc : s.snap.collector = some c) (hp : c'.parts = c.parts) :
    PartsFrom s (some c') := by
  rintro _ ⟨⟩
  exact Or.inr ⟨c, hc, hp⟩

/-- The buffers and lists of the Ring Interface lose entries or are emptied (R38, R49, R53, R54). -/
structure RingLess (s t : State) : Prop where
  insertion : t.ring.insertion = s.ring.insertion ∨ t.ring.insertion = []
  transmit : t.ring.transmit = s.ring.transmit ∨ t.ring.transmit = []
  inFlight : t.ring.inFlight.Sublist s.ring.inFlight
  tag : t.ring.tag = s.ring.tag
  streak : t.ring.streak = s.ring.streak ∨ t.ring.streak = 0

/-- The property P is kept by the primitive writes. -/
structure Stable (P : State → Prop) : Prop where
  quiet : ∀ {s t}, Writes Field.ofQuiet s t → P s → P t
  report : ∀ r s, P s → P (report r s)
  queue : ∀ p s, P s → P (queueParcel p s)
  request : ∀ s, P s → P (requestBlanking (nominal s) s)
  collect : ∀ s o, PartsFrom s o → P s → P { s with snap.collector := o }
  shrink : ∀ {s t}, Writes (Field.ofQuiet ++ [.insertion, .transmit, .inFlight, .streak]) s t → RingLess s t → P s → P t

namespace Stable

variable {P : State → Prop}

/-- An operation that writes some of the quiet fields. -/
theorem writes (h : Stable P) {fs : List Field} {s t : State} (w : Writes fs s t) (hs : P s)
    (sub : fs.all (fun f => Field.ofQuiet.contains f) = true := by decide +kernel) : P t := h.quiet (w.mono sub) hs

theorem event (h : Stable P) (e : Event) (s : State) (hs : P s) : P (event e s) := h.report _ _ hs

theorem queueBody (h : Stable P) (n : StationNo) (b : Body) (s : State) (hs : P s) : P (queueBody n b s) := h.queue _ _ hs

theorem requestSnapshot (h : Stable P) (n : Option StationNo) (s : State) (hs : P s) : P (requestSnapshot n s) := by
  cases n with
  | none => exact hs
  | some n => exact h.queueBody n _ s hs

/-! ## The Lock Unit and the references -/

theorem lockRefChange (h : Stable P) (ref : Option StationNo) (s : State) (hs : P s) : P (lockRefChange ref s) := by
  have hlock : ∀ l : Lock, Writes [.lockState, .lockRef, .offset] s { s with lock := l } := by
    intro l f hf
    cases f with
    | lockState | lockRef | offset => exact absurd hf (by decide)
    | _ => rfl
  unfold Machine.lockRefChange
  split
  · exact h.request _ (h.writes (hlock _) hs)
  · exact h.writes (hlock _) hs

theorem loseReferences (h : Stable P) (s : State) (hs : P s) : P (loseReferences s) := by
  unfold Machine.loseReferences
  split
  · exact hs
  · exact h.lockRefChange _ _ hs

theorem failAttempt (h : Stable P) (c : Collector) (ref : Option StationNo) (s : State) (hs : P s) : P (failAttempt c ref s).1 := by
  unfold Machine.failAttempt
  split
  · exact h.requestSnapshot _ _ (h.collect s _ (by rintro c ⟨⟩; exact Or.inl rfl) hs)
  · exact h.collect s none nofun hs

theorem collectorRefChange (h : Stable P) (ref : Option StationNo) (s : State) (hs : P s) : P (collectorRefChange ref s).1 := by
  unfold Machine.collectorRefChange
  split
  case h_1 => exact hs
  case h_2 c hc =>
    split
    case h_1 =>
      split
      · exact hs
      · exact h.failAttempt c _ s hs
    case h_2 => exact h.failAttempt c none s hs
    case h_3 =>
      have hask : ∀ r, P (Machine.requestSnapshot (some r)
          { s with snap.collector := some { c with target := some r, deadline := now s + 6 } }) :=
        fun r => h.requestSnapshot _ _ (h.collect s _ (partsFrom_same hc rfl) hs)
      exact hask _
    case h_4 => exact hs

theorem collectorDeadline (h : Stable P) (F : Frame) (s : State) (hs : P s) : P (collectorDeadline F s).1 := by
  unfold Machine.collectorDeadline
  split
  · exact hs
  · split
    · exact h.failAttempt _ _ s hs
    · exact hs

theorem beginCollection (h : Stable P) (s : State) (hs : P s) : P (beginCollection s) :=
  h.requestSnapshot _ _ (h.collect s _ (by rintro c ⟨⟩; exact Or.inl rfl) hs)

theorem recomputeOnce (h : Stable P) (s : State) (hs : P s) : P (recomputeOnce s).state := by
  have hrefs : ∀ a b n, Writes [.tableRef, .timingRef, .mismatch] s
      { s with member.tableRef := a, member.timingRef := b, member.mismatch := n } := by
    intro a b n f hf
    cases f with
    | tableRef | timingRef | mismatch => exact absurd hf (by decide)
    | _ => rfl
  have hlock : ∀ (u : State) (p : Prop) [Decidable p] (m : Option StationNo), P u → P (if p then u else Machine.lockRefChange m u) := by
    intro u p _ m hu
    split
    · exact hu
    · exact h.lockRefChange m u hu
  have hcollector : ∀ (u : State) (p : Prop) [Decidable p] (m : Option StationNo), P u →
      P (if p then (u, false) else Machine.collectorRefChange m u).1 := by
    intro u p _ m hu
    split
    · exact hu
    · exact h.collectorRefChange m u hu
  exact hcollector _ _ _ (hlock _ _ _ (h.writes (hrefs _ _ _) hs))

/-- The fields of the Membership Unit and the seeded flag written in one go. -/
theorem member (h : Stable P) (s : State) (m : Member) (hs : P s) : P { s with member := m } := by
  refine h.writes (fs := Field.ofMember) (fun f hf => ?_) hs
  cases f <;> first | rfl | exact absurd hf (by decide)

theorem seeded (h : Stable P) (s : State) (b : Bool) (hs : P s) : P { s with table.seeded := b } := by
  refine h.writes (fs := [.seeded]) (fun f hf => ?_) hs
  cases f with
  | seeded => exact absurd hf (by decide)
  | _ => rfl

theorem enterInService (h : Stable P) (s : State) (hs : P s) : P (enterInService s) := h.recomputeOnce _ (h.member s _ hs)

theorem testService (h : Stable P) (s : State) (hs : P s) : P (testService s) := by
  unfold Machine.testService
  split
  · exact h.event _ _ (h.enterInService _ (h.seeded s true hs))
  · exact hs

theorem thirdFailure (h : Stable P) (s : State) (hs : P s) : P (thirdFailure s) := by
  unfold Machine.thirdFailure
  split
  · exact h.member s _ hs
  · exact h.event _ _ (h.enterInService _ (h.member s _ hs))
  · exact h.event _ _ (h.member s _ hs)
  all_goals exact hs

theorem recompute (h : Stable P) (s : State) (hs : P s) : P (recompute s) := by
  have h1 : P (if (Machine.recomputeOnce s).lockChanged then Machine.testService (Machine.recomputeOnce s).state
      else (Machine.recomputeOnce s).state) := by
    split
    · exact h.testService _ (h.recomputeOnce s hs)
    · exact h.recomputeOnce s hs
  unfold Machine.recompute
  dsimp only
  split
  · exact h.thirdFailure _ h1
  · exact h1

/-! ## Changes of station state -/

theorem clearResponder (h : Stable P) (s : State) (hs : P s) : P (clearResponder s) := h.writes (clearResponder_writes s) hs

theorem enterResync (h : Stable P) (c : ResyncCause) (s : State) (hs : P s) : P (enterResync c s) :=
  h.beginCollection _ (h.recompute _ (h.event _ _ (h.clearResponder _ (h.member s _ hs))))

theorem enterRingHold (h : Stable P) (s : State) (hs : P s) : P (enterRingHold s) :=
  h.recompute _ (h.event _ _ (h.clearResponder _ (h.member s _ hs)))

theorem leaveRingHold (h : Stable P) (s : State) (hs : P s) : P (leaveRingHold s) := by
  unfold Machine.leaveRingHold
  split
  · exact h.recompute _ (h.event _ _ (h.member s _ hs))
  · exact h.recompute _ (h.event _ _ (h.member s _ hs))

theorem enterJoining (h : Stable P) (s : State) (hs : P s) : P (enterJoining s) :=
  h.recompute _ (h.queueBody _ _ _ (h.event _ _ (h.member s _ hs)))

theorem enterIsolated (h : Stable P) (r : IsolationReason) (s : State) (hs : P s) : P (enterIsolated r s) := by
  refine h.event _ _ (h.shrink (s := Machine.loseReferences s) (fun f hf => ?_)
    ⟨Or.inr rfl, Or.inr rfl, List.nil_sublist _, rfl, Or.inr rfl⟩ (h.loseReferences s hs))
  cases f <;> first | rfl | exact absurd hf (by decide)

theorem duplicateNotice (h : Stable P) (s : State) (hs : P s) : P (duplicateNotice s) := by
  unfold Machine.duplicateNotice
  split
  · exact h.enterIsolated _ s hs
  · exact hs

theorem rejoinReports (h : Stable P) (s : State) (hs : P s) : P (rejoinReports s) :=
  foldl_keeps _ s (fun b r _ hb => h.report (rejoinReport r) b hb) hs

theorem rejoinReset (h : Stable P) (s : State) (hs : P s) : P (rejoinReset s) := by
  have hcollector := h.collect (Machine.loseReferences s) none nofun (h.loseReferences s hs)
  refine h.shrink (s := { Machine.loseReferences s with snap.collector := none }) (fun f hf => ?_)
    ⟨Or.inl rfl, Or.inr rfl, List.nil_sublist _, rfl, Or.inr rfl⟩ hcollector
  cases f <;> first | rfl | exact absurd hf (by decide)

theorem doRejoin (h : Stable P) (s : State) (hs : P s) : P (doRejoin s) := by
  have hdraw : P { s with freeDraws := s.freeDraws + 1 } := by
    refine h.writes (fs := [.freeDraws]) (fun f hf => ?_) hs
    cases f with
    | freeDraws => exact absurd hf (by decide)
    | _ => rfl
  unfold Machine.doRejoin
  dsimp only
  split
  · exact h.event _ _ (h.rejoinReset _ (h.rejoinReports _ hdraw))
  · exact h.rejoinReset _ (h.rejoinReports _ (h.event _ _ hdraw))

/-! ## Returns, measurement, comparison -/

theorem joinReturn (h : Stable P) (m : Bool) (s : State) (hs : P s) : P (joinReturn m s) := by
  have hcollect : ∀ (n : Bool) u, P u → P (Machine.testService (if n then Machine.beginCollection u else u)) := by
    intro n u hu
    split
    · exact h.testService _ (h.beginCollection u hu)
    · exact h.testService u hu
  unfold Machine.joinReturn
  split
  · split
    · exact h.enterIsolated _ s hs
    · exact hcollect _ _ (h.recompute _ (h.event _ _ (h.member s _ hs)))
  · exact hs

theorem adopt (h : Stable P) (F : Frame) (d : Int) (s : State) (hs : P s) : P (adopt F d s) := by
  have hframe : P { s with raster.frame := ownFrameOf F d } := by
    refine h.writes (fs := [.frame]) (fun f hf => ?_) hs
    cases f with
    | frame => exact absurd hf (by decide)
    | _ => rfl
  have hslip : P (if ownFrameOf F d = now s then s else
      let t := countFrameSlip { s with raster.frame := ownFrameOf F d }
      if s.member.state = .inService then Machine.event (.frameSlip (now s) (ownFrameOf F d) d) t else t) := by
    have hcount := h.writes (countFrameSlip_writes _) hframe
    dsimp only
    split
    · exact hs
    · split
      · exact h.event _ _ hcount
      · exact hcount
  unfold Machine.adopt
  dsimp only
  split
  · exact hframe
  · exact hslip
  · exact hslip
  · exact hs

/-- The request that a measurement makes is within 8 of nominal (R85). -/
theorem blankingOf_bounds (V : Nat) (d : Int) : V - 8 ≤ blankingOf V d ∧ blankingOf V d ≤ V + 8 := by
  unfold blankingOf
  repeat' split
  all_goals omega

theorem lockFields (h : Stable P) (s : State) (l : Lock) (hs : P s) : P { s with lock := l } := by
  refine h.writes (fs := [.lockState, .lockRef, .offset]) (fun f hf => ?_) hs
  cases f with
  | lockState | lockRef | offset => exact absurd hf (by decide)
  | _ => rfl

theorem compareDigest (h : Stable P) (dg : Option (Frame × Digest)) (s : State) (hs : P s) : P (compareDigest dg s) := by
  unfold Machine.compareDigest
  split
  · exact hs
  · split
    · exact hs
    · split
      · exact hs
      · split
        · exact h.member s _ hs
        · split
          · exact h.member s _ hs
          · exact h.enterResync _ s hs

theorem dropRequester (h : Stable P) (n : StationNo) (s : State) (hs : P s) : P (dropRequester n s) :=
  h.writes (dropRequester_writes n s) hs

theorem offerJoin (h : Stable P) (hd : Header) (b : JoinBody) (s : State) (hs : P s) : P (offerJoin hd b s).2 := by
  unfold Machine.offerJoin
  dsimp only
  split
  · exact h.recompute _ (h.dropRequester _ _ (h.member s _ hs))
  · exact hs

theorem markTest (h : Stable P) (bs : List Frame) (s : State) (hs : P s) : P (markTest bs s) := h.writes (markTest_writes bs s) hs

theorem installEnded (h : Stable P) (bs : List Frame) (s : State) (hs : P s) : P (installEnded bs s) := by
  have hmark := h.markTest bs s hs
  unfold Machine.installEnded
  split
  · dsimp only
    split
    · exact h.testService _ (h.member _ _ hmark)
    · exact hmark
  · exact h.event _ _ (h.enterInService _ hmark)
  · exact h.markTest _ _ (h.event _ _ hs)
  · exact hmark
  all_goals exact hs

/-! ## Frame-start work of the Membership Unit (R79) -/

theorem ageStations (h : Stable P) (s : State) (hs : P s) : P (ageStations s) := by
  unfold Machine.ageStations
  split
  · exact h.recompute _ (foldl_keeps _ _ (fun b n _ hb => h.dropRequester n b hb) (h.member s _ hs))
  · exact hs

theorem listenStep (h : Stable P) (s : State) (hs : P s) : P (listenStep s) := by
  have hcount := h.member s { s.member with listen := s.member.listen + 1 } hs
  unfold Machine.listenStep
  dsimp only
  split
  · exact h.enterJoining _ hcount
  · exact hcount

theorem joinStep (h : Stable P) (F : Frame) (s : State) (hs : P s) : P (joinStep F s) := by
  unfold Machine.joinStep
  split
  · exact hs
  · split
    · dsimp only
      split
      · exact h.queueBody _ _ _ (h.member s _ hs)
      · exact h.enterIsolated _ s hs
    · exact hs

theorem markStep (h : Stable P) (F : Frame) (s : State) (hs : P s) : P (markStep F s) := by
  have hclear := h.member s { s.member with mark := none } hs
  unfold Machine.markStep
  split
  · exact hs
  · split
    · dsimp only
      split
      · exact h.enterResync _ _ hclear
      · exact hclear
    · exact hs

theorem holdStep (h : Stable P) (s : State) (hs : P s) : P (holdStep s) := by
  have hcount := h.member s { s.member with hold := s.member.hold + 1 } hs
  unfold Machine.holdStep
  dsimp only
  split
  · exact h.doRejoin _ hcount
  · exact hcount

theorem transitionStep (h : Stable P) (F : Frame) (s : State) (hs : P s) : P (transitionStep F s) := by
  unfold Machine.transitionStep
  split
  · exact h.listenStep s hs
  · exact h.joinStep F s hs
  · split
    · exact h.doRejoin s hs
    · exact hs
  · split
    · exact h.enterRingHold s hs
    · exact h.markStep F s hs
  · split
    · exact h.enterRingHold s hs
    · exact hs
  · split
    · exact h.leaveRingHold s hs
    · exact h.holdStep s hs
  all_goals exact hs

theorem queueBeacon (h : Stable P) (s : State) (hs : P s) : P (queueBeacon s) := by
  unfold Machine.queueBeacon
  split
  · exact h.queueBody _ _ _ (h.member s _ hs)
  · exact hs

theorem closeMembership (h : Stable P) (s : State) (hs : P s) : P (closeMembership s) :=
  h.queueBeacon _ (h.recompute _ (h.writes (backoffStep_writes s) hs))

theorem collectorStep (h : Stable P) (F : Frame) (s : State) (hs : P s) : P (collectorStep F s) := by
  have hdeadline := h.collectorDeadline F s hs
  unfold Machine.collectorStep
  dsimp only
  split
  · exact h.thirdFailure _ hdeadline
  · exact hdeadline

/-! ## The Origin Engine and the Proposal Store -/

theorem store (h : Stable P) (s : State) (st : List Proposal) (hs : P s) : P { s with store := st } := h.writes (store_writes s st) hs

theorem setOrigin (h : Stable P) (q : Seq) (f : OriginRecord → OriginRecord) (s : State) (hs : P s) : P (setOrigin q f s) :=
  h.writes (setOrigin_writes q f s) hs

theorem dropOrigin (h : Stable P) (q : Seq) (s : State) (hs : P s) : P (dropOrigin q s) := h.writes (dropOrigin_writes q s) hs

theorem takeSeq (h : Stable P) (s : State) (hs : P s) : P (takeSeq s).2 := h.writes (takeSeq_writes s) hs

theorem acceptLoad (h : Stable P) (es : List Edit) (part : Bool) (s : State) (hs : P s) : P (acceptLoad es part s) :=
  h.writes (originList_writes _ _) (h.report _ _ (h.queueBody _ _ _ (h.store _ _ (h.takeSeq s hs))))

theorem judgeLoad (h : Stable P) (es : List Edit) (part : Bool) (s : State) (hs : P s) : P (judgeLoad es part s) := by
  unfold Machine.judgeLoad
  split
  · exact h.report _ s hs
  · exact h.acceptLoad es part s hs

theorem abandon (h : Stable P) (q : Seq) (s : State) (hs : P s) : P (abandon q s) :=
  h.dropOrigin q _ (h.report _ _ (h.store _ _ (h.queueBody _ _ s hs)))

theorem proposeReturn (h : Stable P) (b : ProposeBody) (s : State) (hs : P s) : P (proposeReturn b s) := by
  have hcommit : P (commitRound b.seq b.holders s) := by
    unfold commitRound
    split
    · exact h.setOrigin _ _ _ (h.queueBody _ _ _ (h.store s _ hs))
    · exact h.abandon _ s hs
  have hwithdraw : P (withdrawRound b.seq s) := h.setOrigin _ _ _ (h.store _ _ (h.queueBody _ _ s hs))
  unfold Machine.proposeReturn
  split
  · split
    · split
      · exact hcommit
      · exact hwithdraw
    · exact hs
  · exact hs

theorem commitReturn (h : Stable P) (q : Seq) (F : Frame) (s : State) (hs : P s) : P (commitReturn q F s) := by
  unfold Machine.commitReturn
  split
  · split
    · exact h.dropOrigin _ _ (h.report _ s hs)
    all_goals exact hs
  · exact hs

theorem dropReported (h : Stable P) (q : Seq) (m : Report) (s : State) (hs : P s) :
    P (Machine.dropOrigin q (Machine.report m s)) := h.dropOrigin q _ (h.report m s hs)

theorem originDue (h : Stable P) (r : OriginRecord) (s : State) (hs : P s) : P (originDue r s) := by
  have hproposing : P (proposingDue r s) := by
    unfold proposingDue
    split
    · exact h.setOrigin _ _ _ (h.store _ _ (h.queueBody _ _ s hs))
    · exact h.abandon _ s hs
  have hwithdrawn : P (withdrawnDue r s) := by
    unfold withdrawnDue
    split
    · exact h.dropReported _ _ s hs
    · split
      · split
        · exact h.setOrigin _ _ _ (h.report _ _ (h.queueBody _ _ _ (h.store _ _ (h.takeSeq s hs))))
        · exact h.dropReported _ _ s hs
      · exact h.setOrigin _ _ s hs
  have hcommitting : ∀ F, P (committingDue r F s) := by
    intro F
    unfold committingDue
    split
    · exact h.setOrigin _ _ _ (h.queueBody _ _ s hs)
    · exact h.dropReported _ _ s hs
  unfold Machine.originDue
  split
  · exact hproposing
  · exact hwithdrawn
  · exact hcommitting _

theorem testOrigin (h : Stable P) (F : Frame) (s : State) (q : Seq) (hs : P s) : P (testOrigin F s q) := by
  unfold Machine.testOrigin
  split
  · split
    · exact h.originDue _ s hs
    · exact hs
  · exact hs

theorem expireHeld (h : Stable P) (F : Frame) (s : State) (hs : P s) : P (expireHeld F s) :=
  foldl_keeps _ _ (fun b e _ hb => h.event e b hb) (h.store s _ hs)

/-! ## Sends that end, strays, overflows (R40, R48) -/

theorem insertionFull (h : Stable P) (w : Waiting) (s : State) (hs : P s) :
    P (if w.notice then Machine.duplicateNotice (countOverflow s) else countOverflow s) := by
  have hcount := h.writes (countOverflow_writes s) hs
  split
  · exact h.duplicateNotice _ hcount
  · exact hcount

theorem endSend (h : Stable P) (s : State) (hs : P s) : P (endSend s) := by
  have hidle : P { s with ring.rout := none } := by
    refine h.writes (fs := [.rout]) (fun f hf => ?_) hs
    cases f with
    | rout => exact absurd hf (by decide)
    | _ => rfl
  unfold Machine.endSend
  split
  · exact hs
  · dsimp only
    split
    · exact h.duplicateNotice _ hidle
    · exact hidle

/-! ## Returns (R38, R39) -/

theorem deliver (h : Stable P) (b : Body) (s : State) (hs : P s) : P (deliver b s) := by
  cases b with
  | beacon b => exact h.writes (beaconReturn_writes _ s) hs
  | join b => exact h.joinReturn _ s hs
  | propose b => exact h.proposeReturn b s hs
  | commit q F => exact h.commitReturn q F s hs
  | withdraw | snapshotReq | snapshot => exact hs

theorem strip (h : Stable P) (p : Parcel) (s : State) (hs : P s) : P (strip p s) := by
  unfold Machine.strip
  split
  · refine h.deliver _ _ (h.shrink (s := s) (fun f hf => ?_)
      ⟨Or.inl rfl, Or.inl rfl, List.eraseP_sublist, rfl, Or.inl rfl⟩ hs)
    cases f with
    | inFlight => exact absurd hf (by decide)
    | _ => rfl
  · unfold foreignParcel
    split
    · exact h.duplicateNotice s hs
    · exact h.event _ s hs

end Stable

/-! ## Arrivals -/

/-- The property P is kept by what an arrival does besides: a parcel joins the insertion buffer, a measurement requests a blanking length
within 8 of nominal (R85), a part is staged. -/
structure StableArrival (P : State → Prop) : Prop extends Stable P where
  insert : ∀ (w : Waiting) (s : State), s.ring.insertion.length < Config.insertionPlaces → w.parcel.header.hop.toNat ≤ 29 → P s →
    P { s with ring.insertion := s.ring.insertion ++ [w] }
  measured : ∀ n s, nominal s - 8 ≤ n → n ≤ nominal s + 8 → P s → P (requestBlanking n s)
  stage : ∀ (h : Header) (b : SnapshotBody) (s : State), bodyOk (.snapshot b) = true → P s → P (offerSnapshot h b s)

namespace StableArrival

variable {P : State → Prop}

theorem measure (h : StableArrival P) (F : Frame) (s : State) (hs : P s) : P (measure F s) := by
  unfold Machine.measure
  split
  · exact hs
  · dsimp only
    generalize hd : offsetOf s.raster.line (totalLines s) = d
    have hadopt : P (Machine.adopt F d { s with lock.offset := some d }) := h.adopt F d _ (h.lockFields s _ hs)
    have hnominal : nominal (Machine.adopt F d { s with lock.offset := some d }) = nominal s :=
      congrArg (fun x : Straps => x.profile.blanking) ((adopt_writes F d { s with lock.offset := some d }).at .straps)
    obtain ⟨hlo, hhi⟩ := Stable.blankingOf_bounds (nominal s) d
    have hrequest := h.measured (blankingOf (nominal s) d)
      { Machine.adopt F d { s with lock.offset := some d } with lock.state := lockOf d }
      (hnominal.symm ▸ hlo) (hnominal.symm ▸ hhi) (h.lockFields _ _ hadopt)
    split
    · exact hrequest
    · exact h.testService _ hrequest

theorem offerBeacon (h : StableArrival P) (hd : Header) (b : BeaconBody) (s : State) (hs : P s) : P (offerBeacon hd b s) := by
  have hmeasure : ∀ t : State, P t → P (if t.member.timingRef = some hd.origin then Machine.measure b.frame t else t) := by
    intro t ht
    split
    · exact h.measure _ t ht
    · exact ht
  have hcompare : ∀ t : State, P t → P (if t.member.tableRef = some hd.origin then Machine.compareDigest b.digest t else t) := by
    intro t ht
    split
    · exact h.compareDigest _ t ht
    · exact ht
  unfold Machine.offerBeacon
  split
  · exact hs
  · exact hcompare _ (hmeasure _ (h.recompute _ (h.member s _ hs)))

theorem consume (h : StableArrival P) (p : Parcel) (s : State) (hp : bodyOk p.body = true) (hs : P s) : P (consume p s).2 := by
  unfold Machine.consume
  split
  · exact h.offerBeacon _ _ s hs
  · exact h.offerJoin _ _ s hs
  · exact h.writes (offerPropose_writes _ _ s) hs
  · exact h.writes (offerCommit_writes _ _ _ s) hs
  · exact h.writes (offerWithdraw_writes _ _ s) hs
  · exact h.writes (offerSnapshotReq_writes _ s) hs
  case h_7 b hb => exact h.stage _ _ s (hb ▸ hp) hs

theorem raiseHop_le {p : Parcel} (h : isStray p = false) : (raiseHop p).header.hop.toNat ≤ 29 := by
  have hlt : p.header.hop.toNat + 1 ≤ 29 := by simpa [isStray] using h
  have hhop : (p.header.hop + 1).toNat = (p.header.hop.toNat + 1) % 256 := BitVec.toNat_add _ _
  show (p.header.hop + 1).toNat ≤ 29
  omega

theorem forward (h : StableArrival P) (p : Parcel) (notice : Bool) (s : State) (hp : bodyOk p.body = true) (hs : P s) :
    P (forward p notice s) := by
  have hcount := h.writes (countStray_writes s) hs
  unfold Machine.forward
  split
  · split
    · exact h.duplicateNotice _ hcount
    · exact hcount
  · rename_i hstray
    have hconsume := h.consume (raiseHop p) s hp hs
    dsimp only
    unfold insertionJoin
    split
    · rename_i hplace
      exact h.insert _ _ hplace (raiseHop_le (by simpa using hstray)) hconsume
    · exact h.insertionFull _ _ hconsume

/-- Stamps of origin 0 held as null pass the check as before. -/
theorem bodyOk_parcelNorm {p : Parcel} (h : bodyOk p.body = true) : bodyOk (parcelNorm p).body = true := by
  have hstamp : ∀ st, stampOk st = true → stampOk (stampNorm st) = true := by
    intro st hst
    cases st with
    | null => rfl
    | mark f o q =>
      show stampOk (if o = 0 then .null else .mark f o q) = true
      split
      · rfl
      · exact hst
  unfold parcelNorm
  split
  case h_1 b hb =>
    rw [hb] at h
    simp only [bodyOk, Bool.and_eq_true, decide_eq_true_iff, List.all_eq_true, List.length_map, List.mem_map,
      forall_exists_index, and_imp, forall_apply_eq_imp_iff₂] at h ⊢
    obtain ⟨⟨hpart, hsize⟩, hstamps⟩ := h
    exact ⟨⟨hpart, hsize⟩, fun e he => hstamp _ (hstamps e he)⟩
  all_goals exact h

theorem arrive (h : StableArrival P) (p : Parcel) (s : State) (hs : P s) : P (arrive p s) := by
  unfold Machine.arrive
  split
  · exact hs
  · split
    · exact h.writes (endCut_writes s) hs
    · split
      · exact h.writes (countCrc_writes s) hs
      · rename_i hform
        have hbody : bodyOk (parcelNorm p).body = true := by
          simp only [parcelOk, Bool.and_eq_true, Bool.not_eq_false] at hform
          exact bodyOk_parcelNorm hform.2
        dsimp only
        split
        · split
          · unfold ownWhileListening
            split
            · exact hs
            · refine h.forward _ _ _ hbody (h.writes (fs := [.duplicateSeen]) (s := s) (fun f hf => ?_) hs)
              cases f with
              | duplicateSeen => exact absurd hf (by decide)
              | _ => rfl
          · exact h.strip _ s hs
        · exact h.forward _ _ s hbody hs

end StableArrival

/-! ## Frame-start work -/

/-- The property P is kept by what a piece of frame-start work does besides. -/
structure StableWork (P : State → Prop) : Prop extends Stable P where
  settle : ∀ w s, P s → P (settleWork w s)
  untested : ∀ rest s, P s → P (untested rest s)
  give : ∀ s, P s → P (giveApplySet s)
  retain : ∀ F s, P s → P (expireRetained F s)

namespace StableWork

variable {P : State → Prop}

theorem doWork (h : StableWork P) (F : Frame) (w : FrameWork) (s : State) (hs : P s) : P (doWork F w s) := by
  cases w with
  | listenGuard => exact h.writes (guard_writes s false) hs
  | inFlightAgeing =>
    refine h.shrink (s := s) (fun f hf => ?_) ⟨Or.inl rfl, Or.inl rfl, List.filter_sublist, rfl, Or.inl rfl⟩ hs
    cases f with
    | inFlight => exact absurd hf (by decide)
    | _ => rfl
  | holdExpiry => exact h.give _ (h.expireHeld F s hs)
  | retentionExpiry => exact h.retain F s hs
  | originDeadlines => exact foldl_keeps _ _ (fun b q _ hb => h.testOrigin _ b q hb) (h.untested [] s hs)
  | collectorDeadline => exact h.collectorStep F s hs
  | stationAgeing => exact h.ageStations s hs
  | transition => exact h.transitionStep F s hs
  | backoff => exact h.closeMembership s hs

theorem takeWork (h : StableWork P) (w : FrameWork) (s : State) (hs : P s) : P (takeWork w s) :=
  takeWork_keeps h.settle h.doWork w s hs

theorem takeAll (h : StableWork P) (ws : List FrameWork) {s : State} (hs : P s) : P (takeAll ws s) := takeAll_keeps h.takeWork ws hs

theorem takeOrigin (h : StableWork P) (mine : Phase → Bool) (s : State) (hs : P s) : P (takeOrigin mine s) := by
  unfold Machine.takeOrigin
  split
  · split
    · split
      · exact h.originDue _ _ (h.untested _ s hs)
      · exact hs
    · exact h.settle _ _ (h.untested [] s hs)
  · exact hs

theorem rejoin (h : StableWork P) (s : State) (hs : P s) : P (doRejoin (settleWork .transition (Machine.takeWork .stationAgeing s))) :=
  h.doRejoin _ (h.settle _ _ (h.takeWork _ s hs))

end StableWork

end Sys2Proof.Machine
end

