-- ==== Sys2Proof/Proofs/RingRasterReports.lean ====
section
/-! SUPPORT. Proofs/RingRasterReports.lean: what the points of a frame and the image source keep of the blocks they do not belong to, and
the invariants of the Ring Interface, of the raster and of the report line under every command. -/

namespace Sys2Proof.Machine

set_option Elab.async false

/-! ## The points of a frame and the image source -/

/-- The fields of the Table Store, the Pixel Port and the panel that the points of a frame and the image source write. -/
abbrev Field.ofScreen : List Field :=
  [.entries, .seeded, .applyPhase, .applySince, .digest, .history, .active, .black, .slots, .requests, .requested, .begun, .rx,
   .readbacks, .cwin, .pixels, .overflow, .underrun, .late]

/-- The property P is kept by everything but the Ring Interface's sends, the report line's, and the ends of lines and frames. -/
structure StableScreen (P : State → Prop) : Prop extends StableArrival P, StableWork P where
  screen : ∀ {s t}, Writes Field.ofScreen s t → P s → P t

namespace StableScreen

variable {P : State → Prop}

/-- An operation that writes some fields of the screen's blocks. -/
theorem screenWrites (h : StableScreen P) {fs : List Field} {s t : State} (w : Writes fs s t) (hs : P s)
    (sub : fs.all (fun f => Field.ofScreen.contains f) = true := by decide +kernel) : P t := h.screen (w.mono sub) hs

theorem applyDue (h : StableScreen P) (s : State) (hs : P s) : P (applyDue s) := by
  refine foldl_keeps _ _ (fun b r _ hb => ?_) (h.screenWrites (entries_writes s _) hs)
  unfold lateNotice
  split
  · exact h.event _ _ (h.screenWrites (countLate_writes b) hb)
  · exact hb

/-- The table and the phase of the apply operation written in one go. -/
theorem applying_writes (s : State) (es : Table) (p : ApplyPhase) (n : Nat) (b : Bool) :
    Writes [.entries, .seeded, .applyPhase, .applySince] s
      { s with table.entries := es, table.seeded := b, table.apply.phase := p, table.apply.since := n } := by
  intro f hf
  cases f with
  | entries | seeded | applyPhase | applySince => exact absurd hf (by decide)
  | _ => rfl

theorem openApplyWindow (h : StableScreen P) (s : State) (hs : P s) : P (openApplyWindow s) := by
  unfold Machine.openApplyWindow
  split
  · unfold openApply
    split
    · split
      · exact h.screenWrites (applying_writes s _ _ _ _) hs
      · exact h.applyDue _ (h.screenWrites (judging_writes s 1) hs)
    · exact hs
  · exact hs

theorem endInstall (h : StableScreen P) (s : State) (hs : P s) : P (endInstall s) := by
  unfold Machine.endInstall
  split
  · exact h.applyDue _ (h.screenWrites (entries_writes _ _) (h.installEnded _ _ (h.screenWrites (applying_writes s _ _ _ _) hs)))
  · exact hs

theorem serveReadback (h : StableScreen P) (s : State) (r : ReadbackReq) (hs : P s) : P (serveReadback s r) :=
  foldl_keeps _ s (fun b _ _ hb => h.report _ b hb) hs

theorem readbacks_writes (s : State) (l : List ReadbackReq) : Writes [.readbacks] s { s with pixel.readbacks := l } := by
  intro f hf
  cases f with
  | readbacks => exact absurd hf (by decide)
  | _ => rfl

theorem endApply (h : StableScreen P) (s : State) (hs : P s) : P (endApply s) := by
  unfold Machine.endApply
  split
  · exact foldl_keeps _ _ (fun b r _ hb => h.serveReadback b r hb)
      (h.screenWrites (readbacks_writes _ _) (h.screenWrites (phase_writes s _) hs))
  · exact hs

theorem window_writes (s : State) (c : Bool) (r : Rx) : Writes [.cwin, .rx] s { s with pixel.cwin := c, pixel.rx := r } := by
  intro f hf
  cases f with
  | cwin | rx => exact absurd hf (by decide)
  | _ => rfl

theorem closeWindow (h : StableScreen P) (s : State) (hs : P s) : P (closeWindow s) := by
  unfold Machine.closeWindow
  split
  · dsimp only
    split
    · exact h.report _ _ (h.screenWrites (window_writes s _ _) hs)
    · exact h.screenWrites (window_writes s _ _) hs
    all_goals exact h.screenWrites (window_writes s false s.pixel.rx) hs
  · exact hs

theorem startLine (h : StableScreen P) (s : State) (hs : P s) : P (startLine s) :=
  h.screenWrites (beginLine_writes _ _) (h.screenWrites (requestPoint_writes _) (h.screenWrites (openWindow_writes _)
    (h.openApplyWindow s hs)))

theorem endLine (h : StableScreen P) (s : State) (hs : P s) : P (endLine s) := by
  have hinstall : P (if installDue s then Machine.endInstall s else s) := by
    split
    · exact h.endInstall s hs
    · exact hs
  have happly : ∀ u, P u → P (if applyOver u then Machine.endApply u else u) := by
    intro u hu
    split
    · exact h.endApply u hu
    · exact hu
  exact h.screenWrites (endFrame_writes _) (h.closeWindow _ (happly _ hinstall))

theorem bringLine (h : StableScreen P) (s : State) (hs : P s) : P (bringLine s) :=
  h.endLine _ (h.startLine _ (h.takeAll workOrder hs))

theorem takeMark (h : StableScreen P) (s : State) (hs : P s) : P (takeMark s) := by
  unfold Machine.takeMark
  split
  · unfold markPacket
    split
    · exact h.report _ _ (h.screenWrites (rx_writes s _) hs)
    all_goals exact h.screenWrites (rx_writes s _) hs
  · exact h.screenWrites (markLine_writes s) hs

theorem actPacket (h : StableScreen P) (k : Byte) (j : Except PacketReason PacketAction) (s : State) (hs : P s) :
    P (actPacket k j s) := by
  have hstatus : ∀ c, P (answerStatus c s) := by
    intro c
    cases c with
    | false => exact h.report _ s hs
    | true => exact h.writes (clearCounts_writes _) (h.report _ s hs)
  have hreadback : ∀ r, P (acceptReadback k r s) := by
    intro r
    unfold acceptReadback
    split
    · split
      · exact h.screenWrites (readbacks_writes s _) hs
      · exact h.report _ s hs
    · exact h.serveReadback s r hs
  unfold Machine.actPacket
  split
  · exact h.report _ s hs
  · exact h.judgeLoad _ _ s hs
  · exact hreadback _
  · exact hstatus _

theorem takeByte (h : StableScreen P) (b : Byte) (s : State) (hs : P s) : P (takeByte b s) := by
  unfold Machine.takeByte
  split
  · exact h.screenWrites (lineByte_writes _ _ s) hs
  · unfold packetByte
    dsimp only
    split
    · exact h.actPacket _ _ _ (h.screenWrites (rx_writes s _) hs)
    · exact h.screenWrites (rx_writes s _) hs
  · split
    · exact h.report _ _ (h.screenWrites (rx_writes s _) hs)
    · exact h.screenWrites (countOverflow_writes _) (h.screenWrites (rx_writes s _) hs)
  · exact hs
  · exact hs

theorem buildPart (h : StableScreen P) (s : State) (hs : P s) : P (buildPart s) := by
  unfold Machine.buildPart
  split
  · split
    · split
      · exact h.writes (advanceResponder_writes _ _) (h.queue _ s hs)
      · exact hs
    · exact hs
  · exact hs

/-- Every effect is kept, where the resets, the ends of lines and frames and the sends are. -/
theorem effect (h : StableScreen P) {c : Instr} {s t : State} (he : Effect s c t) (hassert : P (assertReset s))
    (hrelease : ∀ sn prf lead, P (releaseReset sn prf lead s)) (hline : P s → P (advanceLine s))
    (hframe : ∀ later mid, P s → P (nextFrame later mid s)) (hsend : P s → P (beginSend s))
    (hbegin : P s → P (beginReport s)) (hend : ∀ n, P s → P (endReport n s)) (hs : P s) : P t := by
  cases he with
  | stay => exact hs
  | resetAssert => exact hassert
  | resetRelease sn prf lead => exact hrelease sn prf lead
  | lineAdvance => exact hline hs
  | frameStart later mid => exact hframe later mid hs
  | work ws => exact h.takeAll ws hs
  | rejoin => exact h.rejoin s hs
  | origin mine => exact h.takeOrigin mine s hs
  | applyOpen => exact h.openApplyWindow s hs
  | installEnd => exact h.endInstall s hs
  | applyEnd => exact h.endApply s hs
  | windowOpen => exact h.screenWrites (openWindow_writes s) hs
  | windowClose => exact h.closeWindow s hs
  | requestPoint => exact h.screenWrites (requestPoint_writes s) hs
  | beginActive => exact h.screenWrites (beginActive_writes s) hs
  | activeLine j => exact h.screenWrites (beginLine_writes j s) hs
  | frameEnd => exact h.screenWrites (endFrame_writes s) hs
  | pmark => exact h.takeMark s hs
  | byte b => exact h.takeByte b s hs
  | packet k body => exact h.actPacket k _ s hs
  | arrive p => exact h.arrive p s hs
  | badRun => exact h.writes (countCrc_writes s) hs
  | build => exact h.buildPart s hs
  | sendBegin => exact hsend hs
  | sendEnd => exact h.endSend s hs
  | reportBegin => exact hbegin hs
  | reportEnd n => exact hend n hs

end StableScreen

/-! ## The Ring Interface -/

/-- A parcel queued leaves a BEACON at the head only (R44). -/
theorem transmitJoin_tail_ok {p : Parcel} {q r : List Parcel} (h : transmitJoin p q = some r)
    (hq : ∀ x ∈ q.tail, isBeacon x = false) : ∀ x ∈ r.tail, isBeacon x = false := by
  unfold transmitJoin at h
  intro x hx
  split at h
  case isTrue =>
    split at h
    case isTrue =>
      obtain rfl := Option.some.inj h
      simpa using (List.mem_filter.mp hx).2
    case isFalse hany =>
      split at h
      case isTrue =>
        obtain rfl := Option.some.inj h
        simp only [Bool.not_eq_true, List.any_eq_false] at hany
        simpa using hany x hx
      case isFalse => exact absurd h nofun
  case isFalse hbeacon =>
    split at h
    case isFalse => exact absurd h nofun
    case isTrue =>
      obtain rfl := Option.some.inj h
      cases q with
      | nil => exact absurd hx (by simp)
      | cons y q =>
        rcases List.mem_append.mp hx with hx | hx
        · exact hq x hx
        · rw [List.mem_singleton.mp hx]; simpa using hbeacon

theorem RingOk.queueParcel {s : State} (h : RingOk s) (p : Parcel) : RingOk (queueParcel p s) := by
  unfold Machine.queueParcel
  split
  · exact h
  · split
    case h_1 q hq =>
      exact { h with transmit := transmitJoin_length hq h.transmit, beaconFirst := transmitJoin_tail_ok hq h.beaconFirst }
    case h_2 => exact h

/-- The Ring Interface with fewer entries. -/
theorem RingOk.of_less {s t : State} (h : RingOk s) (hl : RingLess s t) : RingOk t := by
  have htags : (t.ring.inFlight.map (·.tag)).Sublist (s.ring.inFlight.map (·.tag)) := hl.inFlight.map _
  refine ⟨?_, ?_, ?_, ?_, hl.inFlight.length_le.trans h.inFlight, h.tags.sublist htags, ?_, ?_⟩
  · rcases hl.insertion with e | e <;> rw [e]
    · exact h.insertion
    · exact Nat.zero_le _
  · rcases hl.insertion with e | e <;> rw [e]
    · exact h.hops
    · exact nofun
  · rcases hl.transmit with e | e <;> rw [e]
    · exact h.transmit
    · exact Nat.zero_le _
  · rcases hl.transmit with e | e <;> rw [e]
    · exact h.beaconFirst
    · exact nofun
  · rw [hl.tag]
    exact fun hm => h.freeTag (htags.subset hm)
  · rcases hl.streak with e | e <;> rw [e]
    · exact h.streak
    · exact Nat.zero_le _

theorem ringOk_stable : StableScreen RingOk where
  quiet w h := h.of_writes w
  report r s h := h.of_writes (report_writes r s)
  queue p s h := h.queueParcel p
  request s h := h.of_writes (requestBlanking_writes _ s)
  measured n s _ _ h := h.of_writes (requestBlanking_writes n s)
  collect s o _ h := h.of_writes (collector_writes s o)
  shrink _ hl h := h.of_less hl
  insert w s hplace hhop h := {
    h with
    insertion := by
      rw [List.length_append]
      exact hplace
    hops := by
      intro x hx
      rcases List.mem_append.mp hx with hx | hx
      · exact h.hops x hx
      · rw [List.mem_singleton.mp hx]; exact hhop }
  stage hd b s _ h := h.of_writes (offerSnapshot_writes hd b s)
  settle w s h := h.of_writes (settleWork_writes w s)
  untested rest s h := h.of_writes (untested_writes rest s)
  give s h := h.of_writes (giveApplySet_writes s)
  retain F s h := h.of_writes (expireRetained_writes F s)
  screen w h := h.of_writes w

/-- The invariant speaks of the Ring Interface only. -/
theorem RingOk.of_ring {s t : State} (h : RingOk s) (e : t.ring = s.ring) : RingOk t :=
  ⟨e ▸ h.insertion, e ▸ h.hops, e ▸ h.transmit, e ▸ h.beaconFirst, e ▸ h.inFlight, e ▸ h.tags, e ▸ h.freeTag, e ▸ h.streak⟩

/-- After a device reset (R52). -/
theorem ringOk_reset {s : State} (h : s.ring = Ring.reset) : RingOk s := resetMeetsInvariants.ring.of_ring h

/-- The released machine, ISOLATED's report apart. -/
theorem releaseReset_keeps {P : State → Prop} (hevent : ∀ e s, P s → P (event e s)) {sn : BitVec 5} {prf lead : BitVec 2} {s : State}
    (h : ∀ st, P (released st sn prf lead s)) : P (releaseReset sn prf lead s) := by
  cases hv : validNumber sn with
  | true =>
    rw [releaseReset_of_valid prf lead s hv]
    exact h _
  | false =>
    rw [releaseReset_of_invalid prf lead s hv]
    exact hevent _ _ (h _)

/-- A forwarded send takes the first parcel of the buffer; past an own parcel that is ready it counts to 8 at most (R45, R46). -/
theorem RingOk.sendForwarded {s : State} (h : RingOk s) (hc : headReady s = true → s.ring.streak < Config.streakLimit) :
    RingOk (sendForwarded s) := by
  unfold Machine.sendForwarded
  split
  case h_2 => exact h
  case h_1 w rest hw =>
    refine { h with insertion := ?_, hops := fun x hx => h.hops x (hw ▸ List.mem_cons_of_mem _ hx), streak := ?_ }
    · have := h.insertion
      rw [hw, List.length_cons] at this
      exact Nat.le_of_succ_le this
    · show (if headReady s then s.ring.streak + 1 else 0) ≤ Config.streakLimit
      split
      · rename_i hr
        exact hc hr
      · exact Nat.zero_le _

/-- An own send takes the head of the queue, the free tag, and the next one (R46, R47). -/
theorem RingOk.sendOwn {s : State} (h : RingOk s) (hc : headReady s = true) : RingOk (sendOwn s) := by
  unfold Machine.sendOwn
  split
  case h_2 => exact h
  case h_1 p rest hp =>
    simp only [headReady, Bool.and_eq_true, decide_eq_true_iff] at hc
    have hflight : s.ring.inFlight.length < 8 := hc.2
    refine { h with
      transmit := ?_
      beaconFirst := fun x hx => h.beaconFirst x (hp ▸ List.mem_of_mem_tail hx)
      inFlight := ?_
      tags := ?_
      freeTag := nextFree_not_mem ?_ _
      streak := Nat.zero_le _ }
    · have := h.transmit
      rw [hp, List.length_cons] at this
      exact Nat.le_of_succ_le this
    · simpa using hc.2
    · rw [List.map_append]
      exact List.nodup_append.mpr ⟨h.tags, List.nodup_singleton _, fun a ha b hb hab =>
        h.freeTag (by rw [List.map_singleton, List.mem_singleton] at hb; rwa [hab, hb] at ha)⟩
    · simp only [List.length_map, List.length_append, List.length_singleton]
      omega

theorem RingOk.beginSend {s : State} (h : RingOk s) : RingOk (beginSend s) := by
  unfold Machine.beginSend
  split
  · exact h
  · split
    · rename_i hc
      simp only [Bool.and_eq_true, Bool.or_eq_true, Bool.not_eq_true', decide_eq_true_iff] at hc
      exact h.sendForwarded fun hr => hc.2.resolve_left (by simp [hr])
    · split
      · rename_i hr
        exact h.sendOwn hr
      · exact h

/-- Every effect keeps the Ring Interface's invariant. -/
theorem Effect.ringOk {c : Instr} {s t : State} (he : Effect s c t) (hs : RingOk s) : RingOk t := by
  refine ringOk_stable.effect he (ringOk_reset rfl) (fun sn prf lead => ?_) (fun h => ?_) (fun later mid h => ?_)
    RingOk.beginSend (fun h => h.of_writes (beginReport_writes s)) (fun n h => h.of_writes (endReport_writes n s)) hs
  · exact releaseReset_keeps ringOk_stable.event fun st => ringOk_reset rfl
  · unfold advanceLine
    split
    · exact (ringOk_stable.bringLine s h).of_writes (passLine_writes _)
    · exact h
  · unfold nextFrame
    split
    · rw [startFrame_eq]
      exact ringOk_stable.takeAll _ ((ringOk_stable.bringLine s h).of_writes (openFrame_writes mid _))
    · exact h

/-! ## The raster -/

theorem rasterOk_stable : StableScreen RasterOk where
  quiet w h := h.of_writes w
  report r s h := h.of_writes (report_writes r s)
  queue p s h := h.of_writes (queueParcel_writes p s)
  request _ h := { h with request := ⟨Nat.sub_le _ _, Nat.le_add_right _ _⟩ }
  measured _ _ hlo hhi h := { h with request := ⟨hlo, hhi⟩ }
  collect s o _ h := h.of_writes (collector_writes s o)
  shrink w _ h := h.of_writes w
  insert w s _ _ h := ⟨h.line, h.blanking, h.request⟩
  stage hd b s _ h := h.of_writes (offerSnapshot_writes hd b s)
  settle w s h := h.of_writes (settleWork_writes w s)
  untested rest s h := h.of_writes (untested_writes rest s)
  give s h := h.of_writes (giveApplySet_writes s)
  retain F s h := h.of_writes (expireRetained_writes F s)
  screen w h := h.of_writes w

theorem lines_pos (p : Profile) : 0 < p.lines := by
  cases p <;> decide

theorem rasterOk_reset {s : State} (h : s.raster = Raster.reset s.straps.profile) : RasterOk s := by
  refine ⟨?_, ?_, ?_⟩
  · rw [totalLines, h]
    exact Nat.add_pos_right _ (lines_pos _)
  all_goals
    rw [h]
    exact ⟨Nat.sub_le _ _, Nat.le_add_right _ _⟩

/-- A frame starts at line 0, with the requested blanking length or the nominal one, and the request at nominal (R24, R28). -/
theorem RasterOk.advanceFrame {s : State} (h : RasterOk s) : RasterOk (advanceFrame s) := by
  refine ⟨Nat.add_pos_right _ (lines_pos _), ?_, Nat.sub_le _ _, Nat.le_add_right _ _⟩
  show nominal s - 8 ≤ newBlanking s ∧ newBlanking s ≤ nominal s + 8
  unfold newBlanking
  split
  · exact h.request
  · exact ⟨Nat.sub_le _ _, Nat.le_add_right _ _⟩

/-- A line that is not the last is followed by another (R23). -/
theorem RasterOk.passLine {s : State} (h : RasterOk s) (hlt : s.raster.line + 1 < totalLines s) : RasterOk (passLine s) :=
  ⟨hlt, h.blanking, h.request⟩

/-- What a frame start does at once, after the raster. -/
theorem openFrame_writes_rest (mid : Bool) (s : State) :
    Writes ([.startWork, .stationState, .listen, .guard, .duplicateSeen, .cut, .returned, .miss, .ret, .slot, .rx, .begun]
      ++ Field.ofReport ++ Field.ofApply ++ Field.ofLines) (advanceFrame s) (openFrame mid s) := by
  unfold openFrame
  exact (startWork_writes _ _).mono.trans ((leaveOffRing_writes _ _).mono.trans
    ((judgeBeacon_writes _).mono.trans ((takeApply_writes _ _).mono.trans (clearLines_writes _).mono)))

theorem totalLines_of_writes {fs : List Field} {s t : State} (w : Writes fs s t)
    (hf : [Field.blanking, .straps].all (fun f => !fs.contains f) = true := by decide +kernel) : totalLines t = totalLines s := by
  simp only [List.all_cons, List.all_nil, Bool.and_true, Bool.and_eq_true, Bool.not_eq_true'] at hf
  have h1 : t.raster.blanking = s.raster.blanking := w.at .blanking hf.1
  have h2 : t.straps = s.straps := w.at .straps hf.2
  rw [totalLines, totalLines, h1, h2]

/-- Every effect keeps the raster's invariant. -/
theorem Effect.rasterOk {c : Instr} {s t : State} (he : Effect s c t) (hs : RasterOk s) : RasterOk t := by
  refine rasterOk_stable.effect he (rasterOk_reset rfl) (fun sn prf lead => ?_) (fun h => ?_) (fun later mid h => ?_)
    (fun h => h.of_writes (beginSend_writes s)) (fun h => h.of_writes (beginReport_writes s))
    (fun n h => h.of_writes (endReport_writes n s)) hs
  · exact releaseReset_keeps rasterOk_stable.event fun st => rasterOk_reset rfl
  · unfold advanceLine
    split
    · rename_i hlt
      have hline : (bringLine s).raster.line = s.raster.line := (bringLine_writes s).at .line
      refine (rasterOk_stable.bringLine s h).passLine ?_
      rw [hline, totalLines_of_writes (bringLine_writes s)]
      exact hlt
    · exact h
  · unfold nextFrame
    split
    · rw [startFrame_eq]
      exact rasterOk_stable.takeAll _ ((rasterOk_stable.bringLine s h).advanceFrame.of_writes (openFrame_writes_rest mid _))
    · exact h

/-! ## The report line -/

theorem reportOk_stable : StableScreen ReportOk where
  quiet w h := h.of_writes w
  report r _ h := h.report r
  queue p s h := h.of_writes (queueParcel_writes p s)
  request s h := h.of_writes (requestBlanking_writes _ s)
  measured n s _ _ h := h.of_writes (requestBlanking_writes n s)
  collect s o _ h := h.of_writes (collector_writes s o)
  shrink w _ h := h.of_writes w
  insert w s _ _ h := ⟨h.places, h.idle⟩
  stage hd b s _ h := h.of_writes (offerSnapshot_writes hd b s)
  settle w s h := h.of_writes (settleWork_writes w s)
  untested rest s h := h.of_writes (untested_writes rest s)
  give s h := h.of_writes (giveApplySet_writes s)
  retain F s h := h.of_writes (expireRetained_writes F s)
  screen w h := h.of_writes w

/-- The next head begins its send where there is one (R167). -/
theorem ReportOk.of_nextSend {u : ReportUnit} {t : State} (ht : t.report = nextSend u) (hplaces : u.queue.length ≤ Config.reportPlaces)
    (hends : u.sending = none → u.endsAfter = 0) : ReportOk t := by
  refine ⟨?_, fun hidle => ?_⟩
  · rw [ht]
    exact (nextSend_length u).trans hplaces
  · rw [ht] at hidle ⊢
    refine ⟨nextSend_idle hidle, ?_⟩
    rw [nextSend_endsAfter]
    refine hends ?_
    unfold nextSend at hidle
    split at hidle <;> simp_all

theorem ReportOk.endReport {s : State} (h : ReportOk s) (n : Nat) : ReportOk (endReport n s) := by
  unfold Machine.endReport
  split
  case h_2 => exact h
  case h_1 r hr =>
    split
    · exact ReportOk.of_nextSend (u := { s.report with sending := none, endsAfter := 0 }) rfl h.places (fun _ => rfl)
    · exact ⟨h.places, fun hidle => absurd (hr.symm.trans hidle) nofun⟩

theorem ReportOk.leaveOffRing {s : State} (h : ReportOk s) (mid : Bool) : ReportOk (leaveOffRing mid s) := by
  unfold Machine.leaveOffRing
  split
  · exact ReportOk.report _ ⟨h.places, h.idle⟩
  · exact h

theorem ReportOk.openFrame {s : State} (h : ReportOk s) (mid : Bool) : ReportOk (openFrame mid s) := by
  have hraster : ∀ w, ReportOk { advanceFrame s with startWork := w } := fun w => ⟨h.places, h.idle⟩
  have hleft := fun w => (hraster w).leaveOffRing mid
  have hjudged := fun w => (hleft w).of_writes (judgeBeacon_writes _)
  exact ((hjudged _).of_writes (takeApply_writes _ _)).of_writes (clearLines_writes _)

theorem reportOk_reset {s : State} (h : s.report = ReportUnit.reset) : ReportOk s := by
  refine ⟨?_, fun _ => ?_⟩ <;> rw [h]
  · exact Nat.zero_le _
  · exact ⟨rfl, rfl⟩

/-- Every effect keeps the report line's invariant. -/
theorem Effect.reportOk {c : Instr} {s t : State} (he : Effect s c t) (hs : ReportOk s) : ReportOk t := by
  refine reportOk_stable.effect he (reportOk_reset rfl) (fun sn prf lead => ?_) (fun h => ?_) (fun later mid h => ?_)
    (fun h => h.of_writes (beginSend_writes s))
    (fun h => ReportOk.of_nextSend (u := s.report) rfl h.places (fun hn => (h.idle hn).2)) (fun n h => h.endReport n) hs
  · exact releaseReset_keeps reportOk_stable.event fun st => reportOk_reset rfl
  · unfold advanceLine
    split
    · exact (reportOk_stable.bringLine s h).of_writes (passLine_writes _)
    · exact h
  · unfold nextFrame
    split
    · rw [startFrame_eq]
      exact reportOk_stable.takeAll _ ((reportOk_stable.bringLine s h).openFrame mid)
    · exact h

end Sys2Proof.Machine
end

