-- ==== Sys2Proof/Proofs/LineBuffer.lean ====
section
/-! SUPPORT. Proofs/LineBuffer.lean: the line buffer of the Pixel Port under each of its operations, and its invariant under every
command (R145 to R151, R158, R160). -/

namespace Sys2Proof.Machine

set_option Elab.async false

/-! ## Slots and lines -/

theorem lineWidth_pos (s : State) : 0 < lineWidth s := by
  unfold lineWidth
  cases s.straps.profile <;> decide

/-- Of the bound slots one is bound to a line. -/
theorem PixelOk.slot_unique {s : State} (h : PixelOk s) {x y : Slot} (hx : x ∈ s.pixel.slots) (hy : y ∈ s.pixel.slots)
    (hl : x.line % 2 = y.line % 2) : x = y := List.inj_on_of_nodup_map h.lines hx hy hl

theorem PixelOk.findSlot_eq {s : State} (h : PixelOk s) {k : Nat} {x y : Slot} (hx : findSlot k s = some x) (hy : y ∈ s.pixel.slots)
    (hk : y.line = k) : y = x := by
  obtain ⟨hline, hmem⟩ := findSlot_line hx
  exact h.slot_unique hy hmem (by rw [hk, hline])

/-- Without slots there is no request outstanding. -/
theorem PixelOk.no_requests {s : State} (h : PixelOk s) (hs : s.pixel.slots = []) : s.pixel.outstanding = [] := by
  refine List.eq_nil_iff_forall_not_mem.mpr fun k hk => ?_
  obtain ⟨x, hx, _⟩ := h.outstandingBound k hk
  rw [hs] at hx
  exact absurd hx (by simp)

theorem slotOk_boundSlot (k : Nat) (s : State) : SlotOk (lineWidth s) (boundSlot k s) := by
  unfold SlotOk boundSlot
  by_cases hk : k < s.pixel.begun <;> simp [hk, lineWidth_pos s]

theorem boundSlot_state (k : Nat) (s : State) : (boundSlot k s).state = .awaiting ∨ (boundSlot k s).state = .abandoned := by
  unfold boundSlot
  by_cases hk : k < s.pixel.begun <;> simp [hk]

/-- A line requested into an empty slot, no other slot being of its parity (R145). -/
theorem PixelOk.requestLine {s : State} (h : PixelOk s) {k : Nat} (hk : ∀ x ∈ s.pixel.slots, x.line % 2 ≠ k % 2) :
    PixelOk (requestLine k s) := by
  unfold Machine.requestLine
  split
  case isFalse => exact h
  case isTrue hc =>
    have hnew : ∀ x ∈ s.pixel.slots, x.line ≠ k := fun x hx hxk => hk x hx (by rw [hxk])
    have hnotAsked : k ∉ s.pixel.outstanding := by
      intro hm
      obtain ⟨x, hx, hxk, _⟩ := h.outstandingBound k hm
      exact hnew x hx hxk
    refine { h with
      slots := ?_, lines := ?_, unrequested := nofun, form := ?_, awaited := ?_, outstandingOnce := ?_, outstandingBound := ?_,
      reception := ?_ }
    · rw [List.length_append]
      exact hc.2
    · rw [List.map_append]
      refine List.nodup_append.mpr ⟨h.lines, List.nodup_singleton _, ?_⟩
      rintro _ ha _ hb rfl
      obtain ⟨x, hx, hxp⟩ := List.mem_map.mp ha
      rw [List.map_singleton, List.mem_singleton] at hb
      exact hk x hx (hxp.trans hb)
    · intro x hx
      rcases List.mem_append.mp hx with hx | hx
      · exact h.form x hx
      · rw [List.mem_singleton.mp hx]
        exact slotOk_boundSlot k s
    · intro x hx hxs
      refine List.mem_append.mpr ?_
      rcases List.mem_append.mp hx with hx | hx
      · exact Or.inl (h.awaited x hx hxs)
      · rw [List.mem_singleton.mp hx]
        exact Or.inr (List.mem_singleton.mpr rfl)
    · exact List.nodup_append.mpr ⟨h.outstandingOnce, List.nodup_singleton _, fun a ha b hb hab =>
        hnotAsked (by rwa [hab, List.mem_singleton.mp hb] at ha)⟩
    · intro m hm
      rcases List.mem_append.mp hm with hm | hm
      · obtain ⟨x, hx, hxm⟩ := h.outstandingBound m hm
        exact ⟨x, List.mem_append.mpr (Or.inl hx), hxm⟩
      · exact ⟨_, List.mem_append.mpr (Or.inr (List.mem_singleton.mpr rfl)), (List.mem_singleton.mp hm).symm, boundSlot_state k s⟩
    · intro m hm
      obtain ⟨hnot, x, hx, hxm, hxs⟩ := h.reception m hm
      refine ⟨fun hmem => ?_, x, List.mem_append.mpr (Or.inl hx), hxm, hxs⟩
      rcases List.mem_append.mp hmem with hmem | hmem
      · exact hnot hmem
      · exact hnew x hx (hxm.trans (List.mem_singleton.mp hmem))

/-- A line's slot emptied, its line neither requested nor in reception. -/
theorem PixelOk.dropSlot {s : State} (h : PixelOk s) {k : Nat} (hasked : k ∉ s.pixel.outstanding) (hrx : s.pixel.rx ≠ .line k) :
    PixelOk { s with pixel.slots := s.pixel.slots.filter (fun x => !(x.line == k)) } := by
  have hkeep : ∀ {x : Slot} {m : Nat}, x ∈ s.pixel.slots → x.line = m → m ≠ k →
      x ∈ s.pixel.slots.filter (fun x => !(x.line == k)) := by
    intro x m hx hm hne
    exact List.mem_filter.mpr ⟨hx, by simp [hm, hne]⟩
  refine { h with
    slots := (List.length_filter_le _ _).trans h.slots
    lines := h.lines.sublist (List.filter_sublist.map _)
    unrequested := fun h0 => by
      show s.pixel.slots.filter _ = []
      rw [h.unrequested h0]
      rfl
    form := fun x hx => h.form x (List.mem_of_mem_filter hx)
    awaited := fun x hx => h.awaited x (List.mem_of_mem_filter hx)
    outstandingBound := fun m hm => ?_
    reception := fun m hm => ?_ }
  · obtain ⟨x, hx, hxm, hxs⟩ := h.outstandingBound m hm
    exact ⟨x, hkeep hx hxm (fun e => hasked (e ▸ hm)), hxm, hxs⟩
  · obtain ⟨hnot, x, hx, hxm, hxs⟩ := h.reception m hm
    exact ⟨hnot, x, hkeep hx hxm (fun e => hrx (e ▸ hm)), hxm, hxs⟩

/-- A bound line's slot freed for the line two on (R145). -/
theorem PixelOk.freeSlot {s : State} (h : PixelOk s) {k : Nat} {x : Slot} (hx : findSlot k s = some x) (hasked : k ∉ s.pixel.outstanding)
    (hrx : s.pixel.rx ≠ .line k) : PixelOk (freeSlot k s) := by
  obtain ⟨hxk, hmem⟩ := findSlot_line hx
  refine (h.dropSlot hasked hrx).requestLine fun y hy hp => ?_
  obtain ⟨hy, hyk⟩ := List.mem_filter.mp hy
  have hsame : y = x := h.slot_unique hy hmem (by omega)
  simp [hsame, hxk] at hyk

/-- The slot of one line changed: in form, awaiting only if it was, and as a request or a reception of the line asks. -/
theorem PixelOk.setSlot {s : State} (h : PixelOk s) {k : Nat} {f : Slot → Slot} (hline : ∀ x, (f x).line = x.line)
    (hslot : ∀ x ∈ s.pixel.slots, x.line = k → SlotOk (lineWidth s) (f x) ∧ ((f x).state = .awaiting → x.state = .awaiting)
      ∧ (k ∈ s.pixel.outstanding → (f x).state = .awaiting ∨ (f x).state = .abandoned)
      ∧ (s.pixel.rx = .line k → (f x).state = .receiving ∨ (f x).state = .abandoned)) : PixelOk (setSlot k f s) := by
  have hcases : ∀ {y : Slot}, y ∈ s.pixel.slots.map (fun x => if x.line = k then f x else x) →
      (y ∈ s.pixel.slots ∧ y.line ≠ k) ∨ ∃ x ∈ s.pixel.slots, x.line = k ∧ y = f x := by
    intro y hy
    obtain ⟨x, hx, rfl⟩ := List.mem_map.mp hy
    by_cases hk : x.line = k
    · exact Or.inr ⟨x, hx, hk, if_pos hk⟩
    · rw [if_neg hk]
      exact Or.inl ⟨hx, hk⟩
  have hmem : ∀ x ∈ s.pixel.slots, (if x.line = k then f x else x) ∈ s.pixel.slots.map (fun x => if x.line = k then f x else x) :=
    fun x hx => List.mem_map_of_mem hx
  have hlines : (s.pixel.slots.map (fun x => if x.line = k then f x else x)).map (fun x => x.line % 2)
      = s.pixel.slots.map (fun x => x.line % 2) := by
    rw [List.map_map]
    refine List.map_congr_left fun x _ => ?_
    by_cases hk : x.line = k <;> simp [hk, hline]
  refine { h with
    slots := by
      show (s.pixel.slots.map _).length ≤ _
      rw [List.length_map]
      exact h.slots
    lines := by
      show ((s.pixel.slots.map _).map _).Nodup
      rw [hlines]
      exact h.lines
    unrequested := fun h0 => by
      show s.pixel.slots.map _ = []
      rw [h.unrequested h0]
      rfl
    form := fun y hy => ?_
    awaited := fun y hy hys => ?_
    outstandingBound := fun m hm => ?_
    reception := fun m hm => ?_ }
  · rcases hcases hy with ⟨hy, _⟩ | ⟨x, hx, hxk, rfl⟩
    · exact h.form y hy
    · exact (hslot x hx hxk).1
  · rcases hcases hy with ⟨hy, _⟩ | ⟨x, hx, hxk, rfl⟩
    · exact h.awaited y hy hys
    · obtain ⟨_, hawait, _, _⟩ := hslot x hx hxk
      rw [hline]
      exact h.awaited x hx (hawait hys)
  · obtain ⟨x, hx, hxm, hxs⟩ := h.outstandingBound m hm
    refine ⟨_, hmem x hx, ?_⟩
    by_cases hk : x.line = k
    · obtain ⟨_, _, hbound, _⟩ := hslot x hx hk
      rw [if_pos hk]
      exact ⟨(hline x).trans hxm, hbound (hk ▸ hxm ▸ hm)⟩
    · rw [if_neg hk]
      exact ⟨hxm, hxs⟩
  · obtain ⟨hnot, x, hx, hxm, hxs⟩ := h.reception m hm
    refine ⟨hnot, _, hmem x hx, ?_⟩
    by_cases hk : x.line = k
    · obtain ⟨_, _, _, hreceive⟩ := hslot x hx hk
      rw [if_pos hk]
      exact ⟨(hline x).trans hxm, hreceive (hm.trans (by rw [← hxm, hk]))⟩
    · rw [if_neg hk]
      exact ⟨hxm, hxs⟩

/-- The receiver out of a line. -/
theorem PixelOk.setRx {s : State} (h : PixelOk s) {r : Rx} (hr : ∀ k, r ≠ .line k) : PixelOk { s with pixel.rx := r } :=
  { h with reception := fun k hk => absurd hk (hr k) }

/-! ## The line-request point (R145) -/

theorem PixelOk.requestPoint {s : State} (h : PixelOk s) : PixelOk (requestPoint s) := by
  unfold Machine.requestPoint
  split
  case isFalse => exact h
  case isTrue hc =>
    have hempty := h.unrequested hc.2
    have hzero : PixelOk (Machine.requestLine 0 s) := h.requestLine (by rw [hempty]; exact nofun)
    refine hzero.requestLine fun x hx => ?_
    unfold Machine.requestLine at hx
    split at hx
    · rw [hempty] at hx
      rw [show x = boundSlot 0 s from List.mem_singleton.mp hx]
      exact nofun
    · rw [hempty] at hx
      exact absurd hx (by simp)

/-! ## PMARK (R147, R149, R151) -/

/-- The reception of a line that is no longer requested ends, the receiver out of it. -/
theorem PixelOk.endReception {s : State} (h : PixelOk s) {k : Nat} (hrx : ∀ j, s.pixel.rx ≠ .line j) (hasked : k ∉ s.pixel.outstanding) :
    PixelOk (endReception k s) := by
  unfold Machine.endReception
  split
  case h_2 => exact h
  case h_1 x hx =>
    split
    case h_1 hs =>
      refine h.setSlot (fun _ => rfl) fun y hy hyk => ?_
      have hform := h.form y hy
      rw [h.findSlot_eq hx hy hyk] at hform ⊢
      simp only [SlotOk, hs] at hform ⊢
      exact ⟨hform.1 ▸ hform.2, nofun, fun hm => absurd hm hasked, fun hk => absurd hk (hrx k)⟩
    case h_2 => exact h.freeSlot hx hasked (hrx k)
    all_goals exact h

theorem requestLine_setRx (k : Nat) (s : State) (r : Rx) :
    requestLine k { s with pixel.rx := r } = { requestLine k s with pixel.rx := r } := by
  unfold requestLine
  split <;> split
  case isTrue.isTrue => rfl
  case isTrue.isFalse hc hn => exact absurd hc hn
  case isFalse.isTrue hn hc => exact absurd hc hn
  case isFalse.isFalse => rfl

/-- The end of a reception does not depend on the receiver's state. -/
theorem endReception_setRx (k : Nat) (s : State) (r : Rx) :
    endReception k { s with pixel.rx := r } = { endReception k s with pixel.rx := r } := by
  have hfind : findSlot k { s with pixel.rx := r } = findSlot k s := rfl
  unfold endReception
  rw [hfind]
  split
  · split
    · rfl
    · exact requestLine_setRx (k + 2) { s with pixel.slots := s.pixel.slots.filter (fun x => !(x.line == k)) } r
    all_goals rfl
  · rfl

/-- The state in which a PMARK takes its request: the reception in progress ended. -/
def received (s : State) : State :=
  match s.pixel.rx with
  | .line k => endReception k s
  | .wait | .packet _ | .discard | .drain => s

/-- The oldest request taken, its line in reception. -/
def takeRequest (k : Nat) (s : State) : State :=
  setSlot k (fun x => { x with state := if x.state = .awaiting then .receiving else x.state })
    { s with pixel.outstanding := s.pixel.outstanding.tail, pixel.rx := .line k }

theorem markLine_eq (s : State) : markLine s = match s.pixel.outstanding.head? with
    | some k => takeRequest k (received s)
    | none => countOverflow { received s with pixel.rx := .discard } := rfl

/-- Out of the line that was in reception, the line buffer is in order. -/
theorem PixelOk.received {s : State} (h : PixelOk s) : PixelOk { received s with pixel.rx := .wait } := by
  have hwait : PixelOk { s with pixel.rx := .wait } := h.setRx nofun
  unfold Machine.received
  split
  case h_1 k hk =>
    rw [← endReception_setRx]
    exact hwait.endReception nofun (h.reception k hk).1
  all_goals exact hwait

/-- The end of a reception may append a request; it takes none. -/
theorem endReception_outstanding (k : Nat) (s : State) :
    ∃ more, (endReception k s).pixel.outstanding = s.pixel.outstanding ++ more := by
  unfold endReception
  split
  · split
    · exact ⟨[], (List.append_nil _).symm⟩
    · unfold freeSlot requestLine
      split
      · exact ⟨[k + 2], rfl⟩
      · exact ⟨[], (List.append_nil _).symm⟩
    all_goals exact ⟨[], (List.append_nil _).symm⟩
  · exact ⟨[], (List.append_nil _).symm⟩

theorem received_outstanding (s : State) : ∃ more, (received s).pixel.outstanding = s.pixel.outstanding ++ more := by
  unfold received
  split
  · exact endReception_outstanding _ s
  all_goals exact ⟨[], (List.append_nil _).symm⟩

/-- The oldest request taken: its slot waits no longer, or was abandoned. -/
theorem PixelOk.takeRequest {s : State} (h : PixelOk { s with pixel.rx := .wait }) {k : Nat} {rest : List Nat}
    (hk : s.pixel.outstanding = k :: rest) : PixelOk (takeRequest k s) := by
  have hnodup := h.outstandingOnce
  rw [hk] at hnodup
  obtain ⟨hnot, hrest⟩ := List.nodup_cons.mp hnodup
  obtain ⟨x, hx, hxk, hxs⟩ := h.outstandingBound k (by rw [hk]; exact List.mem_cons_self)
  have hunique : ∀ y ∈ s.pixel.slots, y.line = k → y = x := fun y hy hyk => h.slot_unique hy hx (by rw [hyk, hxk])
  have hmem : ∀ y ∈ s.pixel.slots, y.line ≠ k → y ∈ (Machine.takeRequest k s).pixel.slots := by
    intro y hy hyk
    exact List.mem_map.mpr ⟨y, hy, if_neg hyk⟩
  have hcases : ∀ y ∈ (Machine.takeRequest k s).pixel.slots, (y ∈ s.pixel.slots ∧ y.line ≠ k)
      ∨ y = { x with state := if x.state = .awaiting then .receiving else x.state } := by
    intro y hy
    obtain ⟨z, hz, rfl⟩ := List.mem_map.mp hy
    by_cases hzk : z.line = k
    · rw [if_pos hzk, hunique z hz hzk]
      exact Or.inr rfl
    · rw [if_neg hzk]
      exact Or.inl ⟨hz, hzk⟩
  have hlines : (Machine.takeRequest k s).pixel.slots.map (fun x => x.line % 2) = s.pixel.slots.map (fun x => x.line % 2) := by
    show (s.pixel.slots.map _).map _ = _
    rw [List.map_map]
    refine List.map_congr_left fun y _ => ?_
    by_cases hyk : y.line = k <;> simp [hyk]
  refine { h with
    slots := by
      show (s.pixel.slots.map _).length ≤ _
      rw [List.length_map]
      exact h.slots
    lines := by
      rw [hlines]
      exact h.lines
    unrequested := fun h0 => by
      show s.pixel.slots.map _ = []
      rw [show s.pixel.slots = [] from h.unrequested h0]
      rfl
    form := fun y hy => ?_
    awaited := fun y hy hys => ?_
    outstandingOnce := by
      show s.pixel.outstanding.tail.Nodup
      rw [hk]
      exact hrest
    outstandingBound := fun m hm => ?_
    reception := fun m hm => ?_ }
  · rcases hcases y hy with ⟨hy, _⟩ | rfl
    · exact h.form y hy
    · have hform := h.form x hx
      rcases hxs with e | e
      · simp only [SlotOk, e] at hform ⊢
        simp only [if_true, hform.1, hform.2]
        exact ⟨rfl, lineWidth_pos s⟩
      · simp only [SlotOk, e] at hform ⊢
        exact hform
  · rcases hcases y hy with ⟨hy, hyk⟩ | rfl
    · have hmem := h.awaited y hy hys
      rw [show s.pixel.outstanding = k :: rest from hk] at hmem
      show y.line ∈ s.pixel.outstanding.tail
      rw [hk]
      exact (List.mem_cons.mp hmem).resolve_left hyk
    · rcases hxs with e | e <;> simp [e] at hys
  · have hm' : m ∈ rest := by
      have : m ∈ s.pixel.outstanding.tail := hm
      rwa [hk] at this
    obtain ⟨y, hy, hym, hys⟩ := h.outstandingBound m (by rw [hk]; exact List.mem_cons_of_mem _ hm')
    have hne : y.line ≠ k := fun e => hnot (by rw [← e, hym]; exact hm')
    exact ⟨y, hmem y hy hne, hym, hys⟩
  · obtain rfl : k = m := Rx.line.inj hm
    refine ⟨?_, _, List.mem_map.mpr ⟨x, hx, if_pos hxk⟩, hxk, ?_⟩
    · show k ∉ s.pixel.outstanding.tail
      rw [hk]
      exact hnot
    · rcases hxs with e | e <;> simp [e]

theorem PixelOk.markLine {s : State} (h : PixelOk s) : PixelOk (markLine s) := by
  have hreceived := h.received
  obtain ⟨more, hmore⟩ := received_outstanding s
  rw [markLine_eq]
  split
  case h_1 k hk =>
    obtain ⟨rest, hrest⟩ : ∃ rest, s.pixel.outstanding = k :: rest := List.head?_eq_some_iff.mp hk
    exact hreceived.takeRequest (rest := rest ++ more) (by rw [hmore, hrest]; rfl)
  case h_2 =>
    have hdiscard : PixelOk { Machine.received s with pixel.rx := .discard } := { hreceived with reception := nofun }
    exact hdiscard.of_writes (countOverflow_writes _)

theorem PixelOk.takeMark {s : State} (h : PixelOk s) : PixelOk (takeMark s) := by
  unfold Machine.takeMark
  split
  · unfold markPacket
    split
    · exact (h.setRx (r := .packet []) nofun).of_writes (report_writes _ _)
    all_goals exact h.setRx nofun
  · exact h.markLine

/-! ## Bytes (R148) -/

theorem PixelOk.lineByte {s : State} (h : PixelOk s) {k : Nat} (hrx : s.pixel.rx = .line k) (b : Byte) : PixelOk (lineByte k b s) := by
  have hasked : k ∉ s.pixel.outstanding := (h.reception k hrx).1
  have hwait : PixelOk { s with pixel.rx := .wait } := h.setRx nofun
  unfold Machine.lineByte
  split
  case h_2 => exact h
  case h_1 x hx =>
    have hform : ∀ y ∈ s.pixel.slots, y.line = k → y = x ∧ SlotOk (lineWidth s) x := fun y hy hyk =>
      ⟨h.findSlot_eq hx hy hyk, h.form x (findSlot_line hx).2⟩
    split
    case h_1 hs =>
      split
      case isTrue hlt =>
        refine h.setSlot (fun _ => rfl) fun y hy hyk => ?_
        obtain ⟨rfl, hslot⟩ := hform y hy hyk
        simp only [SlotOk, hs] at hslot ⊢
        exact ⟨⟨by simp [hslot.1], hlt⟩, nofun, fun hm => absurd hm hasked, fun _ => Or.inl trivial⟩
      case isFalse hge =>
        refine hwait.setSlot (fun _ => rfl) fun y hy hyk => ?_
        obtain ⟨rfl, hslot⟩ := hform y hy hyk
        simp only [SlotOk, hs] at hslot ⊢
        refine ⟨?_, nofun, fun hm => absurd hm hasked, nofun⟩
        rw [List.length_append, hslot.1]
        exact Nat.le_antisymm hslot.2 (Nat.le_of_not_lt hge)
    case h_2 hs =>
      split
      case isTrue hlt =>
        refine h.setSlot (fun _ => rfl) fun y hy hyk => ?_
        obtain ⟨rfl, hslot⟩ := hform y hy hyk
        simp only [SlotOk, hs] at hslot ⊢
        exact ⟨⟨hslot.1, hlt⟩, nofun, fun _ => Or.inr trivial, fun _ => Or.inr trivial⟩
      case isFalse => exact hwait.freeSlot hx hasked nofun
    all_goals exact h

/-- A packet acted on keeps at most four READBACKs waiting (R158). -/
theorem PixelOk.actPacket {s : State} (h : PixelOk s) (k : Byte) (j : Except PacketReason PacketAction) : PixelOk (actPacket k j s) := by
  unfold Machine.actPacket
  split
  · exact h.of_writes (report_writes _ s)
  · exact h.of_writes (judgeLoad_writes _ _ s)
  · unfold acceptReadback
    split
    · split
      · rename_i hplace
        exact { h with readbacks := by rw [List.length_append]; exact hplace }
      · exact h.of_writes (report_writes _ s)
    · exact h.of_writes (serveReadback_writes s _)
  · exact h.of_writes (answerStatus_writes _ s)

theorem PixelOk.takeByte {s : State} (h : PixelOk s) (b : Byte) : PixelOk (takeByte b s) := by
  unfold Machine.takeByte
  split
  case h_1 k hk => exact h.lineByte hk b
  case h_2 =>
    unfold packetByte
    dsimp only
    split
    · exact (h.setRx (r := .wait) nofun).actPacket _ _
    · exact h.setRx nofun
  case h_3 =>
    have hdiscard := h.setRx (r := .discard) nofun
    split
    · exact hdiscard.of_writes (report_writes _ _)
    · exact hdiscard.of_writes (countOverflow_writes _)
  all_goals exact h

/-! ## Active lines (R150, R160) -/

/-- A line on the panel is W pixels long (R160 to R163). -/
theorem linePixels_length {s : State} {indices : List Byte} (h : indices.length ≤ lineWidth s) :
    (linePixels s indices).length = lineWidth s := by
  unfold linePixels
  split
  · exact List.length_replicate
  · rw [List.length_append, List.length_map, List.length_replicate]
    omega

theorem PixelOk.driveLine {s : State} (h : PixelOk s) {indices : List Byte} (hl : indices.length ≤ lineWidth s) :
    PixelOk (driveLine indices s) :=
  { h with pixels := Or.inr (linePixels_length hl) }

/-- A line that is neither complete nor short is abandoned and shown in BORDER (R150). -/
theorem PixelOk.underrun {s : State} (h : PixelOk s) {j : Nat}
    (hs : ∀ x, findSlot j s = some x → x.state ≠ .complete ∧ x.state ≠ .short) : PixelOk (underrun j s) := by
  have habandon : PixelOk (Machine.setSlot j (fun x => { x with state := .abandoned, bytes := [] }) s) := by
    refine h.setSlot (fun _ => rfl) fun y hy hyj => ⟨?_, nofun, fun _ => Or.inr rfl, fun _ => Or.inr rfl⟩
    have hform := h.form y hy
    obtain ⟨x, hx⟩ : ∃ x, findSlot j s = some x := Option.isSome_iff_exists.mp (List.find?_isSome.mpr ⟨y, hy, by simp [hyj]⟩)
    obtain ⟨hcomplete, hshort⟩ := hs x hx
    rw [h.findSlot_eq hx hy hyj] at hform ⊢
    refine ⟨rfl, ?_⟩
    show x.count < lineWidth s
    have hwidth := lineWidth_pos s
    cases hstate : x.state with
    | awaiting => simp only [SlotOk, hstate] at hform; omega
    | receiving | abandoned => simp only [SlotOk, hstate] at hform; exact hform.2
    | complete => exact absurd hstate hcomplete
    | short => exact absurd hstate hshort
  exact (habandon.driveLine (Nat.zero_le _)).of_writes (countUnderrun_writes _)

theorem PixelOk.consumeLine {s : State} (h : PixelOk s) (j : Nat) : PixelOk (consumeLine j s) := by
  unfold Machine.consumeLine
  split
  case isFalse => exact h
  case isTrue hc =>
    have hbegun : PixelOk { s with pixel.begun := j + 1 } := { h with begun := hc.1 }
    have hshown : ∀ x, findSlot j s = some x → x.bytes.length ≤ lineWidth s → (x.state ≠ .awaiting ∧ x.state ≠ .receiving ∧ x.state ≠ .abandoned) →
        PixelOk (Machine.freeSlot j (Machine.driveLine x.bytes { s with pixel.begun := j + 1 })) := by
      intro x hx hlen ⟨hawait, hreceive, habandon⟩
      refine (hbegun.driveLine hlen).freeSlot hx (fun hm => ?_) (fun hrx => ?_)
      · obtain ⟨y, hy, hyj, hys⟩ := h.outstandingBound j hm
        rw [h.findSlot_eq hx hy hyj] at hys
        exact hys.elim hawait habandon
      · obtain ⟨_, y, hy, hyj, hys⟩ := h.reception j hrx
        rw [h.findSlot_eq hx hy hyj] at hys
        exact hys.elim hreceive habandon
    dsimp only
    split
    case h_2 hx => exact hbegun.underrun fun x hx' => absurd (hx.symm.trans hx') nofun
    case h_1 x hx =>
      have hform := h.form x (findSlot_line hx).2
      cases hstate : x.state with
      | complete =>
        simp only [SlotOk, hstate] at hform
        exact hshown x hx (Nat.le_of_eq hform) (by simp [hstate])
      | short =>
        simp only [SlotOk, hstate] at hform
        exact hshown x hx (Nat.le_of_lt hform) (by simp [hstate])
      | awaiting | receiving | abandoned =>
        refine hbegun.underrun fun y hy => ?_
        obtain rfl : x = y := Option.some.inj (hx.symm.trans hy)
        simp [hstate]

theorem PixelOk.beginLine {s : State} (h : PixelOk s) (j : Nat) : PixelOk (beginLine j s) := by
  unfold Machine.beginLine
  split
  · exact (h.of_writes (beginActive_writes s)).consumeLine j
  · exact h

/-- No pixel driven. -/
theorem PixelOk.blank {s t : State} (h : PixelOk s) (hpixel : t.pixel = s.pixel) (hstraps : t.straps = s.straps)
    (hpixels : t.panel.pixels = []) : PixelOk t := by
  have hwidth : lineWidth t = lineWidth s := by rw [lineWidth, hstraps]; rfl
  have hlines : activeLines t = activeLines s := by rw [activeLines, hstraps]; rfl
  exact ⟨hpixel ▸ h.slots, hpixel ▸ h.lines, hpixel ▸ h.unrequested, by rw [hpixel, hwidth]; exact h.form, hpixel ▸ h.awaited,
    hpixel ▸ h.outstandingOnce, by rw [hpixel]; exact h.outstandingBound, by rw [hpixel]; exact h.reception,
    by rw [hpixel, hlines]; exact h.begun, hpixel ▸ h.readbacks, Or.inl hpixels⟩

theorem PixelOk.passLine {s : State} (h : PixelOk s) : PixelOk (passLine s) := h.blank rfl rfl rfl

theorem PixelOk.endActive {s : State} (h : PixelOk s) : PixelOk (endActive s) := by
  unfold Machine.endActive
  split
  · have hblank : PixelOk { s with raster.active := false, panel.pixels := [] } := h.blank rfl rfl rfl
    exact hblank.of_writes (endDigest_writes _)
  · exact h

theorem PixelOk.endFrame {s : State} (h : PixelOk s) : PixelOk (endFrame s) := by
  unfold Machine.endFrame
  split
  · exact (h.beginLine _).endActive
  · exact h

/-! ## A line and a frame -/

theorem PixelOk.openWindow {s : State} (h : PixelOk s) : PixelOk (openWindow s) := by
  unfold Machine.openWindow
  split
  · exact { h with reception := nofun }
  · exact h

theorem PixelOk.closeWindow {s : State} (h : PixelOk s) : PixelOk (closeWindow s) := by
  have hdrain : PixelOk { s with pixel.cwin := false, pixel.rx := .drain } := { h with reception := nofun }
  unfold Machine.closeWindow
  split
  · dsimp only
    split
    · exact hdrain.of_writes (report_writes _ _)
    · exact hdrain
    all_goals exact { h with }
  · exact h

theorem PixelOk.endApply {s : State} (h : PixelOk s) : PixelOk (endApply s) := by
  unfold Machine.endApply
  split
  · have hempty : PixelOk { s with table.apply.phase := .idle, pixel.readbacks := [] } := { h with readbacks := Nat.zero_le _ }
    exact foldl_keeps s.pixel.readbacks _ (fun b r _ hb => hb.of_writes (serveReadback_writes b r)) hempty
  · exact h

theorem PixelOk.startLine {s : State} (h : PixelOk s) : PixelOk (startLine s) :=
  ((h.of_writes (openApplyWindow_writes s)).openWindow.requestPoint).beginLine _

theorem PixelOk.endLine {s : State} (h : PixelOk s) : PixelOk (endLine s) := by
  have hinstall : PixelOk (if installDue s then endInstall s else s) := by
    split
    · exact h.of_writes (endInstall_writes s)
    · exact h
  have happly : ∀ u, PixelOk u → PixelOk (if applyOver u then Machine.endApply u else u) := by
    intro u hu
    split
    · exact hu.endApply
    · exact hu
  exact (happly _ hinstall).closeWindow.endFrame

theorem PixelOk.bringLine {s : State} (h : PixelOk s) : PixelOk (bringLine s) :=
  (h.of_writes (finishWork_writes s)).startLine.endLine

/-- The lines cleared at a frame start (R152). -/
theorem PixelOk.clearLines {s : State} (h : PixelOk s) : PixelOk (clearLines s) := by
  refine ⟨Nat.zero_le _, List.nodup_nil, fun _ => rfl, nofun, nofun, List.nodup_nil, nofun, fun k hk => ?_, Nat.zero_le _,
    h.readbacks, h.pixels⟩
  have hrx : ∀ r : Rx, (match r with
      | .line _ | .discard => Rx.drain
      | .wait => .wait
      | .drain => .drain
      | .packet bytes => .packet bytes) ≠ .line k := by
    intro r
    cases r <;> exact nofun
  exact absurd hk (hrx s.pixel.rx)

theorem PixelOk.openFrame {s : State} (h : PixelOk s) (mid : Bool) : PixelOk (openFrame mid s) := by
  have hraster : ∀ w, PixelOk { advanceFrame s with startWork := w } := fun w => h.blank rfl rfl rfl
  have hleft := fun w => (hraster w).of_writes (leaveOffRing_writes mid _)
  have hjudged := fun w => (hleft w).of_writes (judgeBeacon_writes _)
  exact ((hjudged _).of_writes (takeApply_writes _ _)).clearLines

theorem pixelOk_reset {s : State} (hpixel : s.pixel = Pixel.reset) (hpixels : s.panel.pixels = []) : PixelOk s := by
  refine ⟨?_, ?_, ?_, ?_, ?_, ?_, ?_, ?_, ?_, ?_, Or.inl hpixels⟩ <;> rw [hpixel]
  · exact Nat.zero_le _
  · exact List.nodup_nil
  · exact fun _ => rfl
  · exact nofun
  · exact nofun
  · exact List.nodup_nil
  · exact nofun
  · exact nofun
  · exact Nat.zero_le _
  · exact Nat.zero_le _

/-- Every effect keeps the Pixel Port's invariant. -/
theorem Effect.pixelOk {c : Instr} {s t : State} (he : Effect s c t) (h : PixelOk s) : PixelOk t := by
  cases he with
  | stay => exact h
  | resetAssert => exact pixelOk_reset rfl rfl
  | resetRelease sn prf lead =>
    exact releaseReset_keeps (fun e u hu => hu.of_writes (event_writes e u)) fun st => pixelOk_reset rfl rfl
  | lineAdvance =>
    unfold advanceLine
    split
    · exact h.bringLine.passLine
    · exact h
  | frameStart later mid =>
    unfold nextFrame
    split
    · rw [startFrame_eq]
      exact (h.bringLine.openFrame mid).of_writes (takeAll_writes _ _)
    · exact h
  | work ws => exact h.of_writes (takeAll_writes ws s)
  | rejoin =>
    exact ((h.of_writes (takeWork_writes .stationAgeing s)).of_writes (settleWork_writes .transition _)).of_writes (doRejoin_writes _)
  | origin mine => exact h.of_writes (takeOrigin_writes mine s)
  | applyOpen => exact h.of_writes (openApplyWindow_writes s)
  | installEnd => exact h.of_writes (endInstall_writes s)
  | applyEnd => exact h.endApply
  | windowOpen => exact h.openWindow
  | windowClose => exact h.closeWindow
  | requestPoint => exact h.requestPoint
  | beginActive => exact h.of_writes (beginActive_writes s)
  | activeLine j => exact h.beginLine j
  | frameEnd => exact h.endFrame
  | pmark => exact h.takeMark
  | byte b => exact h.takeByte b
  | packet k body => exact h.actPacket k _
  | arrive p => exact h.of_writes (arrive_writes p s)
  | badRun => exact h.of_writes (countCrc_writes s)
  | build => exact h.of_writes (buildPart_writes s)
  | sendBegin => exact h.of_writes (beginSend_writes s)
  | sendEnd => exact h.of_writes (endSend_writes s)
  | reportBegin => exact h.of_writes (beginReport_writes s)
  | reportEnd n => exact h.of_writes (endReport_writes n s)

/-- Settles O60: the invariant does not speak of the queue of commands, and every effect keeps it. -/
theorem pixelKept : Obligations.PixelKept :=
  fun _ _ h hstep => step_keeps (fun s rest hs => hs.of_writes (pending_writes s rest)) Effect.pixelOk h hstep

end Sys2Proof.Machine
end

