-- ==== Sys2Proof/Proofs/Updates.lean ====
section
/-! SUPPORT. Proofs/Updates.lean: the invariant of the Proposal Store and the Origin Engine under every command (R8, R14, R91, R92, R110,
R124): what changes the store and the origin list, said once, then the operations built of it. -/

namespace Sys2Proof.Machine

set_option Elab.async false

/-! ## The edits of a load (R155, R156) -/

theorem tripletEdits_length : ∀ (start : Byte) (bytes : List Byte), (tripletEdits start bytes).length = bytes.length / 3
  | _, [] | _, [_] | _, [_, _] => by simp [tripletEdits]
  | start, r :: g :: b :: rest => by
    rw [tripletEdits, List.length_cons, tripletEdits_length (start + 1) rest]
    simp only [List.length_cons]
    omega

theorem paramRecords_length : ∀ body : List Byte, (paramRecords body).length = body.length / 4
  | [] | [_] | [_, _] | [_, _, _] => by simp [paramRecords]
  | k :: r :: g :: b :: rest => by
    rw [paramRecords, List.length_cons, paramRecords_length rest]
    simp only [List.length_cons]
    omega

theorem addControl_length (es : List Edit) (r : ParamRecord) :
    1 ≤ (addControl es r).length ∧ es.length ≤ (addControl es r).length ∧ (addControl es r).length ≤ es.length + 1 := by
  unfold addControl
  split
  case isTrue h =>
    obtain ⟨e, he, _⟩ := List.any_eq_true.mp h
    have := List.length_pos_of_mem he
    rw [List.length_map]
    omega
  case isFalse =>
    rw [List.length_append]
    exact ⟨Nat.le_add_left 1 _, Nat.le_add_right _ _, Nat.le_refl _⟩

theorem foldl_addControl_length (rs : List ParamRecord) (es : List Edit) :
    es.length ≤ (rs.foldl addControl es).length ∧ (rs.foldl addControl es).length ≤ es.length + rs.length := by
  induction rs generalizing es with
  | nil => exact ⟨Nat.le_refl _, Nat.le_refl _⟩
  | cons r rs ih =>
    obtain ⟨hlo, hhi⟩ := ih (addControl es r)
    obtain ⟨_, hle, hge⟩ := addControl_length es r
    rw [List.foldl_cons, List.length_cons]
    omega

theorem controlEdits_length {rs : List ParamRecord} (h : rs ≠ []) : 1 ≤ (controlEdits rs).length ∧ (controlEdits rs).length ≤ rs.length := by
  cases rs with
  | nil => exact absurd rfl h
  | cons r rs =>
    obtain ⟨hlo, hhi⟩ := foldl_addControl_length rs (addControl [] r)
    obtain ⟨hpos, _, hone⟩ := addControl_length [] r
    rw [controlEdits, List.foldl_cons, List.length_cons]
    simp only [List.length_nil] at hone
    omega

/-- A load that passes the tests has one to 32 edits (R91, R154). -/
theorem editsOk_of_judgeBody {k : Byte} {body : List Byte} {es : List Edit} {part : Bool}
    (h : judgeBody k body = .ok (.load es part)) : editsOk es := by
  unfold judgeBody at h
  split at h
  case isTrue =>
    split at h
    case isTrue => exact absurd h nofun
    case isFalse hlen =>
      split at h
      case isTrue => exact absurd h nofun
      case isFalse hshort =>
        injection h with h
        injection h with h
        subst h
        have hlength := tripletEdits_length (body.headD 0) body.tail
        rw [List.length_tail] at hlength
        rw [editsOk, hlength]
        omega
  case isFalse =>
    split at h
    case isTrue =>
      split at h
      case isTrue => exact absurd h nofun
      case isFalse hlen =>
        split at h
        case isFalse => exact absurd h nofun
        case isTrue =>
          injection h with h
          injection h with h
          subst h
          have hlength := paramRecords_length body
          have hedits := controlEdits_length (rs := paramRecords body) (by
            intro he
            rw [he, List.length_nil] at hlength
            omega)
          rw [editsOk]
          omega
    case isFalse =>
      repeat' split at h
      all_goals exact absurd h nofun

theorem editsOk_of_judgePacket {bytes : List Byte} {es : List Edit} {part : Bool} (h : judgePacket bytes = .ok (.load es part)) :
    editsOk es := by
  unfold judgePacket at h
  split at h
  · exact absurd h nofun
  · exact editsOk_of_judgeBody h

/-! ## Changes of the store -/

namespace UpdatesOk

variable {s : State}

/-- Records leave the store. -/
theorem filterStore (h : UpdatesOk s) (f : Proposal → Bool) : UpdatesOk { s with store := s.store.filter f } :=
  { h with
    storePlaces := (List.length_filter_le f s.store).trans h.storePlaces
    storeKeys := h.storeKeys.sublist (List.filter_sublist.map _)
    storeEdits := fun p hp => h.storeEdits p (List.mem_of_mem_filter hp)
    nextFreeStore := fun p hp => h.nextFreeStore p (List.mem_of_mem_filter hp) }

/-- Records change their states. -/
theorem mapStore (h : UpdatesOk s) {f : Proposal → Proposal}
    (hf : ∀ p, (f p).origin = p.origin ∧ (f p).seq = p.seq ∧ (f p).edits = p.edits) : UpdatesOk { s with store := s.store.map f } := by
  have hkeys : (s.store.map f).map (fun p => (p.origin, p.seq)) = s.store.map (fun p => (p.origin, p.seq)) := by
    rw [List.map_map]
    refine List.map_congr_left fun p _ => ?_
    obtain ⟨ho, hq, _⟩ := hf p
    exact Prod.ext ho hq
  refine { h with storePlaces := ?_, storeKeys := hkeys ▸ h.storeKeys, storeEdits := fun p hp => ?_, nextFreeStore := fun p hp => ?_ }
  · rw [List.length_map]
    exact h.storePlaces
  · obtain ⟨x, hx, rfl⟩ := List.mem_map.mp hp
    obtain ⟨_, _, he⟩ := hf x
    exact he ▸ h.storeEdits x hx
  · obtain ⟨x, hx, rfl⟩ := List.mem_map.mp hp
    obtain ⟨ho, hq, _⟩ := hf x
    rw [ho, hq]
    exact h.nextFreeStore x hx

theorem setHeld (h : UpdatesOk s) (o : StationNo) (q : Seq) (new : RecordState) :
    UpdatesOk { s with store := setHeld o q new s.store } :=
  h.mapStore fun p => by
    split <;> exact ⟨rfl, rfl, rfl⟩

theorem removeHeld (h : UpdatesOk s) (o : StationNo) (q : Seq) : UpdatesOk { s with store := removeHeld o q s.store } :=
  h.filterStore _

/-- A HELD record of a new key enters a store that has room for it (R111, R112). -/
theorem insertHeld (h : UpdatesOk s) (cur : Frame) {o : StationNo} {q : Seq} {es : List Edit} (hroom : openCount s.store < 12)
    (hnew : ∀ p ∈ s.store, p.origin = o → p.seq ≠ q) (hes : editsOk es) (hq : o = own s → q ≠ s.origin.nextSeq) :
    UpdatesOk { s with store := insertHeld cur o q es s.store } := by
  obtain ⟨left, hsub, hlen, heq⟩ : ∃ left : List Proposal, left.Sublist s.store ∧ left.length < Config.storePlaces
      ∧ Machine.insertHeld cur o q es s.store = left ++ [{ origin := o, seq := q, edits := es, state := .held cur }] := by
    obtain ⟨happend, hreplace⟩ := entered_insertHeld cur o q es h.storeKeys hroom
    by_cases hfull : s.store.length < 12
    · exact ⟨s.store, List.Sublist.refl _, hfull, happend hfull⟩
    · obtain ⟨g, hg, _, _, he, _⟩ := hreplace (Nat.le_of_not_lt hfull)
      refine ⟨_, List.filter_sublist, Nat.lt_of_lt_of_le ?_ h.storePlaces, he⟩
      refine List.length_filter_lt_length_iff_exists.mpr ⟨g, hg, by simp⟩
  have hkey : (o, q) ∉ left.map (fun p => (p.origin, p.seq)) := by
    intro hm
    obtain ⟨p, hp, he⟩ := List.mem_map.mp hm
    obtain ⟨ho, hs⟩ := Prod.mk.injEq .. ▸ he
    exact hnew p (hsub.subset hp) ho hs
  rw [heq]
  refine { h with storePlaces := ?_, storeKeys := ?_, storeEdits := fun p hp => ?_, nextFreeStore := fun p hp ho => ?_ }
  · rw [List.length_append]
    exact hlen
  · rw [List.map_append]
    exact List.nodup_append.mpr ⟨h.storeKeys.sublist (hsub.map _), List.nodup_singleton _, fun a ha b hb he =>
      hkey (by rw [List.map_singleton] at hb; exact List.mem_singleton.mp hb ▸ he ▸ ha)⟩
  · rcases List.mem_append.mp hp with hp | hp
    · exact h.storeEdits p (hsub.subset hp)
    · rw [List.mem_singleton.mp hp]; exact hes
  · rcases List.mem_append.mp hp with hp | hp
    · exact h.nextFreeStore p (hsub.subset hp) ho
    · rw [List.mem_singleton.mp hp] at ho ⊢
      exact hq ho

/-! ## Changes of the origin list -/

/-- next-seq taken. -/
theorem takeSeq (h : UpdatesOk s) : UpdatesOk (takeSeq s).2 ∧ s.origin.nextSeq ≠ (takeSeq s).2.origin.nextSeq := by
  have hfree : (Machine.takeSeq s).2.origin.nextSeq ∉ takenSeqs s := (nextFree_takeSeq h).1
  simp only [takenSeqs, List.cons_append, List.mem_cons, List.mem_append, not_or] at hfree
  obtain ⟨hne, hlist, hstore⟩ := hfree
  refine ⟨{ h with nextFreeOrigin := hlist, nextFreeStore := fun p hp ho he => hstore ?_ }, Ne.symm hne⟩
  exact he ▸ List.mem_map_of_mem (List.mem_filter.mpr ⟨hp, decide_eq_true ho⟩)

/-- A record of the list stands alone under its seq. -/
theorem eq_of_findOrigin (h : UpdatesOk s) {q : Seq} {r x : OriginRecord} (hr : findOrigin q s = some r) (hx : x ∈ s.origin.list)
    (hq : x.seq = q) : x = r := by
  obtain ⟨hseq, hmem⟩ := findOrigin_seq hr
  exact List.inj_on_of_nodup_map h.originSeqs hx hmem (hq.trans hseq.symm)

theorem dropOrigin (h : UpdatesOk s) (q : Seq) : UpdatesOk (dropOrigin q s) := by
  have hmem : ∀ r ∈ s.origin.list.filter (fun r => !(r.seq == q)), r ∈ s.origin.list := fun r hr => List.mem_of_mem_filter hr
  have hseqs : ((s.origin.list.filter (fun r => !(r.seq == q))).map (·.seq)).Sublist (s.origin.list.map (·.seq)) :=
    List.filter_sublist.map _
  exact { h with
    originPlaces := (List.length_filter_le _ s.origin.list).trans h.originPlaces
    originSeqs := h.originSeqs.sublist hseqs
    originEdits := fun r hr => h.originEdits r (hmem r hr)
    originCounts := fun r hr => h.originCounts r (hmem r hr)
    nextFreeOrigin := fun hm => h.nextFreeOrigin (hseqs.subset hm) }

/-- A record of the list changed: its seq is kept or a new one that no other has and next-seq is not; its edits are kept. -/
theorem setOrigin (h : UpdatesOk s) {q n : Seq} {f : OriginRecord → OriginRecord}
    (hn : n = q ∨ n ∉ s.origin.list.map (·.seq))
    (hf : ∀ r ∈ s.origin.list, r.seq = q → (f r).seq = n ∧ n ≠ s.origin.nextSeq ∧ (f r).edits = r.edits
      ∧ 1 ≤ (f r).attempt ∧ (f r).attempt ≤ 3 ∧ 1 ≤ (f r).round ∧ (f r).round ≤ 3) : UpdatesOk (setOrigin q f s) := by
  have hcases : ∀ y ∈ (Machine.setOrigin q f s).origin.list,
      (y ∈ s.origin.list ∧ y.seq ≠ q) ∨ ∃ r ∈ s.origin.list, r.seq = q ∧ y = f r := by
    intro y hy
    obtain ⟨r, hr, rfl⟩ := List.mem_map.mp hy
    split
    case isTrue hq => exact Or.inr ⟨r, hr, hq, rfl⟩
    case isFalse hq => exact Or.inl ⟨hr, hq⟩
  have hseqs : (Machine.setOrigin q f s).origin.list.map (·.seq) = (s.origin.list.map (·.seq)).map (fun x => if x = q then n else x) := by
    show (s.origin.list.map _).map _ = _
    rw [List.map_map, List.map_map]
    refine List.map_congr_left fun r hr => ?_
    by_cases hq : r.seq = q
    · obtain ⟨hseq, _⟩ := hf r hr hq
      simp [hq, hseq]
    · simp [hq]
  refine { h with originPlaces := ?_, originSeqs := ?_, originEdits := fun y hy => ?_, originCounts := fun y hy => ?_, nextFreeOrigin := ?_ }
  · show (s.origin.list.map _).length ≤ _
    rw [List.length_map]
    exact h.originPlaces
  · rw [hseqs]
    refine h.originSeqs.map_on fun x hx y hy he => ?_
    split at he <;> split at he
    case isTrue.isTrue hxq hyq => rw [hxq, hyq]
    case isTrue.isFalse hxq hyq => exact (hn.elim (fun e => absurd (he.symm.trans e) hyq) fun e => absurd (he ▸ hy) e)
    case isFalse.isTrue hxq hyq => exact (hn.elim (fun e => absurd (he.trans e) hxq) fun e => absurd (he ▸ hx) e)
    case isFalse.isFalse => exact he
  · rcases hcases y hy with ⟨hy, _⟩ | ⟨r, hr, hq, rfl⟩
    · exact h.originEdits y hy
    · obtain ⟨_, _, he, _⟩ := hf r hr hq
      exact he ▸ h.originEdits r hr
  · rcases hcases y hy with ⟨hy, _⟩ | ⟨r, hr, hq, rfl⟩
    · exact h.originCounts y hy
    · obtain ⟨_, _, _, hcounts⟩ := hf r hr hq
      exact hcounts
  · intro hm
    obtain ⟨y, hy, he⟩ := List.mem_map.mp hm
    rcases hcases y hy with ⟨hy, _⟩ | ⟨r, hr, hq, rfl⟩
    · exact h.nextFreeOrigin (List.mem_map.mpr ⟨y, hy, he⟩)
    · obtain ⟨hseq, hne, _⟩ := hf r hr hq
      exact hne (hseq.symm.trans he)

/-- A record of the list changed under its seq. -/
theorem setOrigin_same (h : UpdatesOk s) {q : Seq} {f : OriginRecord → OriginRecord}
    (hf : ∀ r ∈ s.origin.list, r.seq = q → (f r).seq = r.seq ∧ (f r).edits = r.edits
      ∧ 1 ≤ (f r).attempt ∧ (f r).attempt ≤ 3 ∧ 1 ≤ (f r).round ∧ (f r).round ≤ 3) : UpdatesOk (Machine.setOrigin q f s) :=
  h.setOrigin (Or.inl rfl) fun r hr hq => by
    obtain ⟨hseq, hrest⟩ := hf r hr hq
    exact ⟨hseq.trans hq, fun he => h.nextFreeOrigin (List.mem_map.mpr ⟨r, hr, hq.trans he⟩), hrest⟩

/-! ## The operations of the Origin Engine -/

theorem report (h : UpdatesOk s) (r : Report) : UpdatesOk (report r s) := h.of_writes (report_writes r s)

theorem queueBody (h : UpdatesOk s) (n : StationNo) (b : Body) : UpdatesOk (queueBody n b s) := h.of_writes (queueBody_writes n b s)

/-- A round begins under a seq that no record has. -/
theorem startRound (h : UpdatesOk s) {es : List Edit} (hroom : openCount s.store < 12) (hes : editsOk es) :
    UpdatesOk (startRound es s) ∧ s.origin.nextSeq ≠ (Machine.startRound es s).origin.nextSeq := by
  obtain ⟨htake, hne⟩ := h.takeSeq
  refine ⟨(htake.insertHeld (now s) (o := own s) hroom h.nextFreeStore hes fun _ => hne).queueBody _ _, ?_⟩
  rw [startRound_nextSeq]
  exact hne

theorem acceptLoad (h : UpdatesOk s) {es : List Edit} (hes : editsOk es) (part : Bool) (hplace : s.origin.list.length < Config.originPlaces)
    (hroom : openCount s.store < 12) : UpdatesOk (acceptLoad es part s) := by
  obtain ⟨hround, hne⟩ := h.startRound hroom hes
  have hreport := hround.report (.updateQueued s.origin.nextSeq es.length part 1 none)
  have hlist : (Machine.startRound es s).origin.list = s.origin.list := (startRound_writes es s).at .originList
  have heq : Machine.acceptLoad es part s
      = { Machine.report (.updateQueued s.origin.nextSeq es.length part 1 none) (Machine.startRound es s) with
          origin.list := s.origin.list ++ [OriginRecord.mk s.origin.nextSeq es .proposing 1 1 (now s + 2) part] } := by
    rw [← hlist, ← now_startRound es s]
    rfl
  rw [heq]
  refine { hreport with
    originPlaces := ?_, originSeqs := ?_, originEdits := fun r hr => ?_, originCounts := fun r hr => ?_, nextFreeOrigin := ?_ }
  · show (s.origin.list ++ _).length ≤ _
    rw [List.length_append]
    exact hplace
  · show ((s.origin.list ++ _).map _).Nodup
    rw [List.map_append]
    refine List.nodup_append.mpr ⟨h.originSeqs, List.nodup_singleton _, fun a ha b hb he => h.nextFreeOrigin ?_⟩
    have hb : b = s.origin.nextSeq := List.mem_singleton.mp hb
    rw [← hb, ← he]
    exact ha
  · rcases List.mem_append.mp hr with hr | hr
    · exact h.originEdits r hr
    · rw [List.mem_singleton.mp hr]; exact hes
  · rcases List.mem_append.mp hr with hr | hr
    · exact h.originCounts r hr
    · rw [List.mem_singleton.mp hr]
      exact ⟨Nat.le_refl 1, Nat.le_add_left 1 2, Nat.le_refl 1, Nat.le_add_left 1 2⟩
  · show (Machine.startRound es s).origin.nextSeq ∉ (s.origin.list ++ _).map _
    rw [List.map_append]
    refine fun hm => (List.mem_append.mp hm).elim (fun hm => ?_) fun hm => hne (List.mem_singleton.mp hm).symm
    exact hround.nextFreeOrigin (hlist ▸ hm)

theorem judgeLoad (h : UpdatesOk s) {es : List Edit} (hes : editsOk es) (part : Bool) : UpdatesOk (judgeLoad es part s) := by
  unfold Machine.judgeLoad loadRefusal
  split
  case h_1 => exact h.report _
  case h_2 hnone =>
    split at hnone
    case isTrue => exact absurd hnone nofun
    case isFalse =>
      split at hnone
      case isTrue => exact absurd hnone nofun
      case isFalse hplace =>
        split at hnone
        case isTrue hroom => exact h.acceptLoad hes part (Nat.lt_of_not_le hplace) ((canTake_iff _).mp hroom)
        case isFalse => exact absurd hnone nofun

theorem abandon (h : UpdatesOk s) (q : Seq) : UpdatesOk (abandon q s) :=
  (((h.queueBody 0 _).removeHeld _ q).report _).dropOrigin q

theorem proposeReturn (h : UpdatesOk s) (b : ProposeBody) : UpdatesOk (proposeReturn b s) := by
  have hcommit : UpdatesOk (commitRound b.seq b.holders s) := by
    unfold commitRound
    split
    · exact ((h.setHeld _ _ _).queueBody 0 _).setOrigin_same fun r hr _ => by
        obtain ⟨_, _, hround⟩ := ((h.setHeld _ _ _).queueBody 0 _).originCounts r hr
        exact ⟨rfl, rfl, Nat.le_refl 1, Nat.le_add_left 1 2, hround⟩
    · exact h.abandon _
  have hwithdraw : UpdatesOk (withdrawRound b.seq s) :=
    ((h.queueBody 0 _).removeHeld _ _).setOrigin_same fun r hr _ =>
      ⟨rfl, rfl, ((h.queueBody 0 _).removeHeld (own s) b.seq).originCounts r hr⟩
  unfold Machine.proposeReturn
  split
  · split
    · split
      · exact hcommit
      · exact hwithdraw
    · exact h
  · exact h

theorem commitReturn (h : UpdatesOk s) (q : Seq) (F : Frame) : UpdatesOk (commitReturn q F s) := by
  unfold Machine.commitReturn
  split
  · split
    · exact (h.report _).dropOrigin _
    all_goals exact h
  · exact h

/-- A further attempt of a record that has had fewer than three. -/
theorem retry {u : State} (h : UpdatesOk u) {r : OriginRecord} (hr : findOrigin r.seq u = some r) (hlt : r.attempt < 3) (D : Frame) :
    UpdatesOk (Machine.setOrigin r.seq (fun x => { x with attempt := x.attempt + 1, deadline := D }) u) :=
  h.setOrigin_same fun x hx hq => by
    obtain ⟨_, _, hround⟩ := h.originCounts x hx
    rw [h.eq_of_findOrigin hr hx hq] at hround ⊢
    exact ⟨rfl, rfl, Nat.le_add_left 1 _, hlt, hround⟩

theorem newRound (h : UpdatesOk s) {r : OriginRecord} (hr : findOrigin r.seq s = some r) (hlt : r.round < 3)
    (hroom : openCount s.store < 12) : UpdatesOk (newRound r s) := by
  obtain ⟨_, hmem⟩ := findOrigin_seq hr
  obtain ⟨hround, hne⟩ := h.startRound hroom (h.originEdits r hmem)
  have hreport := hround.report (roundReport r s)
  have hlist : (Machine.report (roundReport r s) (Machine.startRound r.edits s)).origin.list = s.origin.list :=
    (startRound_writes r.edits s).at .originList
  rw [newRound_eq]
  refine hreport.setOrigin (n := s.origin.nextSeq) (Or.inr (by rw [hlist]; exact h.nextFreeOrigin)) fun x hx hq => ?_
  rw [hlist] at hx
  obtain rfl := h.eq_of_findOrigin hr hx hq
  obtain ⟨_, _, hpos, _⟩ := h.originCounts x hx
  exact ⟨rfl, hne, rfl, Nat.le_refl 1, Nat.le_add_left 1 2, Nat.le_succ_of_le hpos, hlt⟩

theorem originDue (h : UpdatesOk s) {r : OriginRecord} (hr : findOrigin r.seq s = some r) : UpdatesOk (originDue r s) := by
  have hlist : ∀ {fs u}, Writes fs s u → fs.contains .originList = false → findOrigin r.seq u = some r :=
    fun w hw => by rw [findOrigin, w.at .originList hw]; exact hr
  unfold Machine.originDue
  split
  case h_1 =>
    unfold proposingDue
    split
    case isTrue hc =>
      exact ((h.queueBody 0 _).setHeld _ _ _).retry (hlist ((queueBody_writes _ _ s).comp (hs := [.transmit, .store]) (store_writes _ _)) rfl) hc.1 _
    case isFalse => exact h.abandon _
  case h_2 =>
    unfold withdrawnDue
    split
    case isTrue => exact (h.report _).dropOrigin _
    case isFalse hround =>
      split
      · split
        case isTrue hroom => exact h.newRound hr (Nat.lt_of_not_le hround) ((canTake_iff _).mp hroom)
        case isFalse => exact (h.report _).dropOrigin _
      · exact h.setOrigin_same fun x hx _ => ⟨rfl, rfl, h.originCounts x hx⟩
  case h_3 =>
    unfold committingDue
    split
    case isTrue hlt => exact (h.queueBody 0 _).retry (hlist (queueBody_writes _ _ s) rfl) hlt _
    case isFalse => exact (h.report _).dropOrigin _

theorem testOrigin (h : UpdatesOk s) (F : Frame) (q : Seq) : UpdatesOk (testOrigin F s q) := by
  unfold Machine.testOrigin
  split
  case h_1 r hr =>
    split
    · exact h.originDue ((findOrigin_seq hr).1 ▸ hr)
    · exact h
  case h_2 => exact h

theorem testOrigins (h : UpdatesOk s) : UpdatesOk (testOrigins s) :=
  foldl_keeps _ _ (fun b q _ hb => UpdatesOk.testOrigin hb _ q) (h.of_writes (startWork_writes s _))

/-! ## The frame-start work of the store (R122 to R124) -/

theorem expireHeld (h : UpdatesOk s) (F : Frame) : UpdatesOk (expireHeld F s) :=
  foldl_keeps _ _ (fun b e _ hb => UpdatesOk.of_writes (event_writes e b) hb) (h.filterStore _)

end UpdatesOk

theorem dueAt_eq_some {F : Frame} {p : Proposal} {d : DueRecord} :
    dueAt F p = some d ↔ ∃ e, p.state = .scheduled e ∧ atOrBefore e F = true ∧ d = dueOf e p := by
  unfold dueAt
  cases p.state with
  | held a | applied a => exact ⟨nofun, fun ⟨_, he, _⟩ => absurd he nofun⟩
  | scheduled e =>
    dsimp only
    split
    case isTrue he => exact ⟨fun h => ⟨e, rfl, he, (Option.some.inj h).symm⟩, by rintro ⟨_, ⟨⟩, _, rfl⟩; rfl⟩
    case isFalse he => exact ⟨nofun, by rintro ⟨_, ⟨⟩, he', _⟩; exact absurd he' he⟩

theorem mem_filterMap_dueAt {F : Frame} {st : List Proposal} {d : DueRecord} :
    d ∈ st.filterMap (dueAt F) ↔ ∃ p ∈ st, ∃ e, p.state = .scheduled e ∧ atOrBefore e F = true ∧ d = dueOf e p :=
  List.mem_filterMap.trans (exists_congr fun _ => and_congr_right fun _ => dueAt_eq_some)

/-- The apply set and the retained records have different keys, as the records of the store have. -/
theorem dueAt_retained_keys {F : Frame} {st : List Proposal} (h : (st.map (fun p => (p.origin, p.seq))).Nodup) :
    ((st.filterMap (dueAt F) ++ retainedDue st).map (fun r => (r.origin, r.seq))).Nodup := by
  have hdue : (st.filterMap (dueAt F)).Pairwise (fun a b => (a.origin, a.seq) ≠ (b.origin, b.seq)) := by
    refine List.Pairwise.filterMap _ (fun p p' hne d hd d' hd' => ?_) (List.pairwise_map.mp h)
    obtain ⟨_, _, _, rfl⟩ := dueAt_eq_some.mp hd
    obtain ⟨_, _, _, rfl⟩ := dueAt_eq_some.mp hd'
    exact hne
  refine List.pairwise_map.mpr (List.pairwise_append.mpr ⟨hdue, retainedDue_pairwise h, fun a ha b hb he => ?_⟩)
  obtain ⟨p, hp, e, hstate, _, rfl⟩ := mem_filterMap_dueAt.mp ha
  obtain ⟨p', hp', e', hstate', rfl⟩ := mem_retainedDue.mp hb
  obtain rfl : p = p' := List.inj_on_of_nodup_map h hp hp' he
  exact absurd (hstate.symm.trans hstate') nofun

/-- The apply set and the retained records take no more places than the store. -/
theorem dueAt_retained_length (F : Frame) (st : List Proposal) :
    (st.filterMap (dueAt F)).length + (retainedDue st).length ≤ st.length := by
  have hopen : (st.filterMap (dueAt F)).length ≤ st.countP isOpen := by
    rw [List.length_filterMap_eq_countP]
    refine List.countP_mono_left fun p _ hp => ?_
    obtain ⟨d, hd⟩ := Option.isSome_iff_exists.mp hp
    obtain ⟨e, hstate, _⟩ := dueAt_eq_some.mp hd
    rw [isOpen, isRetained, hstate]
    rfl
  have hretained : (retainedDue st).length ≤ st.countP isRetained := by
    rw [retainedDue, List.length_filterMap_eq_countP]
    refine List.countP_mono_left fun p _ hp => ?_
    unfold isRetained
    cases hstate : p.state <;> simp [hstate] at hp ⊢
  have hsplit : st.length = st.countP isRetained + st.countP isOpen := by
    rw [List.length_eq_countP_add_countP isRetained]
    exact congrArg _ (List.countP_congr fun p _ => by simp [isOpen])
  omega

namespace UpdatesOk

variable {s : State}

theorem giveApplySet (h : UpdatesOk s) : UpdatesOk (giveApplySet s) := by
  have hstore : UpdatesOk { s with store := s.store.map (handedOver s.table.apply.frame) } := h.mapStore fun p => by
    unfold handedOver
    split
    · split <;> exact ⟨rfl, rfl, rfl⟩
    all_goals exact ⟨rfl, rfl, rfl⟩
  refine { hstore with
    applyPlaces := (dueAt_retained_length _ _).trans h.storePlaces, applyKeys := dueAt_retained_keys h.storeKeys,
    dueReached := fun d hd => ?_, dueEdits := fun d hd => ?_, reapplyEdits := fun d hd => ?_ }
  · obtain ⟨p, hp, e, _, he, rfl⟩ := mem_filterMap_dueAt.mp hd
    exact he
  · obtain ⟨p, hp, e, _, _, rfl⟩ := mem_filterMap_dueAt.mp hd
    exact h.storeEdits p hp
  · obtain ⟨p, hp, e, _, rfl⟩ := mem_retainedDue.mp hd
    exact h.storeEdits p hp

theorem expireRetained (h : UpdatesOk s) (F : Frame) : UpdatesOk (expireRetained F s) := by
  have hsub : ∀ f : DueRecord → Bool, (s.table.apply.reapply.filter f).Sublist s.table.apply.reapply := fun _ => List.filter_sublist
  exact { h.filterStore (fun p => !retainedTooLong F p) with
    applyPlaces := (Nat.add_le_add_left (hsub _).length_le _).trans h.applyPlaces
    applyKeys := h.applyKeys.sublist (((List.Sublist.refl _).append (hsub _)).map _)
    reapplyEdits := fun r hr => h.reapplyEdits r ((hsub _).subset hr) }

theorem doRejoin (h : UpdatesOk s) : UpdatesOk (doRejoin s) := by
  have hreset : ∀ u, UpdatesOk u → UpdatesOk (rejoinReset u) := by
    intro u hu
    exact { (UpdatesOk.of_writes (loseReferences_writes u) hu).filterStore (fun p => !isHeld p) with
      originPlaces := Nat.zero_le _, originSeqs := List.nodup_nil, originEdits := nofun, originCounts := nofun, nextFreeOrigin := nofun }
  have hdraw : UpdatesOk { s with freeDraws := s.freeDraws + 1 } := { h with }
  unfold Machine.doRejoin
  dsimp only
  split
  · exact (hreset _ (hdraw.of_writes (rejoinReports_writes _))).of_writes (event_writes _ _)
  · exact hreset _ (UpdatesOk.of_writes (rejoinReports_writes _) (hdraw.of_writes (event_writes _ _)))

theorem transitionStep (h : UpdatesOk s) (F : Frame) : UpdatesOk (transitionStep F s) := by
  unfold Machine.transitionStep
  split
  · exact h.of_writes (listenStep_writes s)
  · exact h.of_writes (joinStep_writes F s)
  · split
    · exact h.doRejoin
    · exact h
  · split
    · exact h.of_writes (enterRingHold_writes s)
    · exact h.of_writes (markStep_writes F s)
  · split
    · exact h.of_writes (enterRingHold_writes s)
    · exact h
  · split
    · exact h.of_writes (leaveRingHold_writes s)
    · unfold holdStep
      dsimp only
      split
      · exact doRejoin { h with }
      · exact { h with }
  all_goals exact h

theorem doWork (h : UpdatesOk s) (F : Frame) (w : FrameWork) : UpdatesOk (doWork F w s) := by
  cases w with
  | listenGuard => exact h.of_writes (guard_writes s false)
  | inFlightAgeing => exact h.of_writes (ageInFlight_writes F s)
  | holdExpiry => exact (h.expireHeld F).giveApplySet
  | retentionExpiry => exact h.expireRetained F
  | originDeadlines => exact h.testOrigins
  | collectorDeadline => exact h.of_writes (collectorStep_writes F s)
  | stationAgeing => exact h.of_writes (ageStations_writes s)
  | transition => exact h.transitionStep F
  | backoff => exact h.of_writes (closeMembership_writes s)

theorem takeWork (h : UpdatesOk s) (w : FrameWork) : UpdatesOk (takeWork w s) :=
  takeWork_keeps (fun w _ hu => hu.of_writes (settleWork_writes w _)) (fun F w _ hu => hu.doWork F w) w s h

theorem takeAll (h : UpdatesOk s) (ws : List FrameWork) : UpdatesOk (takeAll ws s) := takeAll_keeps (fun w _ hu => hu.takeWork w) ws h

end UpdatesOk

/-- The record whose deadline is reached stands in the list. -/
theorem findOrigin_of_nextOrigin {F : Frame} {s : State} {r : OriginRecord} {rest : List Seq} : ∀ {todo : List Seq},
    nextOrigin F s todo = some (r, rest) → findOrigin r.seq s = some r
  | [], h => absurd h nofun
  | q :: todo, h => by
    unfold nextOrigin at h
    split at h
    case h_1 x hx =>
      split at h
      case isTrue =>
        obtain ⟨rfl, _⟩ := Prod.mk.injEq .. ▸ Option.some.inj h
        exact (findOrigin_seq hx).1 ▸ hx
      case isFalse => exact findOrigin_of_nextOrigin h
    case h_2 => exact findOrigin_of_nextOrigin h

/-! ## Arrivals -/

/-- What an arrival comes to: nothing, the end of a parcel cut off, a count, an own parcel met while listening, an own parcel stripped, or
another station's forwarded (R36 to R43). -/
theorem arrive_keeps {P : State → Prop} {p : Parcel} {s : State} (hs : P s) (hcut : P (endCut s)) (hcrc : P (countCrc s))
    (hlisten : s.member.state = .listening → isStation (parcelNorm p).header.origin = true → bodyOk (parcelNorm p).body = true →
      P (ownWhileListening (parcelNorm p) s))
    (hstrip : receiving s.member.state = true → s.member.state ≠ .listening → P (strip (parcelNorm p) s))
    (hforward : receiving s.member.state = true → (parcelNorm p).header.origin ≠ own s → isStation (parcelNorm p).header.origin = true →
      bodyOk (parcelNorm p).body = true → P (forward (parcelNorm p) false s)) : P (arrive p s) := by
  unfold arrive
  split
  case isTrue => exact hs
  case isFalse hb =>
    simp only [bypass, Bool.or_eq_true, Bool.not_eq_true', not_or, Bool.not_eq_true, Bool.not_eq_false] at hb
    obtain ⟨_, hreceiving⟩ := hb
    split
    case isTrue => exact hcut
    case isFalse =>
      split
      case isTrue => exact hcrc
      case isFalse hform =>
        simp only [parcelOk, Bool.and_eq_true, Bool.not_eq_false] at hform
        obtain ⟨⟨hstation, _⟩, hbody⟩ := hform
        have hbody := StableArrival.bodyOk_parcelNorm hbody
        have hheader : (parcelNorm p).header = p.header := by
          unfold parcelNorm
          split <;> rfl
        dsimp only
        split
        case isTrue =>
          split
          case isTrue hstate => exact hlisten hstate (hheader.symm ▸ hstation) hbody
          case isFalse hstate => exact hstrip hreceiving hstate
        case isFalse hother => exact hforward hreceiving hother (hheader.symm ▸ hstation) hbody

namespace UpdatesOk

variable {s : State}

theorem offerPropose (h : UpdatesOk s) {hd : Header} {b : ProposeBody} (hother : hd.origin ≠ own s ∨ onRing s.member.state = false)
    (hes : editsOk b.edits) : UpdatesOk (offerPropose hd b s).2 := by
  unfold Machine.offerPropose
  split
  case isFalse => exact h
  case isTrue hc =>
    obtain ⟨hring, _⟩ := Bool.and_eq_true_iff.mp hc
    split
    case h_1 => exact h.setHeld _ _ _
    case h_2 hnone =>
      split
      case isTrue hroom =>
        refine h.insertHeld _ ((canTake_iff _).mp hroom) (fun p hp ho hq => ?_) hes fun ho => ?_
        · have hp := List.find?_eq_none.mp hnone p hp
          simp [isRecord, ho, hq] at hp
        · exact absurd hring (by rw [hother.resolve_left fun hne => hne ho]; nofun)
      case isFalse => exact h

theorem consume (h : UpdatesOk s) {p : Parcel} (hother : p.header.origin ≠ own s ∨ onRing s.member.state = false)
    (hbody : bodyOk p.body = true) : UpdatesOk (consume p s).2 := by
  unfold Machine.consume
  split
  case h_1 b _ => exact h.of_writes (offerBeacon_writes p.header b s)
  case h_2 b _ => exact h.of_writes (offerJoin_writes p.header b s)
  case h_3 b hb =>
    rw [hb] at hbody
    simp only [bodyOk, Bool.and_eq_true, decide_eq_true_iff] at hbody
    exact h.offerPropose hother hbody
  case h_4 q F _ =>
    unfold offerCommit
    split
    · split
      · exact h.setHeld _ _ _
      · split
        · exact { h with }
        · exact h
    · exact h
  case h_5 q _ =>
    unfold offerWithdraw
    split
    · exact h.removeHeld _ _
    · exact h
  case h_6 => exact h.of_writes (offerSnapshotReq_writes p.header s)
  case h_7 b _ => exact h.of_writes (offerSnapshot_writes p.header b s)

theorem forward (h : UpdatesOk s) {p : Parcel} (notice : Bool) (hother : p.header.origin ≠ own s ∨ onRing s.member.state = false)
    (hbody : bodyOk p.body = true) : UpdatesOk (forward p notice s) := by
  have hcount := h.of_writes (countStray_writes s)
  unfold Machine.forward
  split
  · split
    · exact hcount.of_writes (duplicateNotice_writes _)
    · exact hcount
  · exact (h.consume (p := raiseHop p) hother hbody).of_writes (insertionJoin_writes _ _)

theorem strip (h : UpdatesOk s) (p : Parcel) : UpdatesOk (strip p s) := by
  unfold Machine.strip
  split
  · have hless : UpdatesOk { s with ring.inFlight := s.ring.inFlight.eraseP (matchesFlight p) } := { h with }
    unfold deliver
    split
    · exact hless.of_writes (beaconReturn_writes _ _)
    · exact hless.of_writes (joinReturn_writes _ _)
    · exact hless.proposeReturn _
    · exact hless.commitReturn _ _
    all_goals exact hless
  · exact h.of_writes (foreignParcel_writes p s)

theorem arrive (h : UpdatesOk s) (p : Parcel) : UpdatesOk (arrive p s) := by
  refine arrive_keeps h (h.of_writes (endCut_writes s)) (h.of_writes (countCrc_writes s)) (fun hstate _ hbody => ?_)
    (fun _ _ => h.strip _) fun _ hother _ hbody => h.forward false (Or.inl hother) hbody
  unfold ownWhileListening
  split
  · exact h
  · have hseen : UpdatesOk { s with ring.duplicateSeen := true } := { h with }
    exact hseen.forward _ (Or.inr (by show onRing s.member.state = false; rw [hstate]; rfl)) hbody

/-! ## Lines, frames and packets -/

theorem bringLine (h : UpdatesOk s) : UpdatesOk (bringLine s) :=
  UpdatesOk.of_writes (endLine_writes _) (UpdatesOk.of_writes (startLine_writes _) (h.takeAll workOrder))

theorem openFrame (h : UpdatesOk s) (mid : Bool) : UpdatesOk (openFrame mid s) := by
  have happly : ∀ F u, UpdatesOk u → UpdatesOk (takeApply F u) := fun F u hu =>
    { hu with applyPlaces := Nat.zero_le _, applyKeys := List.nodup_nil, dueReached := nofun, dueEdits := nofun, reapplyEdits := nofun }
  refine UpdatesOk.of_writes (clearLines_writes _) (happly _ _ (UpdatesOk.of_writes (judgeBeacon_writes _)
    (UpdatesOk.of_writes (leaveOffRing_writes mid _) (UpdatesOk.of_writes (startWork_writes _ _) ?_))))
  exact h.of_writes (advanceFrame_writes s)

theorem actPacket (h : UpdatesOk s) (k : Byte) {j : Except PacketReason PacketAction}
    (hj : ∀ es part, j = .ok (.load es part) → editsOk es) : UpdatesOk (actPacket k j s) := by
  unfold Machine.actPacket
  split
  · exact h.report _
  · exact h.judgeLoad (hj _ _ rfl) _
  · exact h.of_writes (acceptReadback_writes k _ s)
  · exact h.of_writes (answerStatus_writes _ s)

theorem takeByte (h : UpdatesOk s) (b : Byte) : UpdatesOk (takeByte b s) := by
  unfold Machine.takeByte
  split
  · exact h.of_writes (lineByte_writes _ b s)
  · unfold packetByte
    dsimp only
    split
    · have hwait : UpdatesOk { s with pixel.rx := .wait } := { h with }
      exact hwait.actPacket _ fun _ _ hj => editsOk_of_judgePacket hj
    · exact { h with }
  · split
    · exact UpdatesOk.of_writes (report_writes _ _) { h with }
    · exact UpdatesOk.of_writes (countOverflow_writes _) { h with }
  all_goals exact h

end UpdatesOk

/-- With nothing of any update at hand. -/
theorem updatesOk_empty {s : State} (hstore : s.store = []) (hlist : s.origin.list = []) (hdue : s.table.apply.due = [])
    (hreapply : s.table.apply.reapply = []) : UpdatesOk s := by
  refine ⟨?_, ?_, ?_, ?_, ?_, ?_, ?_, ?_, ?_, ?_, ?_, ?_, ?_, ?_⟩ <;> simp [hstore, hlist, hdue, hreapply]

/-- Every effect keeps the updates in order. -/
theorem Effect.updatesOk {c : Instr} {s t : State} (he : Effect s c t) (h : UpdatesOk s) : UpdatesOk t := by
  cases he with
  | stay => exact h
  | resetAssert => exact updatesOk_empty rfl rfl rfl rfl
  | resetRelease sn prf lead =>
    exact releaseReset_keeps (fun e u hu => hu.of_writes (event_writes e u)) fun st => updatesOk_empty rfl rfl rfl rfl
  | lineAdvance =>
    unfold advanceLine
    split
    · exact h.bringLine.of_writes (passLine_writes _)
    · exact h
  | frameStart later mid =>
    unfold nextFrame
    split
    · rw [startFrame_eq]
      exact (h.bringLine.openFrame mid).takeAll _
    · exact h
  | work ws => exact h.takeAll ws
  | rejoin => exact UpdatesOk.doRejoin (UpdatesOk.of_writes (settleWork_writes .transition _) (h.takeWork .stationAgeing))
  | origin mine =>
    unfold takeOrigin
    split
    · split
      case h_1 r rest hnext =>
        split
        · have hrest : UpdatesOk { s with startWork.origin := rest } := { h with }
          have hfound : findOrigin r.seq s = some r := findOrigin_of_nextOrigin hnext
          exact hrest.originDue hfound
        · exact h
      case h_2 => exact UpdatesOk.of_writes (settleWork_writes _ _) (h.of_writes (startWork_writes s _))
    · exact h
  | applyOpen => exact h.of_writes (openApplyWindow_writes s)
  | installEnd => exact h.of_writes (endInstall_writes s)
  | applyEnd => exact h.of_writes (endApply_writes s)
  | windowOpen => exact h.of_writes (openWindow_writes s)
  | windowClose => exact h.of_writes (closeWindow_writes s)
  | requestPoint => exact h.of_writes (requestPoint_writes s)
  | beginActive => exact h.of_writes (beginActive_writes s)
  | activeLine j => exact h.of_writes (beginLine_writes j s)
  | frameEnd => exact h.of_writes (endFrame_writes s)
  | pmark => exact h.of_writes (takeMark_writes s)
  | byte b => exact h.takeByte b
  | packet k body => exact h.actPacket k fun _ _ hj => editsOk_of_judgeBody hj
  | arrive p => exact h.arrive p
  | badRun => exact h.of_writes (countCrc_writes s)
  | build => exact h.of_writes (buildPart_writes s)
  | sendBegin => exact h.of_writes (beginSend_writes s)
  | sendEnd => exact h.of_writes (endSend_writes s)
  | reportBegin => exact h.of_writes (beginReport_writes s)
  | reportEnd n => exact h.of_writes (endReport_writes n s)

/-- Settles O58: every effect keeps the updates in order, and the queue of commands is no part of them. -/
theorem updatesKept : Obligations.UpdatesKept :=
  fun _ _ h hstep => step_keeps (fun s rest hs => hs.of_writes (pending_writes s rest)) Effect.updatesOk h hstep

end Sys2Proof.Machine
end

