-- ==== Sys2Proof/Proofs/TableKept.lean ====
section
/-! SUPPORT. Proofs/TableKept.lean: the Table Store's invariant under every command (R2, R9, R14 to R17). -/

namespace Sys2Proof.Machine

set_option Elab.async false

/-! ## Parts and pairs -/

/-- A part that is not staged yet, with its part's entries, joins those gathered (R136). -/
theorem PartsOk.addPart {ps : List Part} {x : Part} (h : PartsOk ps) (hnew : ps.any (fun y => y.number == x.number) = false)
    (hx : x.number ≤ 8 ∧ x.entries.map (·.index.toNat) = partIndices x.number) : PartsOk (addPart x ps) := by
  have hperm : (Machine.addPart x ps).Perm (x :: ps) := insertBefore_perm _ _ _
  obtain ⟨hnodup, hparts⟩ := h
  refine ⟨((hperm.map _).nodup_iff).mpr (List.nodup_cons.mpr ⟨fun hm => ?_, hnodup⟩), fun p hp => ?_⟩
  · obtain ⟨y, hy, he⟩ := List.mem_map.mp hm
    have hany := List.any_eq_false.mp hnew y hy
    exact hany (by simpa using he)
  · rcases List.mem_cons.mp (hperm.mem_iff.mp hp) with rfl | hp
    · exact hx
    · exact hparts p hp

/-- The pairs of the history stay of distinct frames when one enters (R17). -/
theorem historyJoin_frames (p : Frame × Digest) {h : List (Frame × Digest)} (hd : (h.map (·.1)).Nodup) :
    ((historyJoin p h).map (·.1)).Nodup := by
  have happend : ∀ l : List (Frame × Digest), l.Sublist h → (∀ x ∈ l, x.1 ≠ p.1) → ((l ++ [p]).map (·.1)).Nodup := by
    intro l hl hne
    rw [List.map_append]
    refine List.nodup_append.mpr ⟨hd.sublist (hl.map _), List.nodup_singleton _, fun a ha b hb he => ?_⟩
    obtain ⟨x, hx, rfl⟩ := List.mem_map.mp ha
    exact hne x hx (he.trans (List.mem_singleton.mp hb))
  unfold historyJoin
  split
  case isTrue => exact happend _ List.filter_sublist fun x hx => by simpa using (List.mem_filter.mp hx).2
  case isFalse hnone =>
    have hne : ∀ x ∈ h, x.1 ≠ p.1 := fun x hx he => hnone (List.any_eq_true.mpr ⟨x, hx, by simpa using he⟩)
    split
    · exact happend _ (List.tail_sublist h) fun x hx => hne x (List.mem_of_mem_tail hx)
    · exact happend _ (List.Sublist.refl h) hne

namespace TableOk

variable {s : State}

/-! ## The operations of the other blocks -/

theorem offerSnapshot (h : TableOk s) (hd : Header) {b : SnapshotBody} (hbody : bodyOk (.snapshot b) = true) :
    TableOk (offerSnapshot hd b s) := by
  unfold Machine.offerSnapshot
  split
  case h_1 => exact h
  case h_2 c hc =>
    split
    case isFalse => exact h
    case isTrue hstage =>
      simp only [mayStage, Bool.and_eq_true, Bool.not_eq_true', decide_eq_true_iff] at hstage
      obtain ⟨⟨_, hnew⟩, hindices⟩ := hstage
      simp only [bodyOk, Bool.and_eq_true, decide_eq_true_iff] at hbody
      obtain ⟨⟨hpart, _⟩, _⟩ := hbody
      have hparts : PartsOk (addPart { number := b.part.toNat, build := b.build, entries := b.entries } c.parts) :=
        (h.collected c hc).addPart hnew ⟨hpart, hindices⟩
      dsimp only
      split
      case isTrue hlen => exact { h with slot := by rintro _ ⟨⟩; exact ⟨hparts, hlen⟩, collected := nofun }
      case isFalse => exact { h with collected := by rintro _ ⟨⟩; exact hparts }

theorem giveApplySet (h : TableOk s) : TableOk (giveApplySet s) :=
  { h with still := fun ha => if_pos (by rw [show s.raster.active = true from ha]; rfl) }

end TableOk

/-- What the other blocks do leaves the table in order. -/
theorem tableOk_stableArrival : StableArrival TableOk where
  quiet w h := h.of_writes w
  report r s h := h.of_writes (report_writes r s)
  queue p s h := h.of_writes (queueParcel_writes p s)
  request s h := h.of_writes (requestBlanking_writes _ s)
  measured n s _ _ h := h.of_writes (requestBlanking_writes n s)
  collect s o ho h :=
    { h with
      collected := fun c hc => (ho c hc).elim (fun e => e ▸ ⟨List.nodup_nil, nofun⟩) fun ⟨b, hb, e⟩ => e ▸ h.collected b hb }
  shrink w _ h := h.of_writes w
  insert w s _ _ h := { h with }
  stage hd b s hb h := h.offerSnapshot hd hb

theorem tableOk_stableWork : StableWork TableOk where
  toStable := tableOk_stableArrival.toStable
  settle w s h := h.of_writes (settleWork_writes w s)
  untested rest s h := h.of_writes (untested_writes rest s)
  give s h := h.giveApplySet
  retain F s h := h.of_writes (expireRetained_writes F s)

namespace TableOk

variable {s : State}

/-! ## The apply operation (R8, R10 to R14) -/

/-- An operation in progress is not in the active lines, where the table stands still and its digest is taken (R14, R16). -/
theorem undigested (h : TableOk s) (hphase : s.table.apply.phase ≠ .idle) : s.raster.active = false ∧ s.table.digest = none := by
  have hactive : s.raster.active = false := Bool.eq_false_iff.mpr fun ha => hphase (h.still ha)
  exact ⟨hactive, Option.isNone_iff_eq_none.mp (by rw [← Option.not_isSome, h.digestActive, hactive]; rfl)⟩

theorem applyDue (h : TableOk s) (hphase : s.table.apply.phase ≠ .idle) : TableOk (applyDue s) := by
  obtain ⟨_, hnone⟩ := h.undigested hphase
  have hwf : Memory.wf ((sortBy dueBefore s.table.apply.due).foldl (applyRecord s.table.apply.frame) s.table.entries) = true :=
    foldl_keeps (P := fun t => Memory.wf t = true) _ _ (fun _ r _ ht => wf_applyRecord r ht) h.wf
  have hentries : TableOk { s with table.entries :=
      (sortBy dueBefore s.table.apply.due).foldl (applyRecord s.table.apply.frame) s.table.entries } :=
    { h with wf := hwf, digest := fun p hp => absurd (hnone.symm.trans hp) nofun }
  exact foldl_keeps _ _ (fun b r _ hb => TableOk.of_writes (lateNotice_writes _ b r) hb) hentries

theorem openApplyWindow (h : TableOk s) : TableOk (openApplyWindow s) := by
  unfold Machine.openApplyWindow openApply
  split
  case isFalse => exact h
  case isTrue =>
    split
    case isFalse => exact h
    case isTrue htaken =>
      obtain ⟨hactive, hnone⟩ := h.undigested (by rw [htaken]; nofun)
      have hstill : ∀ p : ApplyPhase, s.raster.active = true → p = .idle := fun _ ha => absurd (hactive.symm.trans ha) nofun
      split
      case h_1 ps hps =>
        exact { h with
          wf := wf_installParts (h.staged ps hps).1.index_lt h.wf
          still := hstill _
          digest := fun p hp => absurd (hnone.symm.trans hp) nofun }
      case h_2 =>
        have hjudging : TableOk { s with table.apply.phase := .judging, table.apply.since := 1 } := { h with still := hstill _ }
        exact hjudging.applyDue nofun

theorem endInstall (h : TableOk s) : TableOk (endInstall s) := by
  unfold Machine.endInstall
  split
  case isFalse => exact h
  case isTrue hinstalling =>
    obtain ⟨hactive, _⟩ := h.undigested (by rw [hinstalling]; nofun)
    have hjudging : ∀ n, TableOk { s with table.seeded := true, table.apply.phase := .judging, table.apply.since := n } :=
      fun n => { h with still := fun ha => absurd (hactive.symm.trans ha) nofun }
    have hended := fun n => tableOk_stableWork.installEnded ((s.table.apply.staged.getD []).map (·.build)) _ (hjudging n)
    have hphase : ∀ n, (installEnded ((s.table.apply.staged.getD []).map (·.build))
        { s with table.seeded := true, table.apply.phase := .judging, table.apply.since := n }).table.apply.phase = .judging :=
      fun n => (installEnded_writes _ _).at .applyPhase
    have hentries : ∀ {u : State}, TableOk u → u.table.apply.phase = .judging → ∀ t, Memory.wf t = true →
        TableOk (Machine.applyDue { u with table.entries := t }) := by
      intro u hu hp t ht
      obtain ⟨_, hnone⟩ := hu.undigested (by rw [hp]; nofun)
      have hwritten : TableOk { u with table.entries := t } :=
        { hu with wf := ht, digest := fun p hq => absurd (hnone.symm.trans hq) nofun }
      exact hwritten.applyDue (by show u.table.apply.phase ≠ _; rw [hp]; nofun)
    exact hentries (hended _) (hphase _) _ (wf_reapplyAll (hended _).wf)

theorem endApply (h : TableOk s) : TableOk (endApply s) := by
  unfold Machine.endApply
  split
  · have hidle : TableOk { s with table.apply.phase := .idle } := { h with still := fun _ => rfl }
    exact hidle.of_writes (serveReadbacks_writes _)
  · exact h

/-! ## The digest (R16, R17) -/

theorem beginActive (h : TableOk s) : TableOk (beginActive s) := by
  unfold Machine.beginActive
  split
  case isFalse => exact h
  case isTrue hc =>
    obtain ⟨_, _, hidle⟩ := hc
    exact { h with still := fun _ => hidle, digestActive := rfl, digest := by rintro _ ⟨⟩; rfl }

theorem beginLine (h : TableOk s) (j : Nat) : TableOk (beginLine j s) := by
  unfold Machine.beginLine
  split
  · exact h.beginActive.of_writes (consumeLine_writes j _)
  · exact h

theorem endActive (h : TableOk s) : TableOk (endActive s) := by
  unfold Machine.endActive endDigest
  split
  case isFalse => exact h
  case isTrue hactive =>
    split
    case h_1 p hp =>
      exact { h with
        historyPlaces := historyJoin_length p _ h.historyPlaces, historyFrames := historyJoin_frames p h.historyFrames,
        still := nofun, digestActive := rfl, digest := nofun }
    case h_2 hnone =>
      have hsome : s.table.digest.isSome = true := h.digestActive.trans hactive
      rw [show s.table.digest = none from hnone] at hsome
      exact absurd hsome nofun

theorem endFrame (h : TableOk s) : TableOk (endFrame s) := by
  unfold Machine.endFrame
  split
  · exact (h.beginLine _).endActive
  · exact h

/-! ## Lines and frames -/

theorem startLine (h : TableOk s) : TableOk (startLine s) :=
  beginLine (TableOk.of_writes (requestPoint_writes _) (TableOk.of_writes (openWindow_writes _) h.openApplyWindow)) _

theorem endLine (h : TableOk s) : TableOk (endLine s) := by
  have hinstall : TableOk (if installDue s then Machine.endInstall s else s) := by
    split
    · exact h.endInstall
    · exact h
  have happly : ∀ u, TableOk u → TableOk (if applyOver u then Machine.endApply u else u) := by
    intro u hu
    split
    · exact hu.endApply
    · exact hu
  exact ((happly _ hinstall).of_writes (closeWindow_writes _)).endFrame

theorem bringLine (h : TableOk s) : TableOk (bringLine s) :=
  (tableOk_stableWork.takeAll workOrder h).startLine.endLine

end TableOk

theorem endActive_inactive (s : State) : (endActive s).raster.active = false := by
  unfold endActive endDigest
  split
  case isTrue => split <;> rfl
  case isFalse ha => exact Bool.eq_false_iff.mpr ha

theorem endFrame_inactive {s : State} (h : s.raster.line + 1 = totalLines s) : (endFrame s).raster.active = false := by
  rw [endFrame, if_pos h]
  exact endActive_inactive _

/-- The end of a line up to the frame end's part writes neither the line nor the frame's length. -/
theorem endLine_inactive {s : State} (h : s.raster.line + 1 = totalLines s) : (endLine s).raster.active = false := by
  have hinstall : Writes Field.ofPoints s (if installDue s then endInstall s else s) := by
    split
    · exact (endInstall_writes s).mono
    · exact .refl s
  have happly : ∀ u, Writes Field.ofPoints u (closeWindow (if applyOver u then endApply u else u)) := by
    intro u
    split
    · exact (endApply_writes u).mono.trans (closeWindow_writes _).mono
    · exact (closeWindow_writes u).mono
  have hwrites := hinstall.trans (happly _)
  refine endFrame_inactive ?_
  rw [hwrites.at .line, totalLines_of_writes hwrites]
  exact h

/-- By the end of the frame's last line the active lines have ended. -/
theorem bringLine_inactive {s : State} (h : s.raster.line + 1 = totalLines s) : (bringLine s).raster.active = false := by
  have hended : ∀ u, Writes Field.ofLine s u → (endLine u).raster.active = false := fun u w =>
    endLine_inactive (by rw [w.at .line, totalLines_of_writes w]; exact h)
  unfold bringLine
  exact hended _ ((finishWork_writes s).mono.trans (startLine_writes _).mono)

namespace TableOk

variable {s : State}

theorem openFrame (h : TableOk s) (hactive : s.raster.active = false) (mid : Bool) : TableOk (openFrame mid s) := by
  have happly : ∀ F u, TableOk u → u.raster.active = false → TableOk (takeApply F u) := fun F u hu ha =>
    { hu with still := fun hb => absurd (ha.symm.trans hb) nofun, slot := nofun, staged := hu.slot }
  have hraster : TableOk (advanceFrame s) :=
    { h with still := nofun, digestActive := h.digestActive.trans hactive }
  refine TableOk.of_writes (clearLines_writes _) (happly _ _ ?_ ?_)
  · exact TableOk.of_writes (judgeBeacon_writes _) (TableOk.of_writes (leaveOffRing_writes mid _)
      (TableOk.of_writes (startWork_writes _ _) hraster))
  · exact ((judgeBeacon_writes _).at .active).trans ((leaveOffRing_writes mid _).at .active)

end TableOk

/-- In reset, and at the release (R2, R25). -/
theorem tableOk_reset {s : State} (htable : s.table = TableStore.reset) (hraster : s.raster.active = false)
    (hsnap : s.snap = Snap.reset) : TableOk s := by
  have h := resetMeetsInvariants.table
  exact ⟨htable ▸ h.wf, htable ▸ h.historyPlaces, htable ▸ h.historyFrames, by rw [htable]; exact fun _ => rfl,
    by rw [htable, hraster]; rfl, by rw [htable]; exact nofun, htable ▸ h.slot, htable ▸ h.staged, hsnap ▸ h.collected⟩

/-- Every effect keeps the table in order. -/
theorem Effect.tableOk {c : Instr} {s t : State} (he : Effect s c t) (h : TableOk s) : TableOk t := by
  cases he with
  | stay => exact h
  | resetAssert => exact tableOk_reset rfl rfl rfl
  | resetRelease sn prf lead =>
    exact releaseReset_keeps (fun e u hu => hu.of_writes (event_writes e u)) fun st => tableOk_reset rfl rfl rfl
  | lineAdvance =>
    unfold advanceLine
    split
    · exact h.bringLine.of_writes (passLine_writes _)
    · exact h
  | frameStart later mid =>
    unfold nextFrame
    split
    case isTrue hlast =>
      rw [startFrame_eq]
      exact tableOk_stableWork.takeAll _ (h.bringLine.openFrame (bringLine_inactive hlast) mid)
    case isFalse => exact h
  | work ws => exact tableOk_stableWork.takeAll ws h
  | rejoin => exact tableOk_stableWork.rejoin s h
  | origin mine => exact tableOk_stableWork.takeOrigin mine s h
  | applyOpen => exact h.openApplyWindow
  | installEnd => exact h.endInstall
  | applyEnd => exact h.endApply
  | windowOpen => exact h.of_writes (openWindow_writes s)
  | windowClose => exact h.of_writes (closeWindow_writes s)
  | requestPoint => exact h.of_writes (requestPoint_writes s)
  | beginActive => exact h.beginActive
  | activeLine j => exact h.beginLine j
  | frameEnd => exact h.endFrame
  | pmark => exact h.of_writes (takeMark_writes s)
  | byte b => exact h.of_writes (takeByte_writes b s)
  | packet k body => exact h.of_writes (actPacket_writes k _ s)
  | arrive p => exact tableOk_stableArrival.arrive p s h
  | badRun => exact h.of_writes (countCrc_writes s)
  | build => exact h.of_writes (buildPart_writes s)
  | sendBegin => exact h.of_writes (beginSend_writes s)
  | sendEnd => exact h.of_writes (endSend_writes s)
  | reportBegin => exact h.of_writes (beginReport_writes s)
  | reportEnd n => exact h.of_writes (endReport_writes n s)

/-- Settles O57: every effect keeps the table in order, and the queue of commands is no part of it. -/
theorem tableKept : Obligations.TableKept :=
  fun _ _ h hstep => step_keeps (fun s rest hs => hs.of_writes (pending_writes s rest)) Effect.tableOk h hstep

end Sys2Proof.Machine
end

