-- ==== Sys2Proof/Proofs/FramePoints.lean ====
section
/-! SUPPORT. Proofs/FramePoints.lean: each point of the frame stands at its line under every command (R8, R14, R26, R27, R145, R150,
R160), and the rate of the apply operation (R14). -/

namespace Sys2Proof.Machine

set_option Elab.async false

/-! ## The rate of R14 -/

theorem RasterOk.blanking_ge {s : State} (h : RasterOk s) : 36 ≤ s.raster.blanking := by
  have hnominal : 44 ≤ nominal s := by
    unfold nominal Profile.blanking
    split <;> omega
  have := h.blanking
  omega

/-- At most 32 edits of each of at most twelve records are judged. -/
theorem judgeLines_le {s : State} (h : UpdatesOk s) : judgeLines s.table.apply ≤ 24 := by
  have hsum : ∀ (rs : List DueRecord) (f : DueRecord → Nat), (∀ r ∈ rs, f r ≤ 32) → (rs.map f).sum ≤ rs.length * 32 := by
    intro rs f hf
    have := List.sum_le_card_nsmul (rs.map f) 32 (fun x hx => by obtain ⟨r, hr, rfl⟩ := List.mem_map.mp hx; exact hf r hr)
    rwa [List.length_map, smul_eq_mul] at this
  have hdue : (s.table.apply.due.map (·.edits.length)).sum ≤ s.table.apply.due.length * 32 :=
    hsum _ _ fun r hr => (h.dueEdits r hr).2
  have hreapply : ∀ (p : DueRecord → Bool) (q : DueRecord → Edit → Bool),
      ((s.table.apply.reapply.filter p).map (fun r => (r.edits.filter (q r)).length)).sum ≤ s.table.apply.reapply.length * 32 :=
    fun p q => (hsum _ _ fun r hr => (List.length_filter_le _ _).trans (h.reapplyEdits r (List.mem_of_mem_filter hr)).2).trans
      (Nat.mul_le_mul_right _ (List.length_filter_le _ _))
  have hedits : judgedEdits s.table.apply ≤ (s.table.apply.due.length + s.table.apply.reapply.length) * 32 := by
    unfold judgedEdits
    split
    case h_1 ps _ =>
      have := hreapply (fun r => atOrBefore r.effective s.table.apply.frame) (reapplies ps s.table.apply.frame)
      omega
    case h_2 => omega
  have hplaces : s.table.apply.due.length + s.table.apply.reapply.length ≤ 12 := h.applyPlaces
  unfold judgeLines
  omega

/-- Settles O27: 9 lines of an install and 24 of its edits; an operation in progress stands in them. -/
theorem applyFitsItsWindow : Obligations.ApplyFitsItsWindow := by
  intro s hupdates hraster
  have hjudge := judgeLines_le hupdates
  have hblanking := hraster.blanking_ge
  refine ⟨?_, by omega, fun hpoints hphase => ?_⟩
  · unfold applyLines
    split <;> omega
  · cases hp : s.table.apply.phase with
    | idle => exact absurd hp hphase
    | taken => exact (hpoints.taken hp).trans (by decide)
    | installing => exact (hpoints.installing hp).2.trans (by decide)
    | judging =>
      obtain ⟨_, hsince, hline⟩ := hpoints.judging hp
      omega

/-! ## What the other blocks do -/

theorem pointsOk_stableArrival : StableArrival PointsOk where
  quiet w h := h.of_writes w
  report r s h := h.of_writes (report_writes r s)
  queue p s h := h.of_writes (queueParcel_writes p s)
  request s h := h.of_writes (requestBlanking_writes _ s)
  measured n s _ _ h := h.of_writes (requestBlanking_writes n s)
  collect s o _ h := h.of_writes (collector_writes s o)
  shrink w _ h := h.of_writes w
  insert w s _ _ h := { h with }
  stage hd b s _ h := h.of_writes (offerSnapshot_writes hd b s)

theorem PointsOk.settleWork {s : State} (h : PointsOk s) (w : FrameWork) : PointsOk (settleWork w s) :=
  { h with
    work := fun hne => h.work fun he => hne (by
      show s.startWork.due.filter _ = []
      rw [he]
      rfl) }

theorem PointsOk.untested {s : State} (h : PointsOk s) (rest : List Seq) : PointsOk (untested rest s) := { h with }

/-- The frame starts: the points stand, at line 0. -/
def AtFrameStart (s : State) : Prop := PointsOk s ∧ s.raster.line = 0

/-- Frame-start work, all of it in line 0, leaves the points at their lines (R24). -/
theorem atFrameStart_stable : StableWork AtFrameStart where
  quiet w h := ⟨h.1.of_writes w, (w.at .line).trans h.2⟩
  report r s h := ⟨h.1.of_writes (report_writes r s), h.2⟩
  queue p s h := ⟨h.1.of_writes (queueParcel_writes p s), ((queueParcel_writes p s).at .line).trans h.2⟩
  request s h := ⟨h.1.of_writes (requestBlanking_writes _ s), h.2⟩
  collect s o _ h := ⟨h.1.of_writes (collector_writes s o), h.2⟩
  shrink w _ h := ⟨h.1.of_writes w, (w.at .line).trans h.2⟩
  settle w s h := ⟨h.1.settleWork w, h.2⟩
  untested rest s h := ⟨h.1.untested rest, h.2⟩
  give s h := by
    obtain ⟨hpoints, hline⟩ := h
    have hphase : (giveApplySet s).table.apply.phase = .idle ∨ (giveApplySet s).table.apply.phase = .taken := by
      show (if _ then _ else _) = _ ∨ (if _ then _ else _) = _
      split
      · exact Or.inl rfl
      · exact Or.inr rfl
    refine ⟨{ hpoints with
      taken := fun _ => (show s.raster.line ≤ 1 by omega), installing := fun hp => ?_, judging := fun hp => ?_ }, hline⟩
    all_goals exact absurd hp (by rcases hphase with e | e <;> rw [e] <;> nofun)
  retain F s h := by
    obtain ⟨hpoints, hline⟩ := h
    refine ⟨{ hpoints with judging := fun hp => ?_ }, hline⟩
    have := (hpoints.judging hp).1
    omega

namespace PointsOk

variable {s : State}

theorem takeWork (h : PointsOk s) (w : FrameWork) : PointsOk (takeWork w s) := by
  by_cases hw : w ∈ s.startWork.due
  · exact (atFrameStart_stable.takeWork w s ⟨h, h.work (List.ne_nil_of_mem hw)⟩).1
  · rw [takeWork_of_not_mem hw]
    exact h

theorem takeAll (h : PointsOk s) (ws : List FrameWork) : PointsOk (takeAll ws s) := takeAll_keeps (fun w _ hu => hu.takeWork w) ws h

theorem takeOrigin (h : PointsOk s) (mine : Phase → Bool) : PointsOk (takeOrigin mine s) := by
  by_cases hdue : s.startWork.due.contains .originDeadlines = true
  · have hne : s.startWork.due ≠ [] := List.ne_nil_of_mem (List.contains_iff_mem.mp hdue)
    exact (atFrameStart_stable.takeOrigin mine s ⟨h, h.work hne⟩).1
  · unfold Machine.takeOrigin
    rw [if_neg hdue]
    exact h

theorem rejoin (h : PointsOk s) : PointsOk (doRejoin (Machine.settleWork .transition (Machine.takeWork .stationAgeing s))) :=
  pointsOk_stableArrival.doRejoin _ ((h.takeWork _).settleWork _)

/-! ## The apply operation (R8, R14) -/

theorem openApplyWindow (h : PointsOk s) : PointsOk (openApplyWindow s) := by
  unfold Machine.openApplyWindow openApply
  split
  case isFalse => exact h
  case isTrue hline =>
    split
    case isFalse => exact h
    case isTrue =>
      split
      case h_1 ps _ =>
        exact { h with
          taken := nofun, installing := fun _ => (show 1 ≤ s.raster.line ∧ s.raster.line ≤ 9 by omega), judging := nofun }
      case h_2 =>
        have hjudging : PointsOk { s with table.apply.phase := .judging, table.apply.since := 1 } :=
          { h with taken := nofun, installing := nofun, judging := fun _ => ⟨hline.ge, Nat.le_add_left 1 9, by
              show s.raster.line < 1 + max 1 _
              omega⟩ }
        exact hjudging.of_writes (applyDue_writes _)

theorem endInstall (h : PointsOk s) : PointsOk (endInstall s) := by
  unfold Machine.endInstall
  split
  case isFalse => exact h
  case isTrue hinstalling =>
    obtain ⟨hlo, hhi⟩ := h.installing hinstalling
    have hjudging : PointsOk { s with table.seeded := true, table.apply.phase := .judging, table.apply.since := s.raster.line + 1 } :=
      { h with taken := nofun, installing := nofun, judging := fun _ => ⟨hlo, Nat.succ_le_succ hhi, by
          show s.raster.line < s.raster.line + 1 + max 1 _
          omega⟩ }
    have hended := hjudging.of_writes (installEnded_writes ((s.table.apply.staged.getD []).map (·.build)) _)
    exact of_writes (applyDue_writes _) (hended.of_writes (entries_writes _ _))

theorem endApply (h : PointsOk s) : PointsOk (endApply s) := by
  unfold Machine.endApply
  split
  · have hidle : PointsOk { s with table.apply.phase := .idle } := { h with taken := nofun, installing := nofun, judging := nofun }
    exact hidle.of_writes (serveReadbacks_writes _)
  · exact h

/-! ## The control window and the line requests (R26, R27, R145) -/

theorem openWindow (h : PointsOk s) (hr : RasterOk s) : PointsOk (openWindow s) := by
  unfold Machine.openWindow
  split
  case isFalse => exact h
  case isTrue hc =>
    obtain ⟨hline, _⟩ := hc
    have hblanking := hr.blanking_ge
    exact { h with window := fun _ => (show 2 ≤ s.raster.line ∧ s.raster.line + 5 ≤ s.raster.blanking by omega) }

theorem closeWindow (h : PointsOk s) : PointsOk (closeWindow s) := by
  have hclosed : ∀ r, PointsOk { s with pixel.cwin := false, pixel.rx := r } := fun r => { h with window := nofun }
  unfold Machine.closeWindow
  split
  · dsimp only
    split
    · exact (hclosed _).of_writes (report_writes _ _)
    · exact hclosed _
    all_goals exact hclosed s.pixel.rx
  · exact h

/-- What only changes the lines requested and the receiver. -/
theorem of_receiver {t : State} (h : PointsOk s) (w : Writes Field.ofReceiver s t)
    (hreq : 0 < t.pixel.requested → s.raster.blanking ≤ s.raster.line + 2) : PointsOk t := by
  have hrest : Writes [.slots, .requests, .rx, .overflow] s { t with pixel.requested := s.pixel.requested } := by
    intro f hf
    have hsame := w f
    cases f with
    | requested => rfl
    | slots | requests | rx | overflow => exact absurd hf (by decide)
    | _ => exact hsame (by decide)
  have hline : t.raster.line = s.raster.line := w.at .line
  have hblanking : t.raster.blanking = s.raster.blanking := w.at .blanking
  exact { h.of_writes hrest with requests := fun hn => by rw [hline, hblanking]; exact hreq hn }

theorem requestPoint (h : PointsOk s) : PointsOk (requestPoint s) := by
  by_cases hline : s.raster.line + 2 = s.raster.blanking
  · exact h.of_receiver (requestPoint_writes s).mono fun _ => hline.ge
  · rw [requestPoint_off hline]
    exact h

/-- With no line requested this frame there is no slot, and no request is added (R145). -/
theorem markLine_requested (hp : PixelOk s) (h0 : s.pixel.requested = 0) : (markLine s).pixel.requested = 0 := by
  have hnone : ∀ k, findSlot k s = none := fun k => by rw [findSlot, hp.unrequested h0]; rfl
  have hend : ∀ k, endReception k s = s := fun k => by rw [endReception, hnone k]
  have hreceived : received s = s := by
    unfold received
    split
    · exact hend _
    all_goals rfl
  rw [markLine_eq, hreceived]
  split <;> exact h0

theorem takeMark (h : PointsOk s) (hp : PixelOk s) : PointsOk (takeMark s) := by
  unfold Machine.takeMark
  split
  · exact h.of_writes (markPacket_writes s)
  · exact h.of_receiver (markLine_writes s) fun hn => h.requests (Nat.pos_of_ne_zero fun h0 => by
      rw [markLine_requested hp h0] at hn
      exact absurd hn (Nat.lt_irrefl 0))

theorem takeByte (h : PointsOk s) (hp : PixelOk s) (b : Byte) : PointsOk (takeByte b s) := by
  have hrx : ∀ r, PointsOk { s with pixel.rx := r } := fun r => { h with }
  have hline : ∀ k, PointsOk (lineByte k b s) := by
    intro k
    by_cases h0 : s.pixel.requested = 0
    · have hnone : findSlot k s = none := by rw [findSlot, hp.unrequested h0]; rfl
      rw [lineByte, hnone]
      exact h
    · exact h.of_receiver (lineByte_writes k b s) fun _ => h.requests (Nat.pos_of_ne_zero h0)
  unfold Machine.takeByte
  split
  · exact hline _
  · unfold packetByte
    dsimp only
    split
    · exact (hrx _).of_writes (actPacket_writes _ _ _)
    · exact hrx _
  · split
    · exact (hrx _).of_writes (report_writes _ _)
    · exact (hrx _).of_writes (countOverflow_writes _)
  all_goals exact h

/-! ## The active lines (R150, R160) -/

theorem beginActive (h : PointsOk s) : PointsOk (beginActive s) := by
  unfold Machine.beginActive
  split
  case isFalse => exact h
  case isTrue hc =>
    obtain ⟨hline, _, _⟩ := hc
    exact { h with active := fun _ => hline.ge, shown := fun _ _ => rfl }

/-- Line j begun, at line V + j. -/
theorem shownLine {t : State} (h : PointsOk s) (h0 : s.inReset = false) {j : Nat} (hline : s.raster.line = s.raster.blanking + j)
    (w : Writes Field.ofActiveLine s t) (hbegun : t.pixel.begun = j + 1) : PointsOk t := by
  have hrest : Writes [.slots, .requests, .underrun] s
      { t with pixel.begun := s.pixel.begun, pixel.requested := s.pixel.requested, panel.pixels := s.panel.pixels } := by
    intro f hf
    have hsame := w f
    cases f with
    | begun | requested | pixels => rfl
    | slots | requests | underrun => exact absurd hf (by decide)
    | _ => exact hsame (by decide)
  have hl : t.raster.line = s.raster.line := w.at .line
  have hb : t.raster.blanking = s.raster.blanking := w.at .blanking
  have hreset : t.inReset = s.inReset := w.at .inReset
  exact { h.of_writes hrest with
    requests := fun _ => (show t.raster.blanking ≤ t.raster.line + 2 by omega)
    begun := (show t.pixel.begun ≤ t.raster.line + 1 - t.raster.blanking by omega)
    reached := fun _ => (show t.raster.line ≤ t.raster.blanking + t.pixel.begun by omega)
    driven := fun _ => ⟨hreset.trans h0, (show t.raster.blanking ≤ t.raster.line by omega)⟩ }

end PointsOk

/-- Line j consumed: it is begun, unless a later one was or there is no such line. -/
theorem consumeLine_begun (j : Nat) (s : State) :
    consumeLine j s = s ∧ ¬(j < activeLines s ∧ s.pixel.begun ≤ j) ∨ (consumeLine j s).pixel.begun = j + 1 := by
  by_cases hc : j < activeLines s ∧ s.pixel.begun ≤ j
  · refine Or.inr ?_
    rw [consumeLine, if_pos hc]
    dsimp only
    split
    · split
      · exact (freeSlot_writes _ _).at .begun
      · exact (freeSlot_writes _ _).at .begun
      all_goals rfl
    · rfl
  · exact Or.inl ⟨by rw [consumeLine, if_neg hc], hc⟩

namespace PointsOk

variable {s : State}

theorem consumeLine (h : PointsOk s) (h0 : s.inReset = false) {j : Nat} (hline : s.raster.line = s.raster.blanking + j) :
    PointsOk (consumeLine j s) := by
  rcases consumeLine_begun j s with ⟨he, _⟩ | hbegun
  · rw [he]
    exact h
  · exact h.shownLine h0 hline (consumeLine_writes j s) hbegun

theorem beginLine (h : PointsOk s) (h0 : s.inReset = false) (j : Nat) : PointsOk (beginLine j s) := by
  have hw := beginActive_writes s
  unfold Machine.beginLine
  split
  case isFalse => exact h
  case isTrue hline =>
    refine h.beginActive.consumeLine ((hw.at .inReset).trans h0) ?_
    rw [hw.at .line, hw.at .blanking]
    exact hline

theorem endActive (h : PointsOk s) (hlast : s.raster.line + 1 = totalLines s) : PointsOk (endActive s) := by
  unfold Machine.endActive
  split
  case isFalse => exact h
  case isTrue =>
    have hended : PointsOk { s with raster.active := false, panel.pixels := [] } :=
      { h with active := nofun, shown := fun _ hlt => absurd hlast (Nat.ne_of_lt hlt), driven := fun hne => absurd rfl hne }
    exact hended.of_writes (endDigest_writes _)

theorem endFrame (h : PointsOk s) (h0 : s.inReset = false) : PointsOk (endFrame s) := by
  unfold Machine.endFrame
  split
  case isFalse => exact h
  case isTrue hlast =>
    have hw := beginLine_writes (activeLines s - 1) s
    refine (h.beginLine h0 _).endActive ?_
    rw [hw.at .line, totalLines_of_writes hw]
    exact hlast

/-! ## A line brought (log entry 5) -/

theorem startLine (h : PointsOk s) (hr : RasterOk s) (h0 : s.inReset = false) : PointsOk (startLine s) := by
  have hraster := hr.of_writes (openApplyWindow_writes s)
  have hreset : (Machine.requestPoint (Machine.openWindow (Machine.openApplyWindow s))).inReset = false :=
    ((requestPoint_writes _).at .inReset).trans (((openWindow_writes _).at .inReset).trans
      (((openApplyWindow_writes s).at .inReset).trans h0))
  exact (h.openApplyWindow.openWindow hraster).requestPoint.beginLine hreset _

end PointsOk

/-- The steps of the apply operation that fall to a line's end (R14). -/
def endSteps (s : State) : State :=
  let t := if installDue s then endInstall s else s
  if applyOver t then endApply t else t

theorem endLine_eq (s : State) : endLine s = endFrame (closeWindow (endSteps s)) := rfl

theorem endSteps_writes (s : State) : Writes (Field.ofInstall ++ [.readbacks]) s (endSteps s) := by
  have hinstall : Writes (Field.ofInstall ++ [.readbacks]) s (if installDue s then endInstall s else s) := by
    split
    · exact (endInstall_writes s).mono
    · exact .refl s
  have happly : ∀ u, Writes (Field.ofInstall ++ [.readbacks]) u (if applyOver u then endApply u else u) := by
    intro u
    split
    · exact (endApply_writes u).mono
    · exact .refl u
  exact hinstall.trans (happly _)

theorem PointsOk.endSteps {s : State} (h : PointsOk s) : PointsOk (endSteps s) := by
  have hinstall : PointsOk (if installDue s then Machine.endInstall s else s) := by
    split
    · exact h.endInstall
    · exact h
  have happly : ∀ u, PointsOk u → PointsOk (if applyOver u then Machine.endApply u else u) := by
    intro u hu
    split
    · exact hu.endApply
    · exact hu
  exact happly _ hinstall

theorem PointsOk.endLine {s : State} (h : PointsOk s) (h0 : s.inReset = false) : PointsOk (endLine s) := by
  have hreset : (Machine.closeWindow (Machine.endSteps s)).inReset = false :=
    ((closeWindow_writes _).at .inReset).trans (((endSteps_writes s).at .inReset).trans h0)
  rw [endLine_eq]
  exact h.endSteps.closeWindow.endFrame hreset

theorem PointsOk.bringLine {s : State} (h : PointsOk s) (hr : RasterOk s) (h0 : s.inReset = false) : PointsOk (bringLine s) := by
  have hfinish := finishWork_writes s
  have hstart := (h.takeAll workOrder).startLine (rasterOk_stable.takeAll workOrder hr) ((hfinish.at .inReset).trans h0)
  exact hstart.endLine (((startLine_writes _).at .inReset).trans ((hfinish.at .inReset).trans h0))

/-! ## What is through at the end of an ordinary line -/

theorem endInstall_phase (s : State) :
    (endInstall s).table.apply.phase = if s.table.apply.phase = .installing then .judging else s.table.apply.phase := by
  have hkeeps : ∀ (bs : List Frame) (u : State) (f : State → Table),
      (applyDue { installEnded bs u with table.entries := f (installEnded bs u) }).table.apply.phase = u.table.apply.phase :=
    fun bs u f => ((applyDue_writes _).at .applyPhase).trans ((installEnded_writes bs u).at .applyPhase)
  unfold endInstall
  split
  · exact hkeeps _ _ fun u => reapplyAll _ u.table.apply.frame u.table.apply.reapply u.table.entries
  · rfl

theorem endApply_phase (s : State) :
    (endApply s).table.apply.phase = if s.table.apply.phase = .judging then .idle else s.table.apply.phase := by
  unfold endApply
  split
  · exact (serveReadbacks_writes _).at .applyPhase
  · rfl

/-- At the end of a line the install is no further than line 8, and the edits left need another line. -/
theorem endSteps_through (s : State) :
    ((endSteps s).table.apply.phase = .taken → s.table.apply.phase = .taken)
      ∧ ((endSteps s).table.apply.phase = .installing → (endSteps s).raster.line < 9)
      ∧ ((endSteps s).table.apply.phase = .judging →
          (endSteps s).raster.line + 1 < (endSteps s).table.apply.since + judgeLines (endSteps s).table.apply) := by
  have hinstall : ∀ u, u = (if installDue s then endInstall s else s) →
      (u.table.apply.phase = .taken → s.table.apply.phase = .taken) ∧ (u.table.apply.phase = .installing → u.raster.line < 9) := by
    rintro _ rfl
    split
    case isTrue =>
      rw [endInstall_phase]
      split
      · exact ⟨nofun, nofun⟩
      case isFalse hne => exact ⟨id, fun hp => absurd hp hne⟩
    case isFalse hdue =>
      simp only [installDue, decide_eq_true_iff] at hdue
      exact ⟨id, fun _ => Nat.lt_of_not_le hdue⟩
  have happly : ∀ u, (u.table.apply.phase = .taken → s.table.apply.phase = .taken) → (u.table.apply.phase = .installing → u.raster.line < 9) →
      ∀ t, t = (if applyOver u then endApply u else u) →
        (t.table.apply.phase = .taken → s.table.apply.phase = .taken) ∧ (t.table.apply.phase = .installing → t.raster.line < 9)
          ∧ (t.table.apply.phase = .judging → t.raster.line + 1 < t.table.apply.since + judgeLines t.table.apply) := by
    rintro u htaken hinstalling _ rfl
    split
    case isTrue =>
      have hline : (endApply u).raster.line = u.raster.line := (endApply_writes u).at .line
      rw [endApply_phase, hline]
      split
      · exact ⟨nofun, nofun, nofun⟩
      case isFalse hne => exact ⟨htaken, hinstalling, fun hp => absurd hp hne⟩
    case isFalse hover =>
      refine ⟨htaken, hinstalling, fun hp => ?_⟩
      simp only [applyOver, hp, decide_true, Bool.true_and, decide_eq_true_iff] at hover
      omega
  obtain ⟨htaken, hinstalling⟩ := hinstall _ rfl
  exact happly _ htaken hinstalling _ rfl

end Sys2Proof.Machine
end

