-- ==== Sys2Proof/Proofs/FrameLines.lean ====
section
/-! SUPPORT. Proofs/FrameLines.lean: what has been brought by the end of an ordinary line, the next line and the next frame, and with them
the points of the frame under every command (R8, R14, R23, R24, R26, R27, R145, R150, R160). -/

namespace Sys2Proof.Machine

set_option Elab.async false

/-! ## The frame-start work is through (R24) -/

theorem doWork_due (F : Frame) (w : FrameWork) (s : State) : (doWork F w s).startWork.due = s.startWork.due := by
  cases w with
  | listenGuard => rfl
  | inFlightAgeing => rfl
  | holdExpiry => exact congrArg StartWork.due ((expireHeld_writes F s).at .startWork)
  | retentionExpiry => rfl
  | originDeadlines =>
    exact foldl_keeps (P := fun u => u.startWork.due = s.startWork.due) s.startWork.origin (untested [] s)
      (fun b q _ hb => (congrArg StartWork.due ((testOrigin_writes s.startWork.frame b q).at .startWork)).trans hb) rfl
  | collectorDeadline => exact congrArg StartWork.due ((collectorStep_writes F s).at .startWork)
  | stationAgeing => exact congrArg StartWork.due ((ageStations_writes s).at .startWork)
  | transition => exact congrArg StartWork.due ((transitionStep_writes F s).at .startWork)
  | backoff => exact congrArg StartWork.due ((closeMembership_writes s).at .startWork)

theorem takeWork_due (w : FrameWork) (s : State) : (takeWork w s).startWork.due = s.startWork.due.filter (fun x => !(x == w)) := by
  by_cases hw : w ∈ s.startWork.due
  · rw [takeWork_of_mem hw, doWork_due, settleWork_due]
  · rw [takeWork_of_not_mem hw]
    exact (List.filter_eq_self.mpr fun x hx => by simpa using fun e : x = w => hw (e ▸ hx)).symm

theorem mem_takeAll_due {ws : List FrameWork} {s : State} {x : FrameWork} (h : x ∈ (takeAll ws s).startWork.due) :
    x ∈ s.startWork.due ∧ x ∉ ws := by
  induction ws generalizing s with
  | nil => exact ⟨h, nofun⟩
  | cons w ws ih =>
    obtain ⟨hdue, hnot⟩ := ih (s := takeWork w s) h
    rw [takeWork_due, List.mem_filter] at hdue
    exact ⟨hdue.1, List.not_mem_cons_of_ne_of_not_mem (by simpa using hdue.2) hnot⟩

theorem finishWork_due (s : State) : (finishWork s).startWork.due = [] := by
  refine List.eq_nil_iff_forall_not_mem.mpr fun x hx => ?_
  rw [finishWork_eq] at hx
  obtain ⟨_, hnot⟩ := mem_takeAll_due hx
  cases x <;> exact hnot (by decide)

/-! ## The points of a line (R26, R27, R150) -/

theorem openApplyWindow_taken {s : State} (h : (openApplyWindow s).table.apply.phase = .taken) :
    s.table.apply.phase = .taken ∧ s.raster.line ≠ 1 := by
  have hline : s.raster.line ≠ 1 := by
    intro hline
    rw [openApplyWindow, if_pos hline] at h
    unfold openApply at h
    split at h
    case isTrue =>
      split at h
      · exact absurd h nofun
      · exact absurd (((applyDue_writes _).at .applyPhase).symm.trans h) nofun
    case isFalse hne => exact hne h
  rw [openApplyWindow_off hline] at h
  exact ⟨h, hline⟩

theorem closeWindow_cwin {s : State} (h : (closeWindow s).pixel.cwin = true) : s.pixel.cwin = true ∧ s.raster.line + 5 ≠ s.raster.blanking := by
  unfold closeWindow at h
  split at h
  case isTrue =>
    dsimp only at h
    split at h <;> exact absurd h nofun
  case isFalse hc => exact ⟨h, fun hline => hc ⟨hline, h⟩⟩

theorem closeWindow_apply (s : State) : (closeWindow s).table.apply = s.table.apply := by
  unfold closeWindow
  split
  · dsimp only
    split <;> rfl
  · rfl

/-- Past the blanking the line in progress is begun. -/
theorem beginLine_begun {s : State} (hr : RasterOk s) (hb : s.raster.blanking ≤ s.raster.line) :
    s.raster.line < s.raster.blanking + (beginLine (s.raster.line - s.raster.blanking) s).pixel.begun := by
  have hlines : s.raster.line - s.raster.blanking < activeLines (beginActive s) := by
    have hline : s.raster.line < s.raster.blanking + activeLines s := hr.line
    rw [activeLines, (beginActive_writes s).at .straps]
    exact Nat.sub_lt_left_of_lt_add hb hline
  rw [beginLine, if_pos (by omega)]
  rcases consumeLine_begun (s.raster.line - s.raster.blanking) (beginActive s) with ⟨he, hnot⟩ | hbegun
  · rw [he]
    have := Nat.lt_of_not_le fun hle => hnot ⟨hlines, hle⟩
    omega
  · rw [hbegun]
    omega

/-- At line V no apply operation is in progress, and the active lines begin; then they go on. -/
theorem beginLine_active {s : State} (h : PointsOk s) (hu : UpdatesOk s) (hr : RasterOk s) (hb : s.raster.blanking ≤ s.raster.line)
    (hlt : s.raster.line + 1 < totalLines s) : (beginLine (s.raster.line - s.raster.blanking) s).raster.active = true := by
  rw [beginLine, if_pos (by omega), (consumeLine_writes _ _).at .active]
  have hblanking := hr.blanking_ge
  unfold beginActive
  split
  case isTrue => rfl
  case isFalse hnot =>
    rcases Nat.lt_or_eq_of_le hb with hlt' | heq
    · exact h.shown hlt' hlt
    · obtain ⟨_, _, hfits⟩ := applyFitsItsWindow s hu hr
      have hidle : s.table.apply.phase = .idle := by
        by_contra hne
        have := hfits h hne
        omega
      by_contra hactive
      exact hnot ⟨heq.symm, Bool.eq_false_iff.mpr hactive, hidle⟩

/-- What has been brought by the end of a line that is not the last. -/
structure Brought (s : State) : Prop where
  work : s.startWork.due = []
  taken : s.table.apply.phase = .taken → s.raster.line = 0
  installing : s.table.apply.phase = .installing → s.raster.line < 9
  judging : s.table.apply.phase = .judging → s.raster.line + 1 < s.table.apply.since + judgeLines s.table.apply
  window : s.pixel.cwin = true → s.raster.line + 5 ≠ s.raster.blanking
  active : s.raster.blanking ≤ s.raster.line → s.raster.active = true
  begun : s.raster.blanking ≤ s.raster.line → s.raster.line < s.raster.blanking + s.pixel.begun

/-- The points of the line's start, and the work before them. -/
structure Started (s : State) : Prop where
  work : s.startWork.due = []
  taken : s.table.apply.phase = .taken → s.raster.line = 0
  active : s.raster.blanking ≤ s.raster.line → s.raster.active = true
  begun : s.raster.blanking ≤ s.raster.line → s.raster.line < s.raster.blanking + s.pixel.begun

theorem started_startLine {s : State} (h : PointsOk s) (hu : UpdatesOk s) (hr : RasterOk s) (hdue : s.startWork.due = [])
    (hlt : s.raster.line + 1 < totalLines s) : Started (startLine s) := by
  have hopen := openApplyWindow_writes s
  have hpoint : Writes (.applyPhase :: .applySince :: .entries :: .late :: Field.ofReport ++ [.cwin, .rx] ++ Field.ofLines) s
      (requestPoint (openWindow (openApplyWindow s))) :=
    hopen.mono.trans ((openWindow_writes _).mono.trans (requestPoint_writes _).mono)
  have hwindow := hr.of_writes hopen
  have hpoints : PointsOk (requestPoint (openWindow (openApplyWindow s))) := (h.openApplyWindow.openWindow hwindow).requestPoint
  have hraster := hr.of_writes hpoint
  have hstart := startLine_writes s
  have hline : (startLine s).raster.line = s.raster.line := hstart.at .line
  have hblanking : (startLine s).raster.blanking = s.raster.blanking := hstart.at .blanking
  have hpline : (requestPoint (openWindow (openApplyWindow s))).raster.line = s.raster.line := hpoint.at .line
  have hpblanking : (requestPoint (openWindow (openApplyWindow s))).raster.blanking = s.raster.blanking := hpoint.at .blanking
  have hstarted : startLine s = beginLine (s.raster.line - s.raster.blanking) (requestPoint (openWindow (openApplyWindow s))) := rfl
  refine ⟨(congrArg StartWork.due (hstart.at .startWork)).trans hdue, fun hp => ?_, fun hb => ?_, fun hb => ?_⟩
  · have hphase : (startLine s).table.apply.phase = (openApplyWindow s).table.apply.phase :=
      ((beginLine_writes _ _).at .applyPhase).trans (((requestPoint_writes _).at .applyPhase).trans ((openWindow_writes _).at .applyPhase))
    obtain ⟨htaken, hne⟩ := openApplyWindow_taken (hphase.symm.trans hp)
    have := h.taken htaken
    omega
  · rw [hstarted, ← hpline, ← hpblanking]
    refine beginLine_active hpoints (hu.of_writes hpoint) hraster (by omega) ?_
    rw [hpline, totalLines_of_writes hpoint]
    exact hlt
  · rw [hline, hblanking, hstarted]
    have := beginLine_begun hraster (by omega)
    rwa [hpline, hpblanking] at this

/-- An ordinary line's end. -/
theorem brought_endLine {s : State} (h : Started s) (hlt : s.raster.line + 1 < totalLines s) : Brought (endLine s) := by
  have hboth : Writes (Field.ofInstall ++ [.readbacks, .cwin, .rx]) s (closeWindow (endSteps s)) :=
    (endSteps_writes s).mono.trans (closeWindow_writes _).mono
  have hclose := closeWindow_writes (endSteps s)
  have hline : (closeWindow (endSteps s)).raster.line = s.raster.line := hboth.at .line
  have hblanking : (closeWindow (endSteps s)).raster.blanking = s.raster.blanking := hboth.at .blanking
  have hactive : (closeWindow (endSteps s)).raster.active = s.raster.active := hboth.at .active
  have hbegun : (closeWindow (endSteps s)).pixel.begun = s.pixel.begun := hboth.at .begun
  have hphase : (closeWindow (endSteps s)).table.apply.phase = (endSteps s).table.apply.phase := hclose.at .applyPhase
  have happly : (closeWindow (endSteps s)).table.apply = (endSteps s).table.apply := closeWindow_apply _
  have hcline : (closeWindow (endSteps s)).raster.line = (endSteps s).raster.line := hclose.at .line
  obtain ⟨htaken, hinstalling, hjudging⟩ := endSteps_through s
  have hoff : endLine s = closeWindow (endSteps s) := by
    rw [endLine_eq]
    refine endFrame_off (Nat.ne_of_lt ?_)
    rw [hline, totalLines_of_writes hboth]
    exact hlt
  rw [hoff]
  refine ⟨(congrArg StartWork.due (hboth.at .startWork)).trans h.work, fun hp => ?_, fun hp => ?_, fun hp => ?_, fun hc => ?_, ?_, ?_⟩
  · rw [hline]
    exact h.taken (htaken (hphase.symm.trans hp))
  · rw [hcline]
    exact hinstalling (hphase.symm.trans hp)
  · rw [hcline, happly]
    exact hjudging (hphase.symm.trans hp)
  · rw [hcline, (hclose.at .blanking : (closeWindow (endSteps s)).raster.blanking = (endSteps s).raster.blanking)]
    exact (closeWindow_cwin hc).2
  · rw [hline, hblanking, hactive]
    exact h.active
  · rw [hline, hblanking, hbegun]
    exact h.begun

theorem brought_bringLine {s : State} (h : PointsOk s) (hu : UpdatesOk s) (hr : RasterOk s)
    (hlt : s.raster.line + 1 < totalLines s) : Brought (bringLine s) := by
  have hfinish := finishWork_writes s
  have hlt' : (finishWork s).raster.line + 1 < totalLines (finishWork s) := by
    rw [(hfinish.at .line : (finishWork s).raster.line = s.raster.line), totalLines_of_writes hfinish]
    exact hlt
  have hstarted : Started (startLine (finishWork s)) := started_startLine (h.takeAll workOrder) (hu.takeAll workOrder)
    (rasterOk_stable.takeAll workOrder hr) (finishWork_due s) hlt'
  have hstart := startLine_writes (finishWork s)
  have hlt'' : (startLine (finishWork s)).raster.line + 1 < totalLines (startLine (finishWork s)) := by
    rw [(hstart.at .line : (startLine (finishWork s)).raster.line = (finishWork s).raster.line), totalLines_of_writes hstart]
    exact hlt'
  unfold bringLine
  exact brought_endLine hstarted hlt''

/-- The next line (R23). -/
theorem PointsOk.passLine {s : State} (h : PointsOk s) (hb : Brought s) : PointsOk (passLine s) where
  work hne := absurd hb.work hne
  taken hp := (show s.raster.line + 1 ≤ 1 by have := hb.taken hp; omega)
  installing hp := (show 1 ≤ s.raster.line + 1 ∧ s.raster.line + 1 ≤ 9 by have := hb.installing hp; omega)
  judging hp := by
    obtain ⟨_, hsince, _⟩ := h.judging hp
    have := hb.judging hp
    exact ⟨Nat.le_add_left 1 _, hsince, (show s.raster.line + 1 < s.table.apply.since + max 1 (judgeLines s.table.apply) by omega)⟩
  window hc := by
    have := h.window hc
    have := hb.window hc
    exact (show 2 ≤ s.raster.line + 1 ∧ s.raster.line + 1 + 5 ≤ s.raster.blanking by omega)
  requests hn := Nat.le_succ_of_le (h.requests hn)
  active ha := Nat.le_succ_of_le (h.active ha)
  shown hlt _ := hb.active (Nat.le_of_lt_succ hlt)
  begun := by
    have := h.begun
    exact (show s.pixel.begun ≤ s.raster.line + 1 + 1 - s.raster.blanking by omega)
  reached hle := by
    show s.raster.line + 1 ≤ s.raster.blanking + s.pixel.begun
    rcases Nat.lt_or_eq_of_le hle with hlt | heq
    · have := hb.begun (Nat.le_of_lt_succ hlt)
      omega
    · exact (show s.raster.line + 1 ≤ _ by rw [show s.raster.line + 1 = s.raster.blanking from heq.symm]; exact Nat.le_add_right _ _)
  vsync := by
    have hv := h.vsync
    show (s.panel.vsync && decide (s.raster.line + 1 < 2)) = (!s.inReset && decide (s.raster.line + 1 ≤ 1))
    rw [hv]
    cases s.inReset
    · by_cases hl : s.raster.line = 0 <;> simp [hl]
    · rfl
  driven hne := absurd rfl hne

/-! ## The next frame (R24) -/

/-- At line 0 of a frame, its lines cleared and the install slot taken. -/
theorem pointsOk_opened {s : State} (F : Frame) (h0 : s.inReset = false) (hline : s.raster.line = 0) (hblanking : 0 < s.raster.blanking)
    (hactive : s.raster.active = false) (hwindow : s.pixel.cwin = false) (hvsync : s.panel.vsync = true)
    (hpixels : s.panel.pixels = []) : PointsOk (clearLines (takeApply F s)) := by
  have hphase : (clearLines (takeApply F s)).table.apply.phase = .taken ∨ (clearLines (takeApply F s)).table.apply.phase = .idle := by
    show (if s.table.slot.isSome = true then ApplyPhase.taken else .idle) = _ ∨ (if s.table.slot.isSome = true then ApplyPhase.taken else .idle) = _
    split
    · exact Or.inl rfl
    · exact Or.inr rfl
  refine ⟨fun _ => hline, fun _ => hline.le.trans (Nat.zero_le 1), fun hp => ?_, fun hp => ?_, fun hc => absurd (hwindow.symm.trans hc) nofun,
    fun hn => absurd hn (Nat.lt_irrefl 0), fun ha => absurd (hactive.symm.trans ha) nofun, fun hlt => ?_, Nat.zero_le _, fun hle => ?_, ?_,
    fun hne => absurd hpixels hne⟩
  · exact absurd hp (by rcases hphase with e | e <;> rw [e] <;> nofun)
  · exact absurd hp (by rcases hphase with e | e <;> rw [e] <;> nofun)
  · exact absurd (show s.raster.blanking < s.raster.line from hlt) (by omega)
  · exact absurd (show s.raster.blanking ≤ s.raster.line from hle) (by omega)
  · show s.panel.vsync = (!s.inReset && decide (s.raster.line ≤ 1))
    rw [hvsync, h0, hline]
    rfl

theorem PointsOk.openFrame {s : State} (h : PointsOk s) (hr : RasterOk s) (h0 : s.inReset = false)
    (hlast : s.raster.line + 1 = totalLines s) (mid : Bool) : PointsOk (openFrame mid s) := by
  have hwindow : s.pixel.cwin = false := by
    refine Bool.eq_false_iff.mpr fun hc => ?_
    obtain ⟨_, hline⟩ := h.window hc
    have hlines := activeLines_pos s
    have htotal : totalLines s = s.raster.blanking + activeLines s := rfl
    omega
  have hblanking : 0 < newBlanking s := Nat.lt_of_lt_of_le (by decide) hr.advanceFrame.blanking_ge
  have hleft : ∀ w, Writes [.startWork, .stationState, .listen, .guard, .duplicateSeen, .cut, .reports, .sending, .sendEnds, .lost,
      .returned, .miss, .ret] (advanceFrame s) (judgeBeacon (leaveOffRing mid { advanceFrame s with startWork := w })) :=
    fun w => (startWork_writes _ w).mono.trans ((leaveOffRing_writes mid _).mono.trans (judgeBeacon_writes _).mono)
  have hopened := fun F w => pointsOk_opened F (((hleft w).at .inReset).trans h0) ((hleft w).at .line)
    (Nat.lt_of_lt_of_eq hblanking ((hleft w).at .blanking).symm) ((hleft w).at .active) (((hleft w).at .cwin).trans hwindow)
    ((hleft w).at .vsync) ((hleft w).at .pixels)
  exact hopened _ _

/-! ## Every command -/

theorem pointsOk_reset {s : State} (hraster : s.raster = Raster.reset s.straps.profile) (htable : s.table = TableStore.reset)
    (hpixel : s.pixel = Pixel.reset) (hvsync : s.panel.vsync = !s.inReset) (hpixels : s.panel.pixels = []) : PointsOk s := by
  have hblanking : 0 < s.raster.blanking := Nat.lt_of_lt_of_le (by decide) (rasterOk_reset hraster).blanking_ge
  have hline : s.raster.line = 0 := by rw [hraster]; rfl
  have hphase : s.table.apply.phase = .idle := by rw [htable]; rfl
  refine ⟨fun _ => hline, fun hp => absurd (hphase.symm.trans hp) nofun, fun hp => absurd (hphase.symm.trans hp) nofun,
    fun hp => absurd (hphase.symm.trans hp) nofun, ?_, ?_, ?_, fun hlt => ?_, ?_, fun hle => ?_, ?_, fun hne => absurd hpixels hne⟩
  · rw [hpixel]
    exact nofun
  · rw [hpixel]
    exact fun hn => absurd hn (Nat.lt_irrefl 0)
  · rw [hraster]
    exact nofun
  · omega
  · rw [hpixel]
    exact Nat.zero_le _
  · omega
  · rw [hvsync, hline]
    exact (Bool.and_true _).symm

/-- Every effect leaves each point of the frame at its line. -/
theorem Effect.pointsOk {c : Instr} {s t : State} (he : Effect s c t) (h : PointsOk s) (hr : RasterOk s) (hu : UpdatesOk s)
    (hp : PixelOk s) : PointsOk t := by
  cases he with
  | stay => exact h
  | resetAssert => exact pointsOk_reset rfl rfl rfl rfl rfl
  | resetRelease sn prf lead =>
    exact releaseReset_keeps (fun e u hu => hu.of_writes (event_writes e u)) fun st => pointsOk_reset rfl rfl rfl rfl rfl
  | lineAdvance h0 =>
    unfold advanceLine
    split
    case isTrue hlt => exact (h.bringLine hr h0).passLine (brought_bringLine h hu hr hlt)
    case isFalse => exact h
  | frameStart later mid h0 =>
    unfold nextFrame
    split
    case isTrue hlast =>
      have hbring := bringLine_writes s
      have hlast' : (bringLine s).raster.line + 1 = totalLines (bringLine s) := by
        rw [(hbring.at .line : (bringLine s).raster.line = s.raster.line), totalLines_of_writes hbring]
        exact hlast
      rw [startFrame_eq]
      exact ((h.bringLine hr h0).openFrame (rasterOk_stable.bringLine s hr) ((hbring.at .inReset).trans h0) hlast' mid).takeAll _
    case isFalse => exact h
  | work ws => exact h.takeAll ws
  | rejoin => exact h.rejoin
  | origin mine => exact h.takeOrigin mine
  | applyOpen => exact h.openApplyWindow
  | installEnd => exact h.endInstall
  | applyEnd => exact h.endApply
  | windowOpen => exact h.openWindow hr
  | windowClose => exact h.closeWindow
  | requestPoint => exact h.requestPoint
  | beginActive => exact h.beginActive
  | activeLine j h0 => exact h.beginLine h0 j
  | frameEnd h0 => exact h.endFrame h0
  | pmark => exact h.takeMark hp
  | byte b => exact h.takeByte hp b
  | packet k body => exact h.of_writes (actPacket_writes k _ s)
  | arrive p => exact pointsOk_stableArrival.arrive p s h
  | badRun => exact h.of_writes (countCrc_writes s)
  | build => exact h.of_writes (buildPart_writes s)
  | sendBegin => exact h.of_writes (beginSend_writes s)
  | sendEnd => exact h.of_writes (endSend_writes s)
  | reportBegin => exact h.of_writes (beginReport_writes s)
  | reportEnd n => exact h.of_writes (endReport_writes n s)

/-- The points of the frame with the invariants they rest on. -/
def FrameOk (s : State) : Prop := PointsOk s ∧ RasterOk s ∧ UpdatesOk s ∧ PixelOk s

theorem Effect.frameOk {c : Instr} {s t : State} (he : Effect s c t) (h : FrameOk s) : FrameOk t := by
  obtain ⟨hpoints, hraster, hupdates, hpixel⟩ := h
  exact ⟨he.pointsOk hpoints hraster hupdates hpixel, he.rasterOk hraster, he.updatesOk hupdates, he.pixelOk hpixel⟩

/-- Settles O56: every effect keeps the four invariants, the last with those it rests on. -/
theorem ringRasterAndReportsKept : Obligations.RingRasterAndReportsKept := by
  intro s t hstep
  refine ⟨fun h => ?_, fun h => ?_, fun h => ?_, fun hpoints hraster hupdates hpixel => ?_⟩
  · exact step_keeps (fun s rest hs => hs.of_writes (pending_writes s rest)) Effect.ringOk h hstep
  · exact step_keeps (fun s rest hs => hs.of_writes (pending_writes s rest)) Effect.rasterOk h hstep
  · exact step_keeps (fun s rest hs => hs.of_writes (pending_writes s rest)) Effect.reportOk h hstep
  · refine (step_keeps (P := FrameOk) (fun s rest hs => ?_) Effect.frameOk ⟨hpoints, hraster, hupdates, hpixel⟩ hstep).1
    obtain ⟨h1, h2, h3, h4⟩ := hs
    have w := pending_writes s rest
    exact ⟨h1.of_writes w, h2.of_writes w, h3.of_writes w, h4.of_writes w⟩

end Sys2Proof.Machine
end

