-- ==== Sys2Proof/Proofs/Membership.lean ====
section
/-! SUPPORT. Proofs/Membership.lean: the station states, the references with their copies, and the Membership Unit's counts under the
recomputation of the references and every change of station state (chapters 4 and 5). -/

namespace Sys2Proof.Machine

set_option Elab.async false

/-! ## The invariants of the Membership Unit, taken together -/

/-- The Lock Unit's copy of the timing reference, and the lock state and offset that go with it (R80, R81, R85). -/
structure Locked (s : State) : Prop where
  copy : s.lock.ref = s.member.timingRef
  reference : s.lock.state = .reference ↔ s.lock.ref = some (own s)
  measured : ∀ d, s.lock.offset = some d → s.lock.state = lockOf d
  unmeasured : s.lock.offset = none ↔ (s.lock.state = .reference ∨ s.lock.state = .free)

/-- The collector asks the table reference (R128, R139). -/
def Targeted (s : State) : Prop := ∀ c, s.snap.collector = some c → c.target = s.member.tableRef

/-- The three invariants, but for the references, which may not be those of the table as it stands. -/
structure Unsettled (s : State) : Prop where
  service : ServiceOk s
  locked : Locked s
  target : Targeted s
  member : MemberOk s

/-- The three invariants. -/
structure MembershipOk (s : State) : Prop extends Unsettled s where
  refs : RefsOk s

theorem membershipOk_iff (s : State) : MembershipOk s ↔ ServiceOk s ∧ LockOk s ∧ MemberOk s := by
  constructor
  · rintro ⟨⟨hservice, hlocked, htarget, hmember⟩, htable, htiming⟩
    exact ⟨hservice, ⟨htable, htiming, hlocked.copy, hlocked.reference, hlocked.measured, hlocked.unmeasured, htarget⟩, hmember⟩
  · rintro ⟨hservice, hlock, hmember⟩
    exact ⟨⟨hservice, ⟨hlock.copy, hlock.reference, hlock.measured, hlock.unmeasured⟩, hlock.target, hmember⟩, hlock.tableRef, hlock.timingRef⟩

/-- The fields that the three invariants read. -/
abbrev Field.ofMembership : List Field :=
  [.stationState, .seeded, .originList, .responder, .progress, .collector, .transmit, .inFlight, .insertion, .rout, .stations, .store,
   .straps, .tableRef, .timingRef, .lockState, .lockRef, .offset, .miss, .ret, .mismatch, .backoff, .hold, .listen, .attempt, .joinDeadline]

/-- A frame that leaves all of a list alone leaves each part of it alone. -/
theorem leaves_of_leaves {fs gs hs : List Field} (h : gs.all (fun f => !fs.contains f) = true)
    (sub : hs.all (fun f => gs.contains f) = true) : hs.all (fun f => !fs.contains f) = true :=
  List.all_eq_true.mpr fun f hf => List.all_eq_true.mp h f (List.contains_iff_mem.mp (List.all_eq_true.mp sub f hf))

theorem MembershipOk.of_writes {fs : List Field} {s t : State} (w : Writes fs s t) (h : MembershipOk s)
    (hf : Field.ofMembership.all (fun f => !fs.contains f) = true := by decide +kernel) : MembershipOk t := by
  obtain ⟨hservice, hlock, hmember⟩ := (membershipOk_iff s).mp h
  exact (membershipOk_iff t).mpr ⟨hservice.of_writes w (leaves_of_leaves hf (by decide +kernel)),
    hlock.of_writes w (leaves_of_leaves hf (by decide +kernel)), hmember.of_writes w (leaves_of_leaves hf (by decide +kernel))⟩

theorem Locked.of_writes {fs : List Field} {s t : State} (w : Writes fs s t) (h : Locked s)
    (hf : [Field.straps, .timingRef, .lockState, .lockRef, .offset].all (fun f => !fs.contains f) = true := by decide) : Locked t := by
  simp only [List.all_cons, List.all_nil, Bool.and_true, Bool.and_eq_true, Bool.not_eq_true'] at hf
  obtain ⟨h1, h2, h3, h4, h5⟩ := hf
  have e1 : t.straps = s.straps := w.at .straps h1
  have e2 : t.member.timingRef = s.member.timingRef := w.at .timingRef h2
  have e3 : t.lock.state = s.lock.state := w.at .lockState h3
  have e4 : t.lock.ref = s.lock.ref := w.at .lockRef h4
  have e5 : t.lock.offset = s.lock.offset := w.at .offset h5
  exact ⟨by rw [e4, e2, h.copy], by simpa only [own, e1, e3, e4] using h.reference, by simpa only [e3, e5] using h.measured,
    by simpa only [e3, e5] using h.unmeasured⟩

theorem Targeted.of_writes {fs : List Field} {s t : State} (w : Writes fs s t) (h : Targeted s)
    (hf : [Field.tableRef, .collector].all (fun f => !fs.contains f) = true := by decide) : Targeted t := by
  simp only [List.all_cons, List.all_nil, Bool.and_true, Bool.and_eq_true, Bool.not_eq_true'] at hf
  have e1 : t.member.tableRef = s.member.tableRef := w.at .tableRef hf.1
  have e2 : t.snap.collector = s.snap.collector := w.at .collector hf.2
  simpa only [Targeted, e1, e2] using h

theorem Unsettled.of_writes {fs : List Field} {s t : State} (w : Writes fs s t) (h : Unsettled s)
    (hf : Field.ofMembership.all (fun f => !fs.contains f) = true := by decide +kernel) : Unsettled t :=
  ⟨h.service.of_writes w (leaves_of_leaves hf (by decide +kernel)), h.locked.of_writes w (leaves_of_leaves hf (by decide +kernel)),
    h.target.of_writes w (leaves_of_leaves hf (by decide +kernel)), h.member.of_writes w (leaves_of_leaves hf (by decide +kernel))⟩

/-! ## States -/

theorem onRing_of_serving {st : StationState} (h : serving st = true) : onRing st = true := by
  cases st <;> first | rfl | exact absurd h nofun

theorem receiving_of_onRing {st : StationState} (h : onRing st = true) : receiving st = true := by
  cases st <;> first | rfl | exact absurd h nofun

/-- The states in which the collector may be collecting (R127). -/
theorem onRing_of_collects {st : StationState} (h : st = .catchingUp ∨ serving st = true) : onRing st = true :=
  h.elim (fun e => e ▸ rfl) onRing_of_serving

/-- Going from s to t the station keeps its state or is in service, or holds on to it. -/
def Advances (s t : State) : Prop := t.member.state = s.member.state ∨ serving t.member.state = true

theorem Advances.refl (s : State) : Advances s s := Or.inl rfl

theorem Advances.trans {s t u : State} (h1 : Advances s t) (h2 : Advances t u) : Advances s u :=
  h2.elim (fun e => h1.elim (fun e' => Or.inl (e.trans e')) fun h => Or.inr (e ▸ h)) Or.inr

theorem Advances.of_writes {fs : List Field} {s t : State} (w : Writes fs s t) (hf : fs.contains .stationState = false := by decide) :
    Advances s t := Or.inl (w.at .stationState hf)

theorem Advances.receiving {s t : State} (h : Advances s t) (hs : receiving s.member.state = true) : receiving t.member.state = true :=
  h.elim (fun e => e ▸ hs) fun hv => receiving_of_onRing (onRing_of_serving hv)

/-- A station that may collect still may. -/
theorem Advances.collects {s t : State} (h : Advances s t) (hs : s.member.state = .catchingUp ∨ serving s.member.state = true) :
    t.member.state = .catchingUp ∨ serving t.member.state = true :=
  h.elim (fun e => e ▸ hs) Or.inr

theorem enterInService_state (s : State) : (enterInService s).member.state = .inService := (recomputeOnce_writes _).at .stationState

theorem advances_testService (s : State) : Advances s (testService s) := by
  unfold testService
  split
  · exact Or.inr (congrArg serving (((event_writes _ _).at .stationState).trans (enterInService_state _)))
  · exact .refl s

theorem advances_thirdFailure (s : State) : Advances s (thirdFailure s) := by
  unfold thirdFailure
  split
  · exact .refl s
  · exact Or.inr (congrArg serving (((event_writes _ _).at .stationState).trans (enterInService_state _)))
  · exact .of_writes (fs := Field.ofReport) (s := { s with member.backoff := 16 }) (event_writes _ _)
  all_goals exact .refl s

theorem advances_recompute (s : State) : Advances s (recompute s) := by
  have hrefs : Advances s (recomputeOnce s).state := .of_writes (recomputeOnce_writes s)
  have htest : Advances s (if (recomputeOnce s).lockChanged then testService (recomputeOnce s).state else (recomputeOnce s).state) := by
    split
    · exact hrefs.trans (advances_testService _)
    · exact hrefs
  unfold recompute
  dsimp only
  split
  · exact htest.trans (advances_thirdFailure _)
  · exact htest

/-! ## Parcels queued, the collector -/

namespace ServiceOk

variable {s : State}

/-- A parcel is queued on the ring only. -/
theorem queueParcel (h : ServiceOk s) (hon : onRing s.member.state = true) (p : Parcel) : ServiceOk (queueParcel p s) := by
  unfold Machine.queueParcel
  split
  · exact h
  · split
    · exact { h with quiet := fun hoff => absurd (hon.symm.trans hoff) nofun }
    · exact h

theorem queueBody (h : ServiceOk s) (hon : onRing s.member.state = true) (n : StationNo) (b : Body) : ServiceOk (queueBody n b s) :=
  h.queueParcel hon _

theorem requestSnapshot (h : ServiceOk s) (hon : onRing s.member.state = true) (n : Option StationNo) : ServiceOk (requestSnapshot n s) := by
  cases n with
  | none => exact h
  | some n => exact h.queueBody hon n _

theorem collector_of_some (h : ServiceOk s) {c : Collector} (hc : s.snap.collector = some c) :
    s.member.state = .catchingUp ∨ serving s.member.state = true := h.collector (by rw [hc]; rfl)

theorem failAttempt (h : ServiceOk s) {c : Collector} (hc : s.snap.collector = some c) (b : Collector) (ref : Option StationNo) :
    ServiceOk (failAttempt b ref s).1 := by
  have hstate := h.collector_of_some hc
  unfold Machine.failAttempt
  split
  · have hnext : ServiceOk { s with snap.collector := some { target := ref, attempt := b.attempt + 1, deadline := now s + 6, parts := [] } } :=
      { h with collector := fun _ => hstate }
    exact hnext.requestSnapshot (onRing_of_collects hstate) ref
  · exact { h with collector := nofun }

theorem collectorRefChange (h : ServiceOk s) (ref : Option StationNo) : ServiceOk (collectorRefChange ref s).1 := by
  unfold Machine.collectorRefChange
  split
  case h_1 => exact h
  case h_2 c hc =>
    have hstate := h.collector_of_some hc
    have hask : ∀ r, ServiceOk (Machine.requestSnapshot (some r)
        { s with snap.collector := some { c with target := some r, deadline := now s + 6 } }) := by
      intro r
      have hnext : ServiceOk { s with snap.collector := some { c with target := some r, deadline := now s + 6 } } :=
        { h with collector := fun _ => hstate }
      exact hnext.requestSnapshot (onRing_of_collects hstate) _
    split
    · split
      · exact h
      · exact h.failAttempt hc c _
    · exact h.failAttempt hc c _
    · exact hask _
    · exact h

end ServiceOk

theorem failAttempt_target {c d : Collector} {ref : Option StationNo} {s : State}
    (h : (failAttempt c ref s).1.snap.collector = some d) : d.target = ref := by
  unfold failAttempt at h
  split at h
  · have hkeeps : ∀ u, (requestSnapshot ref u).snap.collector = u.snap.collector := fun u => (requestSnapshot_writes ref u).at .collector
    obtain rfl := Option.some.inj ((hkeeps _).symm.trans h)
    rfl
  · exact absurd h nofun

/-- A collector that is told of another table reference asks it. -/
theorem collectorRefChange_target {ref : Option StationNo} {s : State} (hother : ∀ c, s.snap.collector = some c → c.target ≠ ref)
    {d : Collector} (h : (collectorRefChange ref s).1.snap.collector = some d) : d.target = ref := by
  unfold collectorRefChange at h
  split at h
  case h_1 hnone => exact absurd (hnone.symm.trans h) nofun
  case h_2 c hc =>
    have hne := hother c hc
    split at h
    case h_1 t r ht =>
      split at h
      case isTrue htr => exact absurd (ht.trans (congrArg some htr)) hne
      case isFalse => exact failAttempt_target h
    case h_2 => exact failAttempt_target h
    case h_3 r ht =>
      have hkeeps : ∀ u, (requestSnapshot (some r) u).snap.collector = u.snap.collector :=
        fun u => (requestSnapshot_writes (some r) u).at .collector
      obtain rfl := Option.some.inj ((hkeeps _).symm.trans h)
      rfl
    case h_4 ht => exact absurd ht hne

/-- The Lock Unit takes the timing reference (R81). -/
theorem locked_lockRefChange {ref : Option StationNo} {s : State} (h : s.member.timingRef = ref) : Locked (lockRefChange ref s) := by
  unfold lockRefChange
  split
  case isTrue hown =>
    exact ⟨h.symm, ⟨fun _ => hown, fun _ => rfl⟩, nofun, ⟨fun _ => Or.inl rfl, fun _ => rfl⟩⟩
  case isFalse hown =>
    exact ⟨h.symm, ⟨nofun, fun e => absurd e hown⟩, nofun, ⟨fun _ => Or.inr rfl, fun _ => rfl⟩⟩

/-! ## The recomputation of the references (R70, R81, R86, R139, R140) -/

theorem Unsettled.recomputeOnce {s : State} (h : Unsettled s) : MembershipOk (recomputeOnce s).state := by
  refine ⟨?_, refsOk_recomputeOnce s⟩
  have hrefs : ∀ a b n, Writes [.tableRef, .timingRef, .mismatch] s
      { s with member.tableRef := a, member.timingRef := b, member.mismatch := n } := by
    intro a b n f hf
    cases f with
    | tableRef | timingRef | mismatch => exact absurd hf (by decide)
    | _ => rfl
  have hmismatch : (if computeTableRef s = s.member.tableRef then s.member.mismatch else 0) ≤ 1 := by
    split
    · exact h.member.mismatch
    · exact Nat.zero_le 1
  have hlock : ∀ n u, u = (if computeTimingRef s = s.member.timingRef
      then { s with member.tableRef := computeTableRef s, member.timingRef := computeTimingRef s, member.mismatch := n }
      else Machine.lockRefChange (computeTimingRef s)
        { s with member.tableRef := computeTableRef s, member.timingRef := computeTimingRef s, member.mismatch := n }) →
      n ≤ 1 → ServiceOk u ∧ Locked u ∧ MemberOk u ∧ u.snap.collector = s.snap.collector ∧ u.member.tableRef = computeTableRef s := by
    rintro n _ rfl hn
    have hservice := h.service.of_writes (hrefs (computeTableRef s) (computeTimingRef s) n)
    have hmember : MemberOk { s with member.tableRef := computeTableRef s, member.timingRef := computeTimingRef s, member.mismatch := n } :=
      { h.member with mismatch := hn }
    split
    case isTrue hsame =>
      exact ⟨hservice, { h.locked with copy := h.locked.copy.trans hsame.symm }, hmember, rfl, rfl⟩
    case isFalse =>
      have hw := lockRefChange_writes (computeTimingRef s)
        { s with member.tableRef := computeTableRef s, member.timingRef := computeTimingRef s, member.mismatch := n }
      exact ⟨hservice.of_writes hw, locked_lockRefChange rfl, hmember.of_writes hw, hw.at .collector, hw.at .tableRef⟩
  have hcollector : ∀ u v, v = (if computeTableRef s = s.member.tableRef then (u, false) else Machine.collectorRefChange (computeTableRef s) u).1 →
      ServiceOk u ∧ Locked u ∧ MemberOk u ∧ u.snap.collector = s.snap.collector ∧ u.member.tableRef = computeTableRef s → Unsettled v := by
    rintro u _ rfl ⟨hservice, hlocked, hmember, hsame, htable⟩
    split
    case isTrue href =>
      exact ⟨hservice, hlocked, fun c hc => (h.target c (hsame.symm.trans hc)).trans (href.symm.trans htable.symm), hmember⟩
    case isFalse href =>
      have hw := collectorRefChange_writes (computeTableRef s) u
      refine ⟨hservice.collectorRefChange _, hlocked.of_writes hw, fun c hc => ?_, hmember.of_writes hw⟩
      have hother : ∀ d, u.snap.collector = some d → d.target ≠ computeTableRef s :=
        fun d hd e => href (e.symm.trans (h.target d (hsame.symm.trans hd)))
      exact (collectorRefChange_target hother hc).trans (htable.symm.trans (hw.at .tableRef).symm)
  exact hcollector _ _ rfl (hlock _ _ rfl hmismatch)

/-! ## Changes of station state (R56, R64, R71, R72, R77, R140) -/

namespace Unsettled

variable {s : State}

/-- A station that is catching up or serves goes on to serve, with a seeded table, its responder silent outside IN_SERVICE. -/
theorem serve (h : Unsettled s) {st : StationState} {n : Nat} (hfrom : s.member.state = .catchingUp ∨ serving s.member.state = true)
    (hto : serving st = true) (hseeded : s.table.seeded = true) (hqueue : st = .inService ∨ s.snap.queue = []) (hn : n ≤ 1) :
    Unsettled { s with member.state := st, member.mismatch := n } := by
  have hon := onRing_of_serving hto
  have hjoining : s.member.state ≠ .joining ∧ s.member.state ≠ .offRing :=
    ⟨fun e => by rw [e] at hfrom; exact absurd hfrom (by decide), fun e => by rw [e] at hfrom; exact absurd hfrom (by decide)⟩
  have hnot : ∀ x : StationState, serving x = false → st ≠ x := fun x hx e => by rw [e, hx] at hto; exact absurd hto nofun
  have hattempt : s.member.attempt.isSome = false := Bool.eq_false_iff.mpr fun ha => hjoining.1 (h.member.attempt.mp ha)
  exact {
    service := { h.service with
      seeded := fun _ => hseeded, updates := fun _ => hto, unstored := fun e => absurd e (hnot _ rfl),
      responder := fun hne => hqueue.resolve_right hne, collector := fun _ => Or.inr hto,
      quiet := fun hoff => absurd (hon.symm.trans hoff) nofun,
      bypassed := fun hoff => absurd ((receiving_of_onRing hon).symm.trans hoff) nofun }
    locked := { h.locked with }
    target := h.target
    member := { h.member with
      mismatch := hn, listen := fun e => absurd e (hnot _ rfl),
      attempt := ⟨fun ha => absurd (hattempt.symm.trans ha) nofun, fun e => absurd e (hnot _ rfl)⟩ } }

theorem enterInService (h : Unsettled s) (hfrom : s.member.state = .catchingUp ∨ serving s.member.state = true)
    (hseeded : s.table.seeded = true) : MembershipOk (enterInService s) :=
  (h.serve hfrom rfl hseeded (Or.inl rfl) (Nat.zero_le 1)).recomputeOnce

end Unsettled

namespace MembershipOk

variable {s : State}

theorem event (h : MembershipOk s) (e : Event) : MembershipOk (event e s) := h.of_writes (event_writes e s)

theorem testService (h : MembershipOk s) : MembershipOk (testService s) := by
  unfold Machine.testService
  split
  case isFalse => exact h
  case isTrue hc =>
    obtain ⟨hstate, _, _⟩ := hc
    have hseeded : Unsettled { s with table.seeded := true } :=
      { h.toUnsettled with service := { h.service with seeded := fun _ => rfl }, locked := { h.locked with }, member := { h.member with } }
    exact (hseeded.enterInService (Or.inl hstate) rfl).event _

theorem thirdFailure (h : MembershipOk s) : MembershipOk (thirdFailure s) := by
  have hbackoff : Unsettled { s with member.backoff := 16 } :=
    { h.toUnsettled with
      service := { h.service with }, locked := { h.locked with }, member := { h.member with backoff := Nat.le_refl 16 } }
  unfold Machine.thirdFailure
  split
  case h_1 =>
    exact { h with service := { h.service with }, locked := { h.locked with }, member := { h.member with }, refs := h.refs }
  case h_2 hstate =>
    have hserving : serving s.member.state = true := by rw [hstate]; rfl
    exact (hbackoff.enterInService (Or.inr hserving) (h.service.seeded hserving)).event _
  case h_3 =>
    have hrefs : RefsOk { s with member.backoff := 16 } := h.refs
    exact MembershipOk.event ⟨hbackoff, hrefs⟩ _
  all_goals exact h

end MembershipOk

theorem Unsettled.recompute {s : State} (h : Unsettled s) : MembershipOk (recompute s) := by
  have htest : MembershipOk (if (Machine.recomputeOnce s).lockChanged then Machine.testService (Machine.recomputeOnce s).state
      else (Machine.recomputeOnce s).state) := by
    split
    · exact h.recomputeOnce.testService
    · exact h.recomputeOnce
  unfold Machine.recompute
  dsimp only
  split
  · exact htest.thirdFailure
  · exact htest

namespace Unsettled

variable {s : State}

/-- The responder's queue cleared (R135). -/
theorem clearResponder (h : Unsettled s) : Unsettled (clearResponder s) :=
  { h with
    service := { h.service with
      responder := fun hne => absurd rfl hne, responderPlaces := Nat.zero_le _, responderOnce := List.nodup_nil, progress := rfl,
      progressPart := nofun }
    locked := { h.locked with }
    member := { h.member with } }

/-- A requester leaves the responder's queue (R135). -/
theorem dropRequester (h : Unsettled s) (n : StationNo) : Unsettled (dropRequester n s) := by
  have hsub : (s.snap.queue.filter (fun x => !(x == n))).Sublist s.snap.queue := List.filter_sublist
  have hhead : ∀ q : List StationNo, (headProgress q).isSome = !q.isEmpty := fun q => by cases q <;> rfl
  refine { h with
    service := { h.service with
      responder := fun hne => h.service.responder fun e => hne (List.sublist_nil.mp (e ▸ hsub))
      responderPlaces := hsub.length_le.trans h.service.responderPlaces
      responderOnce := h.service.responderOnce.sublist hsub
      progress := ?_
      progressPart := fun p hp => ?_ }
    locked := { h.locked with }
    member := { h.member with } }
  · show (if s.snap.queue.head? = some n then headProgress (s.snap.queue.filter (fun x => !(x == n))) else s.snap.progress).isSome
      = !(s.snap.queue.filter (fun x => !(x == n))).isEmpty
    split
    case isTrue => exact hhead _
    case isFalse hne =>
      rw [h.service.progress]
      cases hq : s.snap.queue with
      | nil => rfl
      | cons m rest =>
        have hm : (m == n) = false := by simpa [hq] using hne
        simp [hm]
  · have hp : (if s.snap.queue.head? = some n then headProgress (s.snap.queue.filter (fun x => !(x == n))) else s.snap.progress) = some p := hp
    split at hp
    case isTrue =>
      unfold headProgress at hp
      split at hp
      · exact absurd hp nofun
      · exact Option.some.inj hp ▸ Nat.zero_le 8
    case isFalse => exact h.service.progressPart p hp

end Unsettled

namespace MembershipOk

variable {s : State}

/-- A collection begun from the table reference (R128). -/
theorem beginCollection (h : MembershipOk s) (hstate : s.member.state = .catchingUp ∨ serving s.member.state = true) :
    MembershipOk (beginCollection s) := by
  have hw := requestSnapshot_writes s.member.tableRef
    { s with snap.collector := some { target := s.member.tableRef, attempt := 1, deadline := now s + 6, parts := [] } }
  have hservice : ServiceOk { s with snap.collector := some { target := s.member.tableRef, attempt := 1, deadline := now s + 6, parts := [] } } :=
    { h.service with collector := fun _ => hstate }
  have htarget : Targeted { s with snap.collector := some { target := s.member.tableRef, attempt := 1, deadline := now s + 6, parts := [] } } := by
    rintro _ ⟨⟩
    rfl
  have hlocked : Locked { s with snap.collector := some { target := s.member.tableRef, attempt := 1, deadline := now s + 6, parts := [] } } :=
    { h.locked with }
  have hmember : MemberOk { s with snap.collector := some { target := s.member.tableRef, attempt := 1, deadline := now s + 6, parts := [] } } :=
    { h.member with }
  have hrefs : RefsOk { s with snap.collector := some { target := s.member.tableRef, attempt := 1, deadline := now s + 6, parts := [] } } := h.refs
  exact ⟨⟨hservice.requestSnapshot (onRing_of_collects hstate) _, hlocked.of_writes hw, htarget.of_writes hw, hmember.of_writes hw⟩,
    hrefs.of_writes hw⟩

/-- From IN_SERVICE a resynchronisation begins (R75 to R77). -/
theorem enterResync (h : MembershipOk s) (hstate : s.member.state = .inService) (c : ResyncCause) : MembershipOk (enterResync c s) := by
  have hserving : serving s.member.state = true := by rw [hstate]; rfl
  have hresync : Unsettled (Machine.clearResponder { s with member.state := .resync, member.mismatch := 0 }) :=
    h.toUnsettled.clearResponder.serve (Or.inr hserving) rfl (h.service.seeded hserving) (Or.inr rfl) (Nat.zero_le 1)
  have hraised := hresync.of_writes (event_writes (.resyncStart c) _)
  exact hraised.recompute.beginCollection ((advances_recompute _).collects (Or.inr
    (congrArg serving ((event_writes (.resyncStart c) (Machine.clearResponder { s with member.state := .resync, member.mismatch := 0 })).at .stationState))))

/-- From IN_SERVICE or RESYNC a hold begins (R71). -/
theorem enterRingHold (h : MembershipOk s) (hserving : serving s.member.state = true) : MembershipOk (enterRingHold s) := by
  have hhold : Unsettled (Machine.clearResponder { s with member.state := .ringHold, member.mismatch := s.member.mismatch }) :=
    h.toUnsettled.clearResponder.serve (Or.inr hserving) rfl (h.service.seeded hserving) (Or.inr rfl) h.member.mismatch
  have hcount : Unsettled (Machine.clearResponder { s with member.state := .ringHold, member.hold := 0 }) :=
    { hhold with
      service := { hhold.service with }, locked := { hhold.locked with }, target := hhold.target,
      member := { hhold.member with hold := Nat.zero_le 63 } }
  exact (hcount.of_writes (event_writes .ringHold _)).recompute

theorem leaveRingHold (h : MembershipOk s) (hstate : s.member.state = .ringHold) : MembershipOk (leaveRingHold s) := by
  have hserving : serving s.member.state = true := by rw [hstate]; rfl
  have hqueue : s.snap.queue = [] := by
    by_contra hne
    exact absurd (hstate.symm.trans (h.service.responder hne)) nofun
  have hback : ∀ st, serving st = true → MembershipOk (recompute (Machine.event .ringClosed { s with member.state := st, member.mismatch := 0 })) :=
    fun st hto => ((h.toUnsettled.serve (Or.inr hserving) hto (h.service.seeded hserving) (Or.inr hqueue) (Nat.zero_le 1)).of_writes
      (event_writes .ringClosed _)).recompute
  unfold Machine.leaveRingHold
  split
  · exact hback _ rfl
  · exact hback _ rfl

end MembershipOk

/-! ## Off the ring (R54, R55, R74, R78) -/

theorem computeTableRef_empty {s : State} (hoff : onRing s.member.state = false) (hnone : s.member.stations = []) :
    computeTableRef s = none ∧ computeTimingRef s = none := by
  have hpresent : presentStations s = [] := by simp [presentStations, ownEntry, hoff, hnone]
  have htable : computeTableRef s = none := by rw [computeTableRef, hpresent]; rfl
  exact ⟨htable, by rw [computeTimingRef, htable, hpresent]; rfl⟩

/-- A Membership Unit at its reset values in a state off the ring, with nothing of a ring in hand. -/
theorem membershipOk_fresh {s : State} {st : StationState} (hmember : s.member = Member.reset st) (hoff : onRing st = false)
    (hlocked : Locked s) (hlist : s.origin.list = []) (hstore : st = .offRing → s.store = [])
    (hsnap : s.snap = Snap.reset) (hquiet : s.ring.transmit = [] ∧ s.ring.inFlight = [])
    (hbypassed : receiving st = false → s.ring.insertion = [] ∧ s.ring.rout = none) : MembershipOk s := by
  have hstate : s.member.state = st := by rw [hmember]; rfl
  have hstations : s.member.stations = [] := by rw [hmember]; rfl
  have hnot : ∀ x : StationState, onRing x = true → st ≠ x := fun x hx e => by rw [e, hx] at hoff; exact absurd hoff nofun
  have hserving : serving st = false := Bool.eq_false_iff.mpr fun hs => absurd (hoff.symm.trans (onRing_of_serving hs)) nofun
  obtain ⟨htable, htiming⟩ := computeTableRef_empty (s := s) (hstate ▸ hoff) hstations
  refine ⟨⟨?service, hlocked, ?target, ?member⟩, ?refs⟩
  case service =>
    refine ⟨fun hs => by rw [hstate, hserving] at hs; exact absurd hs nofun, fun hne => absurd hlist hne, fun e => hstore (hstate.symm.trans e),
      ?_, ?_, ?_, ?_, ?_, ?_, fun _ => hquiet, fun hr => ?_⟩
    · rw [hsnap]; exact fun hne => absurd rfl hne
    · rw [hsnap]; exact Nat.zero_le _
    · rw [hsnap]; exact List.nodup_nil
    · rw [hsnap]; rfl
    · rw [hsnap]; exact nofun
    · rw [hsnap]; exact nofun
    · obtain ⟨hinsertion, hrout⟩ := hbypassed (hstate ▸ hr)
      exact ⟨hinsertion, hrout, hstations⟩
  case target =>
    intro c hc
    rw [hsnap] at hc
    exact absurd hc nofun
  case member =>
    refine ⟨?_, ?_, ?_, ?_, ?_, ?_, ?_, ?_, ?_, ?_, ?_⟩ <;> rw [hmember]
    · exact Nat.zero_le _
    · exact Nat.zero_le _
    · exact Nat.zero_le _
    · exact Nat.zero_le _
    · exact Nat.zero_le _
    · exact fun _ => Nat.zero_le _
    · exact ⟨nofun, fun e => absurd e (hnot _ rfl)⟩
    · rfl
    · exact nofun
    · exact List.Pairwise.nil
    · exact nofun
  case refs =>
    refine ⟨?_, ?_⟩
    · rw [htable, hmember]; rfl
    · rw [htiming, hmember]; rfl

/-- Both references gone, the Lock Unit is free (R90). -/
theorem Locked.loseReferences {s : State} (h : Locked s) :
    (loseReferences s).lock.ref = none ∧ (loseReferences s).lock.state ≠ .reference
      ∧ (∀ d, (loseReferences s).lock.offset = some d → (loseReferences s).lock.state = lockOf d)
      ∧ ((loseReferences s).lock.offset = none ↔ ((loseReferences s).lock.state = .reference ∨ (loseReferences s).lock.state = .free)) := by
  unfold Machine.loseReferences
  split
  case isTrue hnone =>
    have href : s.lock.ref = none := h.copy.trans hnone
    exact ⟨href, fun e => absurd (href.symm.trans (h.reference.mp e)) nofun, h.measured, h.unmeasured⟩
  case isFalse =>
    rw [lockRefChange, if_neg nofun]
    exact ⟨rfl, nofun, nofun, ⟨fun _ => Or.inr rfl, fun _ => rfl⟩⟩

/-- A free Lock Unit with no reference. -/
theorem Locked.of_lost {s t : State} (h : Locked s) (hlock : t.lock = (Machine.loseReferences s).lock) (hmember : t.member.timingRef = none) : Locked t := by
  obtain ⟨href, hstate, hmeasured, hunmeasured⟩ := h.loseReferences
  rw [← hlock] at href hstate hmeasured hunmeasured
  exact ⟨href.trans hmember.symm, ⟨fun e => absurd e hstate, fun e => absurd (href.symm.trans e) nofun⟩, hmeasured, hunmeasured⟩

namespace MembershipOk

variable {s : State}

theorem origin_nil (h : MembershipOk s) (hnot : serving s.member.state = false) : s.origin.list = [] := by
  by_contra hne
  exact absurd (hnot.symm.trans (h.service.updates hne)) nofun

/-- A station that has no part in the ring yet is isolated (R54, R63, R78). -/
theorem enterIsolated (h : MembershipOk s) (hstate : s.member.state = .listening ∨ s.member.state = .joining) (r : IsolationReason) :
    MembershipOk (enterIsolated r s) := by
  have hserving : serving s.member.state = false := by rcases hstate with e | e <;> rw [e] <;> rfl
  have hw := loseReferences_writes s
  have hsnap : s.snap = Snap.reset := by
    have hqueue : s.snap.queue = [] := by
      by_contra hne
      exact absurd (h.service.responder hne) (by rcases hstate with e | e <;> rw [e] <;> nofun)
    have hprogress : s.snap.progress = none :=
      Option.isNone_iff_eq_none.mp (by rw [← Option.not_isSome, h.service.progress, hqueue]; rfl)
    have hcollector : s.snap.collector = none := by
      by_contra hne
      have := h.service.collector (Option.isSome_iff_ne_none.mpr hne)
      rcases hstate with e | e <;> rw [e] at this <;> exact absurd this (by decide)
    cases hs : s.snap with
    | mk queue progress collector =>
      rw [hs] at hqueue hprogress hcollector
      exact Snap.mk.injEq .. ▸ ⟨hqueue, hprogress, hcollector⟩
  have hsnap' : (Machine.loseReferences s).snap = s.snap := by
    unfold Machine.loseReferences lockRefChange
    split
    · rfl
    · split <;> rfl
  have hfresh : MembershipOk { Machine.loseReferences s with
      member := Member.reset .isolated, ring.insertion := [], ring.transmit := [], ring.inFlight := [], ring.streak := 0, ring.rout := none } :=
    membershipOk_fresh rfl rfl (h.locked.of_lost rfl rfl) ((hw.at .originList).trans (h.origin_nil hserving))
      nofun (hsnap'.trans hsnap) ⟨rfl, rfl⟩ fun _ => ⟨rfl, rfl⟩
  exact hfresh.event _

theorem duplicateNotice (h : MembershipOk s) : MembershipOk (duplicateNotice s) := by
  unfold Machine.duplicateNotice
  split
  case isTrue hstate => exact h.enterIsolated hstate _
  case isFalse => exact h

end MembershipOk

/-- A rejoin asks nothing of the station before it but the Lock Unit's copy (R74). -/
theorem Locked.doRejoin {s : State} (h : Locked s) : MembershipOk (doRejoin s) := by
  have hreset : ∀ u, Locked u → MembershipOk (rejoinReset u) := fun u hu =>
    membershipOk_fresh rfl rfl (hu.of_lost rfl rfl) rfl nofun rfl ⟨rfl, rfl⟩ nofun
  have hdraw : Locked { s with freeDraws := s.freeDraws + 1 } := { h with }
  unfold Machine.doRejoin
  dsimp only
  split
  · exact (hreset _ (hdraw.of_writes (rejoinReports_writes _))).event _
  · exact hreset _ (Locked.of_writes (rejoinReports_writes _) (hdraw.of_writes (event_writes _ _)))

end Sys2Proof.Machine
end

