-- ==== Sys2Proof/Proofs/MembershipKept.lean ====
section
/-! SUPPORT. Proofs/MembershipKept.lean: the membership invariants under every command (chapters 4, 5, and R40, R54, R58, R78, R108,
R130, R135, R164). -/

namespace Sys2Proof.Machine

set_option Elab.async false

/-! ## The station table (R68) -/

/-- The table's numbers, in rising order. -/
def Rising (l : List (StationNo × StationEntry)) : Prop := (l.map (fun e => e.1.toNat)).Pairwise (· < ·)

theorem mem_putStation {n : StationNo} {e : StationEntry} {x : StationNo × StationEntry} :
    ∀ {l : List (StationNo × StationEntry)}, x ∈ putStation n e l → x = (n, e) ∨ x ∈ l
  | [], h => Or.inl (List.mem_singleton.mp h)
  | (m, f) :: rest, h => by
    unfold putStation at h
    split at h
    · exact List.mem_cons.mp h
    · split at h
      · exact (List.mem_cons.mp h).imp_right (List.mem_cons_of_mem _)
      · rcases List.mem_cons.mp h with h | h
        · exact Or.inr (h ▸ List.mem_cons_self)
        · exact (mem_putStation h).imp_right (List.mem_cons_of_mem _)

theorem Rising.putStation {n : StationNo} {e : StationEntry} : ∀ {l : List (StationNo × StationEntry)}, Rising l → Rising (putStation n e l)
  | [], _ => List.pairwise_singleton _ _
  | (m, f) :: rest, h => by
    obtain ⟨hfirst, hrest⟩ := List.pairwise_cons.mp h
    have hbelow : ∀ x ∈ rest, m.toNat < x.1.toNat := fun x hx => hfirst _ (List.mem_map_of_mem hx)
    unfold Machine.putStation
    split
    case isTrue hlt =>
      refine List.pairwise_cons.mpr ⟨fun k hk => ?_, h⟩
      rcases List.mem_cons.mp hk with rfl | hk
      · exact hlt
      · exact hlt.trans (hfirst k hk)
    case isFalse hle =>
      split
      case isTrue heq => exact List.pairwise_cons.mpr ⟨heq ▸ hfirst, hrest⟩
      case isFalse hne =>
        have hlt : m.toNat < n.toNat := Nat.lt_of_le_of_ne (Nat.le_of_not_lt hle) fun he => hne (BitVec.eq_of_toNat_eq he.symm)
        refine List.pairwise_cons.mpr ⟨fun k hk => ?_, Rising.putStation hrest⟩
        obtain ⟨x, hx, rfl⟩ := List.mem_map.mp hk
        rcases mem_putStation hx with rfl | hx
        · exact hlt
        · exact hbelow x hx

theorem mem_ageTable {l : List (StationNo × StationEntry)} {x : StationNo × StationEntry} (h : x ∈ ageTable l) :
    ∃ e ∈ l, e.1 = x.1 ∧ ageEntry e.2 = some x.2 := by
  obtain ⟨e, he, hx⟩ := List.mem_filterMap.mp h
  obtain ⟨f, hf, rfl⟩ := Option.map_eq_some_iff.mp hx
  exact ⟨e, he, rfl, hf⟩

theorem Rising.ageTable {l : List (StationNo × StationEntry)} (h : Rising l) : Rising (ageTable l) := by
  refine List.pairwise_map.mpr (List.Pairwise.filterMap _ (fun a b hab x hx y hy => ?_) (List.pairwise_map.mp h))
  obtain ⟨_, _, rfl⟩ := Option.map_eq_some_iff.mp hx
  obtain ⟨_, _, rfl⟩ := Option.map_eq_some_iff.mp hy
  exact hab

theorem ageEntry_missed {e f : StationEntry} (h : ageEntry e = some f) (he : e.missed ≤ 3) : f.missed ≤ 3 := by
  unfold ageEntry at h
  split at h
  · exact Option.some.inj h ▸ he
  · split at h
    case isTrue hlt => exact Option.some.inj h ▸ Nat.le_of_lt_succ hlt
    case isFalse => exact absurd h nofun

namespace Unsettled

variable {s : State}

/-- The station table of a station that hears the ring changes. -/
theorem withStations (h : Unsettled s) (hreceiving : receiving s.member.state = true) {l : List (StationNo × StationEntry)}
    (hrising : Rising l) (hpeers : ∀ e ∈ l, isStation e.1 = true ∧ e.1 ≠ own s ∧ e.2.missed ≤ 3) :
    Unsettled { s with member.stations := l } :=
  { h with
    service := { h.service with bypassed := fun hoff => absurd (hreceiving.symm.trans hoff) nofun }
    locked := { h.locked with }
    member := { h.member with rising := hrising, peers := hpeers } }

/-- Another station's entry is made present (R60, R66). -/
theorem putStation (h : Unsettled s) (hreceiving : receiving s.member.state = true) {n : StationNo} {e : StationEntry}
    (hn : isStation n = true) (hother : n ≠ own s) (he : e.missed = 0) :
    Unsettled { s with member.stations := putStation n e s.member.stations } :=
  h.withStations hreceiving (Rising.putStation h.member.rising) fun x hx => (mem_putStation hx).elim
    (fun hx => by rw [hx]; exact ⟨hn, hother, he ▸ Nat.zero_le 3⟩) fun hx => h.member.peers x hx

end Unsettled

/-! ## Writes that the membership allows -/

namespace MembershipOk

variable {s : State}

theorem queueBody (h : MembershipOk s) (hon : onRing s.member.state = true) (n : StationNo) (b : Body) : MembershipOk (queueBody n b s) := by
  have hw := queueBody_writes n b s
  exact ⟨⟨h.service.queueBody hon n b, h.locked.of_writes hw, h.target.of_writes hw, h.member.of_writes hw⟩, h.refs.of_writes hw⟩

theorem report (h : MembershipOk s) (r : Report) : MembershipOk (report r s) := h.of_writes (report_writes r s)

/-- The store changes, a station in OFF_RING without any record apart. -/
theorem withStore (h : MembershipOk s) {st : List Proposal} (hst : s.member.state = .offRing → st = []) :
    MembershipOk { s with store := st } :=
  { h with
    service := { h.service with unstored := hst }, locked := { h.locked with }, member := { h.member with }, refs := h.refs }

theorem filterStore (h : MembershipOk s) (f : Proposal → Bool) : MembershipOk { s with store := s.store.filter f } :=
  h.withStore fun e => by rw [h.service.unstored e]; rfl

theorem mapStore (h : MembershipOk s) (f : Proposal → Proposal) : MembershipOk { s with store := s.store.map f } :=
  h.withStore fun e => by rw [h.service.unstored e]; rfl

/-- On the ring the store changes at will. -/
theorem setStore (h : MembershipOk s) (hon : onRing s.member.state = true) (st : List Proposal) : MembershipOk { s with store := st } :=
  h.withStore fun e => by rw [e] at hon; exact absurd hon nofun

/-- The in-flight list changes, an empty one apart. -/
theorem withFlight (h : MembershipOk s) {l : List InFlight} (hl : s.ring.inFlight = [] → l = []) :
    MembershipOk { s with ring.inFlight := l } := by
  have hquiet : onRing s.member.state = false → s.ring.transmit = [] ∧ l = [] := fun hoff =>
    ⟨(h.service.quiet hoff).1, hl (h.service.quiet hoff).2⟩
  exact { h with
    service := { h.service with quiet := hquiet }, locked := { h.locked with }, member := { h.member with }, refs := h.refs }

/-- The origin list changes, a station that does not serve without any record apart. -/
theorem withList (h : MembershipOk s) {l : List OriginRecord} (hl : l ≠ [] → serving s.member.state = true) :
    MembershipOk { s with origin.list := l } :=
  { h with
    service := { h.service with updates := hl }, locked := { h.locked with }, member := { h.member with }, refs := h.refs }

theorem setOrigin (h : MembershipOk s) (q : Seq) (f : OriginRecord → OriginRecord) : MembershipOk (setOrigin q f s) :=
  h.withList fun hne => h.service.updates fun e => hne (by rw [e]; rfl)

theorem dropOrigin (h : MembershipOk s) (q : Seq) : MembershipOk (dropOrigin q s) :=
  h.withList fun hne => h.service.updates fun e => hne (by rw [e]; rfl)

/-- What only the Membership Unit's counts, its beacon's record and its flags concern. -/
theorem withCounts (h : MembershipOk s) {m : Member} (hstate : m.state = s.member.state) (hstations : m.stations = s.member.stations)
    (htable : m.tableRef = s.member.tableRef) (htiming : m.timingRef = s.member.timingRef)
    (hmember : MemberOk { s with member := m }) : MembershipOk { s with member := m } := by
  have hw : ServiceOk { s with member := m } := by
    have hservice := h.service
    exact ⟨fun hs => hservice.seeded (hstate ▸ hs), fun hne => hstate ▸ hservice.updates hne, fun e => hservice.unstored (hstate.symm.trans e),
      fun hne => hstate.trans (hservice.responder hne), hservice.responderPlaces, hservice.responderOnce, hservice.progress,
      hservice.progressPart, fun hc => by rw [show ({ s with member := m } : State).member.state = s.member.state from hstate]; exact hservice.collector hc,
      fun hoff => hservice.quiet (hstate ▸ hoff), fun hoff => by
        obtain ⟨hinsertion, hrout, hnone⟩ := hservice.bypassed (hstate ▸ hoff)
        exact ⟨hinsertion, hrout, hstations.trans hnone⟩⟩
  refine ⟨⟨hw, ?_, fun c hc => (h.target c hc).trans htable.symm, hmember⟩, ?_, ?_⟩
  · exact ⟨h.locked.copy.trans htiming.symm, h.locked.reference, h.locked.measured, h.locked.unmeasured⟩
  · rw [computeTableRef_congr (s := s) (t := { s with member := m }) rfl hstate hstations]
    exact htable.trans h.refs.1
  · rw [computeTimingRef_congr (s := s) (t := { s with member := m }) rfl hstate hstations]
    exact htiming.trans h.refs.2

/-! ## Parcels at the Membership Unit (R60, R66, R75, R82 to R86) -/

theorem measure (h : MembershipOk s) (F : Frame) : MembershipOk (measure F s) := by
  unfold Machine.measure
  split
  case isTrue => exact h
  case isFalse hstate =>
    dsimp only
    generalize offsetOf s.raster.line (totalLines s) = d
    have hlocked : MembershipOk (requestBlanking (blankingOf (nominal s) d)
        { Machine.adopt F d { s with lock.offset := some d } with lock.state := lockOf d }) := by
      have hw := adopt_writes F d { s with lock.offset := some d }
      have hkept : Writes (.lockState :: .offset :: .request :: Field.ofAdoption) s (requestBlanking (blankingOf (nominal s) d)
          { Machine.adopt F d { s with lock.offset := some d } with lock.state := lockOf d }) := by
        intro f hf
        have hsame := hw f
        cases f with
        | lockState | offset | request | frame | frameSlip | reports | sending | sendEnds | lost => exact absurd hf (by decide)
        | _ => exact hsame (by decide)
      have hnone : lockOf d ≠ .reference := by unfold lockOf; split <;> nofun
      have hfree : lockOf d ≠ .free := by unfold lockOf; split <;> nofun
      have hoffset : (Machine.adopt F d { s with lock.offset := some d }).lock.offset = some d := hw.at .offset
      have href : (Machine.adopt F d { s with lock.offset := some d }).lock.ref = s.lock.ref := hw.at .lockRef
      have hstraps : (Machine.adopt F d { s with lock.offset := some d }).straps = s.straps := hw.at .straps
      have htiming : (Machine.adopt F d { s with lock.offset := some d }).member.timingRef = s.member.timingRef := hw.at .timingRef
      refine ⟨⟨h.service.of_writes hkept, ⟨?_, ?_, ?_, ?_⟩, h.target.of_writes hkept, h.member.of_writes hkept⟩, h.refs.of_writes hkept⟩
      · exact href.trans (h.locked.copy.trans htiming.symm)
      · refine ⟨fun e => absurd e hnone, fun e => absurd (h.locked.reference.mpr ?_) hstate⟩
        exact href.symm.trans (e.trans (congrArg (fun x : Straps => some x.station) hstraps))
      · intro e he
        exact congrArg lockOf (Option.some.inj (hoffset.symm.trans he))
      · exact ⟨fun e => absurd (hoffset.symm.trans e) nofun, fun e => e.elim (fun e => absurd e hnone) fun e => absurd e hfree⟩
    split
    · exact hlocked
    · exact hlocked.testService

theorem compareDigest (h : MembershipOk s) (dg : Option (Frame × Digest)) : MembershipOk (compareDigest dg s) := by
  unfold Machine.compareDigest
  split
  case isTrue => exact h
  case isFalse hc =>
    have hstate : s.member.state = .inService := by
      by_contra hne
      exact hc (Or.inl hne)
    split
    · exact h
    · split
      · exact h
      · split
        · exact h.withCounts rfl rfl rfl rfl { h.member with mismatch := Nat.zero_le 1 }
        · split
          case isTrue hlt => exact h.withCounts rfl rfl rfl rfl { h.member with mismatch := Nat.le_of_lt_succ hlt }
          case isFalse => exact h.enterResync hstate _

theorem offerBeacon (h : MembershipOk s) (hreceiving : receiving s.member.state = true) {hd : Header}
    (hn : isStation hd.origin = true) (b : BeaconBody) : MembershipOk (offerBeacon hd b s) := by
  have hmeasure : ∀ t, MembershipOk t → MembershipOk (if t.member.timingRef = some hd.origin then Machine.measure b.frame t else t) := by
    intro t ht
    split
    · exact ht.measure _
    · exact ht
  have hcompare : ∀ t, MembershipOk t → MembershipOk (if t.member.tableRef = some hd.origin then Machine.compareDigest b.digest t else t) := by
    intro t ht
    split
    · exact ht.compareDigest _
    · exact ht
  unfold Machine.offerBeacon
  split
  case isTrue => exact h
  case isFalse hc =>
    exact hcompare _ (hmeasure _ (h.toUnsettled.putStation hreceiving hn (fun e => hc (Or.inr e)) rfl).recompute)

theorem offerJoin (h : MembershipOk s) {hd : Header} (hn : isStation hd.origin = true)
    (hother : hd.origin ≠ own s ∨ onRing s.member.state = false) (b : JoinBody) : MembershipOk (offerJoin hd b s).2 := by
  unfold Machine.offerJoin
  dsimp only
  split
  case isFalse => exact h
  case isTrue hc =>
    obtain ⟨hon, _⟩ := Bool.and_eq_true_iff.mp hc
    have hne : hd.origin ≠ own s := hother.resolve_right fun hoff => absurd (hon.symm.trans hoff) nofun
    exact ((h.toUnsettled.putStation (receiving_of_onRing hon) hn hne rfl).dropRequester _).recompute

/-! ## Parcels at the other consumers -/

theorem offerSnapshotReq (h : MembershipOk s) (hd : Header) : MembershipOk (offerSnapshotReq hd s) := by
  unfold Machine.offerSnapshotReq
  split
  case isFalse => exact h
  case isTrue hc =>
    obtain ⟨hstate, _⟩ := hc
    split
    · exact h
    · split
      case isTrue => exact h
      case isFalse hnew =>
        split
        case isTrue => exact h
        case isFalse hplace =>
          refine { h with
            service := { h.service with
              responder := fun _ => hstate
              responderPlaces := ?_
              responderOnce := ?_
              progress := ?_
              progressPart := fun p hp => ?_ }
            locked := { h.locked with }
            member := { h.member with }
            refs := h.refs }
          · show (s.snap.queue ++ [hd.origin]).length ≤ _
            rw [List.length_append]
            exact Nat.lt_of_not_le hplace
          · refine List.nodup_append.mpr ⟨h.service.responderOnce, List.nodup_singleton _, fun a ha b hb e => hnew ?_⟩
            rw [List.mem_singleton.mp hb] at e
            exact List.contains_iff_mem.mpr (e ▸ ha)
          · show (if s.snap.queue = [] then some 0 else s.snap.progress).isSome = !(s.snap.queue ++ [hd.origin]).isEmpty
            split
            · simp
            case isFalse hne =>
              rw [h.service.progress]
              cases hq : s.snap.queue with
              | nil => exact absurd hq hne
              | cons => rfl
          · have hp : (if s.snap.queue = [] then some 0 else s.snap.progress) = some p := hp
            split at hp
            · exact Option.some.inj hp ▸ Nat.zero_le 8
            · exact h.service.progressPart p hp

theorem offerSnapshot (h : MembershipOk s) (hd : Header) (b : SnapshotBody) : MembershipOk (offerSnapshot hd b s) := by
  unfold Machine.offerSnapshot
  split
  case h_1 => exact h
  case h_2 c hc =>
    split
    case isFalse => exact h
    case isTrue =>
      dsimp only
      split
      · exact { h with
          service := { h.service with collector := nofun }, locked := { h.locked with }, target := nofun,
          member := { h.member with }, refs := h.refs }
      · exact { h with
          service := { h.service with collector := fun _ => h.service.collector_of_some hc }, locked := { h.locked with },
          target := by rintro _ ⟨⟩; exact h.target c hc
          member := { h.member with }, refs := h.refs }

theorem offerPropose (h : MembershipOk s) (hd : Header) (b : ProposeBody) : MembershipOk (offerPropose hd b s).2 := by
  unfold Machine.offerPropose
  split
  case isFalse => exact h
  case isTrue hc =>
    obtain ⟨hon, _⟩ := Bool.and_eq_true_iff.mp hc
    split
    · exact h.setStore hon _
    · split
      · exact h.setStore hon _
      · exact h

theorem offerCommit (h : MembershipOk s) (hd : Header) (q : Seq) (F : Frame) : MembershipOk (offerCommit hd q F s) := by
  unfold Machine.offerCommit
  split
  case isFalse => exact h
  case isTrue hc =>
    obtain ⟨hon, _⟩ := Bool.and_eq_true_iff.mp hc
    split
    · exact h.setStore hon _
    · split
      · exact h.withCounts rfl rfl rfl rfl { h.member with }
      · exact h

theorem offerWithdraw (h : MembershipOk s) (hd : Header) (q : Seq) : MembershipOk (offerWithdraw hd q s) := by
  unfold Machine.offerWithdraw
  split
  · exact h.filterStore _
  · exact h

end MembershipOk

theorem advances_compareDigest (dg : Option (Frame × Digest)) (s : State) : Advances s (compareDigest dg s) := by
  have hresync : Advances s (enterResync .digest s) := by
    refine Advances.trans (t := event (.resyncStart .digest) (clearResponder { s with member.state := .resync, member.mismatch := 0 }))
      (Or.inr (congrArg serving ((event_writes (.resyncStart .digest) _).at .stationState)))
      (Advances.trans (advances_recompute _) (.of_writes (beginCollection_writes _)))
  unfold compareDigest
  repeat' split
  all_goals first | exact .refl s | exact hresync

theorem advances_measure (F : Frame) (s : State) : Advances s (measure F s) := by
  unfold measure
  split
  · exact .refl s
  · dsimp only
    have hw := adopt_writes F (offsetOf s.raster.line (totalLines s)) { s with lock.offset := some (offsetOf s.raster.line (totalLines s)) }
    have hlocked : ∀ n l, Advances s (requestBlanking n { adopt F (offsetOf s.raster.line (totalLines s))
        { s with lock.offset := some (offsetOf s.raster.line (totalLines s)) } with lock.state := l }) :=
      fun _ _ => Or.inl (hw.at .stationState)
    split
    · exact hlocked _ _
    · exact (hlocked _ _).trans (advances_testService _)

theorem advances_offerBeacon (hd : Header) (b : BeaconBody) (s : State) : Advances s (offerBeacon hd b s) := by
  have hmeasure : ∀ t, Advances t (if t.member.timingRef = some hd.origin then measure b.frame t else t) := by
    intro t
    split
    · exact advances_measure _ t
    · exact .refl t
  have hcompare : ∀ t, Advances t (if t.member.tableRef = some hd.origin then compareDigest b.digest t else t) := by
    intro t
    split
    · exact advances_compareDigest _ t
    · exact .refl t
  have hput : ∀ l, Advances s { s with member.stations := l } := fun l => .of_writes (stations_writes s l)
  unfold offerBeacon
  split
  · exact .refl s
  · exact (hput _).trans ((advances_recompute _).trans ((hmeasure _).trans (hcompare _)))

theorem advances_offerJoin (hd : Header) (b : JoinBody) (s : State) : Advances s (offerJoin hd b s).2 := by
  have hput : ∀ l, Advances s (dropRequester hd.origin { s with member.stations := l }) :=
    fun l => .of_writes ((stations_writes s l).comp (hs := [.stations, .responder, .progress]) (dropRequester_writes _ _))
  unfold offerJoin
  dsimp only
  split
  · exact (hput _).trans (advances_recompute _)
  · exact .refl s

theorem advances_consume (p : Parcel) (s : State) : Advances s (consume p s).2 := by
  unfold consume
  split
  · exact advances_offerBeacon _ _ s
  · exact advances_offerJoin _ _ s
  · exact .of_writes (offerPropose_writes _ _ s)
  · exact .of_writes (offerCommit_writes _ _ _ s)
  · exact .of_writes (offerWithdraw_writes _ _ s)
  · exact .of_writes (offerSnapshotReq_writes _ s)
  · exact .of_writes (offerSnapshot_writes _ _ s)

namespace MembershipOk

variable {s : State}

/-! ## Arrivals (R36 to R43) -/

theorem consume (h : MembershipOk s) (hreceiving : receiving s.member.state = true) {p : Parcel} (hn : isStation p.header.origin = true)
    (hother : p.header.origin ≠ own s ∨ onRing s.member.state = false) : MembershipOk (consume p s).2 := by
  unfold Machine.consume
  split
  · exact h.offerBeacon hreceiving hn _
  · exact h.offerJoin hn hother _
  · exact h.offerPropose _ _
  · exact h.offerCommit _ _ _
  · exact h.offerWithdraw _ _
  · exact h.offerSnapshotReq _
  · exact h.offerSnapshot _ _

theorem forward (h : MembershipOk s) (hreceiving : receiving s.member.state = true) {p : Parcel} (hn : isStation p.header.origin = true)
    (hother : p.header.origin ≠ own s ∨ onRing s.member.state = false) (notice : Bool) : MembershipOk (forward p notice s) := by
  have hcount := h.of_writes (countStray_writes s)
  unfold Machine.forward
  split
  · split
    · exact hcount.duplicateNotice
    · exact hcount
  · have hconsume := h.consume (p := raiseHop p) hreceiving hn hother
    have hstill := (advances_consume (raiseHop p) s).receiving hreceiving
    have hfull := hconsume.of_writes (countOverflow_writes _)
    dsimp only
    unfold insertionJoin
    split
    · exact { hconsume with
        service := { hconsume.service with bypassed := fun hoff => absurd (hstill.symm.trans hoff) nofun }
        locked := { hconsume.locked with }, member := { hconsume.member with }, refs := hconsume.refs }
    · split
      · exact hfull.duplicateNotice
      · exact hfull

theorem joinReturn (h : MembershipOk s) (mismatch : Bool) : MembershipOk (joinReturn mismatch s) := by
  unfold Machine.joinReturn
  split
  case isFalse => exact h
  case isTrue hstate =>
    split
    case isTrue => exact h.enterIsolated (Or.inr hstate) _
    case isFalse =>
      have hserving : serving s.member.state = false := by rw [hstate]; rfl
      have hlist : s.origin.list = [] := h.origin_nil hserving
      have hqueue : s.snap.queue = [] := by
        by_contra hne
        exact absurd (hstate.symm.trans (h.service.responder hne)) nofun
      have hjoined : ∀ n, Unsettled { s with
          member.state := .catchingUp, member.attempt := none, member.joinDeadline := none, member.snapshotNeeded := n,
          member.installed := false } := fun n =>
        { service := { h.service with
            seeded := nofun, updates := fun hne => absurd hlist hne, unstored := nofun, responder := fun hne => absurd hqueue hne,
            collector := fun _ => Or.inl rfl, quiet := nofun, bypassed := nofun }
          locked := { h.locked with }
          target := h.target
          member := { h.member with listen := nofun, attempt := ⟨nofun, nofun⟩, deadline := rfl, attempts := nofun } }
      have hrecomputed := fun n => ((hjoined n).of_writes (event_writes (.stateChange .catchingUp none) _)).recompute
      have hcollects := fun n => (advances_recompute (Machine.event (.stateChange .catchingUp none) { s with
          member.state := .catchingUp, member.attempt := none, member.joinDeadline := none, member.snapshotNeeded := n,
          member.installed := false })).collects (Or.inl ((event_writes _ _).at .stationState))
      have hcollect : ∀ (b : Bool) u, MembershipOk u → (u.member.state = .catchingUp ∨ serving u.member.state = true) →
          MembershipOk (Machine.testService (if b then Machine.beginCollection u else u)) := by
        intro b u hu hcollecting
        split
        · exact (hu.beginCollection hcollecting).testService
        · exact hu.testService
      exact hcollect _ _ (hrecomputed _) (hcollects _)

/-! ## The Origin Engine -/

/-- A station with updates of its own is on the ring. -/
theorem onRing_of_origin (h : MembershipOk s) (hne : s.origin.list ≠ []) : onRing s.member.state = true :=
  onRing_of_serving (h.service.updates hne)

theorem onRing_of_findOrigin (h : MembershipOk s) {q : Seq} {r : OriginRecord} (hr : findOrigin q s = some r) : onRing s.member.state = true :=
  h.onRing_of_origin (List.ne_nil_of_mem (findOrigin_seq hr).2)

theorem takeSeq (h : MembershipOk s) : MembershipOk (takeSeq s).2 := h.of_writes (takeSeq_writes s)

theorem acceptLoad (h : MembershipOk s) (hstate : s.member.state = .inService) (es : List Edit) (part : Bool) :
    MembershipOk (acceptLoad es part s) := by
  have hon : onRing s.member.state = true := by rw [hstate]; rfl
  have hstored := (h.takeSeq.setStore hon (insertHeld (now s) (own s) s.origin.nextSeq es s.store))
  have hqueued := hstored.queueBody hon 0 (proposeBody s.origin.nextSeq es)
  have hserving : serving (Machine.queueBody 0 (proposeBody s.origin.nextSeq es)
      { (Machine.takeSeq s).2 with store := insertHeld (now s) (own s) s.origin.nextSeq es s.store }).member.state = true := by
    rw [(queueBody_writes _ _ _).at .stationState]
    exact congrArg serving hstate
  exact (hqueued.report (.updateQueued s.origin.nextSeq es.length part 1 none)).withList fun _ => hserving

theorem judgeLoad (h : MembershipOk s) (es : List Edit) (part : Bool) : MembershipOk (judgeLoad es part s) := by
  unfold Machine.judgeLoad loadRefusal
  split
  case h_1 => exact h.report _
  case h_2 hnone =>
    split at hnone
    case isTrue => exact absurd hnone nofun
    case isFalse hstate => exact h.acceptLoad (not_not.mp hstate) es part

theorem abandon (h : MembershipOk s) (hon : onRing s.member.state = true) (q : Seq) : MembershipOk (abandon q s) :=
  (((h.queueBody hon 0 (.withdraw q)).filterStore _).report _).dropOrigin q

theorem proposeReturn (h : MembershipOk s) (b : ProposeBody) : MembershipOk (proposeReturn b s) := by
  unfold Machine.proposeReturn
  split
  case h_2 => exact h
  case h_1 r hr =>
    have hon := h.onRing_of_findOrigin hr
    have hcommit : MembershipOk (commitRound b.seq b.holders s) := by
      unfold commitRound
      split
      · have hstored := h.setStore hon (setHeld (own s) b.seq (.scheduled (now s + s.straps.lead.frames)) s.store)
        exact (hstored.queueBody hon 0 _).setOrigin _ _
      · exact h.abandon hon _
    have hwithdraw : MembershipOk (withdrawRound b.seq s) := ((h.queueBody hon 0 _).filterStore _).setOrigin _ _
    split
    · split
      · exact hcommit
      · exact hwithdraw
    · exact h

theorem commitReturn (h : MembershipOk s) (q : Seq) (F : Frame) : MembershipOk (commitReturn q F s) := by
  unfold Machine.commitReturn
  split
  · split
    · exact (h.report _).dropOrigin _
    all_goals exact h
  · exact h

theorem originDue (h : MembershipOk s) {r : OriginRecord} {q : Seq} (hr : findOrigin q s = some r) : MembershipOk (originDue r s) := by
  have hon := h.onRing_of_findOrigin hr
  have hqueue := fun b => h.queueBody hon 0 b
  have hstill : ∀ b, onRing (Machine.queueBody 0 b s).member.state = true :=
    fun b => (congrArg onRing ((queueBody_writes 0 b s).at .stationState)).trans hon
  unfold Machine.originDue
  split
  case h_1 =>
    unfold proposingDue
    split
    · exact ((hqueue _).setStore (hstill _) _).setOrigin _ _
    · exact h.abandon hon _
  case h_2 =>
    unfold withdrawnDue
    split
    · exact (h.report _).dropOrigin _
    · split
      · split
        · exact (((h.takeSeq.setStore hon _).queueBody hon 0 _).report _).setOrigin _ _
        · exact (h.report _).dropOrigin _
      · exact h.setOrigin _ _
  case h_3 =>
    unfold committingDue
    split
    · exact (hqueue _).setOrigin _ _
    · exact (h.report _).dropOrigin _

theorem testOrigins (h : MembershipOk s) : MembershipOk (testOrigins s) := by
  have htest : ∀ F q u, MembershipOk u → MembershipOk (testOrigin F u q) := by
    intro F q u hu
    unfold testOrigin
    split
    case h_1 r hr =>
      split
      · exact hu.originDue hr
      · exact hu
    case h_2 => exact hu
  exact foldl_keeps _ _ (fun b q _ hb => htest _ q b hb) (h.of_writes (startWork_writes s _))

theorem strip (h : MembershipOk s) (p : Parcel) : MembershipOk (strip p s) := by
  unfold Machine.strip
  split
  · have hless := h.withFlight (l := s.ring.inFlight.eraseP (matchesFlight p)) fun hnone => by rw [hnone]; rfl
    unfold deliver
    split
    · exact hless.of_writes (beaconReturn_writes _ _)
    · exact hless.joinReturn _
    · exact hless.proposeReturn _
    · exact hless.commitReturn _ _
    all_goals exact hless
  · unfold foreignParcel
    split
    · exact h.duplicateNotice
    · exact h.event _

theorem arrive (h : MembershipOk s) (p : Parcel) : MembershipOk (arrive p s) := by
  refine arrive_keeps h (h.of_writes (endCut_writes s)) (h.of_writes (countCrc_writes s)) (fun hstate hn _ => ?_)
    (fun _ _ => h.strip _) fun hreceiving hother hn _ => h.forward hreceiving hn (Or.inl hother) false
  unfold ownWhileListening
  split
  · exact h
  · have hseen : MembershipOk { s with ring.duplicateSeen := true } :=
      { h with service := { h.service with }, locked := { h.locked with }, member := { h.member with }, refs := h.refs }
    exact hseen.forward (by show receiving s.member.state = true; rw [hstate]; rfl) hn
      (Or.inr (by show onRing s.member.state = false; rw [hstate]; rfl)) _

/-! ## The frame-start work (R79) -/

theorem ageStations (h : MembershipOk s) : MembershipOk (ageStations s) := by
  unfold Machine.ageStations
  split
  case isFalse => exact h
  case isTrue hreceiving =>
    have haged : Unsettled { s with member.stations := ageTable s.member.stations } :=
      h.toUnsettled.withStations hreceiving (Rising.ageTable h.member.rising) fun x hx => by
        obtain ⟨e, he, hkey, hage⟩ := mem_ageTable hx
        obtain ⟨hn, hother, hmissed⟩ := h.member.peers e he
        exact ⟨hkey ▸ hn, hkey ▸ hother, ageEntry_missed hage hmissed⟩
    exact (foldl_keeps (P := Unsettled) _ _ (fun b n _ hb => hb.dropRequester n) haged).recompute

end MembershipOk

/-- The Membership Unit as the entry to JOINING leaves it (R59). -/
def joiner (n : Nat) (D : Frame) (m : Member) : Member :=
  { m with
    listen := n, state := .joining, miss := 0, ret := 0, outstanding := none, returned := false, attempt := some 1, joinDeadline := some D }

theorem enterJoining_eq (n : Nat) (s : State) : enterJoining { s with member.listen := n } =
    recompute (queueBody 0 (joinBody s 1) (event (.stateChange .joining none) { s with member := joiner n (now s + 2) s.member })) := rfl

/-- From LISTENING the station joins (R58, R59). -/
theorem Unsettled.enterJoining {s : State} (h : Unsettled s) (hstate : s.member.state = .listening) (n : Nat) :
    MembershipOk (enterJoining { s with member.listen := n }) := by
  have hserving : serving s.member.state = false := by rw [hstate]; rfl
  have hlist : s.origin.list = [] := by
    by_contra hne
    exact absurd (hserving.symm.trans (h.service.updates hne)) nofun
  have hqueue : s.snap.queue = [] := by
    by_contra hne
    exact absurd (hstate.symm.trans (h.service.responder hne)) nofun
  have hcollector : s.snap.collector.isSome = false := Bool.eq_false_iff.mpr fun hc => by
    have := h.service.collector hc
    rw [hstate] at this
    exact absurd this (by decide)
  have hjoining : Unsettled { s with member := joiner n (now s + 2) s.member } :=
    { service := { h.service with
        seeded := nofun, updates := fun hne => absurd hlist hne, unstored := nofun, responder := fun hne => absurd hqueue hne,
        collector := fun hc => absurd (hcollector.symm.trans hc) nofun, quiet := nofun, bypassed := nofun }
      locked := { h.locked with }
      target := h.target
      member := { h.member with
        miss := Nat.zero_le 3, ret := Nat.zero_le 2, listen := nofun, attempt := ⟨fun _ => rfl, fun _ => rfl⟩, deadline := rfl,
        attempts := by rintro _ ⟨⟩; exact ⟨Nat.le_refl 1, Nat.le_add_left 1 2⟩ } }
  have hraised := hjoining.of_writes (event_writes (.stateChange .joining none) _)
  have hw := queueBody_writes 0 (joinBody s 1) (event (.stateChange .joining none) { s with member := joiner n (now s + 2) s.member })
  rw [enterJoining_eq]
  exact Unsettled.recompute
    ⟨hraised.service.queueBody rfl 0 _, hraised.locked.of_writes hw, hraised.target.of_writes hw, hraised.member.of_writes hw⟩

namespace MembershipOk

variable {s : State}

theorem joinStep (h : MembershipOk s) (hstate : s.member.state = .joining) (F : Frame) : MembershipOk (joinStep F s) := by
  have hon : onRing s.member.state = true := by rw [hstate]; rfl
  unfold Machine.joinStep
  split
  · exact h
  · split
    · dsimp only
      split
      case isTrue hlt =>
        have hretry : ∀ n D, n < 3 → MembershipOk { s with member.attempt := some (n + 1), member.joinDeadline := some D } := fun n D hn =>
          h.withCounts rfl rfl rfl rfl { h.member with
            attempt := ⟨fun _ => hstate, fun _ => rfl⟩, deadline := rfl,
            attempts := by rintro _ ⟨⟩; exact ⟨Nat.le_add_left 1 _, hn⟩ }
        exact (hretry _ _ hlt).queueBody hon 0 _
      case isFalse => exact h.enterIsolated (Or.inr hstate) _
    · exact h

theorem markStep (h : MembershipOk s) (hstate : s.member.state = .inService) (F : Frame) : MembershipOk (markStep F s) := by
  have hclear : MembershipOk { s with member.mark := none } := h.withCounts rfl rfl rfl rfl { h.member with }
  unfold Machine.markStep
  split
  · exact h
  · split
    · dsimp only
      split
      · exact hclear.enterResync hstate _
      · exact hclear
    · exact h

theorem transitionStep (h : MembershipOk s) (F : Frame) : MembershipOk (transitionStep F s) := by
  unfold Machine.transitionStep
  split
  case h_1 hstate =>
    unfold listenStep
    dsimp only
    split
    case isTrue => exact h.toUnsettled.enterJoining hstate _
    case isFalse hlimit =>
      exact h.withCounts rfl rfl rfl rfl { h.member with listen := fun _ => Nat.le_of_lt_succ (Nat.lt_of_not_le hlimit) }
  case h_2 hstate => exact h.joinStep hstate F
  case h_3 =>
    split
    · exact h.locked.doRejoin
    · exact h
  case h_4 hstate =>
    split
    · exact h.enterRingHold (by rw [hstate]; rfl)
    · exact h.markStep hstate F
  case h_5 hstate =>
    split
    · exact h.enterRingHold (by rw [hstate]; rfl)
    · exact h
  case h_6 hstate =>
    split
    · exact h.leaveRingHold hstate
    · unfold holdStep
      dsimp only
      split
      case isTrue => exact Locked.doRejoin { h.locked with }
      case isFalse hlimit =>
        exact h.withCounts rfl rfl rfl rfl { h.member with hold := Nat.le_of_lt_succ (Nat.lt_of_not_le hlimit) }
  all_goals exact h

theorem closeMembership (h : MembershipOk s) : MembershipOk (closeMembership s) := by
  have hbackoff : MembershipOk (backoffStep s) := by
    unfold backoffStep
    split
    · exact h.withCounts rfl rfl rfl rfl { h.member with backoff := (Nat.sub_le _ 1).trans h.member.backoff }
    · exact h
  have hbeacon : ∀ u, MembershipOk u → MembershipOk (queueBeacon u) := by
    intro u hu
    unfold queueBeacon
    split
    case isTrue hon =>
      have hsent : MembershipOk { u with member.outstanding := some (now u), member.returned := false } :=
        hu.withCounts rfl rfl rfl rfl { hu.member with }
      exact hsent.queueBody hon 0 _
    case isFalse => exact hu
  exact hbeacon _ hbackoff.toUnsettled.recompute

theorem collectorStep (h : MembershipOk s) (F : Frame) : MembershipOk (collectorStep F s) := by
  have hdeadline : MembershipOk (collectorDeadline F s).1 := by
    unfold collectorDeadline
    split
    case h_1 => exact h
    case h_2 c hc =>
      split
      · have hw := failAttempt_writes c s.member.tableRef s
        exact ⟨⟨h.service.failAttempt hc c _, h.locked.of_writes hw, fun d hd => (failAttempt_target hd).trans (hw.at .tableRef).symm,
          h.member.of_writes hw⟩, h.refs.of_writes hw⟩
      · exact h
  unfold Machine.collectorStep
  dsimp only
  split
  · exact hdeadline.thirdFailure
  · exact hdeadline

theorem doWork (h : MembershipOk s) (F : Frame) (w : FrameWork) : MembershipOk (doWork F w s) := by
  cases w with
  | listenGuard => exact h.of_writes (guard_writes s false)
  | inFlightAgeing => exact h.withFlight fun hnone => by rw [hnone]; rfl
  | holdExpiry =>
    have hheld : MembershipOk (expireHeld F s) :=
      foldl_keeps _ _ (fun b e _ hb => MembershipOk.event hb e) (h.filterStore _)
    exact (hheld.mapStore (handedOver (expireHeld F s).table.apply.frame)).of_writes (fs := [.applyDue, .applyReapply, .applyPhase])
      (fun f hf => by
        cases f with
        | applyDue | applyReapply | applyPhase => exact absurd hf (by decide)
        | _ => rfl)
  | retentionExpiry =>
    exact (h.filterStore (fun p => !retainedTooLong F p)).of_writes (fs := [.applyReapply]) fun f hf => by
      cases f with
      | applyReapply => exact absurd hf (by decide)
      | _ => rfl
  | originDeadlines => exact h.testOrigins
  | collectorDeadline => exact h.collectorStep F
  | stationAgeing => exact h.ageStations
  | transition => exact h.transitionStep F
  | backoff => exact h.closeMembership

theorem takeWork (h : MembershipOk s) (w : FrameWork) : MembershipOk (takeWork w s) :=
  takeWork_keeps (fun w _ hu => hu.of_writes (settleWork_writes w _)) (fun F w _ hu => hu.doWork F w) w s h

theorem takeAll (h : MembershipOk s) (ws : List FrameWork) : MembershipOk (takeAll ws s) := takeAll_keeps (fun w _ hu => hu.takeWork w) ws h

/-! ## The end of an install, lines and frames (R3, R57, R67, R142) -/

theorem markTest (h : MembershipOk s) (bs : List Frame) : MembershipOk (markTest bs s) := h.of_writes (markTest_writes bs s)

theorem installEnded (h : MembershipOk s) (hseeded : s.table.seeded = true) (bs : List Frame) : MembershipOk (installEnded bs s) := by
  have hmark := h.markTest bs
  have hw := markTest_writes bs s
  unfold Machine.installEnded
  split
  · dsimp only
    split
    · exact testService (hmark.withCounts rfl rfl rfl rfl { hmark.member with })
    · exact hmark
  case h_2 hstate =>
    have hserving : serving (Machine.markTest bs s).member.state = true := by
      rw [hw.at .stationState]
      exact congrArg serving hstate
    exact (hmark.toUnsettled.enterInService (Or.inr hserving) ((hw.at .seeded).trans hseeded)).event _
  · exact (h.event _).markTest bs
  · exact hmark
  all_goals exact h

theorem endInstall (h : MembershipOk s) : MembershipOk (endInstall s) := by
  have hseeded : ∀ p n, MembershipOk { s with table.seeded := true, table.apply.phase := p, table.apply.since := n } := fun p n =>
    { h with
      service := { h.service with seeded := fun _ => rfl }, locked := { h.locked with }, member := { h.member with }, refs := h.refs }
  unfold Machine.endInstall
  split
  · exact MembershipOk.of_writes (applyDue_writes _) (MembershipOk.of_writes (entries_writes _ _) ((hseeded _ _).installEnded rfl _))
  · exact h

theorem bringLine (h : MembershipOk s) : MembershipOk (bringLine s) := by
  have hstart : ∀ u, MembershipOk u → MembershipOk (startLine u) := fun u hu =>
    MembershipOk.of_writes (beginLine_writes _ _) (MembershipOk.of_writes (requestPoint_writes _)
      (MembershipOk.of_writes (openWindow_writes _) (hu.of_writes (openApplyWindow_writes u))))
  have hinstall : ∀ u, MembershipOk u → MembershipOk (if installDue u then Machine.endInstall u else u) := by
    intro u hu
    split
    · exact hu.endInstall
    · exact hu
  have happly : ∀ u, MembershipOk u → MembershipOk (if applyOver u then endApply u else u) := by
    intro u hu
    split
    · exact hu.of_writes (endApply_writes u)
    · exact hu
  have hend : ∀ u, MembershipOk u → MembershipOk (endLine u) := fun u hu =>
    MembershipOk.of_writes (endFrame_writes _) (MembershipOk.of_writes (closeWindow_writes _) (happly _ (hinstall u hu)))
  unfold Machine.bringLine
  exact hend _ (hstart _ (h.takeAll workOrder))

theorem leaveOffRing (h : MembershipOk s) (mid : Bool) : MembershipOk (leaveOffRing mid s) := by
  unfold Machine.leaveOffRing
  split
  case isFalse => exact h
  case isTrue hstate =>
    have hoff : onRing s.member.state = false := by rw [hstate]; rfl
    have hreceiving : receiving s.member.state = false := by rw [hstate]; rfl
    obtain ⟨_, _, hnone⟩ := h.service.bypassed hreceiving
    obtain ⟨htable, htiming⟩ := computeTableRef_empty hoff hnone
    have hattempt : s.member.attempt.isSome = false := Bool.eq_false_iff.mpr fun ha => by
      have := hstate.symm.trans (h.member.attempt.mp ha)
      exact absurd this nofun
    have hlist : s.origin.list = [] := h.origin_nil (by rw [hstate]; rfl)
    have hqueue : s.snap.queue = [] := by
      by_contra hne
      exact absurd (hstate.symm.trans (h.service.responder hne)) nofun
    have hcollector : s.snap.collector.isSome = false := Bool.eq_false_iff.mpr fun hc => by
      have := h.service.collector hc
      rw [hstate] at this
      exact absurd this (by decide)
    obtain ⟨htable', htiming'⟩ := computeTableRef_empty (s := enterListening { s with ring.cut := mid }) rfl hnone
    have hlistening : MembershipOk (enterListening { s with ring.cut := mid }) :=
      { service := { h.service with
          seeded := nofun, updates := fun hne => absurd hlist hne, unstored := nofun, responder := fun hne => absurd hqueue hne,
          collector := fun hc => absurd (hcollector.symm.trans hc) nofun, quiet := fun _ => h.service.quiet hoff, bypassed := nofun }
        locked := { h.locked with }
        target := h.target
        member := { h.member with
          listen := fun _ => Nat.zero_le 3, attempt := ⟨fun ha => absurd (hattempt.symm.trans ha) nofun, nofun⟩ }
        refs := ⟨h.refs.1.trans (htable.trans htable'.symm), h.refs.2.trans (htiming.trans htiming'.symm)⟩ }
    exact hlistening.event _

theorem judgeBeacon (h : MembershipOk s) : MembershipOk (judgeBeacon s) := by
  unfold Machine.judgeBeacon
  split
  · split
    · exact h.withCounts rfl rfl rfl rfl { h.member with ret := Nat.min_le_right _ 2, miss := Nat.zero_le 3 }
    · exact h.withCounts rfl rfl rfl rfl { h.member with miss := Nat.min_le_right _ 3, ret := Nat.zero_le 2 }
  · exact h

theorem openFrame (h : MembershipOk s) (mid : Bool) : MembershipOk (openFrame mid s) := by
  have hraster : ∀ w, MembershipOk { advanceFrame s with startWork := w } :=
    fun w => (h.of_writes (advanceFrame_writes s)).of_writes (startWork_writes _ w)
  have hopened : ∀ F w, MembershipOk (clearLines (takeApply F (Machine.judgeBeacon (Machine.leaveOffRing mid { advanceFrame s with startWork := w })))) :=
    fun F w => MembershipOk.of_writes (clearLines_writes _) (((hraster w).leaveOffRing mid).judgeBeacon.of_writes (takeApply_writes F _))
  exact hopened _ _

/-! ## Sends (R40, R45 to R48), the responder (R131 to R133) -/

theorem beginSend (h : MembershipOk s) : MembershipOk (beginSend s) := by
  unfold Machine.beginSend
  split
  case isTrue => exact h
  case isFalse hb =>
    simp only [bypass, Bool.or_eq_true, Bool.not_eq_true', not_or, Bool.not_eq_true, Bool.not_eq_false] at hb
    obtain ⟨⟨_, hreceiving⟩, _⟩ := hb
    have hheard : ∀ {P : Prop}, receiving s.member.state = false → P := fun hoff => absurd (hreceiving.symm.trans hoff) nofun
    split
    · unfold sendForwarded
      split
      · exact { h with
          service := { h.service with bypassed := fun hoff => hheard hoff }, locked := { h.locked with }, member := { h.member with }
          refs := h.refs }
      · exact h
    · split
      · unfold sendOwn
        split
        case h_1 p rest hp =>
          have hon : onRing s.member.state = true := by
            by_contra hoff
            exact absurd (hp.symm.trans (h.service.quiet (Bool.not_eq_true _ ▸ hoff)).1) nofun
          exact { h with
            service := { h.service with
              quiet := fun hoff => absurd (hon.symm.trans hoff) nofun, bypassed := fun hoff => hheard hoff }
            locked := { h.locked with }, member := { h.member with }, refs := h.refs }
        case h_2 => exact h
      · exact h

theorem endSend (h : MembershipOk s) : MembershipOk (endSend s) := by
  have hidle : MembershipOk { s with ring.rout := none } :=
    { h with
      service := { h.service with
        bypassed := fun hoff => ⟨(h.service.bypassed hoff).1, rfl, (h.service.bypassed hoff).2.2⟩ }
      locked := { h.locked with }, member := { h.member with }, refs := h.refs }
  unfold Machine.endSend
  split
  · exact h
  · dsimp only
    split
    · exact hidle.duplicateNotice
    · exact hidle

theorem advanceResponder (h : MembershipOk s) (hstate : s.member.state = .inService) (hne : s.snap.queue ≠ []) {p : Nat} :
    MembershipOk (advanceResponder p s) := by
  have hhead : ∀ q : List StationNo, (headProgress q).isSome = !q.isEmpty := fun q => by cases q <;> rfl
  unfold Machine.advanceResponder
  split
  case isTrue hlt =>
    exact { h with
      service := { h.service with
        progress := by
          cases hq : s.snap.queue with
          | nil => exact absurd hq hne
          | cons => rfl
        progressPart := by rintro _ ⟨⟩; exact hlt }
      locked := { h.locked with }, member := { h.member with }, refs := h.refs }
  case isFalse =>
    exact { h with
      service := { h.service with
        responder := fun _ => hstate
        responderPlaces := (List.tail_sublist _).length_le.trans h.service.responderPlaces
        responderOnce := h.service.responderOnce.sublist (List.tail_sublist _)
        progress := hhead _
        progressPart := fun q hq => by
          unfold headProgress at hq
          split at hq
          · exact absurd hq nofun
          · exact Option.some.inj hq ▸ Nat.zero_le 8 }
      locked := { h.locked with }, member := { h.member with }, refs := h.refs }

theorem buildPart (h : MembershipOk s) : MembershipOk (buildPart s) := by
  unfold Machine.buildPart
  split
  case isFalse => exact h
  case isTrue hmay =>
    simp only [mayBuild, Bool.and_eq_true, decide_eq_true_iff] at hmay
    obtain ⟨⟨⟨hstate, _⟩, _⟩, _⟩ := hmay
    split
    case h_2 => exact h
    case h_1 r rest p hq _ =>
      split
      · have hon : onRing s.member.state = true := by rw [hstate]; rfl
        have hw := queueParcel_writes (partParcel s r p) s
        have hqueued : MembershipOk (queueParcel (partParcel s r p) s) := h.queueBody hon r _
        exact hqueued.advanceResponder ((hw.at .stationState).trans hstate) (by
          rw [hw.at .responder]
          exact (hq ▸ List.cons_ne_nil r rest : s.snap.queue ≠ []))
      · exact h

/-! ## Packets -/

theorem actPacket (h : MembershipOk s) (k : Byte) (j : Except PacketReason PacketAction) : MembershipOk (actPacket k j s) := by
  unfold Machine.actPacket
  split
  · exact h.report _
  · exact h.judgeLoad _ _
  · exact h.of_writes (acceptReadback_writes k _ s)
  · exact h.of_writes (answerStatus_writes _ s)

theorem takeByte (h : MembershipOk s) (b : Byte) : MembershipOk (takeByte b s) := by
  have hrx : ∀ r, MembershipOk { s with pixel.rx := r } := fun r => h.of_writes (rx_writes s r)
  unfold Machine.takeByte
  split
  · exact h.of_writes (lineByte_writes _ b s)
  · unfold packetByte
    dsimp only
    split
    · exact (hrx _).actPacket _ _
    · exact hrx _
  · split
    · exact (hrx _).report _
    · exact (hrx _).of_writes (countOverflow_writes _)
  all_goals exact h

end MembershipOk

/-! ## Every command -/

/-- Every effect keeps the three invariants together. -/
theorem Effect.membershipOk {c : Instr} {s t : State} (he : Effect s c t) (h : MembershipOk s) : MembershipOk t := by
  have hfree : ∀ {u : State}, u.lock = Lock.reset → u.member.timingRef = none → Locked u := fun hl ht => by
    refine ⟨?_, ?_, ?_, ?_⟩ <;> rw [hl]
    · exact ht.symm
    · exact ⟨nofun, nofun⟩
    · exact nofun
    · exact ⟨fun _ => Or.inr rfl, fun _ => rfl⟩
  cases he with
  | stay => exact h
  | resetAssert => exact membershipOk_fresh (st := .offRing) rfl rfl (hfree rfl rfl) rfl (fun _ => rfl) rfl ⟨rfl, rfl⟩ fun _ => ⟨rfl, rfl⟩
  | resetRelease sn prf lead =>
    have hreleased : ∀ st, onRing st = false → MembershipOk (released st sn prf lead s) := fun st hst =>
      membershipOk_fresh rfl hst (hfree rfl rfl) rfl (fun _ => rfl) rfl ⟨rfl, rfl⟩ fun _ => ⟨rfl, rfl⟩
    cases hv : validNumber sn with
    | true =>
      rw [releaseReset_of_valid prf lead s hv]
      exact hreleased _ rfl
    | false =>
      rw [releaseReset_of_invalid prf lead s hv]
      exact (hreleased _ rfl).event _
  | lineAdvance =>
    unfold advanceLine
    split
    · exact h.bringLine.of_writes (passLine_writes _)
    · exact h
  | frameStart later mid =>
    unfold nextFrame
    split
    · rw [startFrame_eq]
      exact (h.bringLine.openFrame mid).takeAll _
    · exact h
  | work ws => exact h.takeAll ws
  | rejoin =>
    exact Locked.doRejoin (MembershipOk.of_writes (settleWork_writes .transition _) (h.takeWork .stationAgeing)).locked
  | origin mine =>
    unfold takeOrigin
    split
    · split
      case h_1 r rest hnext =>
        split
        · have hfound : findOrigin r.seq s = some r := findOrigin_of_nextOrigin hnext
          exact (h.of_writes (untested_writes rest s)).originDue hfound
        · exact h
      case h_2 => exact MembershipOk.of_writes (settleWork_writes _ _) (h.of_writes (startWork_writes s _))
    · exact h
  | applyOpen => exact h.of_writes (openApplyWindow_writes s)
  | installEnd => exact h.endInstall
  | applyEnd => exact h.of_writes (endApply_writes s)
  | windowOpen => exact h.of_writes (openWindow_writes s)
  | windowClose => exact h.of_writes (closeWindow_writes s)
  | requestPoint => exact h.of_writes (requestPoint_writes s)
  | beginActive => exact h.of_writes (beginActive_writes s)
  | activeLine j => exact h.of_writes (beginLine_writes j s)
  | frameEnd => exact h.of_writes (endFrame_writes s)
  | pmark => exact h.of_writes (takeMark_writes s)
  | byte b => exact h.takeByte b
  | packet k body => exact h.actPacket k _
  | arrive p => exact h.arrive p
  | badRun => exact h.of_writes (countCrc_writes s)
  | build => exact h.buildPart
  | sendBegin => exact h.beginSend
  | sendEnd => exact h.endSend
  | reportBegin => exact h.of_writes (beginReport_writes s)
  | reportEnd n => exact h.of_writes (endReport_writes n s)

/-- Settles O59: every effect keeps the three invariants together, and the queue of commands is no part of them. -/
theorem membershipKept : Obligations.MembershipKept := fun s t hservice hlock hmember hstep =>
  (membershipOk_iff t).mp (step_keeps (fun s rest hs => hs.of_writes (pending_writes s rest)) Effect.membershipOk
    ((membershipOk_iff s).mpr ⟨hservice, hlock, hmember⟩) hstep)

end Sys2Proof.Machine
end

