-- ==== Sys2Proof/Proofs/FramePointCommands.lean ====
section
/-! SUPPORT. Proofs/FramePointCommands.lean: the commands of the points of a frame, and what LINE_ADVANCE brings (R16, R17, R23, R26, R27,
R145, R150, R158, R160, R161). -/

namespace Sys2Proof.Machine

set_option Elab.async false

/-! ## Reports in a row (R166) -/

@[simp] theorem handOver_nil (F : Frame) (u : ReportUnit) : handOver [] F u = u := rfl

@[simp] theorem handOver_cons (r : Report) (rs : List Report) (F : Frame) (u : ReportUnit) :
    handOver (r :: rs) F u = handOver rs F (reportJoin r F u) := rfl

theorem handOver_append (rs ss : List Report) (F : Frame) (u : ReportUnit) :
    handOver (rs ++ ss) F u = handOver ss F (handOver rs F u) := List.foldl_append

/-- Reports handed over one after another. -/
theorem report_foldl {α : Type} (f : α → Report) (xs : List α) (s : State) :
    (xs.foldl (fun s x => report (f x) s) s).report = handOver (xs.map f) (now s) s.report := by
  induction xs generalizing s with
  | nil => rfl
  | cons x xs ih => exact ih (report (f x) s)

theorem report_foldl_writes {α : Type} (f : α → Report) (xs : List α) (s : State) :
    Writes Field.ofReport s (xs.foldl (fun s x => report (f x) s) s) :=
  Writes.foldl (fun s x => report_writes (f x) s) xs s

/-! ## APPLY_END (R21, R158) -/

/-- The ENTRY report of an index of the table that s has. -/
def entryOf (s : State) (i : Nat) : Report := .entry i (Memory.read s.table.entries i).value (Memory.read s.table.entries i).stamp

theorem entryReport_eq {s u : State} (h : u.table.entries = s.table.entries) (i : Nat) : entryReport i u = report (entryOf s i) u := by
  rw [entryReport, entryOf, h]

/-- A READBACK is read from the table as it stands (R20). -/
theorem serveReadback_eq {s u : State} (h : u.table.entries = s.table.entries) (r : ReadbackReq) :
    serveReadback u r = (readbackIndices r).foldl (fun u i => report (entryOf s i) u) u := by
  unfold serveReadback
  generalize readbackIndices r = is
  induction is generalizing u with
  | nil => rfl
  | cons i is ih =>
    rw [List.foldl_cons, List.foldl_cons, entryReport_eq h]
    exact ih (((report_writes _ u).at .entries).trans h)

theorem foldl_serveReadback {s : State} (rs : List ReadbackReq) {u : State} (h : u.table.entries = s.table.entries) :
    rs.foldl serveReadback u = (rs.flatMap readbackIndices).foldl (fun u i => report (entryOf s i) u) u := by
  induction rs generalizing u with
  | nil => rfl
  | cons r rs ih =>
    rw [List.foldl_cons, List.flatMap_cons, List.foldl_append, serveReadback_eq h]
    exact ih (((report_foldl_writes (entryOf s) _ u).at .entries).trans h)

theorem exec_applyEnd (s : State) : exec .applyEnd s = .next (whenReleased endApply s) := rfl

/-- Settles O30: the waiting READBACKs are served one after another from the table as it stands. -/
theorem applyEnds : Obligations.ApplyEnds := by
  intro s h0 hphase
  have hend : endApply s = (s.pixel.readbacks.flatMap readbackIndices).foldl (fun u i => report (entryOf s i) u)
      { s with table.apply.phase := .idle, pixel.readbacks := [] } := by
    rw [endApply, if_pos hphase]
    exact foldl_serveReadback _ rfl
  have hw := report_foldl_writes (entryOf s) (s.pixel.readbacks.flatMap readbackIndices)
    { s with table.apply.phase := .idle, pixel.readbacks := [] }
  refine ⟨endApply s, by rw [exec_applyEnd, whenReleased_of h0], ?_, ?_, ?_, (endApply_writes s).mono⟩
  · rw [hend, hw.at .applyPhase]
  · rw [hend, hw.at .readbacks]
  · rw [hend]
    exact report_foldl (entryOf s) _ _

/-! ## The control window and the line-request point (R26, R27, R145, R153) -/

theorem exec_controlWindowOpen (s : State) : exec .controlWindowOpen s = .next (whenReleased openWindow s) := rfl

theorem exec_controlWindowClose (s : State) : exec .controlWindowClose s = .next (whenReleased closeWindow s) := rfl

theorem exec_lineRequestPoint (s : State) : exec .lineRequestPoint s = .next (whenReleased requestPoint s) := rfl

theorem openWindow_of {s : State} (hline : s.raster.line = 2) (hclosed : s.pixel.cwin = false) :
    openWindow s = { s with pixel.cwin := true, pixel.rx := .wait } := if_pos ⟨hline, hclosed⟩

/-- A packet in progress is cut off at the window's end (R153). -/
theorem closeWindow_of_packet {s : State} {bytes : List Byte} (hline : s.raster.line + 5 = s.raster.blanking) (hopen : s.pixel.cwin = true)
    (hrx : s.pixel.rx = .packet bytes) :
    closeWindow s = report (.packetError .truncated bytes.head?) { s with pixel.cwin := false, pixel.rx := .drain } := by
  rw [closeWindow, if_pos ⟨hline, hopen⟩, hrx]
  rfl

theorem closeWindow_of_discard {s : State} (hline : s.raster.line + 5 = s.raster.blanking) (hopen : s.pixel.cwin = true)
    (hrx : s.pixel.rx = .discard) : closeWindow s = { s with pixel.cwin := false, pixel.rx := .drain } := by
  rw [closeWindow, if_pos ⟨hline, hopen⟩, hrx]

theorem closeWindow_of_other {s : State} (hline : s.raster.line + 5 = s.raster.blanking) (hopen : s.pixel.cwin = true)
    (hpacket : ∀ bytes, s.pixel.rx ≠ .packet bytes) (hdiscard : s.pixel.rx ≠ .discard) :
    closeWindow s = { s with pixel.cwin := false } := by
  rw [closeWindow, if_pos ⟨hline, hopen⟩]
  cases hrx : s.pixel.rx with
  | packet bytes => exact absurd hrx (hpacket bytes)
  | discard => exact absurd hrx hdiscard
  | wait | line k | drain => rfl

/-- At its line the window is closed, whatever the receiver does. -/
theorem closeWindow_closed {s : State} (hline : s.raster.line + 5 = s.raster.blanking) : (closeWindow s).pixel.cwin = false := by
  cases hc : (closeWindow s).pixel.cwin with
  | false => rfl
  | true => exact absurd hline (closeWindow_cwin hc).2

theorem requestLine_of_free {k : Nat} {s : State} (hk : k < activeLines s) (hfree : s.pixel.slots.length < 2) :
    requestLine k s = { s with
      pixel.slots := s.pixel.slots ++ [boundSlot k s], pixel.outstanding := s.pixel.outstanding ++ [k],
      pixel.requested := s.pixel.requested + 1 } :=
  if_pos ⟨hk, hfree⟩

/-- Lines 0 and 1 are requested into two empty slots (R145). -/
theorem requestPoint_of {s : State} (hline : s.raster.line + 2 = s.raster.blanking) (hnone : s.pixel.requested = 0)
    (hslots : s.pixel.slots = []) :
    requestPoint s = { s with
      pixel.slots := [boundSlot 0 s, boundSlot 1 s], pixel.outstanding := s.pixel.outstanding ++ [0, 1], pixel.requested := 2 } := by
  have hlines := activeLines_pos s
  have hzero : requestLine 0 s = { s with
      pixel.slots := [boundSlot 0 s], pixel.outstanding := s.pixel.outstanding ++ [0], pixel.requested := 1 } := by
    rw [requestLine_of_free (by omega) (by rw [hslots]; decide), hslots, hnone]
    rfl
  rw [requestPoint, if_pos ⟨hline, hnone⟩, hzero, requestLine_of_free (k := 1), List.append_assoc]
  · rfl
  · exact Nat.lt_of_lt_of_le (by decide) hlines
  · exact Nat.lt_succ_self 1

/-- Settles O31: each of the three at its line, and nothing at any other. -/
theorem pixelPortPoints : Obligations.PixelPortPoints := by
  intro s h0
  refine ⟨fun hline hclosed => ?_, fun hline => ?_, fun hline hopen => ?_, fun hline => ?_, fun hline hnone hslots => ?_, fun hline => ?_⟩
  · refine ⟨openWindow s, by rw [exec_controlWindowOpen, whenReleased_of h0], ?_, ?_, openWindow_writes s⟩
    all_goals rw [openWindow_of hline hclosed]
  · rw [exec_controlWindowOpen, whenReleased_of h0, openWindow_off hline]
  · refine ⟨closeWindow s, by rw [exec_controlWindowClose, whenReleased_of h0], closeWindow_closed hline, fun bytes hrx => ?_, fun hrx => ?_,
      fun hpacket hdiscard => ?_⟩
    · refine ⟨?_, ?_, (closeWindow_writes s).mono⟩
      all_goals rw [closeWindow_of_packet hline hopen hrx]
      · exact (report_writes _ _).at .rx
      · rfl
    · rw [closeWindow_of_discard hline hopen hrx]
      exact ⟨rfl, StableScreen.window_writes s _ _⟩
    · rw [closeWindow_of_other hline hopen hpacket hdiscard]
      intro f hf
      cases f with
      | cwin => exact absurd hf (by decide)
      | _ => rfl
  · rw [exec_controlWindowClose, whenReleased_of h0, closeWindow_off hline]
  · refine ⟨requestPoint s, by rw [exec_lineRequestPoint, whenReleased_of h0], ?_, ?_, ?_, (requestPoint_writes s).mono⟩
    all_goals rw [requestPoint_of hline hnone hslots]
    rfl
  · rw [exec_lineRequestPoint, whenReleased_of h0, requestPoint_off hline]

/-! ## FIRST_ACTIVE_LINE and FRAME_END (R16, R17, R161) -/

theorem exec_firstActiveLine (s : State) : exec .firstActiveLine s = .next (whenReleased beginActive s) := rfl

theorem exec_frameEnd (s : State) : exec .frameEnd s = .next (whenReleased endFrame s) := rfl

theorem isBlackFrame_iff (s : State) :
    isBlackFrame s = true ↔ s.table.seeded = false ∨ (Memory.read s.table.entries 258).value.red ≠ 0 := by
  simp [isBlackFrame, controlRed]

/-- Settles O32. -/
theorem activeLinesBegin : Obligations.ActiveLinesBegin := by
  intro s h0
  refine ⟨fun hline => ?_, fun hline hidle hactive => ?_⟩
  · rw [exec_firstActiveLine, whenReleased_of h0, beginActive_off (Or.inl hline)]
  · have hbegin : beginActive s = { beginDigest s with panel.black := isBlackFrame s, raster.active := true } :=
      if_pos ⟨hline, hactive, hidle⟩
    refine ⟨beginActive s, by rw [exec_firstActiveLine, whenReleased_of h0], ?_, ?_, ?_, (beginActive_writes s).mono⟩
    all_goals rw [hbegin]
    · rfl
    · exact isBlackFrame_iff s

/-- At the end of the frame's last line, its active line begun, the active lines end. -/
theorem endFrame_of_begun {s : State} (hlast : s.raster.line + 1 = totalLines s) (hbegun : activeLines s ≤ s.pixel.begun)
    (hactive : s.raster.active = true) : endFrame s = endDigest { s with raster.active := false, panel.pixels := [] } := by
  have hlines := activeLines_pos s
  have hbegin : beginLine (activeLines s - 1) s = s := by
    unfold beginLine
    split
    · rw [beginActive_off (Or.inr hactive), consumeLine_of_begun (by omega)]
    · rfl
  rw [endFrame, if_pos hlast, hbegin, endActive, if_pos hactive]

/-- Settles O34. -/
theorem frameEndEntersDigest : Obligations.FrameEndEntersDigest := by
  intro s h0
  refine ⟨fun hline => ?_, fun p hlast hbegun hactive hp => ?_⟩
  · rw [exec_frameEnd, whenReleased_of h0, endFrame_off hline]
  · have hend : endFrame s = { s with
        raster.active := false, panel.pixels := [], table.digest := none, table.history := historyJoin p s.table.history } := by
      rw [endFrame_of_begun hlast hbegun hactive]
      simp only [endDigest, hp]
    refine ⟨endFrame s, by rw [exec_frameEnd, whenReleased_of h0], ?_⟩
    rw [hend]
    refine ⟨rfl, rfl, rfl, blanked_of_pixels rfl, historyJoin_length p _, rfl, fun f hf => ?_⟩
    cases f with
    | active | digest | history | pixels => exact absurd hf (by decide)
    | _ => rfl

/-! ## LINE_ADVANCE (R23, R26, R160) -/

theorem exec_lineAdvance (s : State) : exec .lineAdvance s = .next (whenReleased advanceLine s) := rfl

/-- What is brought to an ordinary line, and after it the line's end. -/
theorem bringLine_ordinary {s : State} (hlt : s.raster.line + 1 < totalLines s) :
    bringLine s = closeWindow (endSteps (startLine (finishWork s))) := by
  have hoff : ∀ u, Writes Field.ofLine s u → endFrame u = u := fun u w =>
    endFrame_off (by rw [w.at .line, totalLines_of_writes w]; exact Nat.ne_of_lt hlt)
  unfold bringLine
  rw [endLine_eq]
  exact hoff _ ((finishWork_writes s).mono.trans ((startLine_writes _).mono.trans
    ((endSteps_writes _).mono.trans (closeWindow_writes _).mono)))

/-- The line's start up to the request point. -/
def lineStarted (s : State) : State := requestPoint (openWindow (openApplyWindow (finishWork s)))

theorem lineStarted_writes (s : State) : Writes (Field.ofWork ++ [.applySince, .entries, .late, .cwin, .rx] ++ Field.ofLines) s (lineStarted s) :=
  (finishWork_writes s).mono.trans ((openApplyWindow_writes _).mono.trans ((openWindow_writes _).mono.trans (requestPoint_writes _).mono))

theorem startLine_finishWork (s : State) :
    startLine (finishWork s) = beginLine (s.raster.line - s.raster.blanking) (lineStarted s) := by
  have hw := finishWork_writes s
  rw [← (hw.at .line : (finishWork s).raster.line = s.raster.line), ← (hw.at .blanking : (finishWork s).raster.blanking = s.raster.blanking)]
  rfl

theorem bringLine_due {s : State} (hlt : s.raster.line + 1 < totalLines s) : (bringLine s).startWork.due = [] := by
  have hw : Writes Field.ofPoints (finishWork s) (closeWindow (endSteps (startLine (finishWork s)))) :=
    (startLine_writes _).trans ((endSteps_writes _).mono.trans (closeWindow_writes _).mono)
  rw [bringLine_ordinary hlt]
  exact (congrArg StartWork.due (hw.at .startWork)).trans (finishWork_due s)

theorem startLine_phase (s : State) : (startLine s).table.apply.phase = (openApplyWindow s).table.apply.phase :=
  ((beginLine_writes _ _).at .applyPhase).trans (((requestPoint_writes _).at .applyPhase).trans ((openWindow_writes _).at .applyPhase))

/-- The apply operation leaves its first two phases at their lines (R14). -/
theorem endSteps_phase (s : State) :
    (s.raster.line = 1 → (endSteps (startLine s)).table.apply.phase ≠ .taken)
      ∧ (9 ≤ s.raster.line → (endSteps (startLine s)).table.apply.phase ≠ .installing) := by
  obtain ⟨htaken, hinstalling, _⟩ := endSteps_through (startLine s)
  have hline : (startLine s).raster.line = s.raster.line := (startLine_writes s).at .line
  refine ⟨fun hone hp => ?_, fun hnine hp => ?_⟩
  · obtain ⟨_, hne⟩ := openApplyWindow_taken ((startLine_phase s).symm.trans (htaken hp))
    exact hne hone
  · have height := hinstalling hp
    rw [((endSteps_writes _).at .line : _ = (startLine s).raster.line), hline] at height
    omega

theorem bringLine_phase {s : State} (hlt : s.raster.line + 1 < totalLines s) :
    (s.raster.line = 1 → (bringLine s).table.apply.phase ≠ .taken) ∧ (9 ≤ s.raster.line → (bringLine s).table.apply.phase ≠ .installing) := by
  rw [bringLine_ordinary hlt, (closeWindow_writes _).at .applyPhase, ← (finishWork_writes s).at .line]
  exact endSteps_phase _

/-- The control window stands open after line 2 and is closed after line V - 5 (R27). -/
theorem bringLine_cwin {s : State} (hlt : s.raster.line + 1 < totalLines s) :
    (RasterOk s → s.raster.line = 2 → (bringLine s).pixel.cwin = true)
      ∧ (s.raster.line + 5 = s.raster.blanking → (bringLine s).pixel.cwin = false) := by
  have hw : Writes Field.ofLine s (endSteps (startLine (finishWork s))) :=
    (finishWork_writes s).mono.trans ((startLine_writes _).mono.trans (endSteps_writes _).mono)
  have hline : (endSteps (startLine (finishWork s))).raster.line = s.raster.line := hw.at .line
  have hblanking : (endSteps (startLine (finishWork s))).raster.blanking = s.raster.blanking := hw.at .blanking
  rw [bringLine_ordinary hlt]
  refine ⟨fun hr htwo => ?_, fun hfive => closeWindow_closed (by rw [hline, hblanking]; exact hfive)⟩
  have hge := hr.blanking_ge
  rw [closeWindow_off (by rw [hline, hblanking]; omega), (endSteps_writes _).at .cwin, startLine_finishWork,
    (beginLine_writes _ _).at .cwin]
  have htwo' : (openApplyWindow (finishWork s)).raster.line = 2 :=
    ((openApplyWindow_writes _).at .line).trans (((finishWork_writes s).at .line).trans htwo)
  unfold lineStarted
  rw [(requestPoint_writes _).at .cwin, openWindow]
  split
  case isTrue => rfl
  case isFalse hopen =>
    exact Bool.not_eq_false _ ▸ fun hc => hopen ⟨htwo', hc⟩

/-- After line V - 2 lines are requested (R145). -/
theorem bringLine_requested {s : State} (hlt : s.raster.line + 1 < totalLines s) (hp : PixelOk s)
    (hpoint : s.raster.line + 2 = s.raster.blanking) : 0 < (bringLine s).pixel.requested := by
  have hbefore : Writes (Field.ofWork ++ [.applySince, .entries, .late, .cwin, .rx]) s (openWindow (openApplyWindow (finishWork s))) :=
    (finishWork_writes s).mono.trans ((openApplyWindow_writes _).mono.trans (openWindow_writes _).mono)
  have hline : (openWindow (openApplyWindow (finishWork s))).raster.line = s.raster.line := hbefore.at .line
  have hblanking : (openWindow (openApplyWindow (finishWork s))).raster.blanking = s.raster.blanking := hbefore.at .blanking
  have hpixel : PixelOk (openWindow (openApplyWindow (finishWork s))) :=
    PixelOk.openWindow (PixelOk.of_writes (openApplyWindow_writes _) (hp.of_writes (finishWork_writes s)))
  have hnot : beginLine (s.raster.line - s.raster.blanking) (lineStarted s) = lineStarted s := by
    have hw := lineStarted_writes s
    unfold beginLine
    rw [if_neg]
    rw [hw.at .line, hw.at .blanking]
    omega
  rw [bringLine_ordinary hlt, (closeWindow_writes _).at .requested, (endSteps_writes _).at .requested, startLine_finishWork, hnot]
  unfold lineStarted
  by_cases hnone : (openWindow (openApplyWindow (finishWork s))).pixel.requested = 0
  · rw [requestPoint_of (by rw [hline, hblanking]; exact hpoint) hnone (hpixel.unrequested hnone)]
    exact Nat.zero_lt_two
  · rw [requestPoint, if_neg fun hc => hnone hc.2]
    exact Nat.pos_of_ne_zero hnone

/-- In the active lines the line is begun, and no later one (R150). -/
theorem bringLine_begun {s : State} (hlt : s.raster.line + 1 < totalLines s) (h : PointsOk s) (hb : s.raster.blanking ≤ s.raster.line) :
    (bringLine s).pixel.begun = s.raster.line + 1 - s.raster.blanking := by
  have hw := lineStarted_writes s
  have hline : (lineStarted s).raster.line = s.raster.line := hw.at .line
  have hblanking : (lineStarted s).raster.blanking = s.raster.blanking := hw.at .blanking
  have hbegun : (lineStarted s).pixel.begun = s.pixel.begun := hw.at .begun
  have hstraps : (beginActive (lineStarted s)).straps = s.straps := ((beginActive_writes _).at .straps).trans (hw.at .straps)
  have hlines : s.raster.line - s.raster.blanking < activeLines (beginActive (lineStarted s)) := by
    have htotal : totalLines s = s.raster.blanking + activeLines s := rfl
    rw [activeLines, hstraps]
    exact Nat.sub_lt_left_of_lt_add hb (by rw [htotal] at hlt; exact Nat.lt_of_succ_lt hlt)
  have hle := h.begun
  rw [bringLine_ordinary hlt, (closeWindow_writes _).at .begun, (endSteps_writes _).at .begun, startLine_finishWork,
    beginLine, if_pos (by rw [hline, hblanking]; omega)]
  rcases consumeLine_begun (s.raster.line - s.raster.blanking) (beginActive (lineStarted s)) with ⟨he, hnot⟩ | he
  · have hbegun' : (beginActive (lineStarted s)).pixel.begun = s.pixel.begun := ((beginActive_writes _).at .begun).trans hbegun
    have := Nat.lt_of_not_le fun hle => hnot ⟨hlines, hle⟩
    rw [he]
    omega
  · omega

/-- Settles O7: the line is brought, then it passes. -/
theorem lineAdvanceCountsLine : Obligations.LineAdvanceCountsLine := by
  intro s h0
  have hw := advanceLine_writes s
  refine ⟨advanceLine s, by rw [exec_lineAdvance, whenReleased_of h0], hw.at .frame, hw.at .blanking, fun hge => ?_, fun hlt => ?_,
    fun hplain => ?_⟩
  · exact if_neg (Nat.not_lt.mpr hge)
  · have hbring := bringLine_writes s
    have hdue := bringLine_due hlt
    obtain ⟨htaken, hinstalling⟩ := bringLine_phase hlt
    obtain ⟨hopen, hclosed⟩ := bringLine_cwin hlt
    have hrequested := bringLine_requested hlt
    have hactive := fun hpoints hupdates hraster => (brought_bringLine (s := s) hpoints hupdates hraster hlt).active
    have hbegun := bringLine_begun hlt
    rw [advanceLine, if_pos hlt]
    generalize bringLine s = u at *
    have hline : u.raster.line = s.raster.line := hbring.at .line
    have hblanking : u.raster.blanking = s.raster.blanking := hbring.at .blanking
    refine ⟨congrArg (· + 1) hline, congrArg (· + 1) (hbring.at .hsync), rfl, blanked_of_pixels rfl, ?_, hdue,
      htaken, hinstalling, hopen, hclosed, hrequested, fun hpoints hupdates hraster hat => ?_, hbegun⟩
    · show (u.panel.vsync && decide (u.raster.line + 1 < 2)) = _
      rw [hbring.at .vsync, hline]
    · exact hactive hpoints hupdates hraster (by rw [hline, hblanking]; exact hat.ge)
  · by_cases hlt : s.raster.line + 1 < totalLines s
    · rw [advanceLine, if_pos hlt, bringLine_of_plain hplain hlt]
      exact passLine_writes s
    · rw [advanceLine, if_neg hlt]
      exact .refl s

end Sys2Proof.Machine
end

