-- ==== Sys2Proof/Proofs/FrameStarts.lean ====
section
/-! SUPPORT. Proofs/FrameStarts.lean: what FRAME_START does at once: the raster and the Pixel Port's lines, the items of the apply
operation, the beacon judged, and OFF_RING left for LISTENING. -/

namespace Sys2Proof.Machine

set_option Elab.async false

theorem exec_frameStart (later : List FrameWork) (mid : Bool) (s : State) :
    exec (.frameStart later mid) s = .next (whenReleased (nextFrame later mid) s) := rfl

theorem nextFrame_off {later : List FrameWork} {mid : Bool} {s : State} (h : s.raster.line + 1 ≠ totalLines s) :
    nextFrame later mid s = s := if_neg h

/-- A frame start with nothing of the last line left: what it does at once, and the pieces it does not leave. -/
theorem answers_frameStart {later : List FrameWork} {mid : Bool} {s : State} {P : State → Prop} (h0 : s.inReset = false)
    (hs : Settled s) (hP : P (takeAll (workOrder.filter (fun w => !(leftWork later).contains w)) (openFrame mid s))) :
    Answers (.frameStart later mid) s P := by
  refine ⟨_, by rw [exec_frameStart, whenReleased_of h0], ?_⟩
  obtain ⟨hline, _⟩ := id hs
  rw [nextFrame, if_pos hline, bringLine_of_settled hs, startFrame_eq]
  exact hP

/-! ## The raster, the panel and the lines of the Pixel Port (R24, R28, R152, R160) -/

/-- The frame-start work leaves the requested blanking length at nominal (R81). -/
theorem requestNominal_stable : StableWork (fun s => s.raster.request = nominal s) := by
  have hkeep : ∀ {fs : List Field} {s t : State}, Writes fs s t → s.raster.request = nominal s →
      [Field.request, .straps].all (fun f => !fs.contains f) = true → t.raster.request = nominal t := by
    intro fs s t w h hf
    simp only [List.all_cons, List.all_nil, Bool.and_true, Bool.and_eq_true, Bool.not_eq_true'] at hf
    obtain ⟨hrequest, hstraps⟩ := hf
    have e1 : t.raster.request = s.raster.request := w.at .request hrequest
    have e2 : t.straps = s.straps := w.at .straps hstraps
    rw [e1, h, nominal, nominal, e2]
  constructor
  case toStable =>
    constructor
    case quiet => exact fun w h => hkeep w h (by decide +kernel)
    case report => exact fun r s h => h
    case queue => exact fun p s h => hkeep (queueParcel_writes p s) h (by decide)
    case request => exact fun s _ => rfl
    case collect => exact fun s o _ h => h
    case shrink => exact fun w _ h => hkeep w h (by decide +kernel)
  case settle => exact fun w s h => h
  case untested => exact fun rest s h => h
  case give => exact fun s h => h
  case retain => exact fun F s h => h

/-- The receiver at a frame start: a line's bytes are drained, a packet in progress stays (R152; log entry 28). -/
theorem openFrame_rx (mid : Bool) (s : State) : (openFrame mid s).pixel.rx = (match s.pixel.rx with
    | .line _ | .discard | .drain => .drain
    | .wait => .wait
    | .packet bytes => .packet bytes) := by
  have hclear : ∀ u, (clearLines u).pixel.rx = (match u.pixel.rx with
      | .line _ | .discard | .drain => .drain
      | .wait => .wait
      | .packet bytes => .packet bytes) := fun u => by
    unfold clearLines
    cases u.pixel.rx <;> rfl
  have hrx : ∀ F u, (takeApply F (judgeBeacon (leaveOffRing mid u))).pixel.rx = u.pixel.rx := fun F u =>
    ((leaveOffRing_writes mid u).mono.trans ((judgeBeacon_writes _).mono.trans (takeApply_writes _ _).mono) :
      Writes ([.stationState, .listen, .guard, .duplicateSeen, .cut, .returned, .miss, .ret, .slot] ++ Field.ofReport ++ Field.ofApply)
        u _).at .rx
  unfold openFrame
  rw [hclear, hrx]
  rfl

theorem newBlanking_cases (s : State) :
    (s.raster.blanking = nominal s → newBlanking s = s.raster.request) ∧ (s.raster.blanking ≠ nominal s → newBlanking s = nominal s) :=
  ⟨fun h => if_pos h, fun h => if_neg h⟩

/-- Settles O8. -/
theorem frameStartSettlesRaster : Obligations.FrameStartSettlesRaster := by
  intro left mid s h0
  refine ⟨fun hline => ?_, fun hs => answers_frameStart h0 hs ?_⟩
  · rw [exec_frameStart, whenReleased_of h0, nextFrame_off hline]
  · have hopen := openFrame_writes_rest mid s
    have hwork := takeAll_writes (workOrder.filter (fun w => !(leftWork left).contains w)) (openFrame mid s)
    have hnominal : (openFrame mid s).raster.request = nominal (openFrame mid s) := by
      have hstraps : (openFrame mid s).straps = s.straps := hopen.at .straps
      rw [nominal, hstraps]
      exact hopen.at .request
    have hstraps : (takeAll (workOrder.filter (fun w => !(leftWork left).contains w)) (openFrame mid s)).straps = s.straps :=
      (hwork.at .straps).trans (hopen.at .straps)
    have hrequest := requestNominal_stable.takeAll (workOrder.filter (fun w => !(leftWork left).contains w)) hnominal
    rw [nominal, hstraps] at hrequest
    have hblanking := (hwork.at .blanking).trans (hopen.at .blanking)
    obtain ⟨hkeep, hback⟩ := newBlanking_cases s
    refine ⟨(hwork.at .frame).trans (hopen.at .frame), (hwork.at .line).trans (hopen.at .line), fun h => hblanking.trans (hkeep h),
      fun h => hblanking.trans (hback h), hrequest, (hwork.at .vsync).trans (hopen.at .vsync), (hwork.at .hsync).trans (hopen.at .hsync),
      blanked_of_pixels ((hwork.at .pixels).trans (hopen.at .pixels)), hwork.at .requests, hwork.at .slots,
      (hwork.at .rx).trans (openFrame_rx mid s)⟩

/-! ## The items of the apply operation and the judged beacon (R8, R67) -/

/-- With every piece left to commands of their own a frame start takes none. -/
theorem takeAll_leftWork_workOrder (s : State) : takeAll (workOrder.filter (fun w => !(leftWork workOrder).contains w)) s = s := by
  have hnone : workOrder.filter (fun w => !(leftWork workOrder).contains w) = [] := by decide
  rw [hnone, takeAll_nil]

theorem leaveOffRing_of_other {mid : Bool} {s : State} (h : s.member.state ≠ .offRing) : leaveOffRing mid s = s := if_neg h

/-- The frame start's number, the pieces due and the origin records to test. -/
def workOpened (s : State) : State :=
  { advanceFrame s with startWork := { frame := s.raster.frame + 1, due := dueWork s, origin := s.origin.list.map (·.seq) } }

theorem openFrame_of_other {mid : Bool} {s : State} (h : s.member.state ≠ .offRing) :
    openFrame mid s = clearLines (takeApply (s.raster.frame + 1) (judgeBeacon (workOpened s))) := by
  show clearLines (takeApply _ (judgeBeacon (leaveOffRing mid (workOpened s)))) = _
  rw [leaveOffRing_of_other (s := workOpened s) h]
  rfl

theorem judgeBeacon_of_returned {s : State} (hring : onRing s.member.state = true) (hout : s.member.outstanding.isSome = true)
    (hret : s.member.returned = true) :
    judgeBeacon s = { s with member.returned := false, member.ret := min (s.member.ret + 1) 2, member.miss := 0 } := by
  rw [judgeBeacon, if_pos ⟨hring, hout⟩, if_pos hret]

theorem judgeBeacon_of_missed {s : State} (hring : onRing s.member.state = true) (hout : s.member.outstanding.isSome = true)
    (hret : s.member.returned = false) : judgeBeacon s = { s with member.miss := min (s.member.miss + 1) 3, member.ret := 0 } := by
  rw [judgeBeacon, if_pos ⟨hring, hout⟩, if_neg (by rw [hret]; decide)]

theorem judgeBeacon_of_none {s : State} (h : onRing s.member.state = false ∨ s.member.outstanding = none) : judgeBeacon s = s := by
  refine if_neg fun ⟨hring, hout⟩ => ?_
  rcases h with h | h
  · exact Bool.false_ne_true (h.symm.trans hring)
  · rw [h] at hout
    exact absurd hout nofun

theorem mem_dueWork {s : State} (h : s.member.state ≠ .offRing) (w : FrameWork) :
    w ∈ dueWork s ↔ w ≠ .listenGuard ∨ s.ring.guard = true := by
  unfold dueWork
  rw [if_neg h]
  cases s.ring.guard <;> cases w <;> decide

/-- Settles O10. -/
theorem frameStartTakesItems : Obligations.FrameStartTakesItems := by
  intro mid s h0 hs hstate
  refine answers_frameStart h0 hs ?_
  rw [takeAll_leftWork_workOrder, openFrame_of_other hstate]
  have hjudge := judgeBeacon_writes (workOpened s)
  have htake := takeApply_writes (s.raster.frame + 1) (judgeBeacon (workOpened s))
  have hclear := clearLines_writes (takeApply (s.raster.frame + 1) (judgeBeacon (workOpened s)))
  have hslot : (judgeBeacon (workOpened s)).table.slot = s.table.slot := hjudge.at .slot
  have hmiss : ∀ u, u = judgeBeacon (workOpened s) →
      (clearLines (takeApply (s.raster.frame + 1) u)).member.miss = u.member.miss
        ∧ (clearLines (takeApply (s.raster.frame + 1) u)).member.ret = u.member.ret := fun u _ => ⟨rfl, rfl⟩
  obtain ⟨hm, hr⟩ := hmiss _ rfl
  refine ⟨rfl, (hclear.at .startWork : _ = _) ▸ (htake.at .startWork : _ = _) ▸ (congrArg StartWork.frame (hjudge.at .startWork)), hslot, rfl,
    rfl, rfl, fun hsome => ?_, fun hnone => ?_, rfl, hjudge.at .entries, hjudge.at .store, hjudge.report_eq, fun w => ?_, ?_, ?_, ?_⟩
  · show (if (judgeBeacon (workOpened s)).table.slot.isSome then ApplyPhase.taken else .idle) = _
    rw [hslot, if_pos (Option.isSome_iff_ne_none.mpr hsome)]
  · show (if (judgeBeacon (workOpened s)).table.slot.isSome then ApplyPhase.taken else .idle) = _
    rw [hslot, hnone]
    rfl
  · rw [← mem_dueWork hstate w]
    exact iff_of_eq (congrArg (w ∈ ·) (congrArg StartWork.due ((hclear.at .startWork).trans ((htake.at .startWork).trans
      (hjudge.at .startWork)))))
  · intro hring hout hret
    rw [hm, hr, judgeBeacon_of_returned (s := workOpened s) hring hout hret]
    exact ⟨rfl, rfl⟩
  · intro hring hout hret
    rw [hm, hr, judgeBeacon_of_missed (s := workOpened s) hring hout hret]
    exact ⟨rfl, rfl⟩
  · intro h
    rw [hm, hr, judgeBeacon_of_none (s := workOpened s) h]
    exact ⟨rfl, rfl⟩

/-! ## OFF_RING left (R57) -/

/-- The pieces that are due at the frame start at which a station leaves OFF_RING with its listen guard clear. -/
def listenerWork : List FrameWork :=
  [.inFlightAgeing, .holdExpiry, .retentionExpiry, .originDeadlines, .collectorDeadline, .backoff]

/-- What these pieces can write in LISTENING. -/
abbrev Field.ofListener : List Field :=
  Field.ofOrigin ++ Field.ofRefs ++ [.inFlight, .applyPhase, .applyReapply, .applyDue, .startWork, .backoff, .outstanding, .returned]

theorem collectorStep_of_none {F : Frame} {s : State} (h : s.snap.collector = none) : collectorStep F s = s := by
  simp [collectorStep, collectorDeadline, h]

theorem collectorStep_writes_listening {F : Frame} {s : State} (h : s.member.state = .listening) :
    Writes [.transmit, .collector] s (collectorStep F s) := by
  have hw := collectorDeadline_writes F s
  have hstate : (collectorDeadline F s).1.member.state = .listening := (hw.at .stationState).trans h
  have hthird : thirdFailure (collectorDeadline F s).1 = (collectorDeadline F s).1 := by
    rw [thirdFailure, hstate]
  unfold collectorStep
  dsimp only
  split
  · rw [hthird]
    exact hw
  · exact hw

theorem queueBeacon_off {s : State} (h : onRing s.member.state = false) : queueBeacon s = s :=
  if_neg (by rw [h]; exact Bool.false_ne_true)

theorem closeMembership_writes_listening {s : State} (h : s.member.state = .listening) :
    Writes (.backoff :: Field.ofRefs) s (closeMembership s) := by
  have hb : Writes [.backoff] s (backoffStep s) := backoffStep_writes s
  have hstate : (backoffStep s).member.state = .listening := (hb.at .stationState).trans h
  have hr : Writes Field.ofRefs (backoffStep s) (recompute (backoffStep s)) :=
    recompute_writes_refs (by rw [hstate]; decide) (by rw [hstate]; decide) (by rw [hstate]; decide)
  have hstate' : (recompute (backoffStep s)).member.state = .listening := (hr.at .stationState).trans hstate
  rw [closeMembership, queueBeacon_off (by rw [hstate']; rfl)]
  exact hb.comp hr

theorem doWork_writes_listening {F : Frame} {w : FrameWork} {s : State} (h : s.member.state = .listening) (hw : w ∈ listenerWork) :
    Writes Field.ofListener s (doWork F w s) := by
  cases w with
  | listenGuard | stationAgeing | transition => exact absurd hw (by decide)
  | inFlightAgeing => exact (ageInFlight_writes F s).mono
  | holdExpiry => exact (expireHeld_writes F s).mono.trans (giveApplySet_writes _).mono
  | retentionExpiry => exact (expireRetained_writes F s).mono
  | originDeadlines => exact (testOrigins_writes s).mono
  | collectorDeadline => exact (collectorStep_writes_listening h).mono
  | backoff => exact (closeMembership_writes_listening h).mono

/-- The pieces of a station that listens leave it listening, its guard and its count. -/
theorem takeAll_writes_listening (ws : List FrameWork) {o : State} (h : o.member.state = .listening)
    (hdue : ∀ w ∈ o.startWork.due, w ∈ listenerWork) : Writes Field.ofListener o (takeAll ws o) := by
  refine (takeAll_keeps (P := fun u => Writes Field.ofListener o u ∧ ∀ w ∈ u.startWork.due, w ∈ listenerWork)
    (fun w u ⟨hu, hd⟩ => ?_) ws ⟨.refl o, hdue⟩).1
  by_cases hmem : w ∈ u.startWork.due
  · have hstate : (settleWork w u).member.state = .listening := (hu.at .stationState).trans h
    refine ⟨hu.trans ((settleWork_writes w u).mono.trans ?_), fun x hx => ?_⟩
    · rw [takeWork_of_mem hmem]
      exact doWork_writes_listening hstate (hd w hmem)
    · rw [takeWork_due] at hx
      exact hd x (List.mem_of_mem_filter hx)
  · rw [takeWork_of_not_mem hmem]
    exact ⟨hu, hd⟩

/-- A station that has just left OFF_RING has nothing in its store, nothing of its own in hand or in flight, and collects nothing; its
references are those of its empty station table. -/
structure Newcomer (s : State) : Prop where
  listening : s.member.state = .listening
  due : ∀ w ∈ s.startWork.due, w ∈ listenerWork
  store : s.store = []
  updates : s.origin.list = []
  inFlight : s.ring.inFlight = []
  collector : s.snap.collector = none
  refs : RefsOk s

/-- What the pieces of a newcomer write: the empty apply set is handed over, and the backoff falls. -/
abbrev Field.ofNewcomer : List Field := [.applyPhase, .applyReapply, .applyDue, .startWork, .backoff]

theorem Newcomer.of_writes {s t : State} (h : Newcomer s) (w : Writes Field.ofNewcomer s t)
    (hdue : ∀ x ∈ t.startWork.due, x ∈ s.startWork.due) : Newcomer t where
  listening := (w.at .stationState).trans h.listening
  due x hx := h.due x (hdue x hx)
  store := (w.at .store).trans h.store
  updates := (w.at .originList).trans h.updates
  inFlight := (w.at .inFlight).trans h.inFlight
  collector := (w.at .collector).trans h.collector
  refs := h.refs.of_writes w

theorem testOrigins_of_nil {s : State} (h : s.origin.list = []) : testOrigins s = untested [] s := by
  have htest : ∀ q u, u.origin.list = [] → testOrigin s.startWork.frame u q = u := fun q u hu => by
    simp [testOrigin, findOrigin, hu]
  exact foldl_keeps (P := fun u => u = untested [] s) s.startWork.origin (untested [] s)
    (fun u q _ hu => by rw [hu]; exact htest q _ h) rfl

theorem expireHeld_of_nil {F : Frame} {s : State} (h : s.store = []) : expireHeld F s = s := by
  have hsame : { s with store := ([] : List Proposal) } = s := by rw [← h]
  simp only [expireHeld, h, List.filter_nil]
  exact hsame

theorem Newcomer.doWork_writes {F : Frame} {w : FrameWork} {s : State} (h : Newcomer s) (hw : w ∈ listenerWork) :
    Writes Field.ofNewcomer s (doWork F w s) := by
  cases w with
  | listenGuard | stationAgeing | transition => exact absurd hw (by decide)
  | inFlightAgeing =>
    intro f hf
    cases f with
    | inFlight => exact (congrArg (List.filter _) h.inFlight).trans h.inFlight.symm
    | _ => rfl
  | holdExpiry =>
    show Writes _ s (giveApplySet (expireHeld F s))
    rw [expireHeld_of_nil h.store]
    have hgive := giveApplySet_writes s
    intro f hf
    cases f with
    | store => exact (congrArg (List.map _) h.store).trans h.store.symm
    | _ => first | rfl | exact absurd hf (by decide)
  | retentionExpiry =>
    intro f hf
    cases f with
    | store => exact (congrArg (List.filter _) h.store).trans h.store.symm
    | _ => first | rfl | exact absurd hf (by decide)
  | originDeadlines =>
    show Writes _ s (testOrigins s)
    rw [testOrigins_of_nil h.updates]
    exact (untested_writes [] s).mono
  | collectorDeadline =>
    show Writes _ s (collectorStep F s)
    rw [collectorStep_of_none h.collector]
    exact .refl s
  | backoff =>
    have hb := backoffStep_writes s
    have hstate : (backoffStep s).member.state = .listening := (hb.at .stationState).trans h.listening
    show Writes _ s (closeMembership s)
    rw [closeMembership, recompute_of_refsOk (h.refs.of_writes hb), queueBeacon_off (by rw [hstate]; rfl)]
    exact hb.mono

theorem Newcomer.takeAll_writes (ws : List FrameWork) {o : State} (h : Newcomer o) : Writes Field.ofNewcomer o (takeAll ws o) := by
  refine (takeAll_keeps (P := fun u => Writes Field.ofNewcomer o u ∧ Newcomer u) (fun w u ⟨hu, hn⟩ => ?_) ws ⟨.refl o, h⟩).1
  have htake : Writes Field.ofNewcomer u (takeWork w u) := by
    by_cases hmem : w ∈ u.startWork.due
    · have hset : Newcomer (settleWork w u) :=
        hn.of_writes (settleWork_writes w u).mono fun x hx => List.mem_of_mem_filter hx
      rw [takeWork_of_mem hmem]
      exact (settleWork_writes w u).mono.trans (hset.doWork_writes (hn.due w hmem))
    · rw [takeWork_of_not_mem hmem]
      exact .refl u
  refine ⟨hu.trans htake, hn.of_writes htake fun x hx => ?_⟩
  rw [takeWork_due] at hx
  exact List.mem_of_mem_filter hx

/-- LISTENING entered at the frame start, with a parcel partway in on RIN or not. -/
def listenOpened (mid : Bool) (s : State) : State :=
  event (.stateChange .listening none) (enterListening { workOpened s with ring.cut := mid })

theorem listenOpened_writes (mid : Bool) (s : State) :
    Writes ([.frame, .line, .blanking, .request, .active, .vsync, .hsync, .pixels, .startWork, .cut, .stationState, .listen, .guard,
      .duplicateSeen] ++ Field.ofReport) s (listenOpened mid s) := by
  have hcut : Writes [.cut] (workOpened s) { workOpened s with ring.cut := mid } := by
    intro f hf
    cases f with
    | cut => exact absurd hf (by decide)
    | _ => rfl
  exact (advanceFrame_writes s).mono.trans ((startWork_writes _ _).mono.trans (hcut.mono.trans
    ((enterListening_writes _).mono.trans (event_writes _ _).mono)))

theorem openFrame_of_offRing {mid : Bool} {s : State} (h : s.member.state = .offRing) :
    openFrame mid s = clearLines (takeApply (s.raster.frame + 1) (listenOpened mid s)) := by
  show clearLines (takeApply _ (judgeBeacon (leaveOffRing mid (workOpened s)))) = _
  rw [leaveOffRing, if_pos (c := (workOpened s).member.state = .offRing) h, judgeBeacon_of_none (Or.inl rfl)]
  rfl

theorem dueWork_of_offRing {s : State} (h : s.member.state = .offRing) (hguard : s.ring.guard = false) : dueWork s = listenerWork := by
  rw [dueWork, if_pos h, hguard]
  rfl

/-- Settles O11. -/
theorem frameStartEntersListening : Obligations.FrameStartEntersListening := by
  intro left mid s h0 hs hstate hguard
  refine answers_frameStart h0 hs ?_
  have hlisten := listenOpened_writes mid s
  have htake := takeApply_writes (s.raster.frame + 1) (listenOpened mid s)
  have hclear := clearLines_writes (takeApply (s.raster.frame + 1) (listenOpened mid s))
  have hopen : Writes (.slot :: Field.ofApply ++ .rx :: .begun :: Field.ofLines) (listenOpened mid s) (openFrame mid s) := by
    rw [openFrame_of_offRing hstate]
    exact htake.mono.trans hclear.mono
  have hlistening : (openFrame mid s).member.state = .listening := hopen.at .stationState
  have hdue : (openFrame mid s).startWork.due = listenerWork :=
    (congrArg StartWork.due (hopen.at .startWork)).trans (dueWork_of_offRing hstate hguard)
  have hwork := takeAll_writes_listening (workOrder.filter (fun w => !(leftWork left).contains w)) hlistening
    (fun w hw => by rw [← hdue]; exact hw)
  have hstate' := (hwork.at .stationState).trans hlistening
  have hreset : (takeAll (workOrder.filter (fun w => !(leftWork left).contains w)) (openFrame mid s)).inReset = false :=
    (hwork.at .inReset).trans ((hopen.at .inReset).trans h0)
  refine ⟨hstate', (hwork.at .listen).trans (hopen.at .listen), (hwork.at .guard).trans (hopen.at .guard),
    (hwork.at .cut).trans (hopen.at .cut), by rw [bypass, hreset, hstate']; rfl, (hwork.at .duplicateSeen).trans (hopen.at .duplicateSeen),
    fun hservice hlock => ?_⟩
  obtain ⟨hquiet, hflight⟩ := hservice.quiet (by rw [hstate]; rfl)
  obtain ⟨_, _, hstations⟩ := hservice.bypassed (by rw [hstate]; rfl)
  have hserving : serving s.member.state = false := by rw [hstate]; rfl
  have hnew : Newcomer (openFrame mid s) := by
    have hall := hlisten.mono.trans (hopen.mono (gs := [.frame, .line, .blanking, .request, .active, .vsync, .hsync, .pixels, .startWork,
      .cut, .stationState, .listen, .guard, .duplicateSeen, .slot, .rx, .begun] ++ Field.ofReport ++ Field.ofApply ++ Field.ofLines))
    have hnone : ∀ u : State, u.member.stations = s.member.stations → onRing u.member.state = false → presentStations u = [] := by
      intro u hu hring
      rw [presentStations, hu, hstations, ownEntry, hring]
      rfl
    have hempty := hnone (openFrame mid s) (hall.at .stations) (by rw [hlistening]; rfl)
    have hbefore := hnone s rfl (by rw [hstate]; rfl)
    have htable : computeTableRef (openFrame mid s) = computeTableRef s := by rw [computeTableRef, computeTableRef, hempty, hbefore]
    refine ⟨hlistening, fun w hw => by rw [← hdue]; exact hw, (hall.at .store).trans (hservice.unstored hstate), ?_,
      (hall.at .inFlight).trans hflight, ?_, ?_, ?_⟩
    · refine (hall.at .originList).trans (Classical.not_not.mp fun hne => ?_)
      exact Bool.false_ne_true (hserving.symm.trans (hservice.updates hne))
    · refine (hall.at .collector).trans (Option.not_isSome_iff_eq_none.mp fun hsome => ?_)
      rcases hservice.collector hsome with hc | hc
      · rw [hstate] at hc
        exact absurd hc (by decide)
      · exact Bool.false_ne_true (hserving.symm.trans hc)
    · rw [htable]
      exact (hall.at .tableRef).trans hlock.tableRef
    · rw [computeTimingRef, htable, hempty, ← hbefore]
      exact (hall.at .timingRef).trans hlock.timingRef
  have hpieces := hnew.takeAll_writes (workOrder.filter (fun w => !(leftWork left).contains w))
  refine ⟨hpieces.report_eq.trans hopen.report_eq, ?_⟩
  obtain ⟨_, _, _, _, hactive, _⟩ := hs
  have hall := hlisten.mono.trans (hopen.mono.trans (hpieces.mono (gs := Field.ofReport ++ [.frame, .line, .blanking, .request, .vsync,
    .hsync, .pixels, .startWork, .slot, .applyPhase, .applyFrame, .applySince, .applyStaged, .applyReapply, .applyDue, .requests, .slots,
    .requested, .begun, .rx, .stationState, .listen, .backoff, .guard, .duplicateSeen, .cut, .active])))
  intro f hf
  have hsame := hall f
  cases f with
  | active => exact (hpieces.at .active).trans ((hopen.at .active).trans hactive.symm)
  | _ => first | exact hsame (by decide) | exact absurd hf (by decide)

end Sys2Proof.Machine
end

