-- ==== Sys2Proof/Proofs/SendsAndReports.lean ====
section
/-! SUPPORT. Proofs/SendsAndReports.lean: what goes out: the sends on ROUT, the parts a responder builds, the report line and its bytes. -/

namespace Sys2Proof.Machine

set_option Elab.async false

/-! ## The report line (R166 to R168) -/

/-- The end of a send: the next head is in sending, where there is one (R167). -/
theorem sendOver_eq (u : ReportUnit) : sendOver u = { u with sending := u.queue.head?, queue := u.queue.tail, endsAfter := 0 } := by
  unfold sendOver nextSend
  cases u.queue <;> rfl

theorem nextSend_of_sending {u : ReportUnit} (h : u.sending.isSome = true) : nextSend u = u := by
  obtain ⟨x, hx⟩ := Option.isSome_iff_exists.mp h
  unfold nextSend
  rw [hx]

theorem nextSend_of_head {u : ReportUnit} {r : ReportRecord} {rest : List ReportRecord} (h : u.sending = none) (hq : u.queue = r :: rest) :
    nextSend u = { u with sending := some r, queue := rest } := by
  unfold nextSend
  rw [h, hq]

theorem nextSend_of_nil {u : ReportUnit} (hq : u.queue = []) : nextSend u = u := by
  unfold nextSend
  rw [hq]
  cases u.sending <;> rfl

/-- A record that finds a place joins the tail with the lost mark. -/
theorem recordJoin_of_room {r : Report} {F : Frame} {u : ReportUnit} (h : u.queue.length < 16) :
    recordJoin r F u = nextSend { u with queue := u.queue ++ [{ report := r, lost := u.lost, frame := F }], lost := false } := if_pos h

theorem recordJoin_of_full {r : Report} {F : Frame} {u : ReportUnit} (h : 16 ≤ u.queue.length) :
    recordJoin r F u = { u with lost := true } := if_neg (Nat.not_lt.mpr h)

theorem reportJoin_of_unannounced {r : Report} {F : Frame} {u : ReportUnit} (h : (recordJoin r F u).endsAfter = 0) :
    reportJoin r F u = recordJoin r F u := if_pos h

/-- With a send in progress the join leaves the announced end as it is. -/
theorem recordJoin_endsAfter {r : Report} {F : Frame} {u : ReportUnit} (n : Nat) (h : u.sending.isSome = true) :
    recordJoin r F { u with endsAfter := n } = { recordJoin r F u with endsAfter := n } := by
  by_cases hroom : u.queue.length < 16
  · rw [recordJoin_of_room hroom, recordJoin_of_room (u := { u with endsAfter := n }) hroom, nextSend_of_sending, nextSend_of_sending]
    · exact h
    · exact h
  · rw [recordJoin_of_full (Nat.le_of_not_lt hroom), recordJoin_of_full (u := { u with endsAfter := n }) (Nat.le_of_not_lt hroom)]

theorem recordJoin_keeps_endsAfter (r : Report) (F : Frame) (u : ReportUnit) : (recordJoin r F u).endsAfter = u.endsAfter := by
  unfold recordJoin
  split
  · exact nextSend_endsAfter _
  · rfl

/-- A record formed with an end announced: the announced count falls, and at 1 the send ends (log entry 11). -/
theorem reportJoin_of_announced {r : Report} {F : Frame} {u : ReportUnit} {n : Nat} (hends : u.endsAfter = n + 1)
    (hsend : u.sending.isSome = true) :
    reportJoin r F u = (if n = 0 then
      { reportJoin r F { u with endsAfter := 0 } with
        sending := (reportJoin r F { u with endsAfter := 0 }).queue.head?, queue := (reportJoin r F { u with endsAfter := 0 }).queue.tail }
      else { reportJoin r F { u with endsAfter := 0 } with endsAfter := n }) := by
  have hu : u = { u with endsAfter := n + 1 } := by rw [← hends]
  have hzero := recordJoin_endsAfter (r := r) (F := F) 0 hsend
  have hjoin : reportJoin r F { u with endsAfter := 0 } = { recordJoin r F u with endsAfter := 0 } := by
    rw [reportJoin_of_unannounced (by rw [hzero]), hzero]
  have hrecord : (recordJoin r F u).endsAfter = n + 1 := (recordJoin_keeps_endsAfter r F u).trans hends
  rw [hjoin, reportJoin, recordFormed, if_neg (by omega)]
  by_cases hn : n = 0
  · rw [if_pos (by omega), if_pos hn, sendOver_eq]
  · rw [if_neg (by omega), if_neg hn, hrecord, Nat.add_sub_cancel]

theorem report_of_idle {r : Report} {s : State} (hends : s.report.endsAfter = 0) (hidle : s.report.sending = none)
    (hq : s.report.queue = []) :
    (report r s).report.queue = [] ∧ (report r s).report.lost = false
      ∧ (report r s).report.sending = some { report := r, lost := s.report.lost, frame := now s } := by
  have hjoin : reportJoin r s.raster.frame s.report = { s.report with
      sending := some { report := r, lost := s.report.lost, frame := s.raster.frame }, queue := [], lost := false } := by
    have hrecord := (recordJoin_keeps_endsAfter r s.raster.frame s.report).trans hends
    rw [reportJoin_of_unannounced hrecord, recordJoin_of_room (by rw [hq]; decide)]
    exact nextSend_of_head hidle (by rw [hq]; rfl)
  rw [report_report, hjoin]
  exact ⟨rfl, rfl, rfl⟩

theorem report_of_sending {r : Report} {s : State} (hends : s.report.endsAfter = 0) (hsend : s.report.sending.isSome = true)
    (hq : s.report.queue.length < 16) :
    (report r s).report.lost = false
      ∧ (report r s).report.queue = s.report.queue ++ [{ report := r, lost := s.report.lost, frame := now s }]
      ∧ (report r s).report.sending = s.report.sending := by
  have hrecord := (recordJoin_keeps_endsAfter r s.raster.frame s.report).trans hends
  rw [report_report, reportJoin_of_unannounced hrecord, recordJoin_of_room hq, nextSend_of_sending]
  · exact ⟨rfl, rfl, rfl⟩
  · exact hsend

theorem report_of_full {r : Report} {s : State} (hends : s.report.endsAfter = 0) (hq : 16 ≤ s.report.queue.length) :
    (report r s).report = { s.report with lost := true } := by
  have hrecord := (recordJoin_keeps_endsAfter r s.raster.frame s.report).trans hends
  rw [report_report, reportJoin_of_unannounced hrecord, recordJoin_of_full hq]

theorem exec_reportSendBegin (s : State) : exec .reportSendBegin s = .next (whenReleased beginReport s) := rfl

theorem exec_reportSendEnd (n : Nat) (s : State) : exec (.reportSendEnd n) s = .next (whenReleased (endReport n) s) := rfl

theorem reportUnit_writes (s : State) (u : ReportUnit) (hlost : u.lost = s.report.lost) (hcounts : u.counts = s.report.counts) :
    Writes [.sending, .sendEnds, .reports] s { s with report := u } := by
  intro f hf
  cases f with
  | sending | sendEnds | reports => exact absurd hf (by decide)
  | lost => exact hlost
  | crc | overflow | stray | underrun | late | frameSlip =>
    dsimp only [Field.same]
    rw [hcounts]
  | _ => rfl

/-- What the two commands of the line do (R167). -/
theorem reportLine_commands {s : State} (h0 : s.inReset = false) :
    (∀ r rest, s.report.sending = none → s.report.queue = r :: rest → Answers .reportSendBegin s fun t =>
        t.report.sending = some r ∧ t.report.queue = rest ∧ Writes [.sending, .reports] s t)
    ∧ (s.report.sending.isSome = true ∨ s.report.queue = [] → exec .reportSendBegin s = .next s)
    ∧ (s.report.sending.isSome = true → Answers (.reportSendEnd 0) s fun t =>
        t.report.sending = s.report.queue.head? ∧ t.report.queue = s.report.queue.tail ∧ t.report.endsAfter = 0
          ∧ Writes [.sending, .sendEnds, .reports] s t)
    ∧ (∀ n, s.report.sending.isSome = true → Answers (.reportSendEnd (n + 1)) s fun t =>
        t.report.endsAfter = n + 1 ∧ Writes [.sendEnds] s t)
    ∧ (∀ n, s.report.sending = none → exec (.reportSendEnd n) s = .next s) := by
  refine ⟨fun r rest hidle hq => ⟨beginReport s, by rw [exec_reportSendBegin, whenReleased_of h0], ?_, ?_, (beginReport_writes s).mono⟩,
    fun h => ?_, fun hsend => ?_, fun n hsend => ?_, fun n hidle => ?_⟩
  · exact congrArg ReportUnit.sending (nextSend_of_head hidle hq)
  · exact congrArg ReportUnit.queue (nextSend_of_head hidle hq)
  · have hsame : nextSend s.report = s.report := h.elim nextSend_of_sending nextSend_of_nil
    rw [exec_reportSendBegin, whenReleased_of h0, beginReport, hsame]
  · obtain ⟨x, hx⟩ := Option.isSome_iff_exists.mp hsend
    refine ⟨{ s with report := sendOver s.report }, ?_, ?_⟩
    · rw [exec_reportSendEnd, whenReleased_of h0, endReport, hx]
      rfl
    · rw [sendOver_eq]
      exact ⟨rfl, rfl, rfl, reportUnit_writes s _ rfl rfl⟩
  · obtain ⟨x, hx⟩ := Option.isSome_iff_exists.mp hsend
    refine ⟨{ s with report.endsAfter := n + 1 }, ?_, rfl, fun f hf => ?_⟩
    · rw [exec_reportSendEnd, whenReleased_of h0, endReport, hx]
      rfl
    · cases f with
      | sendEnds => exact absurd hf (by decide)
      | _ => rfl
  · rw [exec_reportSendEnd, whenReleased_of h0, endReport, hidle]

/-! ## Report records as bytes (R171, R179) -/

theorem countUp_toNat (c : Count) : (countUp c).toNat = min 65535 (c.toNat + 1) := by
  unfold countUp
  split
  · rename_i h
    rw [h]
    rfl
  · bv_omega

theorem sum8_append_neg (bs : List Byte) : sum8 (bs ++ [- sum8 bs]) = 0 := by
  have hlast : sum8 (bs ++ [- sum8 bs]) = sum8 bs + - sum8 bs := by simp [sum8, List.foldl_append]
  rw [hlast]
  bv_omega

/-- The fields of no report are more than those of STATUS, 24 bytes. -/
theorem reportFields_length (r : Report) : (reportFields r).length ≤ 24 := by
  cases r with
  | updateQueued q n p round old => cases old <;> exact Nat.le_add_left 6 18
  | updateCommitted q f h => exact Nat.le_add_left 4 20
  | updateRejected reason q => cases q <;> exact Nat.le_add_left 3 21
  | updateUnconfirmed q f => exact Nat.le_add_left 3 21
  | entry i v st => cases st <;> exact Nat.le_add_left 9 15
  | packetError reason k => cases k <;> exact Nat.le_add_left 3 21
  | status f => exact Nat.le_refl 24
  | event e =>
    cases e with
    | lateCommit | frameSlip | holdExpired => exact Nat.le_add_left 7 17
    | duplicateStation | stateChange => exact Nat.le_add_left 3 21
    | ringHold | ringClosed | resyncDone | resyncFailed => exact Nat.le_add_left 1 23
    | resyncStart => exact Nat.le_add_left 2 22

theorem recordBytes_form (r : ReportRecord) : ∃ check : Byte,
    recordBytes r = [BitVec.ofNat 8 (reportFields r.report).length, reportCode r.report, if r.lost then 1 else 0,
        hiByte r.frame, loByte r.frame] ++ reportFields r.report ++ [check]
      ∧ sum8 (recordBytes r) = 0 ∧ (reportFields r.report).length ≤ 24 :=
  ⟨- sum8 (recordHead r), rfl, sum8_append_neg _, reportFields_length _⟩

/-- Settles O54. -/
theorem reportLineWorks : Obligations.ReportLineWorks := by
  refine ⟨fun r s => ⟨report_writes r s, fun hends => ⟨report_of_idle hends, report_of_sending hends, report_of_full hends⟩,
    fun n u hends hsend hu => ?_⟩, fun s h0 => reportLine_commands h0, countUp_toNat, recordBytes_form, ?_, fun s => ⟨rfl, rfl⟩⟩
  · rw [hu]
    exact reportJoin_of_announced hends hsend
  · intro q n k h part m round i v F G A o d f
    exact ⟨⟨rfl, rfl⟩, ⟨rfl, rfl⟩, ⟨rfl, rfl⟩, ⟨rfl, rfl⟩, ⟨rfl, rfl⟩, ⟨rfl, rfl⟩, ⟨rfl, rfl⟩, ⟨rfl, rfl⟩, ⟨rfl, rfl⟩, ⟨rfl, rfl⟩,
      ⟨rfl, rfl⟩, ⟨rfl, rfl⟩, ⟨rfl, rfl⟩, ⟨rfl, rfl⟩, ⟨rfl, rfl⟩, ⟨rfl, rfl⟩, ⟨rfl, rfl⟩, ⟨rfl, rfl⟩, ⟨rfl, rfl⟩, ⟨rfl, rfl⟩,
      ⟨rfl, rfl⟩, ⟨rfl, rfl⟩, rfl, rfl, rfl, ⟨rfl, rfl⟩, ⟨rfl, rfl⟩, ⟨rfl, rfl⟩, ⟨rfl, rfl⟩, ⟨rfl, rfl⟩, ⟨rfl, rfl⟩, ⟨rfl, rfl⟩,
      ⟨rfl, rfl⟩, ⟨rfl, rfl⟩, ⟨rfl, rfl⟩, ⟨rfl, rfl⟩⟩

/-! ## Sends on ROUT (R45 to R48) -/

theorem exec_sendBegin (s : State) : exec .sendBegin s = .next (beginSend s) := rfl

theorem exec_sendEnd (s : State) : exec .sendEnd s = .next (whenReleased endSend s) := rfl

theorem headReady_iff (s : State) : headReady s = true ↔ s.ring.transmit ≠ [] ∧ s.ring.inFlight.length < 8 := by
  rw [headReady, Bool.and_eq_true, decide_eq_true_iff, Bool.not_eq_true', List.isEmpty_eq_false_iff]

theorem beginSend_of_waiting {w : Waiting} {rest : List Waiting} {s : State} (hb : bypass s = false) (hidle : s.ring.rout = none)
    (hq : s.ring.insertion = w :: rest) (h : headReady s = false ∨ s.ring.streak < 8) : beginSend s = sendForwarded s := by
  have hturn : (!s.ring.insertion.isEmpty && (!headReady s || decide (s.ring.streak < Config.streakLimit))) = true := by
    rw [hq]
    rcases h with h | h <;> simp [h]
  simp only [beginSend, hb, hidle, Option.isSome_none, Bool.or_self, Bool.false_eq_true, if_false, hturn, if_true]

theorem beginSend_of_own {s : State} (hb : bypass s = false) (hidle : s.ring.rout = none) (hready : headReady s = true)
    (h : s.ring.insertion = [] ∨ 8 ≤ s.ring.streak) : beginSend s = sendOwn s := by
  have hturn : (!s.ring.insertion.isEmpty && (!headReady s || decide (s.ring.streak < Config.streakLimit))) = false := by
    rcases h with h | h
    · simp [h]
    · simp [hready, h]
  simp only [beginSend, hb, hidle, Option.isSome_none, Bool.or_self, Bool.false_eq_true, if_false, hturn]
  rw [if_pos hready]

theorem beginSend_of_nothing {s : State} (hready : headReady s = false) (hq : s.ring.insertion = []) : beginSend s = s := by
  simp [beginSend, hready, hq]

theorem sendForwarded_of {w : Waiting} {rest : List Waiting} {s : State} (hq : s.ring.insertion = w :: rest) :
    sendForwarded s = { s with
      ring.insertion := rest, ring.rout := some w, ring.streak := if headReady s then s.ring.streak + 1 else 0 } := by
  rw [sendForwarded, hq]

/-- The in-flight entry of an own parcel whose send begins (R47). -/
def flightOf (p : Parcel) (s : State) : InFlight := { tag := s.ring.tag, kind := Body.kind p.body, seq := Body.seq p.body, frame := now s }

theorem sendOwn_of {p : Parcel} {rest : List Parcel} {s : State} (hq : s.ring.transmit = p :: rest) :
    sendOwn s = { s with
      ring.transmit := rest, ring.streak := 0,
      ring.inFlight := s.ring.inFlight ++ [flightOf p s],
      ring.rout := some { parcel := { p with header := { p.header with tag := s.ring.tag } }, notice := false },
      ring.tag := nextFree ((s.ring.inFlight ++ [flightOf p s]).map (·.tag)) 256 (s.ring.tag + 1) } := by
  rw [sendOwn, hq]
  rfl

/-- SEND_BEGIN by the arbiter (R45 to R47). -/
theorem sendBegin_answers {s : State} (hb : bypass s = false) (hidle : s.ring.rout = none) :
    (∀ w rest, s.ring.insertion = w :: rest → headReady s = false ∨ s.ring.streak < 8 → Answers .sendBegin s fun t =>
      t.ring.rout = some w ∧ t.ring.insertion = rest
        ∧ t.ring.streak = (if headReady s then s.ring.streak + 1 else 0)
        ∧ Writes [.rout, .insertion, .streak] s t)
    ∧ (∀ p rest, s.ring.transmit = p :: rest → s.ring.inFlight.length < 8 → s.ring.insertion = [] ∨ 8 ≤ s.ring.streak →
      Answers .sendBegin s fun t =>
        t.ring.rout = some { parcel := { p with header := { p.header with tag := s.ring.tag } }, notice := false }
          ∧ t.ring.transmit = rest ∧ t.ring.streak = 0
          ∧ t.ring.inFlight = s.ring.inFlight ++
              [{ tag := s.ring.tag, kind := Body.kind p.body, seq := Body.seq p.body, frame := now s }]
          ∧ NextFree (t.ring.inFlight.map (·.tag)) s.ring.tag t.ring.tag
          ∧ Writes [.rout, .transmit, .streak, .inFlight, .tag] s t)
    ∧ (s.ring.insertion = [] → headReady s = false → exec .sendBegin s = .next s) := by
  refine ⟨fun w rest hq h => ⟨sendForwarded s, by rw [exec_sendBegin, beginSend_of_waiting hb hidle hq h], ?_⟩,
    fun p rest hq hfew h => ⟨sendOwn s, ?_, ?_⟩, fun hq hready => ?_⟩
  · rw [sendForwarded_of hq]
    refine ⟨rfl, rfl, rfl, fun f hf => ?_⟩
    cases f with
    | rout | insertion | streak => exact absurd hf (by decide)
    | _ => rfl
  · rw [exec_sendBegin, beginSend_of_own hb hidle ((headReady_iff s).mpr ⟨by rw [hq]; exact List.cons_ne_nil _ _, hfew⟩) h]
  · rw [sendOwn_of hq]
    refine ⟨rfl, rfl, rfl, rfl, nextFree_after ?_ _, fun f hf => ?_⟩
    · rw [List.length_map, List.length_append, List.length_singleton]
      omega
    · cases f with
      | rout | transmit | streak | inFlight | tag => exact absurd hf (by decide)
      | _ => rfl
  · rw [exec_sendBegin, beginSend_of_nothing hready hq]

theorem duplicateNotice_of_joining {s : State} (h : s.member.state = .listening ∨ s.member.state = .joining) :
    duplicateNotice s = enterIsolated .duplicate s := if_pos h

/-- SEND_END, and the notice of a duplicate's parcel with it (R40, R48, R63). -/
theorem sendEnd_answers {s : State} {w : Waiting} (h0 : s.inReset = false) (hw : s.ring.rout = some w) :
    (w.notice = false → Answers .sendEnd s fun t => t.ring.rout = none ∧ Writes [.rout] s t)
    ∧ (w.notice = true → s.member.state = .listening ∨ s.member.state = .joining → Answers .sendEnd s fun t =>
        Isolated s t ∧ Raised s t (.stateChange .isolated (some .duplicate)) ∧ Writes (Field.ofIsolation ++ Field.ofReport) s t) := by
  have hrout : Writes [.rout] s { s with ring.rout := none } := by
    intro f hf
    cases f with
    | rout => exact absurd hf (by decide)
    | _ => rfl
  refine ⟨fun hn => ⟨{ s with ring.rout := none }, ?_, rfl, hrout⟩, fun hn hstate =>
    ⟨enterIsolated .duplicate { s with ring.rout := none }, ?_, ?_⟩⟩
  · rw [exec_sendEnd, whenReleased_of h0, endSend, hw]
    simp only [hn, Bool.false_eq_true, if_false]
  · rw [exec_sendEnd, whenReleased_of h0, endSend, hw]
    simp only [hn, if_true]
    rw [duplicateNotice_of_joining (s := { s with ring.rout := none }) hstate]
  · obtain ⟨hisolated, hraised, hwrites⟩ := isolated_enterIsolated .duplicate { s with ring.rout := none }
    exact ⟨hisolated, hraised, hrout.comp hwrites⟩

/-- Settles O53. -/
theorem sendsBeginAndEnd : Obligations.SendsBeginAndEnd :=
  ⟨fun _ => sendBegin_answers, fun _ _ => sendEnd_answers⟩

/-! ## Part building (R131 to R133) -/

theorem exec_snapshotPartBuild (s : State) : exec .snapshotPartBuild s = .next (whenReleased buildPart s) := rfl

theorem bypass_of_receiving {s : State} (h0 : s.inReset = false) (h : receiving s.member.state = true) : bypass s = false := by
  rw [bypass, h0, h]
  rfl

/-- Where the queue has a place an own parcel that is no BEACON joins its tail. -/
theorem queueParcel_of_room {p : Parcel} {s : State} (hb : bypass s = false) (hp : isBeacon p = false) (hq : s.ring.transmit.length < 8) :
    transmitAccepts p s = true ∧ queueParcel p s = { s with ring.transmit := s.ring.transmit ++ [p] } := by
  have hjoin := transmitJoin_tail hp hq
  constructor
  · rw [transmitAccepts, hb, hjoin]
    rfl
  · rw [queueParcel, hb, hjoin]
    rfl

theorem partEntries_eq (t : Table) (p : Nat) : partEntries t p = (List.range' (32 * p) (partSize p)).map (fun i =>
    ⟨BitVec.ofNat 16 i, (Memory.read t i).value, (Memory.read t i).stamp⟩) := by
  rw [partEntries, partIndices, List.range'_eq_map_range]

/-- Settles O52. -/
theorem snapshotPartBuilt : Obligations.SnapshotPartBuilt := by
  intro s r rest p h0 hstate hactive hlen hq hp hle
  have hb : bypass s = false := bypass_of_receiving h0 (by rw [hstate]; rfl)
  obtain ⟨haccepts, hjoin⟩ := queueParcel_of_room (p := partParcel s r p) hb rfl (Nat.lt_of_lt_of_le hlen (by decide))
  have hmay : mayBuild s = true := by
    simp [mayBuild, hstate, hq, hactive, hlen]
  have hbuild : buildPart s = advanceResponder p { s with ring.transmit := s.ring.transmit ++ [partParcel s r p] } := by
    simp only [buildPart, hmay, hq, hp, haccepts, hjoin, if_true]
  refine ⟨buildPart s, by rw [exec_snapshotPartBuild, whenReleased_of h0], ?_⟩
  have hparcel : partParcel s r p = ownParcel s r (.snapshot
      ⟨BitVec.ofNat 8 p, s.table.apply.frame, (List.range' (32 * p) (if p < 8 then 32 else 4)).map (fun i =>
        ⟨BitVec.ofNat 16 i, (Memory.read s.table.entries i).value, (Memory.read s.table.entries i).stamp⟩)⟩) := by
    rw [partParcel, partEntries_eq]
    rfl
  rw [hbuild, ← hparcel]
  unfold advanceResponder
  by_cases hlt : p < 8
  · rw [if_pos hlt]
    refine ⟨rfl, fun _ => ⟨rfl, rfl⟩, fun he => absurd he (Nat.ne_of_lt hlt), fun f hf => ?_⟩
    cases f with
    | transmit | progress => exact absurd hf (by decide)
    | _ => rfl
  · rw [if_neg hlt]
    refine ⟨rfl, fun hl => absurd hl hlt, fun _ => ⟨congrArg List.tail hq, ?_⟩, fun f hf => ?_⟩
    · show headProgress s.snap.queue.tail = _
      rw [hq]
      rfl
    · cases f with
      | transmit | progress | responder => exact absurd hf (by decide)
      | _ => rfl

end Sys2Proof.Machine
end

