-- ==== Sys2Proof/Proofs/EditOrder.lean ====
section
/-! SUPPORT. Proofs/EditOrder.lean: which stamp is later, the order of the apply set, an edit judged, and the apply set applied with its
late records. -/

namespace Sys2Proof.Machine

set_option Elab.async false

/-! ## Stamps and edits (R5 to R7) -/

theorem seqLater_iff (a b : Seq) : seqLater a b = true ↔ 1 ≤ (a - b).toNat ∧ (a - b).toNat ≤ 127 := by
  rw [seqLater, Bool.and_eq_true, decide_eq_true_iff, decide_eq_true_iff]

theorem later_self (F : Frame) : later F F = false := by
  rw [later, atOrBefore, BitVec.sub_self]
  rfl

theorem stampLater_mark_iff (fa fb : Frame) (oa ob : StationNo) (qa qb : Seq) :
    stampLater (.mark fa oa qa) (.mark fb ob qb) = true ↔
      later fa fb = true ∨ (fa = fb ∧ ob.toNat < oa.toNat)
        ∨ (fa = fb ∧ oa = ob ∧ 1 ≤ (qa - qb).toNat ∧ (qa - qb).toNat ≤ 127) := by
  simp only [stampLater, Bool.or_eq_true, Bool.and_eq_true, decide_eq_true_iff, beq_iff_eq, seqLater_iff]
  refine or_congr_right ⟨?_, ?_⟩
  · rintro ⟨hf, ho | ho⟩
    · exact Or.inl ⟨hf, ho⟩
    · exact Or.inr ⟨hf, ho⟩
  · rintro (⟨hf, ho⟩ | ⟨hf, ho⟩)
    · exact ⟨hf, Or.inl ho⟩
    · exact ⟨hf, Or.inr ho⟩

/-- Of two records of one frame and origin, the stamps follow the sequences alone. -/
theorem stampLater_sameOrigin (F : Frame) (o : StationNo) (qa qb : Seq) :
    stampLater (.mark F o qa) (.mark F o qb) = seqLater qa qb := by
  simp [stampLater, later_self]

/-- Of two records of one frame and origin, the first taken is the one of the earlier stamp, or, 128 apart, the lower sequence (R6, R12). -/
theorem takenBefore_iff_stampLater {a b : DueRecord} (he : a.effective = b.effective) (ho : a.origin = b.origin) :
    TakenBefore a b ↔
      stampLater (.mark b.effective b.origin b.seq) (.mark a.effective a.origin a.seq) = true
        ∨ (stampLater (.mark b.effective b.origin b.seq) (.mark a.effective a.origin a.seq) = false
          ∧ stampLater (.mark a.effective a.origin a.seq) (.mark b.effective b.origin b.seq) = false
          ∧ a.seq.toNat < b.seq.toNat) := by
  have htaken : TakenBefore a b ↔ (1 ≤ (b.seq - a.seq).toNat ∧ (b.seq - a.seq).toNat ≤ 127)
      ∨ ((b.seq - a.seq).toNat = 128 ∧ a.seq.toNat < b.seq.toNat) := by
    simp [TakenBefore, he, ho]
  rw [htaken, he, ho, stampLater_sameOrigin, stampLater_sameOrigin, ← Bool.not_eq_true, ← Bool.not_eq_true, seqLater_iff, seqLater_iff]
  generalize a.seq = x
  generalize b.seq = y
  bv_omega

theorem judgeEdit_of_outside {F : Frame} {st : Stamp} {t : Table} {e : Edit} (h : tableSize ≤ e.index.toNat) :
    judgeEdit F st t e = t := if_pos h

theorem judgeEdit_of_inside {F : Frame} {st : Stamp} {t : Table} {e : Edit} (h : e.index.toNat < tableSize) :
    judgeEdit F st t e = if stampAt F (Memory.read t e.index.toNat).stamp = .null
        ∨ stampLater st (stampAt F (Memory.read t e.index.toNat).stamp) = true
      then Memory.write t e.index.toNat { value := e.colour, stamp := st } else t := if_neg (Nat.not_le.mpr h)

/-- An edit touches its own entry alone. -/
theorem read_judgeEdit_ne {F : Frame} {st : Stamp} {t : Table} {e : Edit} (hw : Memory.wf t = true) {k : Nat} (hk : k ≠ e.index.toNat) :
    Memory.read (judgeEdit F st t e) k = Memory.read t k := by
  by_cases hin : e.index.toNat < tableSize
  · rw [judgeEdit_of_inside hin]
    split
    · rw [Memory.read_write hw, if_neg hk]
    · rfl
  · rw [judgeEdit_of_outside (Nat.le_of_not_lt hin)]

theorem read_judgeEdit_self {F : Frame} {st : Stamp} {t : Table} {e : Edit} (hw : Memory.wf t = true) (hin : e.index.toNat < tableSize) :
    Memory.read (judgeEdit F st t e) e.index.toNat =
      if stampAt F (Memory.read t e.index.toNat).stamp = .null ∨ stampLater st (stampAt F (Memory.read t e.index.toNat).stamp) = true
      then { value := e.colour, stamp := st } else Memory.read t e.index.toNat := by
  rw [judgeEdit_of_inside hin]
  split
  · rw [Memory.read_write hw, if_pos rfl]
  · rfl

theorem stampAt_of_aged {F f : Frame} {o : StationNo} {q : Seq} (h : 63 < (F - f).toNat) : stampAt F (.mark f o q) = .null :=
  if_neg (Nat.not_le.mpr h)

theorem stampAt_of_fresh {F f : Frame} {o : StationNo} {q : Seq} (h : ¬ 63 < (F - f).toNat) : stampAt F (.mark f o q) = .mark f o q :=
  if_pos (Nat.le_of_not_lt h)

/-- Settles O26. -/
theorem editJudged : Obligations.EditJudged := by
  refine ⟨fun fa fb oa ob qa qb => ⟨stampLater_mark_iff fa fb oa ob qa qb, rfl, rfl⟩, fun a b => takenBefore_iff_stampLater,
    fun F st e t hw => ⟨judgeEdit_of_outside, fun k => read_judgeEdit_ne hw, fun hin hnull => ?_, fun f o q hin hmark => ?_⟩⟩
  · rw [read_judgeEdit_self hw hin, hnull]
    exact if_pos (Or.inl rfl)
  · rw [read_judgeEdit_self hw hin, hmark]
    by_cases haged : 63 < (F - f).toNat
    · rw [stampAt_of_aged haged, if_pos (Or.inl rfl), if_pos (Or.inl haged)]
    · rw [stampAt_of_fresh haged]
      simp only [haged, reduceCtorEq, false_or]

end Sys2Proof.Machine
end

