-- ==== Sys2Proof/Proofs/ReferenceChanges.lean ====
section
/-! SUPPORT. Proofs/ReferenceChanges.lean: what a recomputation of the references brings (R70, R81, R86, R139, R140): at the Lock Unit,
at the collector, at the mismatch streak, and what follows at the Membership Unit. -/

namespace Sys2Proof.Machine

set_option Elab.async false

/-! ## The lowest station -/

theorem lowest_eq_none_iff (l : List StationNo) : lowest l = none ↔ l = [] := by
  cases l with
  | nil => exact ⟨fun _ => rfl, fun _ => rfl⟩
  | cons n rest =>
    refine ⟨fun h => ?_, nofun⟩
    unfold lowest at h
    split at h
    · exact absurd h nofun
    · split at h <;> exact absurd h nofun

theorem mem_of_lowest {m : StationNo} : ∀ {l : List StationNo}, lowest l = some m → m ∈ l
  | [], h => absurd h nofun
  | n :: rest, h => by
    unfold lowest at h
    split at h
    · cases h
      exact List.mem_cons_self
    · rename_i k hk
      split at h
      · cases h
        exact List.mem_cons_self
      · cases h
        exact List.mem_cons_of_mem _ (mem_of_lowest hk)

/-- One more station: it is the lowest, or the lowest of the others stays. -/
theorem lowest_append_singleton (x : StationNo) : ∀ l : List StationNo, lowest (l ++ [x]) = some (match lowest l with
    | none => x
    | some m => if m.toNat ≤ x.toNat then m else x)
  | [] => rfl
  | n :: rest => by
    rw [List.cons_append, lowest, lowest_append_singleton x rest, lowest]
    cases lowest rest with
    | none => exact (apply_ite some _ _ _).symm
    | some m =>
      dsimp only
      by_cases h1 : n.toNat ≤ m.toNat <;> by_cases h2 : m.toNat ≤ x.toNat <;> by_cases h3 : n.toNat ≤ x.toNat <;>
        simp [h1, h2, h3] <;> omega

theorem lowest_of_append_singleton {x m : StationNo} {l : List StationNo} (h : lowest (l ++ [x]) = some m) (hne : m ≠ x) :
    lowest l = some m := by
  rw [lowest_append_singleton] at h
  cases hl : lowest l with
  | none =>
    rw [hl] at h
    cases h
    exact absurd rfl hne
  | some k =>
    rw [hl] at h
    dsimp only at h
    split at h
    · exact h
    · cases h
      exact absurd rfl hne

theorem lowest_append_self {x : StationNo} {l : List StationNo} (h : lowest l = some x) : lowest (l ++ [x]) = some x := by
  rw [lowest_append_singleton, h]
  exact congrArg some (if_pos (Nat.le_refl _))

/-! ## The own station as a candidate (R70) -/

/-- The peers in IN_SERVICE. -/
def servingPeers (s : State) : List StationNo := (s.member.stations.filter (fun e => e.2.state == .inService)).map (·.1)

theorem presentStations_inService (s : State) :
    ((presentStations s).filter (fun e => e.2 == .inService)).map (·.1)
      = servingPeers s ++ if s.member.state = .inService then [own s] else [] := by
  rw [presentStations, List.filter_append, List.map_append, List.filter_map, List.map_map]
  congr 1
  unfold ownEntry
  cases s.member.state <;> rfl

theorem computeTableRef_of_inService {s : State} (h : s.member.state = .inService) :
    computeTableRef s = lowest (servingPeers s ++ [own s]) := by
  rw [computeTableRef, presentStations_inService, if_pos h]

theorem computeTableRef_of_other {s : State} (h : s.member.state ≠ .inService) : computeTableRef s = lowest (servingPeers s) := by
  rw [computeTableRef, presentStations_inService, if_neg h, List.append_nil]

theorem computeTimingRef_of_tableRef {s : State} {n : StationNo} (h : computeTableRef s = some n) : computeTimingRef s = some n := by
  rw [computeTimingRef, h]

/-- Going between two states of which neither is IN_SERVICE changes no table reference. -/
theorem computeTableRef_of_states {s t : State} (hstations : t.member.stations = s.member.stations) (hs : s.member.state ≠ .inService)
    (ht : t.member.state ≠ .inService) : computeTableRef t = computeTableRef s := by
  rw [computeTableRef_of_other hs, computeTableRef_of_other ht, servingPeers, servingPeers, hstations]

/-- Going between two on-ring states of which neither is IN_SERVICE changes no reference. -/
theorem computeTimingRef_of_states {s t : State} (hstraps : t.straps = s.straps) (hstations : t.member.stations = s.member.stations)
    (hs : s.member.state ≠ .inService) (ht : t.member.state ≠ .inService) (hring : onRing t.member.state = onRing s.member.state) :
    computeTimingRef t = computeTimingRef s := by
  have hpresent : (presentStations t).map (·.1) = (presentStations s).map (·.1) := by
    rw [presentStations, presentStations, List.map_append, List.map_append, hstations, ownEntry, ownEntry, hring, own, own, hstraps]
    cases onRing s.member.state <;> rfl
  rw [computeTimingRef, computeTimingRef, computeTableRef_of_states hstations hs ht, hpresent]

/-- In IN_SERVICE there is a table reference, the timing reference is the same, and it is the own station wherever it was that before. -/
theorem computeTimingRef_enters {s t : State} (hstraps : t.straps = s.straps) (hstations : t.member.stations = s.member.stations)
    (hs : s.member.state ≠ .inService) (ht : t.member.state = .inService) (h : computeTimingRef s = some (own s)) :
    computeTimingRef t = some (own t) := by
  have hpeers : servingPeers t = servingPeers s := by rw [servingPeers, servingPeers, hstations]
  have hown : own t = own s := congrArg Straps.station hstraps
  refine computeTimingRef_of_tableRef ?_
  rw [computeTableRef_of_inService ht, hpeers, hown]
  rw [computeTimingRef, computeTableRef_of_other hs] at h
  cases hl : lowest (servingPeers s) with
  | none => rw [lowest_append_singleton, hl]
  | some m =>
    rw [hl] at h
    exact lowest_append_self (hl.trans h)

/-! ## The collector (R139, R140) -/

/-- What a collector's request is queued from is the same in s and s'. -/
structure SameQueue (s s' : State) : Prop where
  transmit : s'.ring.transmit = s.ring.transmit
  frame : now s' = now s
  bypass : bypass s' = bypass s
  own : own s' = own s

/-- What a change of table reference reads at the collector, and what it can queue, is the same in s and s'. -/
structure SameCollection (s s' : State) : Prop extends SameQueue s s' where
  collector : s'.snap.collector = s.snap.collector
  tableRef : s'.member.tableRef = s.member.tableRef

theorem SameQueue.of_writes {fs : List Field} {s t : State} (w : Writes fs s t)
    (hf : [Field.inReset, .straps, .frame, .stationState, .transmit].all (fun f => !fs.contains f) = true := by decide +kernel) :
    SameQueue s t := by
  simp only [List.all_cons, List.all_nil, Bool.and_true, Bool.and_eq_true, Bool.not_eq_true'] at hf
  obtain ⟨h1, h2, h3, h4, h5⟩ := hf
  have e1 : t.inReset = s.inReset := w.at .inReset h1
  have e2 : t.straps = s.straps := w.at .straps h2
  have e4 : t.member.state = s.member.state := w.at .stationState h4
  exact ⟨w.at .transmit h5, w.at .frame h3, by rw [Machine.bypass, Machine.bypass, e1, e4], congrArg Straps.station e2⟩

theorem SameCollection.of_writes {fs : List Field} {s t : State} (w : Writes fs s t)
    (hf : [Field.inReset, .straps, .frame, .stationState, .transmit].all (fun f => !fs.contains f) = true := by decide +kernel)
    (hc : [Field.collector, .tableRef].all (fun f => !fs.contains f) = true := by decide +kernel) : SameCollection s t := by
  simp only [List.all_cons, List.all_nil, Bool.and_true, Bool.and_eq_true, Bool.not_eq_true'] at hc
  exact ⟨.of_writes w hf, w.at .collector hc.1, w.at .tableRef hc.2⟩

theorem SameQueue.symm {s t : State} (h : SameQueue s t) : SameQueue t s :=
  ⟨h.transmit.symm, h.frame.symm, h.bypass.symm, h.own.symm⟩

theorem SameCollection.symm {s t : State} (h : SameCollection s t) : SameCollection t s :=
  ⟨h.toSameQueue.symm, h.collector.symm, h.tableRef.symm⟩

/-- A parcel that is queued from the one is queued from the other. -/
theorem Queued.of_same {s s' t t' : State} {n : StationNo} {b : Body} (h : Queued s t n b) (hs : SameQueue s s')
    (ht : t'.ring.transmit = t.ring.transmit) : Queued s' t' n b := by
  intro h1 h2
  rw [ht, h (hs.bypass ▸ h1) (hs.transmit ▸ h2), hs.transmit, ownParcel, ownParcel, hs.own]

theorem CollectorMoves.of_same {ref : Option StationNo} {s s' t t' : State} (h : CollectorMoves ref s t) (hs : SameCollection s s')
    (hc : t'.snap.collector = t.snap.collector) (ht : t'.ring.transmit = t.ring.transmit) : CollectorMoves ref s' t' := by
  obtain ⟨hstay, hmove⟩ := h
  have hq : ∀ n b, Queued s t n b → Queued s' t' n b := fun n b hq => hq.of_same hs.toSameQueue ht
  rw [CollectorMoves, hs.collector, hs.tableRef, hs.transmit, hs.frame, hc, ht]
  refine ⟨hstay, fun c hcol hne => ?_⟩
  obtain ⟨hsame, hnew, hnext, hlast⟩ := hmove c hcol hne
  refine ⟨hsame, fun r h1 h2 => ?_, fun h1 h2 h3 => ?_, hlast⟩
  · obtain ⟨e, hqueued⟩ := hnew r h1 h2
    exact ⟨e, hq _ _ hqueued⟩
  · obtain ⟨e, hqueued, hnone⟩ := hnext h1 h2 h3
    exact ⟨e, fun r hr => hq _ _ (hqueued r hr), hnone⟩

theorem queueBody_transmit_congr {s u : State} (h : SameQueue s u) (n : StationNo) (b : Body) :
    (queueBody n b u).ring.transmit = (queueBody n b s).ring.transmit := by
  have hparcel : ownParcel u n b = ownParcel s n b := by rw [ownParcel, ownParcel, h.own]
  rw [queueBody, queueBody, queueParcel, queueParcel, hparcel, h.bypass, h.transmit]
  split
  · exact h.transmit
  · split
    · rfl
    · exact h.transmit

/-- What a change of table reference makes of the collector and the transmit queue, and whether it is the third failure, depends on the
collector's part of the state alone. -/
theorem collectorRefChange_congr {s u : State} (ref : Option StationNo) (hsame : SameQueue s u)
    (hcol : u.snap.collector = s.snap.collector) :
    (collectorRefChange ref u).1.snap.collector = (collectorRefChange ref s).1.snap.collector
      ∧ (collectorRefChange ref u).1.ring.transmit = (collectorRefChange ref s).1.ring.transmit
      ∧ (collectorRefChange ref u).2 = (collectorRefChange ref s).2 := by
  have hstay : u.ring.transmit = s.ring.transmit := hsame.transmit
  have hnow : now u = now s := hsame.frame
  have hcollector : ∀ r v, (requestSnapshot r v).snap.collector = v.snap.collector := fun r v =>
    (requestSnapshot_writes r v).at .collector
  have hrequest : ∀ r c, (requestSnapshot r { u with snap.collector := c }).snap.collector
        = (requestSnapshot r { s with snap.collector := c }).snap.collector
      ∧ (requestSnapshot r { u with snap.collector := c }).ring.transmit
        = (requestSnapshot r { s with snap.collector := c }).ring.transmit := by
    intro r c
    refine ⟨(hcollector r _).trans (hcollector r { s with snap.collector := c }).symm, ?_⟩
    cases r with
    | none => exact hstay
    | some n =>
      exact queueBody_transmit_congr (s := { s with snap.collector := c }) (u := { u with snap.collector := c }) ⟨hstay, hnow, hsame.bypass, hsame.own⟩ n _
  have hfail : ∀ c r, (failAttempt c r u).1.snap.collector = (failAttempt c r s).1.snap.collector
      ∧ (failAttempt c r u).1.ring.transmit = (failAttempt c r s).1.ring.transmit ∧ (failAttempt c r u).2 = (failAttempt c r s).2 := by
    intro c r
    unfold failAttempt
    split
    · rw [hnow]
      exact ⟨(hrequest r _).1, (hrequest r _).2, rfl⟩
    · exact ⟨rfl, hstay, rfl⟩
  unfold collectorRefChange
  rw [hcol]
  split
  · exact ⟨hcol, hstay, rfl⟩
  · split
    · split
      · exact ⟨hcol, hstay, rfl⟩
      · exact hfail _ _
    · exact hfail _ _
    · rw [hnow]
      exact ⟨(hrequest _ _).1, (hrequest _ _).2, rfl⟩
    · exact ⟨hcol, hstay, rfl⟩

theorem thirdFailed_iff_collectorRefChange {ref : Option StationNo} {s : State} (h : ref ≠ s.member.tableRef) :
    (collectorRefChange ref s).2 = true ↔ ThirdFailed ref s := by
  have hfail : ∀ c : Collector, (failAttempt c ref s).2 = true ↔ 3 ≤ c.attempt := by
    intro c
    unfold failAttempt
    split
    · exact ⟨nofun, fun h3 => by omega⟩
    · exact ⟨fun _ => by omega, fun _ => rfl⟩
  have hnot : ∀ c : Collector, s.snap.collector = some c → (ThirdFailed ref s ↔ 3 ≤ c.attempt ∧ c.target ≠ none ∧ c.target ≠ ref) := by
    intro c hc
    constructor
    · rintro ⟨_, d, hd, hrest⟩
      cases hc.symm.trans hd
      exact hrest
    · exact fun hrest => ⟨h, c, hc, hrest⟩
  cases hc : s.snap.collector with
  | none =>
    refine ⟨fun hf => ?_, fun ⟨_, d, hd, _⟩ => absurd (hc.symm.trans hd) nofun⟩
    rw [collectorRefChange, hc] at hf
    exact absurd hf nofun
  | some c =>
    rw [hnot c hc, collectorRefChange, hc]
    dsimp only
    cases c.target with
    | none => cases ref <;> simp
    | some x =>
      cases ref with
      | none =>
        refine (hfail c).trans ⟨fun h3 => ⟨h3, nofun, nofun⟩, And.left⟩
      | some r =>
        dsimp only
        by_cases hx : x = r
        · rw [if_pos hx]
          exact ⟨nofun, fun ⟨_, _, hne⟩ => absurd (congrArg some hx) hne⟩
        · rw [if_neg hx]
          exact (hfail c).trans ⟨fun h3 => ⟨h3, nofun, fun he => hx (Option.some.inj he)⟩, And.left⟩

/-! ## The references computed once (R70) -/

/-- The references and the mismatch streak, and the Lock Unit told, before the collector is. -/
def refsSet (s : State) : State :=
  let s1 := { s with member.tableRef := computeTableRef s, member.timingRef := computeTimingRef s,
                     member.mismatch := if computeTableRef s = s.member.tableRef then s.member.mismatch else 0 }
  if computeTimingRef s = s.member.timingRef then s1 else lockRefChange (computeTimingRef s) s1

theorem refsSet_writes (s : State) :
    Writes [.tableRef, .timingRef, .mismatch, .request, .lockState, .lockRef, .offset] s (refsSet s) := by
  have hrefs : ∀ a b n, Writes [.tableRef, .timingRef, .mismatch] s
      { s with member.tableRef := a, member.timingRef := b, member.mismatch := n } := by
    intro a b n f hf
    cases f with
    | tableRef | timingRef | mismatch => exact absurd hf (by decide)
    | _ => rfl
  unfold refsSet
  dsimp only
  split
  · exact (hrefs _ _ _).mono
  · exact (hrefs _ _ _).mono.trans (lockRefChange_writes _ _).mono

/-- What is passed on, from the state and the collector's news. -/
def RefNews.of (s : State) (r : State × Bool) : RefNews :=
  { state := r.1, lockChanged := decide (r.1.lock.state ≠ s.lock.state), thirdFailure := r.2 }

theorem recomputeOnce_eq (s : State) : recomputeOnce s =
    (if computeTableRef s = s.member.tableRef then
        { state := refsSet s, lockChanged := decide ((refsSet s).lock.state ≠ s.lock.state), thirdFailure := false }
     else { state := (collectorRefChange (computeTableRef s) (refsSet s)).1,
            lockChanged := decide ((collectorRefChange (computeTableRef s) (refsSet s)).1.lock.state ≠ s.lock.state),
            thirdFailure := (collectorRefChange (computeTableRef s) (refsSet s)).2 }) := by
  have hnews : recomputeOnce s = RefNews.of s (if computeTableRef s = s.member.tableRef then (refsSet s, false)
      else collectorRefChange (computeTableRef s) (refsSet s)) := rfl
  rw [hnews]
  split <;> rfl

theorem recomputeOnce_tableRef (s : State) : (recomputeOnce s).state.member.tableRef = computeTableRef s := by
  have hw := recomputeOnce_writes s
  rw [(refsOk_recomputeOnce s).1]
  exact computeTableRef_congr (hw.at .straps) (hw.at .stationState) (hw.at .stations)

theorem recomputeOnce_timingRef (s : State) : (recomputeOnce s).state.member.timingRef = computeTimingRef s := by
  have hw := recomputeOnce_writes s
  rw [(refsOk_recomputeOnce s).2]
  exact computeTimingRef_congr (hw.at .straps) (hw.at .stationState) (hw.at .stations)

/-- A changed table reference sets the mismatch streak to 0. -/
theorem recomputeOnce_mismatch (s : State) :
    (recomputeOnce s).state.member.mismatch = if computeTableRef s = s.member.tableRef then s.member.mismatch else 0 := by
  have hset : (refsSet s).member.mismatch = if computeTableRef s = s.member.tableRef then s.member.mismatch else 0 := by
    unfold refsSet
    dsimp only
    split
    · rfl
    · exact (lockRefChange_writes _ _).at .mismatch
  rw [recomputeOnce_eq]
  split
  case isTrue h => exact hset.trans (if_pos h)
  case isFalse h => exact ((collectorRefChange_writes _ _).at .mismatch).trans (hset.trans (if_neg h))

theorem mismatchFollows_recomputeOnce (s : State) : MismatchFollows (computeTableRef s) s (recomputeOnce s).state :=
  ⟨fun h => (recomputeOnce_mismatch s).trans (if_pos h), fun h => (recomputeOnce_mismatch s).trans (if_neg h)⟩

/-- Told after the references, the collector does what it would have done before them. -/
theorem collectorRefChange_refsSet (s : State) :
    (collectorRefChange (computeTableRef s) (refsSet s)).1.snap.collector = (collectorRefChange (computeTableRef s) s).1.snap.collector
      ∧ (collectorRefChange (computeTableRef s) (refsSet s)).1.ring.transmit = (collectorRefChange (computeTableRef s) s).1.ring.transmit
      ∧ (collectorRefChange (computeTableRef s) (refsSet s)).2 = (collectorRefChange (computeTableRef s) s).2 := by
  have hw := refsSet_writes s
  exact collectorRefChange_congr _ (.of_writes hw) (hw.at .collector)

theorem collectorMoves_recomputeOnce (s : State) : CollectorMoves (computeTableRef s) s (recomputeOnce s).state := by
  have hw := refsSet_writes s
  obtain ⟨hcollector, htransmit, _⟩ := collectorRefChange_refsSet s
  rw [recomputeOnce_eq]
  by_cases h : computeTableRef s = s.member.tableRef
  · rw [if_pos h]
    exact ⟨fun _ => ⟨hw.at .collector, hw.at .transmit⟩, fun _ _ hne => absurd h hne⟩
  · rw [if_neg h]
    exact (collectorMoves_collectorRefChange _ s h).of_same ⟨⟨rfl, rfl, rfl, rfl⟩, rfl, rfl⟩ hcollector htransmit

theorem recomputeOnce_thirdFailure (s : State) : (recomputeOnce s).thirdFailure = true ↔ ThirdFailed (computeTableRef s) s := by
  obtain ⟨_, _, hflag⟩ := collectorRefChange_refsSet s
  rw [recomputeOnce_eq]
  by_cases h : computeTableRef s = s.member.tableRef
  · rw [if_pos h]
    exact ⟨nofun, fun hf => absurd h hf.1⟩
  · rw [if_neg h, ← thirdFailed_iff_collectorRefChange h, ← hflag]

theorem recomputeOnce_lockChanged (s : State) :
    (recomputeOnce s).lockChanged = decide ((recomputeOnce s).state.lock.state ≠ s.lock.state) := by
  rw [recomputeOnce_eq]
  split
  · rfl
  · rfl

/-- A recomputation passes on a changed lock state only with a changed timing reference, which leaves REFERENCE or FREE. -/
theorem lock_of_lockChanged {s : State} (h : (recomputeOnce s).lockChanged = true) :
    computeTimingRef s ≠ s.member.timingRef
      ∧ (recomputeOnce s).state.lock.state = if computeTimingRef s = some (own s) then .reference else .free := by
  obtain ⟨hsame, hnew⟩ := lockFollows_recomputeOnce s
  rw [recomputeOnce_lockChanged, decide_eq_true_iff] at h
  rw [recomputeOnce_timingRef] at hsame hnew
  have hne : computeTimingRef s ≠ s.member.timingRef := fun he => h (congrArg Lock.state (hsame he).1)
  exact ⟨hne, congrArg Lock.state (hnew hne).1⟩

theorem recomputeOnce_report (s : State) : (recomputeOnce s).state.report = s.report := (recomputeOnce_writes s).report_eq

/-! ## What follows at the Membership Unit (R64, R86, R140) -/

/-- The own station becomes the timing reference in CATCHING_UP with the install done: the lock state lets it into service. -/
def ServesByReference (s : State) : Prop :=
  s.member.state = .catchingUp ∧ installDone s = true ∧ s.lock.state ≠ .reference ∧ computeTimingRef s = some (own s)
    ∧ s.member.timingRef ≠ some (own s)

theorem installDone_of_writes {fs : List Field} {s t : State} (w : Writes fs s t)
    (hf : [Field.snapshotNeeded, .installed].all (fun f => !fs.contains f) = true := by decide) : installDone t = installDone s := by
  simp only [List.all_cons, List.all_nil, Bool.and_true, Bool.and_eq_true, Bool.not_eq_true'] at hf
  have h1 : t.member.snapshotNeeded = s.member.snapshotNeeded := w.at .snapshotNeeded hf.1
  have h2 : t.member.installed = s.member.installed := w.at .installed hf.2
  rw [installDone, installDone, h1, h2]

theorem testService_off {s : State} (h : ¬ (s.member.state = .catchingUp ∧ installDone s = true ∧ lockServes s.lock.state = true)) :
    testService s = s := if_neg h

/-- The test of R64 passed. -/
def served (s : State) : State := event (.stateChange .inService none) (enterInService { s with table.seeded := true })

theorem testService_of {s : State} (hstate : s.member.state = .catchingUp) (hdone : installDone s = true)
    (hserves : lockServes s.lock.state = true) : testService s = served s := if_pos ⟨hstate, hdone, hserves⟩

theorem thirdFailure_of_served (s : State) : thirdFailure (served s) = served s := by
  have hstate : (served s).member.state = .inService := ((event_writes _ _).at .stationState).trans (enterInService_state _)
  rw [thirdFailure, hstate]

/-- The own station the timing reference: the station serves, and nothing else follows. -/
theorem recompute_of_serves {s : State} (h : ServesByReference s) : recompute s = served (recomputeOnce s).state := by
  obtain ⟨hstate, hdone, hlock, htiming, hold⟩ := h
  have hw := recomputeOnce_writes s
  have hne : (recomputeOnce s).state.member.timingRef ≠ s.member.timingRef := by
    rw [recomputeOnce_timingRef, htiming]
    exact hold.symm
  have hreference : (recomputeOnce s).state.lock.state = .reference := by
    obtain ⟨_, hnew⟩ := lockFollows_recomputeOnce s
    refine (congrArg Lock.state (hnew hne).1).trans (if_pos ?_)
    rw [recomputeOnce_timingRef, htiming]
  have hchanged : (recomputeOnce s).lockChanged = true := by
    rw [recomputeOnce_lockChanged, decide_eq_true_iff, hreference]
    exact hlock.symm
  have htest : testService (recomputeOnce s).state = served (recomputeOnce s).state :=
    testService_of ((hw.at .stationState).trans hstate) ((installDone_of_writes hw).trans hdone) (by rw [hreference]; rfl)
  unfold recompute
  dsimp only
  rw [if_pos hchanged, htest, thirdFailure_of_served, ite_self]

/-- Otherwise only the collector's third failure follows. -/
theorem recompute_of_not_serves {s : State} (h : ¬ ServesByReference s) :
    recompute s = if (recomputeOnce s).thirdFailure then thirdFailure (recomputeOnce s).state else (recomputeOnce s).state := by
  have hw := recomputeOnce_writes s
  have htest : (if (recomputeOnce s).lockChanged then testService (recomputeOnce s).state else (recomputeOnce s).state)
      = (recomputeOnce s).state := by
    split
    case isFalse => rfl
    case isTrue hchanged =>
      refine testService_off fun ⟨hstate, hdone, hserves⟩ => h ?_
      obtain ⟨hne, hlock⟩ := lock_of_lockChanged hchanged
      have hown : computeTimingRef s = some (own s) := by
        by_contra hno
        rw [if_neg hno] at hlock
        rw [hlock] at hserves
        exact absurd hserves nofun
      rw [if_pos hown] at hlock
      rw [recomputeOnce_lockChanged, decide_eq_true_iff, hlock] at hchanged
      exact ⟨(hw.at .stationState).symm.trans hstate, (installDone_of_writes hw).symm.trans hdone, hchanged.symm, hown,
        fun he => hne (hown.trans he.symm)⟩
  unfold recompute
  dsimp only
  rw [htest]

/-- Without a third failure only the references and what they are passed on to change. -/
theorem recompute_eq_once {s : State} (hserves : ¬ ServesByReference s) (hthird : ¬ ThirdFailed (computeTableRef s) s) :
    recompute s = (recomputeOnce s).state := by
  rw [recompute_of_not_serves hserves, if_neg (fun h => hthird ((recomputeOnce_thirdFailure s).mp h))]

theorem recompute_eq_failed {s : State} (hserves : ¬ ServesByReference s) (hthird : ThirdFailed (computeTableRef s) s) :
    recompute s = thirdFailure (recomputeOnce s).state := by
  rw [recompute_of_not_serves hserves, if_pos ((recomputeOnce_thirdFailure s).mpr hthird)]

theorem not_serves_of_state {s : State} (h : s.member.state ≠ .catchingUp) : ¬ ServesByReference s := fun hs => h hs.1

theorem thirdFailure_catchingUp {s : State} (h : s.member.state = .catchingUp) :
    thirdFailure s = { s with member.rejoinPending := true } := by rw [thirdFailure, h]

theorem thirdFailure_resync {s : State} (h : s.member.state = .resync) :
    thirdFailure s = event .resyncFailed (enterInService { s with member.backoff := 16 }) := by rw [thirdFailure, h]

theorem thirdFailure_ringHold {s : State} (h : s.member.state = .ringHold) :
    thirdFailure s = event .resyncFailed { s with member.backoff := 16 } := by rw [thirdFailure, h]

theorem thirdFailure_other {s : State} (h1 : s.member.state ≠ .catchingUp) (h2 : s.member.state ≠ .resync)
    (h3 : s.member.state ≠ .ringHold) : thirdFailure s = s := by
  unfold thirdFailure
  split
  case h_1 h => exact absurd h h1
  case h_2 h => exact absurd h h2
  case h_3 h => exact absurd h h3
  all_goals rfl

end Sys2Proof.Machine
end

