-- ==== Sys2Proof/Proofs/ReferencesFollow.lean ====
section
/-! SUPPORT. Proofs/ReferencesFollow.lean: the entry to IN_SERVICE, and everything that a changed station table brings (R64, R70, R81,
R86, R139, R140). -/

namespace Sys2Proof.Machine

set_option Elab.async false

/-! ## What follows, from one state to another -/

/-- The fields that the Lock Unit follows the timing reference with. -/
abbrev Field.ofLockCopy : List Field := [.straps, .timingRef, .request, .lockState, .lockRef, .offset]

/-- What the Lock Unit follows is the same in s and s'. -/
structure SameLock (s s' : State) : Prop where
  timingRef : s'.member.timingRef = s.member.timingRef
  lock : s'.lock = s.lock
  request : s'.raster.request = s.raster.request
  straps : s'.straps = s.straps

theorem SameLock.of_writes {fs : List Field} {s t : State} (w : Writes fs s t)
    (hf : [Field.straps, .timingRef, .request].all (fun f => !fs.contains f) = true := by decide +kernel)
    (hl : [Field.lockState, .lockRef, .offset].all (fun f => !fs.contains f) = true := by decide +kernel) : SameLock s t := by
  simp only [List.all_cons, List.all_nil, Bool.and_true, Bool.and_eq_true, Bool.not_eq_true'] at hf
  obtain ⟨h1, h2, h3⟩ := hf
  exact ⟨w.at .timingRef h2, w.lock_eq hl, w.at .request h3, w.at .straps h1⟩

theorem LockFollows.of_same {s s' t t' : State} (h : LockFollows s t) (hs : SameLock s s') (ht : SameLock t t') : LockFollows s' t' := by
  rw [LockFollows, hs.timingRef, hs.lock, hs.request, ht.timingRef, ht.lock, ht.request, own, nominal, hs.straps]
  exact h

/-- Two changes of timing reference are one, unless the second takes the first back; and one that makes the own station the reference sets
the request, which a second change away from it would not undo. -/
theorem LockFollows.trans {s u t : State} (h1 : LockFollows s u) (h2 : LockFollows u t) (hstraps : u.straps = s.straps)
    (hback : t.member.timingRef ≠ s.member.timingRef ∨ u.member.timingRef = s.member.timingRef)
    (hown : u.member.timingRef = some (own s) → t.member.timingRef = some (own s)) : LockFollows s t := by
  obtain ⟨hsame1, hnew1⟩ := h1
  obtain ⟨hsame2, hnew2⟩ := h2
  have hownu : own u = own s := congrArg Straps.station hstraps
  have hnominal : nominal u = nominal s := by rw [nominal, nominal, hstraps]
  rw [hownu, hnominal] at hnew2
  by_cases hu : u.member.timingRef = s.member.timingRef
  · obtain ⟨hl, hr⟩ := hsame1 hu
    rw [hu, hl, hr] at hsame2
    rw [hu, hr] at hnew2
    exact ⟨hsame2, hnew2⟩
  · have hts : t.member.timingRef ≠ s.member.timingRef := hback.resolve_right hu
    obtain ⟨hl, hr⟩ := hnew1 hu
    refine ⟨fun he => absurd he hts, fun _ => ?_⟩
    by_cases htu : t.member.timingRef = u.member.timingRef
    · obtain ⟨hl2, hr2⟩ := hsame2 htu
      rw [htu, hl2, hr2]
      exact ⟨hl, hr⟩
    · obtain ⟨hl2, hr2⟩ := hnew2 htu
      refine ⟨hl2, hr2.trans ?_⟩
      by_cases ht : t.member.timingRef = some (own s)
      · rw [if_pos ht, if_pos ht]
      · rw [if_neg ht, if_neg ht, hr, if_neg fun hu' => ht (hown hu')]

theorem MismatchFollows.of_same {ref : Option StationNo} {s s' t t' : State} (h : MismatchFollows ref s t)
    (hs : s'.member.tableRef = s.member.tableRef) (hm : s'.member.mismatch = s.member.mismatch)
    (ht : t'.member.mismatch = t.member.mismatch) : MismatchFollows ref s' t' := by
  rw [MismatchFollows, hs, hm, ht]
  exact h

theorem ThirdFailed.of_same {ref : Option StationNo} {s s' : State} (h : ThirdFailed ref s) (hs : s'.member.tableRef = s.member.tableRef)
    (hc : s'.snap.collector = s.snap.collector) : ThirdFailed ref s' := by
  rw [ThirdFailed, hs, hc]
  exact h

/-! ## The entry to IN_SERVICE (R70, R75) -/

/-- The state in IN_SERVICE with the mismatch streak at 0, whose references are then computed. -/
def inServiceWith (s : State) : State := { s with member.state := .inService, member.mismatch := 0 }

theorem enterInService_eq (s : State) : enterInService s = (recomputeOnce (inServiceWith s)).state := rfl

theorem enterInService_tableRef (s : State) : (enterInService s).member.tableRef = computeTableRef (inServiceWith s) :=
  recomputeOnce_tableRef _

theorem enterInService_timingRef (s : State) : (enterInService s).member.timingRef = computeTimingRef (inServiceWith s) :=
  recomputeOnce_timingRef _

theorem enterInService_mismatch (s : State) : (enterInService s).member.mismatch = 0 :=
  (recomputeOnce_mismatch (inServiceWith s)).trans (ite_self 0)

theorem enterInService_report (s : State) : (enterInService s).report = s.report := recomputeOnce_report _

theorem lockFollows_enterInService (s : State) : LockFollows s (enterInService s) := lockFollows_recomputeOnce (inServiceWith s)

/-- The collector follows the reference that the own station is a candidate for. -/
theorem collectorMoves_enterInService {s : State} (h : receiving s.member.state = true) :
    CollectorMoves (enterInService s).member.tableRef s (enterInService s) := by
  rw [enterInService_tableRef]
  refine (collectorMoves_recomputeOnce (inServiceWith s)).of_same (s := inServiceWith s) ⟨⟨rfl, rfl, ?_, rfl⟩, rfl, rfl⟩ rfl rfl
  rw [bypass, bypass, h]
  rfl

/-- An idle collector stays idle. -/
theorem enterInService_idle {s : State} (h : s.snap.collector = none) :
    (enterInService s).snap.collector = none ∧ (enterInService s).ring.transmit = s.ring.transmit := by
  obtain ⟨hstay, _⟩ := collectorMoves_recomputeOnce (inServiceWith s)
  obtain ⟨hc, ht⟩ := hstay (Or.inl h)
  exact ⟨hc.trans h, ht⟩

/-- Where the own station was the timing reference it is so in IN_SERVICE. -/
theorem enterInService_own {s : State} (hr : RefsOk s) (hstate : s.member.state ≠ .inService) (h : s.member.timingRef = some (own s)) :
    (enterInService s).member.timingRef = some (own s) := by
  rw [enterInService_timingRef]
  exact computeTimingRef_enters (s := s) (t := inServiceWith s) rfl rfl hstate rfl (hr.2.symm.trans h)

theorem served_state (s : State) : (served s).member.state = .inService := enterInService_state _

theorem served_seeded (s : State) : (served s).table.seeded = true :=
  ((event_writes _ _).at .seeded).trans ((enterInService_writes _).at .seeded)

theorem served_report (s : State) : (served s).report = reportJoin (.event (.stateChange .inService none)) (now s) s.report := by
  rw [served, event_report, enterInService_report, (enterInService_writes _).at .frame]
  rfl

theorem sameLock_served (s : State) : SameLock (enterInService { s with table.seeded := true }) (served s) :=
  .of_writes (event_writes _ _)

/-! ## The collector's third failure (R140) -/

/-- The collector that a third failure leaves is idle, and nothing is queued (R139, R140). -/
theorem collectorMoves_failed {ref : Option StationNo} {s t : State} (h : CollectorMoves ref s t) (hf : ThirdFailed ref s) :
    t.snap.collector = none ∧ t.ring.transmit = s.ring.transmit := by
  obtain ⟨hne, c, hc, hattempt, hsome, htarget⟩ := hf
  obtain ⟨_, _, _, hlast⟩ := h.2 c hc hne
  exact hlast hsome htarget hattempt

/-- The lowest peer in service was the reference that the collector asked; no longer, and neither is it once the own station serves too. -/
theorem timingRef_moves {s u : State} (hlock : LockOk s) (hpeers : ∀ e ∈ s.member.stations, e.1 ≠ own s)
    (hstate : s.member.state = .resync) (hu : u.member.state = .resync) (hstraps : u.straps = s.straps)
    (hf : ThirdFailed (computeTableRef u) s) : computeTimingRef (inServiceWith u) ≠ s.member.timingRef := by
  obtain ⟨hne, c, hc, _, hsome, _⟩ := hf
  rw [hlock.target c hc] at hsome
  obtain ⟨A, hA⟩ := Option.ne_none_iff_exists'.mp hsome
  have hcompute : computeTableRef s = some A := hlock.tableRef.symm.trans hA
  have hold : s.member.timingRef = some A := hlock.timingRef.trans (computeTimingRef_of_tableRef hcompute)
  rw [computeTableRef_of_other (by rw [hstate]; decide)] at hcompute
  have hAown : A ≠ own s := by
    obtain ⟨e, he, rfl⟩ := List.mem_map.mp (mem_of_lowest hcompute)
    exact hpeers e (List.mem_of_mem_filter he)
  rw [hA, computeTableRef_of_other (by rw [hu]; decide)] at hne
  have hserving : computeTableRef (inServiceWith u) = lowest (servingPeers u ++ [own u]) := computeTableRef_of_inService rfl
  rw [hold]
  intro he
  have htable : computeTableRef (inServiceWith u) = some A := by
    cases hl : lowest (servingPeers u ++ [own u]) with
    | none => exact absurd ((lowest_eq_none_iff _).mp hl) (by simp)
    | some m => rw [← he, computeTimingRef_of_tableRef (hserving.trans hl), hserving, hl]
  rw [hserving] at htable
  have hown : own u = own s := congrArg Straps.station hstraps
  exact hne (lowest_of_append_singleton htable (hown ▸ hAown))

/-- What the third failure does at the Lock Unit, the collector and the mismatch streak besides what the references did: nothing, but in
RESYNC it brings IN_SERVICE. -/
theorem thirdFailure_refs {s : State} (h : s.member.state ≠ .resync) :
    Writes (Field.ofReport ++ [.rejoinPending, .backoff]) s (thirdFailure s) := by
  have hmember : ∀ b n, Writes [.rejoinPending, .backoff] s { s with member.rejoinPending := b, member.backoff := n } := by
    intro b n f hf
    cases f with
    | rejoinPending | backoff => exact absurd hf (by decide)
    | _ => rfl
  unfold thirdFailure
  split
  case h_1 => exact (hmember true s.member.backoff).mono
  case h_2 hstate => exact absurd hstate h
  case h_3 => exact (hmember s.member.rejoinPending 16).comp (event_writes _ _)
  all_goals exact .refl s

/-! ## A changed station table -/

theorem Field.same_symm {f : Field} {s t : State} (h : f.same s t) : f.same t s := by
  cases f <;> exact Eq.symm h

theorem Writes.symm {fs : List Field} {s t : State} (w : Writes fs s t) : Writes fs t s := fun f hf => Field.same_symm (w f hf)

/-- A third failure in RESYNC: the station serves, with the backoff at 16 (R140). -/
theorem recompute_of_resyncFailed {u : State} (hstate : u.member.state = .resync) (hthird : ThirdFailed (computeTableRef u) u) :
    recompute u = event .resyncFailed (enterInService { (recomputeOnce u).state with member.backoff := 16 }) := by
  rw [recompute_eq_failed (not_serves_of_state (by rw [hstate]; decide)) hthird,
    thirdFailure_resync (((recomputeOnce_writes u).at .stationState).trans hstate)]

/-- What can differ before the references are computed. -/
abbrev Field.ofPeers : List Field := [.stations, .responder, .progress, .startWork]

section

variable {s u : State} (w : Writes Field.ofPeers s u)

include w

theorem thirdFailed_peers (ref : Option StationNo) : ThirdFailed ref u ↔ ThirdFailed ref s :=
  ⟨fun h => h.of_same (w.symm.at .tableRef) (w.symm.at .collector), fun h => h.of_same (w.at .tableRef) (w.at .collector)⟩

/-- The Lock Unit follows what the references become, once or twice. -/
theorem lockFollows_recompute (hlock : LockOk s) (hpeers : ∀ e ∈ s.member.stations, e.1 ≠ own s) : LockFollows s (recompute u) := by
  have hw := recomputeOnce_writes u
  have honce : LockFollows s (recomputeOnce u).state :=
    (lockFollows_recomputeOnce u).of_same (.of_writes w.symm) (.of_writes (.refl (fs := []) _))
  have hstraps : (recomputeOnce u).state.straps = s.straps := (hw.at .straps).trans (w.at .straps)
  have howns : own u = own s := congrArg Straps.station (w.at .straps)
  by_cases hserves : ServesByReference u
  · rw [recompute_of_serves hserves]
    obtain ⟨hstate, _, _, htiming, hold⟩ := id hserves
    have hstate' : (recomputeOnce u).state.member.state = .catchingUp := (hw.at .stationState).trans hstate
    have hown : (recomputeOnce u).state.member.timingRef = some (own (recomputeOnce u).state) :=
      (recomputeOnce_timingRef u).trans (htiming.trans (congrArg some (congrArg Straps.station (hw.at .straps)).symm))
    have hseeded : Writes [.seeded] (recomputeOnce u).state { (recomputeOnce u).state with table.seeded := true } := by
      intro f hf
      cases f with
      | seeded => exact absurd hf (by decide)
      | _ => rfl
    have henter : (enterInService { (recomputeOnce u).state with table.seeded := true }).member.timingRef
        = some (own (recomputeOnce u).state) :=
      enterInService_own ((refsOk_recomputeOnce u).of_writes hseeded) (by rw [(hseeded.at .stationState : _ = _), hstate']; decide) hown
    have hownr : own (recomputeOnce u).state = own s := congrArg Straps.station hstraps
    rw [hownr] at henter
    refine (honce.trans ((lockFollows_enterInService { (recomputeOnce u).state with table.seeded := true }).of_same
      (SameLock.of_writes hseeded.symm) (.of_writes (.refl (fs := []) _))) hstraps (Or.inl ?_) fun _ => henter).of_same
      (.of_writes (.refl (fs := []) _)) (sameLock_served _)
    rw [henter, ← w.at .timingRef, ← howns]
    exact hold.symm
  · by_cases hthird : ThirdFailed (computeTableRef u) u
    · rw [recompute_eq_failed hserves hthird]
      by_cases hstate : u.member.state = .resync
      · have hstate' : (recomputeOnce u).state.member.state = .resync := (hw.at .stationState).trans hstate
        rw [thirdFailure_resync hstate']
        have hbackoff : Writes [.backoff] (recomputeOnce u).state { (recomputeOnce u).state with member.backoff := 16 } := by
          intro f hf
          cases f with
          | backoff => exact absurd hf (by decide)
          | _ => rfl
        have htiming : computeTimingRef (inServiceWith { (recomputeOnce u).state with member.backoff := 16 })
            = computeTimingRef (inServiceWith u) :=
          computeTimingRef_congr (hw.at .straps) rfl (hw.at .stations)
        refine (honce.trans ((lockFollows_enterInService { (recomputeOnce u).state with member.backoff := 16 }).of_same
          (SameLock.of_writes hbackoff.symm) (.of_writes (.refl (fs := []) _))) hstraps (Or.inl ?_) fun hown => ?_).of_same
          (.of_writes (.refl (fs := []) _)) (.of_writes (event_writes _ _))
        · rw [enterInService_timingRef, htiming]
          exact timingRef_moves hlock hpeers ((w.at .stationState).symm.trans hstate) hstate (w.at .straps)
            ((thirdFailed_peers w _).mp hthird)
        · have hownr : own (recomputeOnce u).state = own s := congrArg Straps.station hstraps
          rw [← hownr] at hown ⊢
          exact enterInService_own ((refsOk_recomputeOnce u).of_writes hbackoff)
            (by rw [(hbackoff.at .stationState : _ = _), hstate']; decide) hown
      · exact honce.of_same (.of_writes (.refl (fs := []) _))
          (.of_writes (thirdFailure_refs (by rw [(hw.at .stationState : _ = _)]; exact hstate)))
    · rw [recompute_eq_once hserves hthird]
      exact honce

/-- The mismatch streak and the collector follow the table reference. -/
theorem mismatch_collector_follow (hserves : ¬ ServesByReference u) :
    MismatchFollows (computeTableRef u) s (recompute u) ∧ CollectorMoves (computeTableRef u) s (recompute u) := by
  have hmoves := collectorMoves_recomputeOnce u
  have hmismatch := mismatchFollows_recomputeOnce u
  have hw := recomputeOnce_writes u
  have hsame : SameCollection u s := .of_writes w.symm
  by_cases hthird : ThirdFailed (computeTableRef u) u
  · by_cases hstate : u.member.state = .resync
    · obtain ⟨hidle, htransmit⟩ := collectorMoves_failed hmoves hthird
      have hevent := event_writes .resyncFailed (enterInService { (recomputeOnce u).state with member.backoff := 16 })
      obtain ⟨hidle', htransmit'⟩ := enterInService_idle (s := { (recomputeOnce u).state with member.backoff := 16 }) hidle
      rw [recompute_of_resyncFailed hstate hthird]
      refine ⟨⟨fun he => absurd (he.trans (w.symm.at .tableRef)) hthird.1, fun _ => (hevent.at .mismatch).trans (enterInService_mismatch _)⟩,
        hmoves.of_same hsame ((hevent.at .collector).trans (hidle'.trans hidle.symm)) ((hevent.at .transmit).trans htransmit')⟩
    · have hfail := thirdFailure_refs (s := (recomputeOnce u).state) (by rw [(hw.at .stationState : _ = _)]; exact hstate)
      rw [recompute_eq_failed hserves hthird]
      exact ⟨hmismatch.of_same (w.symm.at .tableRef) (w.symm.at .mismatch) (hfail.at .mismatch),
        hmoves.of_same hsame (hfail.at .collector) (hfail.at .transmit)⟩
  · rw [recompute_eq_once hserves hthird]
    exact ⟨hmismatch.of_same (w.symm.at .tableRef) (w.symm.at .mismatch) rfl, hmoves.of_same hsame rfl rfl⟩

/-- What the third failure brings in each station state (R140). -/
theorem failureFollows_recompute (hserves : ¬ ServesByReference u) : FailureFollows (computeTableRef u) s (recompute u) := by
  have hw := recomputeOnce_writes u
  have hstateu : u.member.state = s.member.state := w.at .stationState
  have hstate : (recomputeOnce u).state.member.state = s.member.state := (hw.at .stationState).trans hstateu
  have hreport : (recomputeOnce u).state.report = s.report := (recomputeOnce_report u).trans w.report_eq
  have hbackoff : (recomputeOnce u).state.member.backoff = s.member.backoff := (hw.at .backoff).trans (w.at .backoff)
  have hpending : (recomputeOnce u).state.member.rejoinPending = s.member.rejoinPending := (hw.at .rejoinPending).trans (w.at .rejoinPending)
  have hframe : now (recomputeOnce u).state = now s := (hw.at .frame).trans (w.at .frame)
  rw [FailureFollows, ← thirdFailed_peers w]
  refine ⟨fun h => ?_, fun hthird hs => ?_, fun hthird hs => ?_, fun hthird hs => ?_⟩
  · have honce : recompute u = (recomputeOnce u).state := by
      by_cases hthird : ThirdFailed (computeTableRef u) u
      · obtain ⟨h1, h2, h3⟩ := h.resolve_left (not_not_intro hthird)
        rw [recompute_eq_failed hserves hthird, thirdFailure_other (hstate ▸ h1) (hstate ▸ h2) (hstate ▸ h3)]
      · exact recompute_eq_once hserves hthird
    rw [honce]
    exact ⟨hstate, hreport, hbackoff, hpending⟩
  · rw [recompute_eq_failed hserves hthird, thirdFailure_catchingUp (hstate.trans hs)]
    exact ⟨hstate.trans hs, rfl, hreport⟩
  · have hevent := event_writes .resyncFailed (enterInService { (recomputeOnce u).state with member.backoff := 16 })
    have henter := enterInService_writes { (recomputeOnce u).state with member.backoff := 16 }
    rw [recompute_of_resyncFailed (hstateu.trans hs) hthird]
    refine ⟨(hevent.at .stationState).trans (enterInService_state _), (hevent.at .backoff).trans (henter.at .backoff), ?_⟩
    have hframe' : (enterInService { (recomputeOnce u).state with member.backoff := 16 }).raster.frame = now s :=
      (henter.at .frame).trans hframe
    rw [Raised, Reported, event_report, enterInService_report, hframe']
    exact congrArg (reportJoin _ _) hreport
  · rw [recompute_eq_failed hserves hthird, thirdFailure_ringHold (hstate.trans hs)]
    refine ⟨hstate.trans hs, rfl, ?_⟩
    show reportJoin _ (now (recomputeOnce u).state) (recomputeOnce u).state.report = _
    rw [hframe, hreport]

/-- Everything that follows from the references of a changed station table. -/
theorem referencesFollow_recompute (hlock : LockOk s) (hpeers : ∀ e ∈ s.member.stations, e.1 ≠ own s) : ReferencesFollow s (recompute u) := by
  have hw := recompute_writes u
  have hstations : (recompute u).member.stations = u.member.stations := hw.at .stations
  have htable : computeTableRef { s with member.stations := (recompute u).member.stations } = computeTableRef u :=
    computeTableRef_congr (w.symm.at .straps) (w.symm.at .stationState) hstations
  have htiming : computeTimingRef { s with member.stations := (recompute u).member.stations } = computeTimingRef u :=
    computeTimingRef_congr (w.symm.at .straps) (w.symm.at .stationState) hstations
  have hown : own u = own s := congrArg Straps.station (w.at .straps)
  rw [ReferencesFollow, htable, htiming]
  refine ⟨lockFollows_recompute w hlock hpeers, fun hnot => ?_, fun hstate hdone hold hnew => ?_⟩
  · have hserves : ¬ ServesByReference u := fun ⟨hstate, hdone, _⟩ =>
      hnot ⟨(w.at .stationState).symm.trans hstate, (installDone_of_writes w).symm.trans hdone⟩
    obtain ⟨hmismatch, hmoves⟩ := mismatch_collector_follow w hserves
    exact ⟨hmismatch, hmoves, failureFollows_recompute w hserves⟩
  · have hserves : ServesByReference u := by
      refine ⟨(w.at .stationState).trans hstate, (installDone_of_writes w).trans hdone, fun hl => hold ?_, hown ▸ hnew, ?_⟩
      · exact hlock.copy.symm.trans (hlock.reference.mp ((w.at .lockState).symm.trans hl))
      · rw [hown, (w.at .timingRef : _ = _)]
        exact hold
    have honce := recomputeOnce_writes u
    rw [recompute_of_serves hserves]
    refine ⟨served_state _, served_seeded _, ?_⟩
    have hframe : now (recomputeOnce u).state = now s := (honce.at .frame).trans (w.at .frame)
    rw [Raised, Reported, served_report, hframe, recomputeOnce_report, w.report_eq]

end

end Sys2Proof.Machine
end

