-- ==== Sys2Proof/Proofs/TransitionCommands.lean ====
section
/-! SUPPORT. Proofs/TransitionCommands.lean: the transitions of a frame start that leave the ring, hold it or serve it again, the backoff
and the collector's deadline (R71 to R79, R138, R140). -/

namespace Sys2Proof.Machine

set_option Elab.async false

/-! ## A rejoin (R53, R74, R90, R107, R126, R143) -/

/-- What a rejoin leaves of the blocks reads only these fields of the state. -/
theorem loseReferences_cases (s : State) :
    (s.member.timingRef = none ∧ loseReferences s = s)
      ∨ (s.member.timingRef ≠ none ∧ loseReferences s = { s with lock := { state := .free, ref := none, offset := none } }) := by
  unfold loseReferences
  split
  case isTrue h => exact Or.inl ⟨h, rfl⟩
  case isFalse h => exact Or.inr ⟨h, rfl⟩

/-- What a rejoin can write. -/
abbrev Field.ofRejoined : List Field :=
  Field.ofMember ++ Field.ofReport ++ [.lockState, .lockRef, .offset, .store, .originList, .responder, .progress,
    .collector, .transmit, .inFlight, .streak, .guard, .duplicateSeen, .freeDraws, .startWork]

/-- The blocks after a rejoin, its reports apart, from a state s with other reports. -/
theorem rejoinReset_spec {s u : State} (w : Writes (Field.ofReport ++ [.freeDraws, .startWork, .hold]) s u) :
    (rejoinReset u).member = Member.reset .listening
    ∧ (rejoinReset u).store = s.store.filter (fun p => !isHeld p) ∧ (rejoinReset u).origin.list = []
    ∧ (rejoinReset u).snap.queue = [] ∧ (rejoinReset u).snap.progress = none ∧ (rejoinReset u).snap.collector = none
    ∧ (rejoinReset u).ring.transmit = [] ∧ (rejoinReset u).ring.inFlight = [] ∧ (rejoinReset u).ring.streak = 0
    ∧ (rejoinReset u).ring.guard = true ∧ (rejoinReset u).ring.duplicateSeen = false
    ∧ (s.member.timingRef ≠ none →
        (rejoinReset u).lock.state = .free ∧ (rejoinReset u).lock.ref = none ∧ (rejoinReset u).lock.offset = none)
    ∧ (rejoinReset u).report = u.report ∧ now (rejoinReset u) = now s
    ∧ Writes Field.ofRejoined s (rejoinReset u) := by
  have htiming : u.member.timingRef = s.member.timingRef := w.at .timingRef
  have hstore : u.store.filter (fun p => !isHeld p) = s.store.filter (fun p => !isHeld p) := by rw [(w.at .store : _ = _)]
  have hframe : now u = now s := w.at .frame
  have hlost : ∀ v, (v = u ∨ v = { u with lock := { state := .free, ref := none, offset := none } }) →
      Writes Field.ofRejoined s { v with
        member := Member.reset .listening, store := v.store.filter (fun p => !isHeld p), origin.list := [], snap := Snap.reset,
        ring.transmit := [], ring.inFlight := [], ring.streak := 0, ring.guard := true, ring.duplicateSeen := false } := by
    rintro v (rfl | rfl)
    · intro f hf
      have hsame := w f
      cases f <;> first | exact absurd hf (by decide) | exact hsame (by decide)
    · intro f hf
      have hsame := w f
      cases f <;> first | exact absurd hf (by decide) | exact hsame (by decide)
  unfold rejoinReset
  rcases loseReferences_cases u with ⟨hnone, he⟩ | ⟨hsome, he⟩
  · rw [he]
    exact ⟨rfl, hstore, rfl, rfl, rfl, rfl, rfl, rfl, rfl, rfl, rfl, fun h => absurd (htiming.symm.trans hnone) h, rfl, hframe,
      hlost u (Or.inl rfl)⟩
  · rw [he]
    exact ⟨rfl, hstore, rfl, rfl, rfl, rfl, rfl, rfl, rfl, rfl, rfl, fun _ => ⟨rfl, rfl, rfl⟩, rfl, hframe, hlost _ (Or.inr rfl)⟩

theorem rejoinReports_report (s : State) : (rejoinReports s).report = handOver (s.origin.list.map rejoinReport) (now s) s.report :=
  report_foldl rejoinReport s.origin.list s

/-- A rejoin, from a state that differs in the frame-start work and the hold count only. -/
theorem rejoined_doRejoin {s u : State} (w : Writes [.startWork, .hold] s u) : Rejoined s (doRejoin u) := by
  have hlist : u.origin.list = s.origin.list := w.at .originList
  have hreport : u.report = s.report := w.report_eq
  have hframe : now u = now s := w.at .frame
  have hdraw : Writes (Field.ofReport ++ [.freeDraws, .startWork, .hold]) s { u with freeDraws := u.freeDraws + 1 } := by
    intro f hf
    have hsame := w f
    cases f with
    | freeDraws => exact absurd hf (by decide)
    | _ => first | exact absurd hf (by decide) | exact hsame (by decide)
  unfold doRejoin
  dsimp only
  split
  · obtain ⟨h1, h2, h3, h4, h5, h6, h7, h8, h9, h10, h11, h12, h13, h14, h15⟩ :=
      rejoinReset_spec (hdraw.trans (rejoinReports_writes { u with freeDraws := u.freeDraws + 1 }).mono)
    refine ⟨h1, h2, h3, h4, h5, h6, h7, h8, h9, h10, h11, h12, ⟨true, ?_⟩, (h15.mono.trans (event_writes _ _).mono)⟩
    rw [event_report, h13, rejoinReports_report, if_pos rfl, handOver_append]
    show reportJoin _ (now (rejoinReset _)) _ = _
    rw [h14]
    show reportJoin _ _ (handOver (u.origin.list.map rejoinReport) (now u) u.report) = _
    rw [hlist, hframe, hreport]
    rfl
  · obtain ⟨h1, h2, h3, h4, h5, h6, h7, h8, h9, h10, h11, h12, h13, h14, h15⟩ :=
      rejoinReset_spec (hdraw.trans ((event_writes (.stateChange .listening none) { u with freeDraws := u.freeDraws + 1 }).mono.trans
        (rejoinReports_writes _).mono))
    refine ⟨h1, h2, h3, h4, h5, h6, h7, h8, h9, h10, h11, h12, ⟨false, ?_⟩, h15.mono⟩
    rw [h13, rejoinReports_report, if_neg Bool.false_ne_true]
    show handOver (u.origin.list.map rejoinReport) (now u) (reportJoin _ (now u) u.report) = _
    rw [hlist, hframe, hreport]
    rfl

theorem settleWork_hold (w : FrameWork) (s : State) : Writes [.startWork, .hold] s (settleWork w s) := (settleWork_writes w s).mono

theorem exec_rejoin (s : State) : exec .rejoin s = .next (whenReleased (takeTransition rejoinTurn doRejoin) s) := rfl

/-- Settles O19. -/
theorem rejoinReturnsToListening : Obligations.RejoinReturnsToListening := by
  intro s hnext hcause
  have hturn : rejoinTurn s = true := by
    rcases hcause with ⟨hstate, hmiss | hpending⟩ | ⟨hstate, hret, hhold⟩
    · simp [rejoinTurn, mustRejoin, hstate, hmiss]
    · simp [rejoinTurn, mustRejoin, hstate, hpending]
    · simp [rejoinTurn, holdTurn, hstate, hret, hhold]
  exact answers_takeTransition (exec_rejoin s) hnext hturn (rejoined_doRejoin (settleWork_hold _ s))

/-! ## RING_HOLD entered (R71) -/

/-- What the state is before the references are computed. -/
def holdBegun (s : State) : State := event .ringHold (clearResponder { s with member.state := .ringHold, member.hold := 0 })

theorem holdBegun_writes (s : State) : Writes (Field.ofReport ++ [.stationState, .hold, .responder, .progress]) s (holdBegun s) := by
  have hstate : Writes [.stationState, .hold] s { s with member.state := .ringHold, member.hold := 0 } := by
    intro f hf
    cases f with
    | stationState | hold => exact absurd hf (by decide)
    | _ => rfl
  exact hstate.mono.trans ((clearResponder_writes _).mono.trans (event_writes _ _).mono)

theorem holdBegun_sameCollection {s : State} (h : receiving s.member.state = true) : SameCollection (holdBegun s) s :=
  ⟨⟨rfl, rfl, by rw [bypass, bypass, h]; rfl, rfl⟩, rfl, rfl⟩

theorem thirdFailure_hold {s : State} (h : s.member.state = .ringHold) : Writes (.backoff :: Field.ofReport) s (thirdFailure s) := by
  have hbackoff : Writes [.backoff] s { s with member.backoff := 16 } := by
    intro f hf
    cases f with
    | backoff => exact absurd hf (by decide)
    | _ => rfl
  rw [thirdFailure_ringHold h]
  exact hbackoff.comp (event_writes _ _)

/-- RING_HOLD entered from a state that receives. -/
theorem enterRingHold_spec {s : State} (h : receiving s.member.state = true) :
    (enterRingHold s).member.state = .ringHold ∧ (enterRingHold s).member.hold = 0 ∧ (enterRingHold s).snap.queue = []
      ∧ (enterRingHold s).snap.progress = none ∧ RefsOk (enterRingHold s) ∧ LockFollows s (enterRingHold s)
      ∧ MismatchFollows (enterRingHold s).member.tableRef s (enterRingHold s)
      ∧ CollectorMoves (enterRingHold s).member.tableRef s (enterRingHold s)
      ∧ (∃ failed : Bool, (failed = true ↔ ThirdFailed (enterRingHold s).member.tableRef s)
          ∧ (enterRingHold s).report
            = handOver (.event .ringHold :: if failed then [.event .resyncFailed] else []) (now s) s.report
          ∧ (enterRingHold s).member.backoff = if failed then 16 else s.member.backoff)
      ∧ Writes (Field.ofRefs ++ Field.ofReport ++ [.stationState, .hold, .backoff, .responder, .progress]) s (enterRingHold s) := by
  have hbegun := holdBegun_writes s
  have hsame := holdBegun_sameCollection h
  have hw := recomputeOnce_writes (holdBegun s)
  have hserves : ¬ ServesByReference (holdBegun s) := not_serves_of_state (show StationState.ringHold ≠ .catchingUp by decide)
  have hstate : (recomputeOnce (holdBegun s)).state.member.state = .ringHold := hw.at .stationState
  have hrefs : (enterRingHold s).member.tableRef = computeTableRef (holdBegun s) := by
    show (recompute (holdBegun s)).member.tableRef = _
    by_cases hthird : ThirdFailed (computeTableRef (holdBegun s)) (holdBegun s)
    · rw [recompute_eq_failed hserves hthird, (thirdFailure_refs (by rw [hstate]; decide)).at .tableRef,
        recomputeOnce_tableRef]
    · rw [recompute_eq_once hserves hthird, recomputeOnce_tableRef]
  have hreport : (recomputeOnce (holdBegun s)).state.report = reportJoin (.event .ringHold) (now s) s.report := recomputeOnce_report _
  have hlock := lockFollows_recomputeOnce (holdBegun s)
  have hmismatch := mismatchFollows_recomputeOnce (holdBegun s)
  have hmoves := collectorMoves_recomputeOnce (holdBegun s)
  have hstay : SameLock (holdBegun s) s := ⟨rfl, rfl, rfl, rfl⟩
  rw [hrefs]
  show (recompute (holdBegun s)).member.state = _ ∧ _
  have hok : RefsOk (enterRingHold s) := refsOk_recompute _
  by_cases hthird : ThirdFailed (computeTableRef (holdBegun s)) (holdBegun s)
  · have hfail := thirdFailure_refs (s := (recomputeOnce (holdBegun s)).state) (by rw [hstate]; decide)
    have he : enterRingHold s = thirdFailure (recomputeOnce (holdBegun s)).state := recompute_eq_failed hserves hthird
    have hevent : thirdFailure (recomputeOnce (holdBegun s)).state
        = event .resyncFailed { (recomputeOnce (holdBegun s)).state with member.backoff := 16 } := thirdFailure_ringHold hstate
    rw [show recompute (holdBegun s) = enterRingHold s from rfl]
    rw [he] at hok ⊢
    refine ⟨(hfail.at .stationState).trans hstate, (hfail.at .hold).trans (hw.at .hold), (hfail.at .responder).trans (hw.at .responder),
      (hfail.at .progress).trans (hw.at .progress), hok, hlock.of_same hstay (.of_writes hfail),
      hmismatch.of_same rfl rfl (hfail.at .mismatch), hmoves.of_same hsame (hfail.at .collector) (hfail.at .transmit),
      ⟨true, ⟨fun _ => hthird.of_same rfl rfl, fun _ => rfl⟩, ?_, ?_⟩, hbegun.mono.trans (hw.mono.trans (thirdFailure_hold hstate).mono)⟩
    · rw [hevent]
      show reportJoin _ (now (recomputeOnce (holdBegun s)).state) (recomputeOnce (holdBegun s)).state.report = _
      rw [hreport, show now (recomputeOnce (holdBegun s)).state = now s from hw.at .frame]
      rfl
    · rw [hevent]
      rfl
  · have he : enterRingHold s = (recomputeOnce (holdBegun s)).state := recompute_eq_once hserves hthird
    rw [show recompute (holdBegun s) = enterRingHold s from rfl]
    rw [he] at hok ⊢
    refine ⟨hstate, hw.at .hold, hw.at .responder, hw.at .progress, hok, hlock.of_same hstay (.of_writes (.refl (fs := []) _)),
      hmismatch.of_same rfl rfl rfl, hmoves.of_same hsame rfl rfl,
      ⟨false, ⟨nofun, fun hf => absurd (hf.of_same rfl rfl) hthird⟩, hreport, hw.at .backoff⟩, hbegun.mono.trans hw.mono⟩

theorem exec_missStreakLimit (s : State) : exec .missStreakLimit s = .next (whenReleased (takeTransition missTurn missStep) s) := rfl

/-- Settles O17. -/
theorem thirdMissActs : Obligations.ThirdMissActs := by
  intro s hnext hmiss
  have hset := settleWork_writes .transition s
  refine ⟨fun hstate => ?_, fun hstate => ?_⟩
  · have hturn : missTurn s = true := by
      rcases hstate with hstate | hstate <;> simp [missTurn, hmiss, hstate]
    refine answers_takeTransition (exec_missStreakLimit s) hnext hturn ?_
    have hstep : missStep (settleWork .transition s) = enterRingHold (settleWork .transition s) := by
      refine if_neg fun hc => ?_
      rw [settleWork_member] at hc
      rcases hstate with hstate | hstate <;> exact absurd (hc.symm.trans hstate) (by decide)
    have hreceives : receiving (settleWork .transition s).member.state = true := by
      rw [settleWork_member]
      rcases hstate with hstate | hstate <;> rw [hstate] <;> rfl
    obtain ⟨h1, h2, h3, h4, hrefs, hlock, hmismatch, hmoves, ⟨failed, hfailed, hreport, hbackoff⟩, hw⟩ := enterRingHold_spec hreceives
    rw [hstep]
    refine ⟨h1, h2, h3, h4, hrefs.1, hrefs.2, hlock, hmismatch, hmoves, ⟨failed, hfailed, hreport, hbackoff⟩, fun hidle => ?_,
      hset.comp hw⟩
    have hnot : failed = false := by
      cases failed with
      | false => rfl
      | true =>
        obtain ⟨_, c, hc, _⟩ := hfailed.mp rfl
        exact absurd (hc.symm.trans hidle) nofun
    rw [hnot] at hreport
    exact ⟨hreport, (hmoves.1 (Or.inl hidle)).1.trans hidle⟩
  · have hturn : missTurn s = true := by simp [missTurn, hmiss, hstate]
    refine answers_takeTransition (exec_missStreakLimit s) hnext hturn ?_
    rw [missStep, if_pos (by rw [settleWork_member]; exact hstate)]
    exact rejoined_doRejoin (settleWork_hold _ s)

/-! ## RING_HOLD left, or counted on (R72, R73) -/

theorem exec_returnStreakLimit (s : State) :
    exec .returnStreakLimit s = .next (whenReleased (takeTransition returnTurn leaveRingHold) s) := rfl

theorem exec_holdCountLimit (s : State) : exec .holdCountLimit s = .next (whenReleased (takeTransition holdTurn holdStep) s) := rfl

/-- RING_HOLD left for this state, before the references are computed. -/
def holdLeft (st : StationState) (s : State) : State :=
  event .ringClosed { s with member.state := st, member.mismatch := 0 }

theorem leaveRingHold_eq (s : State) :
    leaveRingHold s = recompute (holdLeft (if resyncUnfinished s then .resync else .inService) s) := by
  unfold leaveRingHold
  split <;> rfl

theorem holdLeft_writes (st : StationState) (s : State) : Writes (Field.ofReport ++ [.stationState, .mismatch]) s (holdLeft st s) := by
  have hstate : Writes [.stationState, .mismatch] s { s with member.state := st, member.mismatch := 0 } := by
    intro f hf
    cases f with
    | stationState | mismatch => exact absurd hf (by decide)
    | _ => rfl
  exact hstate.comp (event_writes _ _)

/-- Going from RING_HOLD to RESYNC moves no reference. -/
theorem refsOk_holdLeft_resync {s : State} (h : RefsOk s) (hstate : s.member.state = .ringHold) : RefsOk (holdLeft .resync s) := by
  have hs : s.member.state ≠ .inService := by rw [hstate]; decide
  have ht : (holdLeft .resync s).member.state ≠ .inService := show StationState.resync ≠ .inService by decide
  exact ⟨h.1.trans (computeTableRef_of_states (s := s) (t := holdLeft .resync s) rfl hs ht).symm,
    h.2.trans (computeTimingRef_of_states (s := s) (t := holdLeft .resync s) rfl rfl hs ht (by rw [hstate]; rfl)).symm⟩

theorem leaveRingHold_spec {s : State} (h : RefsOk s) (hstate : s.member.state = .ringHold) :
    (leaveRingHold s).member.state = (if resyncUnfinished s then .resync else .inService) ∧ (leaveRingHold s).member.mismatch = 0
      ∧ LockFollows s (leaveRingHold s) ∧ Raised s (leaveRingHold s) .ringClosed
      ∧ Writes (Field.ofLock ++ Field.ofReport ++ [.tableRef, .timingRef, .mismatch, .stationState]) s (leaveRingHold s) := by
  rw [leaveRingHold_eq]
  by_cases hunfinished : resyncUnfinished s = true
  · rw [if_pos hunfinished, recompute_of_refsOk (refsOk_holdLeft_resync h hstate)]
    exact ⟨rfl, rfl, ⟨fun _ => ⟨rfl, rfl⟩, fun hne => absurd rfl hne⟩, rfl, (holdLeft_writes _ s).mono⟩
  · rw [if_neg hunfinished]
    have hidle : s.snap.collector = none := by
      refine Option.not_isSome_iff_eq_none.mp fun hsome => hunfinished ?_
      rw [resyncUnfinished, hsome]
      rfl
    have hserves : ¬ ServesByReference (holdLeft .inService s) := not_serves_of_state (show StationState.inService ≠ .catchingUp by decide)
    have hthird : ¬ ThirdFailed (computeTableRef (holdLeft .inService s)) (holdLeft .inService s) := fun ⟨_, c, hc, _⟩ =>
      absurd (hc.symm.trans hidle) nofun
    rw [recompute_eq_once hserves hthird]
    have hw := recomputeOnce_writes (holdLeft .inService s)
    obtain ⟨hcollector, htransmit⟩ := (collectorMoves_recomputeOnce (holdLeft .inService s)).1 (Or.inl hidle)
    have hall := (holdLeft_writes .inService s).mono.trans (hw.mono (gs := Field.ofRefs ++ Field.ofReport ++ [.stationState]))
    refine ⟨hw.at .stationState, (recomputeOnce_mismatch _).trans (ite_self 0), lockFollows_recomputeOnce (holdLeft .inService s),
      recomputeOnce_report _, fun f hf => ?_⟩
    have hsame := hall f
    cases f with
    | collector => exact hcollector
    | transmit => exact htransmit
    | _ => first | exact absurd hf (by decide) | exact hsame (by decide)

theorem LockOk.refs {s : State} (h : LockOk s) : RefsOk s := ⟨h.tableRef, h.timingRef⟩

theorem holdStep_of_count {s : State} (h : s.member.hold + 1 < 64) : holdStep s = { s with member.hold := s.member.hold + 1 } :=
  if_neg (Nat.not_le.mpr h)

theorem holdStep_of_limit {s : State} (h : 64 ≤ s.member.hold + 1) : holdStep s = doRejoin { s with member.hold := s.member.hold + 1 } :=
  if_pos h

/-- Settles O18. -/
theorem holdEndsOrCounts : Obligations.HoldEndsOrCounts := by
  intro s hnext hstate
  have hset := settleWork_writes .transition s
  refine ⟨fun hlock hret => ?_, fun hret => ?_⟩
  · have hturn : returnTurn s = true := by simp [returnTurn, hstate, hret]
    refine answers_takeTransition (exec_returnStreakLimit s) hnext hturn ?_
    obtain ⟨h1, h2, h3, h4, hw⟩ := leaveRingHold_spec (hlock.refs.of_writes hset) hstate
    have hrefs : RefsOk (leaveRingHold (settleWork .transition s)) := by
      rw [leaveRingHold_eq]
      exact refsOk_recompute _
    exact ⟨h1, h2, hrefs.1, hrefs.2, h3, h4, hset.comp hw⟩
  · have hturn : holdTurn s = true := by simp [holdTurn, hstate, hret]
    refine answers_takeTransition (exec_holdCountLimit s) hnext hturn ?_
    have hhold : Writes [.startWork, .hold] s
        { settleWork .transition s with member.hold := (settleWork .transition s).member.hold + 1 } := by
      intro f hf
      cases f with
      | startWork | hold => exact absurd hf (by decide)
      | _ => rfl
    refine ⟨fun hlt => ?_, fun hge => ?_⟩
    · rw [holdStep_of_count (s := settleWork .transition s) hlt]
      exact ⟨rfl, hhold.mono⟩
    · rw [holdStep_of_limit (s := settleWork .transition s) hge]
      exact rejoined_doRejoin hhold

/-! ## The backoff and the beacon (R65, R77, R79) -/

theorem exec_backoffExpiry (s : State) :
    exec .backoffExpiry s = .next (whenReleased (fun s => takeWork .backoff (beforeBackoff s)) s) := rfl

/-- The beacon takes the head of the transmit queue, in the place of one that waits there. -/
theorem queueBody_beacon {n : StationNo} {b : BeaconBody} {s : State} (hb : bypass s = false)
    (h : s.ring.transmit.any isBeacon = true ∨ s.ring.transmit.length < Config.transmitPlaces) :
    (queueBody n (.beacon b) s).ring.transmit = ownParcel s n (.beacon b) :: s.ring.transmit.filter (fun p => !isBeacon p) := by
  have hbeacon : isBeacon (ownParcel s n (.beacon b)) = true := rfl
  have hjoin : transmitJoin (ownParcel s n (.beacon b)) s.ring.transmit
      = some (ownParcel s n (.beacon b) :: s.ring.transmit.filter (fun p => !isBeacon p)) := by
    rw [transmitJoin, if_pos hbeacon]
    by_cases hany : s.ring.transmit.any isBeacon = true
    · rw [if_pos hany]
    · have hnone : s.ring.transmit.filter (fun p => !isBeacon p) = s.ring.transmit := by
        refine List.filter_eq_self.mpr fun p hp => ?_
        rw [Bool.not_eq_true']
        exact Bool.eq_false_iff.mpr fun hp' => hany (List.any_eq_true.mpr ⟨p, hp, hp'⟩)
      rw [if_neg hany, if_pos (h.resolve_left hany), hnone]
  rw [queueBody, queueParcel, hb, hjoin]
  rfl

theorem backoffStep_of_receiving {s : State} (h : receiving s.member.state = true) :
    backoffStep s = { s with member.backoff := s.member.backoff - 1 } := if_pos h

/-- The beacon of an on-ring state: outstanding from now on, and queued. -/
theorem queueBeacon_of_onRing {s : State} (h0 : s.inReset = false) (h : onRing s.member.state = true) :
    (queueBeacon s).member.outstanding = some (now s) ∧ (queueBeacon s).member.returned = false
      ∧ (s.ring.transmit.any isBeacon = true ∨ s.ring.transmit.length < Config.transmitPlaces →
          (queueBeacon s).ring.transmit = ownParcel s 0 (beaconBody s) :: s.ring.transmit.filter (fun p => !isBeacon p)) := by
  have hw := queueBody_writes 0 (beaconBody s) { s with member.outstanding := some (now s), member.returned := false }
  rw [queueBeacon, if_pos h]
  refine ⟨hw.at .outstanding, hw.at .returned, fun hplace => ?_⟩
  exact queueBody_beacon (s := { s with member.outstanding := some (now s), member.returned := false })
    (bypass_of_receiving h0 (receiving_of_onRing h)) hplace

/-- Settles O20. -/
theorem backoffFallsAndBeaconQueued : Obligations.BackoffFallsAndBeaconQueued := by
  intro s h0 hlock hdue htransition haging
  have hbefore : beforeBackoff s = s := by
    rw [beforeBackoff, beforeTransition, takeWork_of_not_mem haging, takeWork_of_not_mem htransition]
  have hset := settleWork_writes .backoff s
  have hback := backoffStep_writes (settleWork .backoff s)
  have hrefs : recompute (backoffStep (settleWork .backoff s)) = backoffStep (settleWork .backoff s) :=
    recompute_of_refsOk ((hlock.refs.of_writes hset).of_writes hback)
  have hstate : (backoffStep (settleWork .backoff s)).member.state = s.member.state := (hback.at .stationState).trans (hset.at .stationState)
  refine ⟨queueBeacon (backoffStep (settleWork .backoff s)), ?_, ?_⟩
  · rw [exec_backoffExpiry, whenReleased_of h0, hbefore, takeWork_of_mem hdue]
    exact congrArg (fun u => Host.Outcome.next (queueBeacon u)) hrefs
  · have hqueue := queueBeacon_writes (backoffStep (settleWork .backoff s))
    refine ⟨fun hr => (hqueue.at .backoff).trans (congrArg (fun u => u.member.backoff) (backoffStep_of_receiving (s := settleWork .backoff s) hr)), fun hring => ?_, fun hoff => ?_,
      (hset.comp hback (hs := [.backoff, .startWork])).comp hqueue⟩
    · rw [backoffStep_of_receiving (s := settleWork .backoff s) (receiving_of_onRing hring)]
      exact queueBeacon_of_onRing (s := { settleWork .backoff s with member.backoff := s.member.backoff - 1 }) h0 hring
    · rw [queueBeacon_off (by rw [hstate]; exact hoff)]
      exact hset.comp hback

/-! ## The resync-due mark (R76, R77) -/

theorem exec_resyncDueMarkTest (s : State) :
    exec .resyncDueMarkTest s = .next (whenReleased (takeTransition markTurn (markStep s.startWork.frame)) s) := rfl

/-- RESYNC entered from IN_SERVICE, before the references are computed. -/
def resyncBegun (cause : ResyncCause) (s : State) : State :=
  event (.resyncStart cause) (clearResponder { s with member.state := .resync, member.mismatch := 0 })

theorem resyncBegun_writes (cause : ResyncCause) (s : State) :
    Writes (Field.ofReport ++ [.stationState, .mismatch, .responder, .progress]) s (resyncBegun cause s) := by
  have hstate : Writes [.stationState, .mismatch] s { s with member.state := .resync, member.mismatch := 0 } := by
    intro f hf
    cases f with
    | stationState | mismatch => exact absurd hf (by decide)
    | _ => rfl
  exact hstate.mono.trans ((clearResponder_writes _).mono.trans (event_writes _ _).mono)

/-- A station that leaves IN_SERVICE while a peer is the table reference moves no reference. -/
theorem refsOk_resyncBegun {cause : ResyncCause} {s : State} {n : StationNo} (h : RefsOk s) (hstate : s.member.state = .inService)
    (href : s.member.tableRef = some n) (hn : n ≠ own s) : RefsOk (resyncBegun cause s) := by
  have hcompute : computeTableRef s = some n := h.1.symm.trans href
  have htable : computeTableRef (resyncBegun cause s) = some n := by
    rw [computeTableRef_of_other (s := resyncBegun cause s) (show StationState.resync ≠ .inService by decide)]
    rw [computeTableRef_of_inService hstate] at hcompute
    exact lowest_of_append_singleton hcompute hn
  exact ⟨href.trans htable.symm,
    h.2.trans ((computeTimingRef_of_tableRef hcompute).trans (computeTimingRef_of_tableRef htable).symm)⟩

/-- A collection begun asks the table reference (R128). -/
theorem beginCollection_spec {n : StationNo} {s : State} (href : s.member.tableRef = some n) :
    (beginCollection s).snap.collector = some { target := some n, attempt := 1, deadline := now s + 6, parts := [] }
      ∧ Queued s (beginCollection s) n .snapshotReq := by
  have hbegin : beginCollection s = queueBody n .snapshotReq { s with
      snap.collector := some { target := some n, attempt := 1, deadline := now s + 6, parts := [] } } := by
    rw [beginCollection, href]
    rfl
  rw [hbegin]
  exact ⟨(queueBody_writes _ _ _).at .collector, queued_queueBody { s with
    snap.collector := some { target := some n, attempt := 1, deadline := now s + 6, parts := [] } } rfl⟩

/-- RESYNC entered from IN_SERVICE with a peer as the table reference (R77). -/
theorem enterResync_spec {cause : ResyncCause} {s : State} {n : StationNo} (h : RefsOk s) (hstate : s.member.state = .inService)
    (href : s.member.tableRef = some n) (hn : n ≠ own s) :
    (enterResync cause s).member.state = .resync ∧ (enterResync cause s).member.mismatch = 0
      ∧ (enterResync cause s).snap.queue = [] ∧ (enterResync cause s).snap.progress = none
      ∧ (enterResync cause s).snap.collector = some { target := some n, attempt := 1, deadline := now s + 6, parts := [] }
      ∧ Queued s (enterResync cause s) n .snapshotReq ∧ Raised s (enterResync cause s) (.resyncStart cause)
      ∧ Writes (Field.ofReport ++ [.stationState, .mismatch, .responder, .progress, .collector, .transmit]) s (enterResync cause s) := by
  have henter : enterResync cause s = beginCollection (resyncBegun cause s) :=
    congrArg beginCollection (recompute_of_refsOk (refsOk_resyncBegun h hstate href hn))
  have hbegun := resyncBegun_writes cause s
  have hw := beginCollection_writes (resyncBegun cause s)
  obtain ⟨hcollector, hqueued⟩ := beginCollection_spec (s := resyncBegun cause s) href
  have hbypass : bypass s = bypass (resyncBegun cause s) := by
    rw [bypass, bypass, hstate]
    rfl
  rw [henter]
  exact ⟨hw.at .stationState, hw.at .mismatch, hw.at .responder, hw.at .progress, hcollector,
    hqueued.of_same ⟨rfl, rfl, hbypass, rfl⟩ rfl, hw.report_eq, hbegun.mono.trans hw.mono⟩

theorem markStep_of_none {F : Frame} {s : State} (h : ∀ M, s.member.mark = some M → later F M = false) : markStep F s = s := by
  unfold markStep
  cases hm : s.member.mark with
  | none => rfl
  | some M =>
    dsimp only
    rw [if_neg (by rw [h M hm]; exact Bool.false_ne_true)]

/-- Settles O21. -/
theorem markBringsResync : Obligations.MarkBringsResync := by
  intro s M hnext hlock hstate hmiss hmark
  have hset := settleWork_writes .transition s
  have hcleared : Writes [.mark, .startWork] s { settleWork .transition s with member.mark := none } := by
    intro f hf
    cases f with
    | mark | startWork => exact absurd hf (by decide)
    | _ => rfl
  have hstep : later s.startWork.frame M = true → markStep s.startWork.frame (settleWork .transition s)
      = if s.member.tableRef ≠ none ∧ s.member.tableRef ≠ some (own s) then
          enterResync .mark { settleWork .transition s with member.mark := none }
        else { settleWork .transition s with member.mark := none } := fun hlater => by
    rw [markStep, settleWork_member, hmark]
    exact if_pos hlater
  refine answers_takeTransition (exec_resyncDueMarkTest s) hnext (by simp [markTurn, hstate, hmiss]) ⟨fun hlater => ?_, fun hlater href => ?_,
    fun n hlater href hn => ?_⟩
  · rw [markStep_of_none fun M' hM' => by cases hmark.symm.trans hM'; exact hlater]
    exact hset
  · rw [hstep hlater, if_neg fun ⟨h1, h2⟩ => href.elim h1 h2]
    exact ⟨rfl, hcleared⟩
  · rw [hstep hlater, if_pos ⟨by rw [href]; exact Option.some_ne_none n, by rw [href]; exact fun he => hn (Option.some.inj he)⟩]
    obtain ⟨h1, h2, h3, h4, h5, h6, h7, hw⟩ := enterResync_spec (cause := .mark)
      (s := { settleWork .transition s with member.mark := none }) (hlock.refs.of_writes hcleared) hstate href hn
    exact ⟨hw.at .mark, h1, h2, h3, h4, h5, h6, h7, hcleared.comp hw⟩

/-! ## The collector's deadline (R138, R140) -/

theorem exec_snapshotDeadline (s : State) : exec .snapshotDeadline s = .next (whenReleased (takeWork .collectorDeadline) s) := rfl

theorem collectorDeadline_of_waiting {F : Frame} {c : Collector} {s : State} (hc : s.snap.collector = some c)
    (h : reached c.deadline F = false) : collectorDeadline F s = (s, false) := by
  simp [collectorDeadline, hc, h]

theorem collectorDeadline_of_reached {F : Frame} {c : Collector} {s : State} (hc : s.snap.collector = some c)
    (h : reached c.deadline F = true) : collectorDeadline F s = failAttempt c s.member.tableRef s := by
  simp [collectorDeadline, hc, h]

/-- The next attempt of a collection (R138). -/
theorem failAttempt_next {c : Collector} {ref : Option StationNo} {s : State} (h : c.attempt < 3) :
    (failAttempt c ref s).2 = false
      ∧ (failAttempt c ref s).1.snap.collector = some { target := ref, attempt := c.attempt + 1, deadline := now s + 6, parts := [] }
      ∧ (∀ n, ref = some n → Queued s (failAttempt c ref s).1 n .snapshotReq)
      ∧ (ref = none → (failAttempt c ref s).1.ring.transmit = s.ring.transmit)
      ∧ Writes [.collector, .transmit] s (failAttempt c ref s).1 := by
  have hnext : failAttempt c ref s = (requestSnapshot ref { s with
      snap.collector := some { target := ref, attempt := c.attempt + 1, deadline := now s + 6, parts := [] } }, false) := if_pos h
  rw [hnext]
  refine ⟨rfl, (requestSnapshot_writes _ _).at .collector, ?_, ?_, (collector_writes s _).comp (requestSnapshot_writes _ _)⟩
  · rintro n rfl
    exact queued_queueBody { s with
      snap.collector := some { target := some n, attempt := c.attempt + 1, deadline := now s + 6, parts := [] } } rfl
  · rintro rfl
    rfl

theorem failAttempt_last {c : Collector} {ref : Option StationNo} {s : State} (h : 3 ≤ c.attempt) :
    failAttempt c ref s = ({ s with snap.collector := none }, true) := if_neg (Nat.not_lt.mpr h)

/-- The entry to IN_SERVICE with the collector idle queues nothing. -/
theorem enterInService_writes_idle {s : State} (h : s.snap.collector = none) :
    Writes (Field.ofLock ++ [.tableRef, .timingRef, .mismatch, .stationState]) s (enterInService s) := by
  obtain ⟨hcollector, htransmit⟩ := enterInService_idle h
  have hw := enterInService_writes s
  intro f hf
  have hsame := hw f
  cases f with
  | collector => exact hcollector.trans h.symm
  | transmit => exact htransmit
  | _ => first | exact absurd hf (by decide) | exact hsame (by decide)

/-- What the third failure brings once the collector is idle, by the station state (R140). -/
theorem thirdFailure_answers {s u : State} (w : Writes [.collector, .startWork] s u) (hidle : u.snap.collector = none) :
    (s.member.state = .catchingUp →
        (thirdFailure u).member.rejoinPending = true ∧ Writes [.collector, .rejoinPending, .startWork] s (thirdFailure u))
      ∧ (s.member.state = .resync → (thirdFailure u).member.state = .inService ∧ (thirdFailure u).member.backoff = 16
          ∧ (thirdFailure u).member.mismatch = 0 ∧ (thirdFailure u).member.tableRef = computeTableRef (thirdFailure u)
          ∧ (thirdFailure u).member.timingRef = computeTimingRef (thirdFailure u) ∧ LockFollows s (thirdFailure u)
          ∧ Raised s (thirdFailure u) .resyncFailed
          ∧ Writes (Field.ofLock ++ Field.ofReport ++ [.tableRef, .timingRef, .mismatch, .collector, .stationState, .backoff, .startWork])
              s (thirdFailure u))
      ∧ (s.member.state ≠ .catchingUp → s.member.state ≠ .resync → s.member.state ≠ .ringHold →
          Writes [.collector, .startWork] s (thirdFailure u))
      ∧ (s.member.state = .ringHold → (thirdFailure u).member.backoff = 16 ∧ Raised s (thirdFailure u) .resyncFailed
          ∧ Writes (Field.ofReport ++ [.collector, .backoff, .startWork]) s (thirdFailure u)) := by
  have hstate : u.member.state = s.member.state := w.at .stationState
  have hframe : now u = now s := w.at .frame
  have hreport : u.report = s.report := w.report_eq
  have hbackoff : Writes [.backoff] u { u with member.backoff := 16 } := by
    intro f hf
    cases f with
    | backoff => exact absurd hf (by decide)
    | _ => rfl
  refine ⟨fun hs => ?_, fun hs => ?_, fun h1 h2 h3 => ?_, fun hs => ?_⟩
  · have hpending : Writes [.rejoinPending] u { u with member.rejoinPending := true } := by
      intro f hf
      cases f with
      | rejoinPending => exact absurd hf (by decide)
      | _ => rfl
    rw [thirdFailure_catchingUp (hstate.trans hs)]
    exact ⟨rfl, w.comp hpending⟩
  · have henter := enterInService_writes_idle (s := { u with member.backoff := 16 }) hidle
    have hevent := event_writes .resyncFailed (enterInService { u with member.backoff := 16 })
    have hrefs : RefsOk (event .resyncFailed (enterInService { u with member.backoff := 16 })) :=
      (refsOk_enterInService _).of_writes hevent
    rw [thirdFailure_resync (hstate.trans hs)]
    refine ⟨enterInService_state _, henter.at .backoff, enterInService_mismatch _, hrefs.1, hrefs.2, ?_, ?_,
      w.mono.trans (hbackoff.mono.trans (henter.mono.trans hevent.mono))⟩
    · exact (lockFollows_enterInService { u with member.backoff := 16 }).of_same (.of_writes (hbackoff.symm.mono.trans w.symm.mono :
        Writes [.backoff, .collector, .startWork] _ _)) (.of_writes hevent)
    · have hframe' : (enterInService { u with member.backoff := 16 }).raster.frame = now s := (henter.at .frame).trans hframe
      rw [Raised, Reported, event_report, enterInService_report, hframe']
      exact congrArg (reportJoin _ _) hreport
  · rw [thirdFailure_other (hstate ▸ h1) (hstate ▸ h2) (hstate ▸ h3)]
    exact w
  · rw [thirdFailure_ringHold (hstate.trans hs)]
    refine ⟨rfl, ?_, w.mono.trans (hbackoff.mono.trans (event_writes _ _).mono)⟩
    show reportJoin _ (now u) u.report = _
    rw [hframe, hreport]

/-- Settles O25. -/
theorem snapshotDeadlineActs : Obligations.SnapshotDeadlineActs := by
  intro s c h0 hdue hc
  have hset := settleWork_writes .collectorDeadline s
  refine answers_takeWork (exec_snapshotDeadline s) h0 hdue ?_
  show (_ → Writes _ s (collectorStep s.startWork.frame (settleWork .collectorDeadline s))) ∧ _
  refine ⟨fun hwaits => ?_, fun hreached hattempt => ?_, fun hreached hattempt => ?_⟩
  · have hnot : reached c.deadline s.startWork.frame = false :=
      Bool.eq_false_iff.mpr fun hr => hwaits ((reached_iff _ _).mp hr)
    rw [collectorStep, collectorDeadline_of_waiting (s := settleWork .collectorDeadline s) hc hnot]
    exact hset
  · have hfail := collectorDeadline_of_reached (s := settleWork .collectorDeadline s) hc ((reached_iff _ _).mpr hreached)
    obtain ⟨hflag, h1, h2, h3, hw⟩ := failAttempt_next (c := c) (ref := s.member.tableRef) (s := settleWork .collectorDeadline s) hattempt
    have hstep : collectorStep s.startWork.frame (settleWork .collectorDeadline s)
        = (failAttempt c s.member.tableRef (settleWork .collectorDeadline s)).1 := by
      rw [collectorStep, hfail]
      exact if_neg (by rw [settleWork_member, hflag]; exact Bool.false_ne_true)
    show (collectorStep _ _).snap.collector = _ ∧ (∀ n, _ → Queued s (collectorStep _ _) n _) ∧ (_ → (collectorStep _ _).ring.transmit = _)
      ∧ Writes _ s (collectorStep _ _)
    rw [hstep]
    exact ⟨h1, h2, h3, hset.comp hw⟩
  · have hfail := collectorDeadline_of_reached (s := settleWork .collectorDeadline s) hc ((reached_iff _ _).mpr hreached)
    have hstep : collectorStep s.startWork.frame (settleWork .collectorDeadline s)
        = thirdFailure { settleWork .collectorDeadline s with snap.collector := none } := by
      rw [collectorStep, hfail, failAttempt_last hattempt]
      rfl
    have hthird := thirdFailure_answers (s := s) (u := { settleWork .collectorDeadline s with snap.collector := none })
      (hset.comp (collector_writes _ _)) rfl
    have hidle : (collectorStep s.startWork.frame (settleWork .collectorDeadline s)).snap.collector = none := by
      rw [hstep]
      unfold thirdFailure
      split
      case h_2 => exact (enterInService_idle (s := { settleWork .collectorDeadline s with snap.collector := none, member.backoff := 16 }) rfl).1
      all_goals rfl
    rw [← hstep] at hthird
    exact ⟨hidle, hthird⟩

end Sys2Proof.Machine
end

