-- ==== Sys2Proof/Proofs/StationTable.lean ====
section
/-! SUPPORT. Proofs/StationTable.lean: the station table aged, and LISTENING left for JOINING (R58, R59, R69, R135). -/

namespace Sys2Proof.Machine

set_option Elab.async false

/-! ## Requesters leave the responder queue (R135) -/

theorem headProgress_filter {n : StationNo} {q : List StationNo} (h : q.head? ≠ some n) :
    headProgress (q.filter (fun x => !(x == n))) = headProgress q := by
  cases q with
  | nil => rfl
  | cons m rest =>
    have hne : (m == n) = false := beq_eq_false_iff_ne.mpr fun e => h (congrArg some e)
    rw [List.filter_cons_of_pos (by rw [hne]; rfl)]
    rfl

/-- The progress after requesters of a queue with head m have left: kept while m stays the head, and begun anew for a new head. -/
def ProgressFrom (m : StationNo) (p : Option Nat) (s : State) : Prop :=
  s.snap.progress = (if m ∈ s.snap.queue then p else headProgress s.snap.queue) ∧ (m ∈ s.snap.queue → s.snap.queue.head? = some m)

theorem ProgressFrom.dropRequester {m : StationNo} {p : Option Nat} {s : State} (h : ProgressFrom m p s) (n : StationNo) :
    ProgressFrom m p (dropRequester n s) := by
  obtain ⟨hprogress, hhead⟩ := h
  have hmem : ∀ x, x ∈ s.snap.queue.filter (fun x => !(x == n)) ↔ x ∈ s.snap.queue ∧ x ≠ n := by simp
  unfold Machine.dropRequester
  by_cases hn : s.snap.queue.head? = some n
  · have hgone : m ∉ s.snap.queue.filter (fun x => !(x == n)) := fun hm => by
      obtain ⟨hold, hne⟩ := (hmem m).mp hm
      exact hne (Option.some.inj ((hhead hold).symm.trans hn))
    refine ⟨(if_pos hn).trans (if_neg hgone).symm, fun hm => absurd hm hgone⟩
  · refine ⟨(if_neg hn).trans (hprogress.trans ?_), fun hm => ?_⟩
    · by_cases hm : m ∈ s.snap.queue
      · have hne : m ≠ n := fun e => hn (e ▸ hhead hm)
        rw [if_pos hm]
        exact (if_pos ((hmem m).mpr ⟨hm, hne⟩)).symm
      · rw [if_neg hm, ← headProgress_filter hn]
        exact (if_neg fun h => hm ((hmem m).mp h).1).symm
    · obtain ⟨hold, hne⟩ := (hmem m).mp hm
      have hhead' := hhead hold
      show (s.snap.queue.filter (fun x => !(x == n))).head? = some m
      cases hq : s.snap.queue with
      | nil => exact absurd (hq ▸ hold) List.not_mem_nil
      | cons k rest =>
        rw [hq] at hhead'
        cases hhead'
        have hkeep : (!(m == n)) = true := by rw [beq_eq_false_iff_ne.mpr hne]; rfl
        exact congrArg List.head? (List.filter_cons_of_pos (p := fun x => !(x == n)) hkeep)

/-- The requesters of a list leave the queue; the progress is kept while the head stays, and starts anew for a new one. -/
theorem foldl_dropRequester (ns : List StationNo) (s : State) :
    (ns.foldl (fun s n => dropRequester n s) s).snap.queue = s.snap.queue.filter (fun x => !ns.contains x)
      ∧ ∀ m, s.snap.queue.head? = some m → (ns.foldl (fun s n => dropRequester n s) s).snap.progress
          = if m ∈ (ns.foldl (fun s n => dropRequester n s) s).snap.queue then s.snap.progress
            else headProgress (ns.foldl (fun s n => dropRequester n s) s).snap.queue := by
  constructor
  · induction ns generalizing s with
    | nil => exact (List.filter_eq_self.mpr fun _ _ => rfl).symm
    | cons n ns ih =>
      rw [List.foldl_cons, ih (dropRequester n s)]
      show (s.snap.queue.filter (fun x => !(x == n))).filter _ = _
      rw [List.filter_filter]
      refine List.filter_congr fun x _ => ?_
      rw [List.contains_cons, Bool.not_or, Bool.and_comm]
  · intro m hm
    have hstart : ProgressFrom m s.snap.progress s := ⟨(if_pos (List.mem_of_mem_head? hm)).symm, fun _ => hm⟩
    exact (foldl_keeps (P := ProgressFrom m s.snap.progress) ns s (fun _ n _ hb => hb.dropRequester n) hstart).1

/-! ## Ageing (R69) -/

theorem exec_stationEntryAgeOut (s : State) : exec .stationEntryAgeOut s = .next (whenReleased (takeWork .stationAgeing) s) := rfl

theorem Rising.unique {l : List (StationNo × StationEntry)} (h : Rising l) {n : StationNo} {e f : StationEntry} (he : (n, e) ∈ l)
    (hf : (n, f) ∈ l) : f = e := by
  have hnodup : (l.map (fun e => e.1.toNat)).Nodup := h.imp fun hlt => Nat.ne_of_lt hlt
  exact congrArg Prod.snd (List.inj_on_of_nodup_map hnodup hf he rfl)

theorem mem_ageTable_of {l : List (StationNo × StationEntry)} {n : StationNo} {e f : StationEntry} (he : (n, e) ∈ l)
    (hf : ageEntry e = some f) : (n, f) ∈ ageTable l :=
  List.mem_filterMap.mpr ⟨(n, e), he, by rw [hf]; rfl⟩

theorem ageEntry_heard {e : StationEntry} (h : e.heard = true) : ageEntry e = some { e with heard := false } := if_pos h

theorem ageEntry_missed_again {e : StationEntry} (h : e.heard = false) (hm : e.missed + 1 < 4) :
    ageEntry e = some { e with missed := e.missed + 1 } := by
  rw [ageEntry, if_neg (by rw [h]; exact Bool.false_ne_true), if_pos hm]

theorem ageEntry_gone {e : StationEntry} (h : e.heard = false) (hm : 4 ≤ e.missed + 1) : ageEntry e = none := by
  rw [ageEntry, if_neg (by rw [h]; exact Bool.false_ne_true), if_neg (Nat.not_lt.mpr hm)]

theorem ageEntry_eq_none_iff (e : StationEntry) : ageEntry e = none ↔ e.heard = false ∧ 4 ≤ e.missed + 1 := by
  refine ⟨fun h => ?_, fun ⟨h, hm⟩ => ageEntry_gone h hm⟩
  cases hh : e.heard with
  | true => exact absurd ((ageEntry_heard hh).symm.trans h) nofun
  | false =>
    refine ⟨rfl, Nat.le_of_not_lt fun hm => ?_⟩
    exact absurd ((ageEntry_missed_again hh hm).symm.trans h) nofun

theorem contains_agedOut (l : List (StationNo × StationEntry)) (n : StationNo) :
    (agedOut l).contains n = l.any (fun x => x.1 == n && !x.2.heard && decide (4 ≤ x.2.missed + 1)) := by
  have hentry : ∀ e : StationEntry, (ageEntry e).isNone = (!e.heard && decide (4 ≤ e.missed + 1)) := by
    intro e
    rw [Bool.eq_iff_iff, Option.isNone_iff_eq_none, ageEntry_eq_none_iff, Bool.and_eq_true, Bool.not_eq_true', decide_eq_true_iff]
  rw [Bool.eq_iff_iff, List.contains_iff_mem, List.any_eq_true, agedOut, List.mem_map]
  refine exists_congr fun x => ?_
  rw [List.mem_filter, hentry]
  simp only [Bool.and_eq_true, beq_iff_eq]
  tauto

/-- Settles O14. -/
theorem stationTableAges : Obligations.StationTableAges := by
  rintro s ⟨h0, hreceives, _⟩ hmember hdue
  refine answers_takeWork (exec_stationEntryAgeOut s) h0 hdue ?_
  have hset := settleWork_writes .stationAgeing s
  obtain ⟨hqueue, hprogress⟩ := foldl_dropRequester (agedOut s.member.stations)
    { settleWork .stationAgeing s with member.stations := ageTable s.member.stations }
  have hstations : Writes Field.ofPeers s { settleWork .stationAgeing s with member.stations := ageTable s.member.stations } :=
    hset.mono.trans (stations_writes _ _).mono
  have hdrop : Writes [.responder, .progress] { settleWork .stationAgeing s with member.stations := ageTable s.member.stations }
      ((agedOut s.member.stations).foldl (fun s n => dropRequester n s)
        { settleWork .stationAgeing s with member.stations := ageTable s.member.stations }) :=
    Writes.foldl (fun s n => dropRequester_writes n s) _ _
  have hage : doWork s.startWork.frame .stationAgeing (settleWork .stationAgeing s)
      = recompute ((agedOut s.member.stations).foldl (fun s n => dropRequester n s)
          { settleWork .stationAgeing s with member.stations := ageTable s.member.stations }) := if_pos hreceives
  rw [hage]
  generalize hu : (agedOut s.member.stations).foldl (fun s n => dropRequester n s)
    { settleWork .stationAgeing s with member.stations := ageTable s.member.stations } = u at hqueue hprogress hdrop
  have hw : Writes Field.ofPeers s u := hstations.trans hdrop.mono
  have hrec := recompute_writes u
  have htable : (recompute u).member.stations = ageTable s.member.stations := (hrec.at .stations).trans (hdrop.at .stations)
  have hkept : (recompute u).snap.queue = s.snap.queue.filter (fun n =>
      !s.member.stations.any (fun x => x.1 == n && !x.2.heard && decide (4 ≤ x.2.missed + 1))) := by
    refine (hrec.at .responder).trans (hqueue.trans (List.filter_congr fun n _ => ?_))
    rw [contains_agedOut]
  have hrefs := refsOk_recompute u
  rw [htable]
  refine ⟨fun n e he => ⟨fun hh => mem_ageTable_of he (ageEntry_heard hh), fun hh hm => mem_ageTable_of he (ageEntry_missed_again hh hm),
    fun hh hm => ⟨fun f hf => ?_, fun hin => ?_⟩⟩, fun n f hf => ?_, hkept, fun n hn => ?_, hrefs.1, hrefs.2,
    fun hlock => referencesFollow_recompute hw hlock fun e he => (hmember.peers e he).2.1, hw.mono.trans hrec.mono⟩
  · obtain ⟨⟨n', e'⟩, he', hkey, haged⟩ := mem_ageTable hf
    cases hkey
    rw [Rising.unique hmember.rising he he'] at haged
    exact absurd ((ageEntry_gone hh hm).symm.trans haged) nofun
  · rw [hkept, List.mem_filter, Bool.not_eq_true'] at hin
    refine absurd hin.2 (Bool.not_eq_false _ ▸ List.any_eq_true.mpr ⟨(n, e), he, ?_⟩)
    simp [hh, hm]
  · obtain ⟨⟨n', e⟩, he, hkey, _⟩ := mem_ageTable hf
    cases hkey
    exact ⟨e, he⟩
  · rw [(hrec.at .progress : _ = _), (hrec.at .responder : _ = _)]
    exact hprogress n hn

/-! ## LISTENING left for JOINING (R58, R59) -/

theorem exec_listenCountExpiry (s : State) :
    exec .listenCountExpiry s = .next (whenReleased (takeTransition listenTurn listenStep) s) := rfl

/-- In a state that nothing follows in, only the references and what they are passed on to change. -/
theorem recompute_eq_once_of_state {s : State} (h1 : s.member.state ≠ .catchingUp) (h2 : s.member.state ≠ .resync)
    (h3 : s.member.state ≠ .ringHold) : recompute s = (recomputeOnce s).state := by
  have hstate : (recomputeOnce s).state.member.state = s.member.state := (recomputeOnce_writes s).at .stationState
  rw [recompute_of_not_serves (not_serves_of_state h1), thirdFailure_other (hstate ▸ h1) (hstate ▸ h2) (hstate ▸ h3), ite_self]

/-- Where the table reference stays, nothing but the timing reference and the Lock Unit changes. -/
theorem recomputeOnce_writes_lock {s : State} (h : computeTableRef s = s.member.tableRef) :
    Writes (Field.ofLock ++ [.timingRef]) s (recomputeOnce s).state := by
  have hw := recomputeOnce_writes s
  obtain ⟨hcollector, htransmit⟩ := (collectorMoves_recomputeOnce s).1 (Or.inr h)
  intro f hf
  have hsame := hw f
  cases f with
  | tableRef => exact (recomputeOnce_tableRef s).trans h
  | mismatch => exact (recomputeOnce_mismatch s).trans (if_pos h)
  | collector => exact hcollector
  | transmit => exact htransmit
  | _ => first | exact absurd hf (by decide) | exact hsame (by decide)

/-- The transmit queue keeps its parcels through a recomputation: what the collector asks joins the tail. -/
theorem mem_transmit_queueBody {p : Parcel} {n : StationNo} {b : Body} {s : State} (hb : isBeacon (ownParcel s n b) = false)
    (h : p ∈ s.ring.transmit) : p ∈ (queueBody n b s).ring.transmit := by
  unfold queueBody queueParcel
  split
  · exact h
  · split
    case h_1 q hq =>
      rw [transmitJoin, if_neg (by rw [hb]; exact Bool.false_ne_true)] at hq
      split at hq
      · cases hq
        exact List.mem_append_left _ h
      · exact absurd hq nofun
    case h_2 => exact h

theorem mem_transmit_collectorRefChange {p : Parcel} {ref : Option StationNo} {s : State} (h : p ∈ s.ring.transmit) :
    p ∈ (collectorRefChange ref s).1.ring.transmit := by
  have hrequest : ∀ r u, p ∈ u.ring.transmit → p ∈ (requestSnapshot r u).ring.transmit := by
    intro r u hu
    cases r with
    | none => exact hu
    | some n => exact mem_transmit_queueBody rfl hu
  have hfail : ∀ c r, p ∈ (failAttempt c r s).1.ring.transmit := by
    intro c r
    unfold failAttempt
    split
    · exact hrequest r _ h
    · exact h
  unfold collectorRefChange
  split
  · exact h
  · split
    · split
      · exact h
      · exact hfail _ _
    · exact hfail _ _
    · exact hrequest _ _ h
    · exact h

theorem mem_transmit_recomputeOnce {p : Parcel} {s : State} (h : p ∈ s.ring.transmit) : p ∈ (recomputeOnce s).state.ring.transmit := by
  have hset : p ∈ (refsSet s).ring.transmit := by
    rw [(refsSet_writes s).at .transmit]
    exact h
  rw [recomputeOnce_eq]
  split
  · exact hset
  · exact mem_transmit_collectorRefChange hset

theorem queueBody_member (n : StationNo) (b : Body) (s : State) : (queueBody n b s).member = s.member := by
  unfold queueBody queueParcel
  split
  · rfl
  · split <;> rfl

/-- The state in JOINING with its JOIN queued, before the references are computed. -/
def joiningBegun (n : Nat) (s : State) : State :=
  queueBody 0 (joinBody s 1) (event (.stateChange .joining none) { s with member := joiner n (now s + 2) s.member })

theorem joinerMember_writes (n : Nat) (s : State) :
    Writes [.stationState, .listen, .miss, .ret, .outstanding, .returned, .attempt, .joinDeadline] s
      { s with member := joiner n (now s + 2) s.member } := by
  intro f hf
  cases f with
  | stationState | listen | miss | ret | outstanding | returned | attempt | joinDeadline => exact absurd hf (by decide)
  | _ => rfl

/-- What the entry to JOINING can write besides the references. -/
abbrev Field.ofJoiner : List Field :=
  Field.ofReport ++ [.stationState, .listen, .miss, .ret, .outstanding, .returned, .attempt, .joinDeadline]

/-- The fields that the entry to JOINING sets (R59). -/
theorem joiningBegun_spec {n : Nat} {s : State} (hb : bypass s = false) :
    (joiningBegun n s).member = joiner n (now s + 2) s.member
      ∧ Queued s (joiningBegun n s) 0 (joinBody s 1) ∧ Raised s (joiningBegun n s) (.stateChange .joining none)
      ∧ Writes (Field.ofJoiner ++ [.transmit]) s (joiningBegun n s) := by
  have hq := queueBody_writes 0 (joinBody s 1) (event (.stateChange .joining none) { s with member := joiner n (now s + 2) s.member })
  have hreset : s.inReset = false := by
    rw [bypass, Bool.or_eq_false_iff] at hb
    exact hb.1
  have hbypass : bypass s = bypass (event (.stateChange .joining none) { s with member := joiner n (now s + 2) s.member }) := by
    show _ = (s.inReset || !receiving .joining)
    rw [hb, hreset]
    rfl
  refine ⟨queueBody_member _ _ _, (queued_queueBody (event (.stateChange .joining none) { s with member := joiner n (now s + 2) s.member }) rfl).of_same (s' := s)
      ⟨rfl, rfl, hbypass, rfl⟩ rfl, hq.report_eq,
    (joinerMember_writes n s).mono.trans ((event_writes _ _).mono.trans hq.mono)⟩

theorem listenStep_of_count {s : State} (h : s.member.listen + 1 < 4) : listenStep s = { s with member.listen := s.member.listen + 1 } :=
  if_neg (Nat.not_le.mpr h)

theorem listenStep_of_limit {s : State} (h : 4 ≤ s.member.listen + 1) :
    listenStep s = (recomputeOnce (joiningBegun (s.member.listen + 1) s)).state := by
  have hstate : (joiningBegun (s.member.listen + 1) s).member.state = .joining := congrArg Member.state (queueBody_member _ _ _)
  rw [← recompute_eq_once_of_state (by rw [hstate]; decide) (by rw [hstate]; decide) (by rw [hstate]; decide)]
  exact (if_pos h).trans (enterJoining_eq (s.member.listen + 1) s)

/-- Settles O15. -/
theorem listenCountRises : Obligations.ListenCountRises := by
  intro s hnext hstate
  have h0 : s.inReset = false := hnext.1
  have hset := settleWork_writes .transition s
  have hb : bypass (settleWork .transition s) = false := bypass_of_receiving h0 (by rw [settleWork_member, hstate]; rfl)
  have hcount : Writes [.listen, .startWork] s { settleWork .transition s with member.listen := s.member.listen + 1 } := by
    intro f hf
    cases f with
    | listen | startWork => exact absurd hf (by decide)
    | _ => rfl
  refine answers_takeTransition (exec_listenCountExpiry s) hnext (by simp [listenTurn, hstate]) ?_
  by_cases hlt : s.member.listen + 1 < 4
  · rw [listenStep_of_count (s := settleWork .transition s) hlt]
    exact ⟨rfl, fun _ => hcount, fun hge => absurd hlt (Nat.not_lt.mpr hge)⟩
  · rw [listenStep_of_limit (s := settleWork .transition s) (Nat.le_of_not_lt hlt), settleWork_member]
    obtain ⟨hmember, hqueued, hraised, hw⟩ := joiningBegun_spec (n := s.member.listen + 1) hb
    generalize hu : joiningBegun (s.member.listen + 1) (settleWork .transition s) = u at hmember hqueued hraised hw
    have honce := recomputeOnce_writes u
    have hrefs := refsOk_recomputeOnce u
    have hstate' : u.member.state = .joining := congrArg Member.state hmember
    have hqueued' : Queued s u 0 (.join ⟨s.straps.profile, s.straps.lead, 1, false⟩) := hqueued
    refine ⟨(honce.at .listen).trans (congrArg Member.listen hmember), fun h => absurd h hlt, fun _ => ⟨(honce.at .stationState).trans hstate',
      (honce.at .miss).trans (congrArg Member.miss hmember), (honce.at .ret).trans (congrArg Member.ret hmember),
      (honce.at .outstanding).trans (congrArg Member.outstanding hmember), (honce.at .attempt).trans (congrArg Member.attempt hmember),
      (honce.at .joinDeadline).trans (congrArg Member.joinDeadline hmember), fun hplace => ?_, hrefs.1, hrefs.2,
      (recomputeOnce_report u).trans hraised, fun hlock => ?_, ?_⟩⟩
    · refine mem_transmit_recomputeOnce ?_
      rw [hqueued' hb hplace]
      exact List.mem_append_right _ List.mem_cons_self
    · have hother : s.member.state ≠ .inService := by rw [hstate]; decide
      have htable : computeTableRef u = u.member.tableRef := by
        rw [computeTableRef_of_states (s := s) (t := u) (congrArg Member.stations hmember :) hother (by rw [hstate']; decide), ← hlock.tableRef]
        exact (congrArg Member.tableRef hmember).symm
      have hkeep := recomputeOnce_writes_lock htable
      refine ⟨(lockFollows_recomputeOnce u).of_same (.of_writes (hset.comp hw (hs := .startWork :: Field.ofJoiner ++ [.transmit])).symm)
        (.of_writes (.refl (fs := []) _)), hqueued'.of_same ⟨rfl, rfl, rfl, rfl⟩ (hkeep.at .transmit),
        (hset.comp hw (hs := .startWork :: Field.ofJoiner ++ [.transmit])).mono.trans hkeep.mono⟩
    · exact (hset.comp hw (hs := .startWork :: Field.ofJoiner ++ [.transmit])).mono.trans honce.mono

end Sys2Proof.Machine
end

