-- ==== Sys2Proof/Proofs/ApplyCommands.lean ====
section
/-! SUPPORT. Proofs/ApplyCommands.lean: the apply operation: the order of the apply set, the late records, the install and its end (R8, R10
to R13, R64, R72, R76, R142). -/

namespace Sys2Proof.Machine

set_option Elab.async false

/-! ## The order of the apply set (R6, R12) -/

/-- The records of a hand-over: their keys differ, and none is ahead of the operation's frame. -/
structure TakenTogether (F : Frame) (ds : List DueRecord) : Prop where
  keys : ds.Pairwise (fun a b => (a.origin, a.seq) ≠ (b.origin, b.seq))
  reached : ∀ d ∈ ds, atOrBefore d.effective F = true

theorem takenBefore_of_dueBefore {a b : DueRecord} (h : dueBefore a b = true) : TakenBefore a b := by
  by_cases he : a.effective = b.effective
  · rcases (dueBefore_of_effective_eq he).mp h with ho | ⟨ho, hq⟩
    · exact Or.inr (Or.inl ⟨he, ho⟩)
    · exact takenBefore_of_seqBefore he ho hq
  · rw [dueBefore, if_neg he, atOrBefore, decide_eq_true_iff] at h
    exact Or.inl ⟨he, h⟩

/-- Of two records of a hand-over that the test does not take in this order, the other order is that of R12. -/
theorem takenBefore_of_not_dueBefore {F : Frame} {a b : DueRecord} (ha : atOrBefore a.effective F = true)
    (hb : atOrBefore b.effective F = true) (hne : (a.origin, a.seq) ≠ (b.origin, b.seq)) (h : dueBefore a b = false) : TakenBefore b a := by
  by_cases he : a.effective = b.effective
  · have hnot := mt (dueBefore_of_effective_eq he).mpr (by rw [h]; exact Bool.false_ne_true)
    by_cases ho : a.origin = b.origin
    · have hseq : a.seq ≠ b.seq := fun hs => hne (by rw [ho, hs])
      have hq : seqBefore a.seq b.seq = false := Bool.eq_false_iff.mpr fun hq => hnot (Or.inr ⟨ho, hq⟩)
      exact takenBefore_of_seqBefore he.symm ho.symm (seqBefore_of_not hseq hq)
    · refine Or.inr (Or.inl ⟨he.symm, Nat.lt_of_le_of_ne (Nat.le_of_not_lt fun hlt => hnot (Or.inl hlt)) fun e => ho ?_⟩)
      exact (BitVec.eq_of_toNat_eq e).symm
  · rw [dueBefore, if_neg he, atOrBefore, decide_eq_false_iff_not] at h
    rw [atOrBefore, decide_eq_true_iff] at ha hb
    refine Or.inl ⟨Ne.symm he, ?_⟩
    bv_omega

/-- The records sorted are in the order of R12 (log entry 14). -/
theorem inOrder_sortBy {F : Frame} {ds : List DueRecord} (h : TakenTogether F ds) : InOrder (sortBy dueBefore ds) ds := by
  refine ⟨sortBy_perm _ _, fun htrans => ?_⟩
  exact sortBy_sorted h.keys (fun a _ b _ _ => takenBefore_of_dueBefore)
    (fun a ha b hb hne => takenBefore_of_not_dueBefore (h.reached a ha) (h.reached b hb) hne) htrans

theorem TakenTogether.filter {F : Frame} {ds : List DueRecord} (h : ds.Pairwise (fun a b => (a.origin, a.seq) ≠ (b.origin, b.seq))) :
    TakenTogether F (ds.filter (fun r => atOrBefore r.effective F)) :=
  ⟨h.filter _, fun _ hd => (List.mem_filter.mp hd).2⟩

theorem UpdatesOk.takenTogether {s : State} (h : UpdatesOk s) :
    TakenTogether s.table.apply.frame s.table.apply.due
      ∧ TakenTogether s.table.apply.frame (s.table.apply.reapply.filter (fun r => atOrBefore r.effective s.table.apply.frame)) := by
  have hkeys := List.pairwise_append.mp (List.pairwise_map.mp h.applyKeys)
  exact ⟨⟨hkeys.1, h.dueReached⟩, .filter hkeys.2.1⟩

/-! ## The late records (R13, R171) -/

theorem later_iff_ne {F e : Frame} (h : atOrBefore e F = true) : later F e = true ↔ e ≠ F := by
  rw [atOrBefore, decide_eq_true_iff] at h
  rw [later, Bool.not_eq_true', atOrBefore, decide_eq_false_iff_not]
  constructor
  · rintro hl rfl
    rw [BitVec.sub_self] at hl
    exact hl (by decide)
  · intro hne
    bv_omega

/-- The counts take no part in a record's forming. -/
theorem nextSend_withCounts (u : ReportUnit) (c : Counts) : nextSend { u with counts := c } = { nextSend u with counts := c } := by
  obtain ⟨queue, sending, endsAfter, lost, counts⟩ := u
  cases sending <;> cases queue <;> rfl

theorem reportJoin_withCounts (r : Report) (F : Frame) (u : ReportUnit) (c : Counts) :
    reportJoin r F { u with counts := c } = { reportJoin r F u with counts := c } := by
  have hjoin : recordJoin r F { u with counts := c } = { recordJoin r F u with counts := c } := by
    unfold recordJoin
    split
    · exact nextSend_withCounts { u with queue := u.queue ++ [{ report := r, lost := u.lost, frame := F }], lost := false } c
    · rfl
  rw [reportJoin, hjoin, reportJoin]
  generalize recordJoin r F u = v
  unfold recordFormed
  dsimp only
  split
  · rfl
  · split
    · exact nextSend_withCounts { v with sending := none, endsAfter := 0 } c
    · rfl

theorem handOver_withCounts (rs : List Report) (F : Frame) (u : ReportUnit) (c : Counts) :
    handOver rs F { u with counts := c } = { handOver rs F u with counts := c } := by
  induction rs generalizing u with
  | nil => rfl
  | cons r rs ih => rw [handOver_cons, reportJoin_withCounts, ih, handOver_cons]

theorem handOver_counts (rs : List Report) (F : Frame) (u : ReportUnit) : (handOver rs F u).counts = u.counts := by
  induction rs generalizing u with
  | nil => rfl
  | cons r rs ih => rw [handOver_cons, ih, reportJoin_counts]

/-- A count raised n times. -/
def countTimes : Nat → Count → Count
  | 0, c => c
  | n + 1, c => countTimes n (countUp c)

theorem countTimes_toNat (n : Nat) (c : Count) : (countTimes n c).toNat = min 65535 (c.toNat + n) := by
  induction n generalizing c with
  | zero => exact (Nat.min_eq_right (Nat.le_of_lt_succ c.isLt)).symm
  | succ n ih =>
    rw [countTimes, ih, countUp_toNat]
    omega

theorem lateNotice_of_late {F : Frame} {s : State} {r : DueRecord} (h : later F r.effective = true) :
    lateNotice F s r = event (.lateCommit r.origin r.seq r.effective F) (countLate s) := if_pos h

theorem lateNotice_of_timely {F : Frame} {s : State} {r : DueRecord} (h : ¬ later F r.effective = true) : lateNotice F s r = s := if_neg h

/-- The late records of a run are counted and reported in their order. -/
theorem foldl_lateNotice_report {F : Frame} (rs : List DueRecord) (hreached : ∀ r ∈ rs, atOrBefore r.effective F = true) (s : State) :
    (rs.foldl (lateNotice F) s).report = { handOver (lateReports F rs) (now s) s.report with
      counts := { s.report.counts with late := countTimes (lateReports F rs).length s.report.counts.late } } := by
  induction rs generalizing s with
  | nil => rfl
  | cons r rs ih =>
    have hrest : ∀ x ∈ rs, atOrBefore x.effective F = true := fun x hx => hreached x (List.mem_cons_of_mem _ hx)
    have hr := later_iff_ne (hreached r List.mem_cons_self)
    rw [List.foldl_cons, ih hrest]
    by_cases hne : r.effective ≠ F
    · have hlate : lateReports F (r :: rs) = .event (.lateCommit r.origin r.seq r.effective F) :: lateReports F rs := by
        rw [lateReports, List.filter_cons_of_pos (p := fun r : DueRecord => decide (r.effective ≠ F)) (decide_eq_true hne)]
        rfl
      rw [lateNotice_of_late (hr.mpr hne), hlate, event_report, reportJoin_counts, List.length_cons, countTimes, handOver_cons]
      show ({ handOver (lateReports F rs) (now s) (reportJoin _ (now s) { s.report with counts := _ }) with counts := _ } : ReportUnit) = _
      rw [reportJoin_withCounts, handOver_withCounts]
      rfl
    · have htimely : lateReports F (r :: rs) = lateReports F rs := by
        rw [lateReports, List.filter_cons_of_neg (p := fun r : DueRecord => decide (r.effective ≠ F)) (by rw [decide_eq_true_iff]; exact hne)]
        rfl
      rw [lateNotice_of_timely (mt hr.mp hne), htimely]

theorem lateReported_foldl {F : Frame} {rs : List DueRecord} (hreached : ∀ r ∈ rs, atOrBefore r.effective F = true) {first : List Report}
    {s u : State} (hu : u.report = handOver first (now s) s.report) (hnow : now u = now s) :
    LateReported first F rs s (rs.foldl (lateNotice F) u) := by
  have hreport := foldl_lateNotice_report rs hreached u
  have hcounts : u.report.counts = s.report.counts := by rw [hu, handOver_counts]
  rw [hcounts, hnow, hu] at hreport
  refine ⟨?_, ?_⟩
  · rw [hreport]
    exact countTimes_toNat _ _
  · rw [handOver_append, hreport]

/-- The apply set applied in its order, and its late records told of after the reports of `first` (R12, R13). -/
theorem applyDue_spec {s u : State} {first : List Report} (h : TakenTogether u.table.apply.frame u.table.apply.due)
    (hu : u.report = handOver first (now s) s.report) (hnow : now u = now s) :
    ∃ rs, InOrder rs u.table.apply.due ∧ (applyDue u).table.entries = applied u.table.apply.frame rs u.table.entries
      ∧ LateReported first u.table.apply.frame rs s (applyDue u) := by
  refine ⟨sortBy dueBefore u.table.apply.due, inOrder_sortBy h, ?_, ?_⟩
  · exact (Writes.foldl (fun s r => lateNotice_writes u.table.apply.frame s r) (sortBy dueBefore u.table.apply.due)
      { u with table.entries := (sortBy dueBefore u.table.apply.due).foldl (applyRecord u.table.apply.frame) u.table.entries }).at .entries
  · exact lateReported_foldl (u := { u with
      table.entries := (sortBy dueBefore u.table.apply.due).foldl (applyRecord u.table.apply.frame) u.table.entries })
      (fun r hr => h.reached r (mem_sortBy.mp hr)) hu hnow

/-! ## The install (R10) -/

theorem installParts_eq (ps : List Part) (t : Table) : installParts ps t = (ps.flatMap (·.entries)).foldl installEntry t := by
  rw [installParts, List.foldl_flatMap]

theorem partIndices_nodup (p : Nat) : (partIndices p).Nodup :=
  List.nodup_range.map fun _ _ h => Nat.add_left_cancel h

/-- No two staged entries are of one index. -/
theorem PartsOk.indices_nodup {ps : List Part} (h : PartsOk ps) : ((ps.flatMap (·.entries)).map (·.index.toNat)).Nodup := by
  rw [List.map_flatMap, List.nodup_flatMap]
  refine ⟨fun p hp => ?_, ?_⟩
  · rw [(h.2 p hp).2]
    exact partIndices_nodup _
  · refine ((List.pairwise_map.mp h.1).imp_of_mem fun {p q} hp hq hne => ?_)
    intro i hip hiq
    obtain ⟨e, he, rfl⟩ := List.mem_map.mp hip
    obtain ⟨f, hf, hfe⟩ := List.mem_map.mp hiq
    exact hne ((h.part_of p hp e he).symm.trans ((congrArg (· / 32) hfe.symm).trans (h.part_of q hq f hf)))

/-- Entries installed at different indices of the table are read back. -/
theorem read_foldl_installEntry {es : List SnapEntry} (hin : ∀ e ∈ es, e.index.toNat < tableSize)
    (hnodup : (es.map (·.index.toNat)).Nodup) {t : Table} (hw : Memory.wf t = true) :
    ∀ e ∈ es, Memory.read (es.foldl installEntry t) e.index.toNat = { value := e.value, stamp := e.stamp } := by
  have hother : ∀ (xs : List SnapEntry) (t : Table) (k : Nat), Memory.wf t = true → (∀ x ∈ xs, x.index.toNat < tableSize) →
      (∀ x ∈ xs, x.index.toNat ≠ k) → Memory.read (xs.foldl installEntry t) k = Memory.read t k := by
    intro xs
    induction xs with
    | nil => exact fun _ _ _ _ _ => rfl
    | cons x xs ih =>
      intro t k hw hin hne
      rw [List.foldl_cons, installEntry, ih _ k (Memory.wf_write (hin x List.mem_cons_self) hw) (fun y hy => hin y (List.mem_cons_of_mem _ hy))
        (fun y hy => hne y (List.mem_cons_of_mem _ hy)), Memory.read_write hw,
        if_neg (hne x List.mem_cons_self).symm]
  induction es generalizing t with
  | nil => exact fun _ he => absurd he List.not_mem_nil
  | cons x xs ih =>
    obtain ⟨hx, hrest⟩ := List.nodup_cons.mp hnodup
    have hwx : Memory.wf (installEntry t x) = true := Memory.wf_write (hin x List.mem_cons_self) hw
    have hinx : ∀ y ∈ xs, y.index.toNat < tableSize := fun y hy => hin y (List.mem_cons_of_mem _ hy)
    intro e he
    rw [List.foldl_cons]
    rcases List.mem_cons.mp he with rfl | he
    · rw [hother xs _ _ hwx hinx fun y hy hye => hx (List.mem_map.mpr ⟨y, hy, hye⟩), installEntry, Memory.read_write hw, if_pos rfl]
    · exact ih hinx hrest hwx e he

theorem exec_applyWindowOpen (s : State) : exec .applyWindowOpen s = .next (whenReleased openApplyWindow s) := rfl

theorem openApply_of_staged {s : State} {ps : List Part} (hphase : s.table.apply.phase = .taken) (hps : s.table.apply.staged = some ps) :
    openApply s = { s with table.entries := installParts ps s.table.entries, table.apply.phase := .installing } := by
  rw [openApply, if_pos hphase, hps]

theorem openApply_of_unstaged {s : State} (hphase : s.table.apply.phase = .taken) (hps : s.table.apply.staged = none) :
    openApply s = applyDue { s with table.apply.phase := .judging, table.apply.since := 1 } := by
  rw [openApply, if_pos hphase, hps]

/-- Settles O28. -/
theorem applyWindowOpens : Obligations.ApplyWindowOpens := by
  intro s h0
  refine ⟨fun hoff => ?_, fun hline hphase htable hupdates => ⟨openApply s, ?_, fun ps hps => ?_, fun hnone => ?_⟩⟩
  · have hstay : openApplyWindow s = s := by
      by_cases hline : s.raster.line = 1
      · rw [openApplyWindow, if_pos hline, openApply, if_neg (hoff.resolve_left fun h => h hline)]
      · rw [openApplyWindow, if_neg hline]
    rw [exec_applyWindowOpen, whenReleased_of h0, hstay]
  · rw [exec_applyWindowOpen, whenReleased_of h0, openApplyWindow, if_pos hline]
  · obtain hsnapshot := htable.staged ps hps
    rw [openApply_of_staged hphase hps]
    refine ⟨rfl, fun e he => ?_, fun i hi => hsnapshot.entry hi, fun f hf => ?_⟩
    · show Memory.read (installParts ps s.table.entries) _ = _
      rw [installParts_eq]
      refine read_foldl_installEntry (fun x hx => ?_) hsnapshot.1.indices_nodup htable.wf e he
      obtain ⟨p, hp, hxp⟩ := List.mem_flatMap.mp hx
      exact hsnapshot.1.index_lt p hp x hxp
    · cases f with
      | entries | applyPhase => exact absurd hf (by decide)
      | _ => rfl
  · have hw := applyDue_writes { s with table.apply.phase := .judging, table.apply.since := 1 }
    rw [openApply_of_unstaged hphase hnone]
    exact ⟨hw.at .applyPhase, hw.at .applySince, applyDue_spec (s := s)
      (u := { s with table.apply.phase := .judging, table.apply.since := 1 }) hupdates.takenTogether.1 rfl rfl,
      (judging_writes s 1).mono.trans hw.mono⟩

/-! ## The end of an install at the Membership Unit (R64, R72, R76, R142) -/

/-- The reports that the end of an install brings in the station state. -/
def installReports (s : State) : List Report :=
  if s.member.state = .resync ∨ s.member.state = .ringHold then [.event .resyncDone]
  else if s.member.state = .catchingUp ∧ s.member.snapshotNeeded = true ∧ lockServes s.lock.state = true then
    [.event (.stateChange .inService none)]
  else []

/-- The state that the end of an install brings. -/
def installState (s : State) : StationState :=
  if s.member.state = .resync ∨ (s.member.state = .catchingUp ∧ s.member.snapshotNeeded = true ∧ lockServes s.lock.state = true) then
    .inService
  else s.member.state

/-- The resync-due mark after the test against the build frames of the parts (R76). -/
def testedMark (builds : List Frame) (mark : Option Frame) : Option Frame :=
  mark.bind fun M => if builds.all (fun b => later b M) then none else some M

theorem markTest_mark (builds : List Frame) (s : State) : (markTest builds s).member.mark = testedMark builds s.member.mark := by
  cases hM : s.member.mark with
  | none => rw [markTest, hM]; exact hM
  | some M =>
    rw [markTest, hM]
    dsimp only [testedMark, Option.bind_some]
    split
    · rfl
    · exact hM

theorem testedMark_some (ps : List Part) (M : Frame) :
    testedMark (ps.map (·.build)) (some M) = if ∀ p ∈ ps, later p.build M = true then none else some M := by
  have hall : (ps.map (·.build)).all (fun b => later b M) = true ↔ ∀ p ∈ ps, later p.build M = true := by
    rw [List.all_map, List.all_eq_true]
    rfl
  rw [testedMark, Option.bind_some]
  exact if_congr hall rfl rfl

/-- What the end of an install brings in the station state, from s to v. -/
structure EndedAtMember (builds : List Frame) (s v : State) : Prop where
  state : v.member.state = installState s
  report : v.report = handOver (installReports s) (now s) s.report
  seeded : v.table.seeded = true
  installed : s.member.state = .catchingUp → v.member.state = .catchingUp →
    v.member.installed = (s.member.installed || s.member.snapshotNeeded)
  mark : v.member.mark = if takesMissedCommit s.member.state then testedMark builds s.member.mark else s.member.mark
  entered : installState s ≠ s.member.state → v.member.mismatch = 0 ∧ RefsOk v ∧ LockFollows s v ∧ CollectorMoves v.member.tableRef s v
  stays : installState s = s.member.state → Writes (Field.ofReport ++ [.mark, .installed, .seeded, .applyPhase, .applySince]) s v
  writes : Writes (Field.ofRefs ++ Field.ofReport ++ [.stationState, .seeded, .mark, .installed, .applyPhase, .applySince]) s v

/-- The entry to IN_SERVICE with its event. -/
theorem EndedAtMember.of_entered {builds : List Frame} {s x : State} {e : Event}
    (w : Writes [.mark, .installed, .seeded, .applyPhase, .applySince] s x) (hreceiving : receiving s.member.state = true)
    (hother : s.member.state ≠ .inService) (hseeded : x.table.seeded = true) (hstate : installState s = .inService) (hreports : installReports s = [.event e])
    (hmark : x.member.mark = if takesMissedCommit s.member.state then testedMark builds s.member.mark else s.member.mark) :
    EndedAtMember builds s (event e (enterInService x)) := by
  have henter := enterInService_writes x
  have hevent := event_writes e (enterInService x)
  have hserves : (event e (enterInService x)).member.state = .inService := (hevent.at .stationState).trans (enterInService_state x)
  have hrec : receiving x.member.state = true := by rw [w.at .stationState]; exact hreceiving
  refine ⟨hserves.trans hstate.symm, ?_, ?_, fun _ h => ?_, ?_, fun _ => ⟨?_, ?_, ?_, ?_⟩, fun h => ?_, ?_⟩
  · rw [event_report, enterInService_report, henter.at .frame, w.at .frame, w.report_eq, hreports]
    rfl
  · rw [hevent.at .seeded, henter.at .seeded, hseeded]
  · rw [hserves] at h
    exact absurd h (by decide)
  · rw [hevent.at .mark, henter.at .mark, hmark]
  · exact (hevent.at .mismatch).trans (enterInService_mismatch x)
  · exact (refsOk_enterInService x).of_writes hevent
  · exact (lockFollows_enterInService x).of_same (.of_writes w.symm) (.of_writes hevent)
  · rw [hevent.at .tableRef]
    exact (collectorMoves_enterInService hrec).of_same (.of_writes w.symm) (hevent.at .collector) (hevent.at .transmit)
  · exact absurd (h.symm.trans hstate) hother
  · exact (w.mono.trans henter.mono).trans hevent.mono

/-- The station state stays. -/
theorem EndedAtMember.of_stays {builds : List Frame} {s v : State}
    (w : Writes (Field.ofReport ++ [.mark, .installed, .seeded, .applyPhase, .applySince]) s v) (hstate : installState s = s.member.state)
    (hseeded : v.table.seeded = true) (hreport : v.report = handOver (installReports s) (now s) s.report)
    (hinstalled : s.member.state = .catchingUp → v.member.installed = (s.member.installed || s.member.snapshotNeeded))
    (hmark : v.member.mark = if takesMissedCommit s.member.state then testedMark builds s.member.mark else s.member.mark) :
    EndedAtMember builds s v :=
  ⟨(w.at .stationState).trans hstate.symm, hreport, hseeded, fun h _ => hinstalled h, hmark, fun h => absurd hstate h, fun _ => w, w.mono⟩

theorem installed_writes (b : Bool) (s : State) : Writes [.installed] s { s with member.installed := b } := by
  intro f hf
  cases f with
  | installed => exact absurd hf (by decide)
  | _ => rfl

theorem seeded_writes (b : Bool) (s : State) : Writes [.seeded] s { s with table.seeded := b } := by
  intro f hf
  cases f with
  | seeded => exact absurd hf (by decide)
  | _ => rfl

/-- The end of an install at the Membership Unit, by the station state (R142, R64; log entry 21). -/
theorem endedAtMember {s u : State} (builds : List Frame) (w : Writes [.seeded, .applyPhase, .applySince] s u) (hseeded : u.table.seeded = true) :
    EndedAtMember builds s (installEnded builds u) := by
  have hustate : u.member.state = s.member.state := w.at .stationState
  have hmark : (markTest builds u).member.mark = testedMark builds s.member.mark := by rw [markTest_mark, w.at .mark]
  have hw : Writes [.mark, .installed, .seeded, .applyPhase, .applySince] s (markTest builds u) := w.mono.trans (markTest_writes builds u).mono
  have hseeded' : (markTest builds u).table.seeded = true := ((markTest_writes builds u).at .seeded).trans hseeded
  cases hstate : s.member.state with
  | offRing | listening | joining | isolated =>
    have heq : installEnded builds u = u := by rw [installEnded, hustate, hstate]
    have hreports : installReports s = [] := by rw [installReports, hstate]; rfl
    rw [heq]
    refine .of_stays w.mono (by rw [installState, hstate]; rfl) hseeded ?_ (fun h => absurd (hstate.symm.trans h) (by decide)) ?_
    · rw [hreports, w.report_eq]
      rfl
    · rw [hstate, w.at .mark]
      rfl
  | inService =>
    have heq : installEnded builds u = markTest builds u := by rw [installEnded, hustate, hstate]
    have hreports : installReports s = [] := by rw [installReports, hstate]; rfl
    rw [heq]
    refine .of_stays hw.mono (by rw [installState, hstate]; rfl) hseeded' ?_ (fun h => absurd (hstate.symm.trans h) (by decide)) ?_
    · rw [hreports, hw.report_eq]
      rfl
    · rw [hstate, hmark]
      rfl
  | ringHold =>
    have heq : installEnded builds u = markTest builds (event .resyncDone u) := by rw [installEnded, hustate, hstate]
    have hreports : installReports s = [.event .resyncDone] := by rw [installReports, hstate]; rfl
    have hevent := event_writes .resyncDone u
    have htest := markTest_writes builds (event .resyncDone u)
    rw [heq]
    refine .of_stays ((w.mono.trans hevent.mono).trans htest.mono) (by rw [installState, hstate]; rfl)
      ((htest.at .seeded).trans ((hevent.at .seeded).trans hseeded)) ?_
      (fun h => absurd (hstate.symm.trans h) (by decide)) ?_
    · rw [htest.report_eq, event_report, w.report_eq, w.at .frame, hreports]
      rfl
    · rw [hstate, markTest_mark, hevent.at .mark, w.at .mark]
      rfl
  | resync =>
    have heq : installEnded builds u = event .resyncDone (enterInService (markTest builds u)) := by rw [installEnded, hustate, hstate]
    rw [heq]
    refine .of_entered hw (by rw [hstate]; rfl) (by rw [hstate]; decide) hseeded' (by rw [installState, hstate]; rfl) (by rw [installReports, hstate]; rfl) ?_
    rw [hstate, hmark]
    rfl
  | catchingUp =>
    have heq : installEnded builds u = if s.member.snapshotNeeded then testService { markTest builds u with member.installed := true }
        else markTest builds u := by
      rw [installEnded, hustate, hstate]
      dsimp only
      rw [hw.at .snapshotNeeded]
    have hmark' : (markTest builds u).member.mark
        = if takesMissedCommit s.member.state then testedMark builds s.member.mark else s.member.mark := by
      rw [hstate, hmark]
      rfl
    cases hneeded : s.member.snapshotNeeded with
    | false =>
      have hstay : installState s = s.member.state := by rw [installState, hstate, hneeded]; rfl
      have hreports : installReports s = [] := by rw [installReports, hstate, hneeded]; rfl
      rw [heq, hneeded, if_neg Bool.false_ne_true]
      refine .of_stays hw.mono hstay hseeded' ?_ (fun _ => ?_) hmark'
      · rw [hreports, hw.report_eq]
        rfl
      · rw [(markTest_writes builds u).at .installed, w.at .installed, hneeded, Bool.or_false]
    | true =>
      have hset := installed_writes true (markTest builds u)
      have hxw : Writes [.mark, .installed, .seeded, .applyPhase, .applySince] s { markTest builds u with member.installed := true } :=
        hw.trans hset.mono
      rw [heq, hneeded, if_pos rfl]
      cases hserves : lockServes s.lock.state with
      | false =>
        have hoff : testService { markTest builds u with member.installed := true } = { markTest builds u with member.installed := true } := by
          refine testService_off fun h => ?_
          rw [hxw.at .lockState, hserves] at h
          exact absurd h.2.2 Bool.false_ne_true
        have hstay : installState s = s.member.state := by rw [installState, hstate, hneeded, hserves]; rfl
        have hreports : installReports s = [] := by rw [installReports, hstate, hneeded, hserves]; rfl
        rw [hoff]
        refine .of_stays hxw.mono hstay hseeded' ?_ (fun _ => ?_) hmark'
        · rw [hreports, hxw.report_eq]
          rfl
        · rw [hneeded, Bool.or_true]
      | true =>
        have hon := testService_of (s := { markTest builds u with member.installed := true }) ((hxw.at .stationState).trans hstate)
          (Bool.or_true _) (by rw [hxw.at .lockState]; exact hserves)
        rw [hon, served]
        refine .of_entered (hxw.trans (seeded_writes true _).mono) (by rw [hstate]; rfl) (by rw [hstate]; decide) rfl
          (by rw [installState, hstate, hneeded, hserves]; rfl) (by rw [installReports, hstate, hneeded, hserves]; rfl) hmark'

/-! ## The re-apply step (R11) -/

/-- An edit of a retained record that is not ahead of the operation is re-applied. -/
def reappliedIn (ps : List Part) (r : DueRecord) (e : Edit) : Bool :=
  decide (e.index.toNat < tableSize) && (buildFrameOf ps e.index.toNat).any (fun b => later r.effective b)

theorem reapplies_eq {ps : List Part} {F : Frame} {r : DueRecord} (h : atOrBefore r.effective F = true) (e : Edit) :
    reapplies ps F r e = reappliedIn ps r e := by
  rw [reapplies, reappliedIn, h, Bool.and_true]
  cases buildFrameOf ps e.index.toNat <;> rfl

theorem buildFrameOf_eq_some {ps : List Part} (h : PartsOk ps) {i : Nat} {b : Frame} :
    buildFrameOf ps i = some b ↔ ∃ p ∈ ps, p.number = i / 32 ∧ p.build = b := by
  rw [buildFrameOf, Option.map_eq_some_iff]
  constructor
  · rintro ⟨p, hp, hb⟩
    exact ⟨p, List.mem_of_find?_eq_some hp, beq_iff_eq.mp (List.find?_some (p := fun p : Part => p.number == partOf i) hp), hb⟩
  · rintro ⟨p, hp, hn, hb⟩
    cases hf : ps.find? (fun p => p.number == partOf i) with
    | none => exact absurd (beq_iff_eq.mpr hn) (List.find?_eq_none.mp hf p hp)
    | some q =>
      have hq : q.number = p.number := (beq_iff_eq.mp (List.find?_some (p := fun p : Part => p.number == partOf i) hf)).trans hn.symm
      exact ⟨q, rfl, by rw [List.inj_on_of_nodup_map h.1 (List.mem_of_find?_eq_some hf) hp hq, hb]⟩

theorem reappliedIn_iff {ps : List Part} (h : PartsOk ps) (r : DueRecord) (e : Edit) :
    reappliedIn ps r e = true ↔ ∃ p ∈ ps, p.number = e.index.toNat / 32 ∧ e.index.toNat < 260 ∧ later r.effective p.build = true := by
  rw [reappliedIn, Bool.and_eq_true, decide_eq_true_iff, Option.any_eq_true]
  constructor
  · rintro ⟨hi, b, hb, hl⟩
    obtain ⟨p, hp, hn, rfl⟩ := (buildFrameOf_eq_some h).mp hb
    exact ⟨p, hp, hn, hi, hl⟩
  · rintro ⟨p, hp, hn, hi, hl⟩
    exact ⟨hi, p.build, (buildFrameOf_eq_some h).mpr ⟨p, hp, hn, rfl⟩, hl⟩

/-- The re-apply step is the records' re-applied edits judged in the order of the apply set. -/
theorem reapplyAll_eq (ps : List Part) (F : Frame) (rs : List DueRecord) (t : Table) :
    reapplyAll ps F rs t = applied F ((sortBy dueBefore (rs.filter (fun r => atOrBefore r.effective F))).map
      (fun r => { r with edits := r.edits.filter (reappliedIn ps r) })) t := by
  rw [reapplyAll, applied, List.foldl_map]
  refine List.foldl_ext _ _ _ fun t r hr => ?_
  have hreached := (List.mem_filter.mp (mem_sortBy.mp hr)).2
  rw [reapplyRecord, List.filter_congr fun e _ => reapplies_eq hreached e]
  rfl

theorem exec_installEnd (s : State) : exec .installEnd s = .next (whenReleased endInstall s) := rfl

/-- The state at the end of the install, the seeded flag set and the edits about to be judged (R10, R14). -/
def installOver (s : State) : State :=
  { s with table.seeded := true, table.apply.phase := .judging, table.apply.since := s.raster.line + 1 }

theorem installOver_writes (s : State) : Writes [.seeded, .applyPhase, .applySince] s (installOver s) := by
  intro f hf
  cases f with
  | seeded | applyPhase | applySince => exact absurd hf (by decide)
  | _ => rfl

/-- The retained records re-applied (R11). -/
def reapplied (ps : List Part) (v : State) : State :=
  { v with table.entries := reapplyAll ps v.table.apply.frame v.table.apply.reapply v.table.entries }

theorem reapplied_writes (ps : List Part) (v : State) : Writes [.entries] v (reapplied ps v) := entries_writes v _

theorem endInstall_of {s : State} {ps : List Part} (hphase : s.table.apply.phase = .installing) (hps : s.table.apply.staged = some ps) :
    endInstall s = applyDue (reapplied ps (installEnded (ps.map (·.build)) (installOver s))) := by
  rw [endInstall, if_pos hphase, hps]
  rfl

/-- Settles O29: the station state takes the install, the retained records are re-applied, and the apply set is judged. -/
theorem installEnds : Obligations.InstallEnds := by
  intro s ps h0 hphase hps htable hupdates
  have hparts : PartsOk ps := (htable.staged ps hps).1
  have hended := endedAtMember (ps.map (·.build)) (installOver_writes s) rfl
  have hother := installEnded_writes (ps.map (·.build)) (installOver s)
  have hend := endInstall_of hphase hps
  have hphasev : (installEnded (ps.map (·.build)) (installOver s)).table.apply.phase = .judging := hother.at .applyPhase
  have hsincev : (installEnded (ps.map (·.build)) (installOver s)).table.apply.since = s.raster.line + 1 := hother.at .applySince
  generalize installEnded (ps.map (·.build)) (installOver s) = v at *
  have hkeep := hended.writes
  have hentries := reapplied_writes ps v
  have hframe : (reapplied ps v).table.apply.frame = s.table.apply.frame := (hentries.at .applyFrame).trans (hkeep.at .applyFrame)
  have hdue : (reapplied ps v).table.apply.due = s.table.apply.due := (hentries.at .applyDue).trans (hkeep.at .applyDue)
  have hreapplied : (reapplied ps v).table.entries = reapplyAll ps s.table.apply.frame s.table.apply.reapply s.table.entries := by
    rw [reapplied, hkeep.at .applyFrame, hkeep.at .applyReapply, hother.at .entries]
    rfl
  obtain ⟨htaken, htakenAgain⟩ := hupdates.takenTogether
  obtain ⟨rs, horder, htable, hlate⟩ := applyDue_spec (s := s) (first := installReports s) (u := reapplied ps v)
    (by rw [hframe, hdue]; exact htaken) (hentries.report_eq.trans hended.report) ((hentries.at .frame).trans (hkeep.at .frame))
  have happly : Writes [.entries, .late, .reports, .sending, .sendEnds, .lost] v (applyDue (reapplied ps v)) :=
    hentries.mono.trans (applyDue_writes _).mono
  rw [hframe] at hlate htable
  rw [hdue] at horder
  rw [hreapplied, reapplyAll_eq] at htable
  refine ⟨endInstall s, (exec_installEnd s).trans (congrArg _ (whenReleased_of h0)), ?_⟩
  rw [hend]
  generalize applyDue (reapplied ps v) = t at *
  have hstate : t.member.state = installState s := (happly.at .stationState).trans hended.state
  refine ⟨(happly.at .seeded).trans hended.seeded, (happly.at .applyPhase).trans hphasev, (happly.at .applySince).trans hsincev,
    ⟨sortBy dueBefore (s.table.apply.reapply.filter (fun r => atOrBefore r.effective s.table.apply.frame)), rs, reappliedIn ps,
      inOrder_sortBy htakenAgain, horder, reappliedIn_iff hparts, htable, hlate⟩, fun hs => ?_, fun hs hneeded hserves => ?_,
    fun hs hneeded hserves => ?_, fun hs hneeded => ?_, fun hr hc => ?_, fun hne => ?_, fun he => ?_, fun htakes M hM => ?_,
    fun hoff => ?_, ?_⟩
  · rw [hstate, installState, if_pos (Or.inl hs)]
  · rw [hstate, installState, if_pos (Or.inr ⟨hs, hneeded, hserves⟩)]
  · have hstays : installState s = s.member.state := by rw [installState, hs, hserves]; simp
    have ht := hstate.trans (hstays.trans hs)
    refine ⟨ht, (happly.at .installed).trans ((hended.installed hs ((happly.at .stationState).symm.trans ht)).trans ?_)⟩
    rw [hneeded, Bool.or_true]
  · have hstays : installState s = s.member.state := by rw [installState, hs, hneeded]; simp
    have ht := hstate.trans (hstays.trans hs)
    refine ⟨ht, (happly.at .installed).trans ((hended.installed hs ((happly.at .stationState).symm.trans ht)).trans ?_)⟩
    rw [hneeded, Bool.or_false]
  · rw [hstate, installState, if_neg fun h => h.elim hr fun h => hc h.1]
  · obtain ⟨hmismatch, hrefs, hlock, hcollector⟩ := hended.entered (hstate ▸ hne)
    obtain ⟨htref, htiming⟩ := hrefs.of_writes happly
    refine ⟨(happly.at .mismatch).trans hmismatch, htref, htiming, hlock.of_same (.of_writes (.refl (fs := []) s)) (.of_writes happly), ?_⟩
    rw [happly.at .tableRef]
    exact hcollector.of_same (.of_writes (.refl (fs := []) s)) (happly.at .collector) (happly.at .transmit)
  · exact ((hended.stays (hstate ▸ he)).mono.trans happly.mono)
  · rw [happly.at .mark, hended.mark, if_pos htakes, hM]
    exact testedMark_some ps M
  · rw [happly.at .mark, hended.mark]
    rcases hoff with hoff | hoff
    · rw [if_neg (by rw [hoff]; exact Bool.false_ne_true)]
    · rw [hoff]
      exact ite_self _
  · exact hkeep.mono.trans happly.mono

end Sys2Proof.Machine
end

