-- ==== Sys2Proof/Proofs/PassingParcels.lean ====
section
/-! SUPPORT. Proofs/PassingParcels.lean: the arrival of a parcel on RIN, and the parcels of other stations that the Proposal Store and the
snapshot collector take (R36 to R43, R113 to R120, R129, R136). -/

namespace Sys2Proof.Machine

set_option Elab.async false

/-! ## The arrival, by its cases (R36 to R41) -/

theorem exec_arrivalOf (p : Parcel) (s : State) : exec (arrivalOf p) s = .next (arrive p s) := by
  obtain ⟨h, body⟩ := p
  cases body <;> rfl

theorem exec_failedParcelArrival (run : List Byte) (s : State) : exec (.failedParcelArrival run) s = .next (arriveRun run s) := rfl

@[simp] theorem parcelNorm_header (p : Parcel) : (parcelNorm p).header = p.header := by
  unfold parcelNorm
  split <;> rfl

theorem arrive_of_bypass {p : Parcel} {s : State} (h : bypass s = true) : arrive p s = s := by rw [arrive, if_pos h]

theorem arrive_of_cut {p : Parcel} {s : State} (h : bypass s = false) (hcut : s.ring.cut = true) : arrive p s = endCut s := by
  rw [arrive, if_neg (Bool.eq_false_iff.mp h), if_pos hcut]

theorem bypass_of_receives {s : State} (h : Receives s) : bypass s = false := bypass_of_receiving h.1 h.2.1

theorem arrive_of_bad {p : Parcel} {s : State} (h : Receives s) (hp : parcelOk p = false) : arrive p s = countCrc s := by
  rw [arrive, if_neg (Bool.eq_false_iff.mp (bypass_of_receives h)), if_neg (Bool.eq_false_iff.mp h.2.2), if_pos hp]

theorem arrive_of_good {p : Parcel} {s : State} (h : Receives s) (hp : parcelOk p = true) :
    arrive p s = if p.header.origin = own s then
        (if s.member.state = .listening then ownWhileListening (parcelNorm p) s else strip (parcelNorm p) s)
      else forward (parcelNorm p) false s := by
  rw [arrive, if_neg (Bool.eq_false_iff.mp (bypass_of_receives h)), if_neg (Bool.eq_false_iff.mp h.2.2),
    if_neg (by rw [hp]; exact Bool.true_eq_false_eq_False)]
  dsimp only
  rw [parcelNorm_header]

theorem arrive_of_other {p : Parcel} {s : State} (h : Receives s) (hp : parcelOk p = true) (ho : p.header.origin ≠ own s) :
    arrive p s = forward (parcelNorm p) false s := by rw [arrive_of_good h hp, if_neg ho]

theorem arrive_of_listening {p : Parcel} {s : State} (h : Receives s) (hp : parcelOk p = true) (ho : p.header.origin = own s)
    (hstate : s.member.state = .listening) : arrive p s = ownWhileListening (parcelNorm p) s := by
  rw [arrive_of_good h hp, if_pos ho, if_pos hstate]

theorem receives_of_onRing {s : State} (h : OnRing s) : Receives s := by
  obtain ⟨h0, hon, hcut⟩ := h
  refine ⟨h0, ?_, hcut⟩
  revert hon
  cases s.member.state <;> decide

theorem arrive_of_own {p : Parcel} {s : State} (h : OnRing s) (hp : parcelOk p = true) (ho : p.header.origin = own s) :
    arrive p s = strip (parcelNorm p) s := by
  rw [arrive_of_good (receives_of_onRing h) hp, if_pos ho, if_neg]
  intro hstate
  have hon := h.2.1
  rw [hstate] at hon
  exact absurd hon (by decide)

/-! ## The insertion buffer (R41 to R43) -/

theorem isStray_iff (p : Parcel) : isStray p = true ↔ 29 ≤ p.header.hop.toNat := by
  rw [isStray, decide_eq_true_iff]
  omega

theorem insertion_writes (ws : List Waiting) (s : State) : Writes [.insertion] s { s with ring.insertion := ws } := by
  intro f hf
  cases f with
  | insertion => exact absurd hf (by decide)
  | _ => rfl

theorem insertionJoin_of_room {w : Waiting} {s : State} (h : s.ring.insertion.length < Config.insertionPlaces) :
    insertionJoin w s = { s with ring.insertion := s.ring.insertion ++ [w] } := if_pos h

theorem insertionJoin_of_full {w : Waiting} {s : State} (h : Config.insertionPlaces ≤ s.ring.insertion.length) :
    insertionJoin w s = if w.notice then duplicateNotice (countOverflow s) else countOverflow s := if_neg (Nat.not_lt.mpr h)

theorem forward_of_stray {p : Parcel} {notice : Bool} {s : State} (h : 29 ≤ p.header.hop.toNat) :
    forward p notice s = if notice then duplicateNotice (countStray s) else countStray s := by
  rw [forward, if_pos ((isStray_iff p).mpr h)]

theorem forward_of_hop {p : Parcel} {notice : Bool} {s : State} (h : p.header.hop.toNat < 29) :
    forward p notice s = insertionJoin { parcel := { raiseHop p with body := (consume (raiseHop p) s).1 }, notice := notice }
      (consume (raiseHop p) s).2 := by
  rw [forward, if_neg (by rw [isStray_iff]; omega)]

/-- The consumer's state with the parcel behind the others in the insertion buffer. -/
def passed (p : Parcel) (s : State) : State :=
  { (consume (raiseHop (parcelNorm p)) s).2 with
    ring.insertion := s.ring.insertion ++
      [{ parcel := { raiseHop (parcelNorm p) with body := (consume (raiseHop (parcelNorm p)) s).1 }, notice := false }] }

theorem consume_insertion (p : Parcel) (s : State) : (consume p s).2.ring.insertion = s.ring.insertion :=
  (consume_writes p s).at .insertion

theorem arrive_of_passes {p : Parcel} {s : State} (h : Passes s p) : arrive p s = passed p s := by
  obtain ⟨hreceives, hok, ho, hhop, hroom⟩ := h
  rw [arrive_of_other hreceives hok ho, forward_of_hop (by rw [parcelNorm_header]; exact hhop),
    insertionJoin_of_room (by rw [consume_insertion]; exact hroom), consume_insertion]
  rfl

theorem passed_writes (p : Parcel) (s : State) :
    Writes [.insertion] (consume (raiseHop (parcelNorm p)) s).2 (passed p s) := insertion_writes _ _

theorem answers_of_passes {p : Parcel} {s : State} {P : State → Prop} (h : Passes s p) (hP : P (passed p s)) :
    Answers (arrivalOf p) s P := ⟨passed p s, (exec_arrivalOf p s).trans (congrArg _ (arrive_of_passes h)), hP⟩

theorem forwarded_passed (p : Parcel) (s : State) : Forwarded s (passed p s) p (consume (raiseHop (parcelNorm p)) s).1 := by
  show _ ++ [_] = _ ++ [_]
  rw [raiseHop, parcelNorm_header]

theorem addressed_iff {n : StationNo} {s : State} : addressed n s = true ↔ n = 0 ∨ n = own s := by
  rw [addressed, Bool.or_eq_true, beq_iff_eq, beq_iff_eq]
  exact Iff.rfl

theorem addressed_eq_false_iff {n : StationNo} {s : State} : addressed n s = false ↔ n ≠ 0 ∧ n ≠ own s := by
  rw [← Bool.not_eq_true, addressed_iff, not_or]

theorem offered_eq_false {n : StationNo} {s : State} (h : onRing s.member.state = false ∨ (n ≠ 0 ∧ n ≠ own s)) :
    (onRing s.member.state && addressed n s) = false := by
  rcases h with h | h
  · rw [h, Bool.false_and]
  · rw [addressed_eq_false_iff.mpr h, Bool.and_false]

theorem offered_eq_true {n : StationNo} {s : State} (hon : onRing s.member.state = true) (h : n = 0 ∨ n = own s) :
    (onRing s.member.state && addressed n s) = true := by rw [hon, addressed_iff.mpr h, Bool.and_self]

/-! ## PROPOSE at the store (R113 to R115) -/

section

variable {h : Header} {b : ProposeBody} {s : State}

theorem offerPropose_of_off (hoff : onRing s.member.state = false ∨ (h.target ≠ 0 ∧ h.target ≠ own s)) : offerPropose h b s = (b, s) := by
  rw [offerPropose, offered_eq_false hoff, if_neg Bool.false_ne_true]

variable (hon : onRing s.member.state = true) (haddr : h.target = 0 ∨ h.target = own s)

include hon haddr

theorem offerPropose_of_found {p : Proposal} (hp : findRecord h.origin b.seq s.store = some p) :
    offerPropose h b s = ({ b with holders := raiseMark b.holders }, { s with store := setHeld h.origin b.seq (.held (now s)) s.store }) := by
  rw [offerPropose, offered_eq_true hon haddr, if_pos rfl, hp]

theorem offerPropose_of_room (hp : findRecord h.origin b.seq s.store = none) (hroom : openCount s.store < 12) :
    offerPropose h b s = ({ b with holders := raiseMark b.holders },
      { s with store := insertHeld (now s) h.origin b.seq b.edits s.store }) := by
  rw [offerPropose, offered_eq_true hon haddr, if_pos rfl, hp]
  exact if_pos ((canTake_iff _).mpr hroom)

theorem offerPropose_of_full (hp : findRecord h.origin b.seq s.store = none) (hfull : 12 ≤ openCount s.store) :
    offerPropose h b s = ({ b with refusals := raiseMark b.refusals }, s) := by
  rw [offerPropose, offered_eq_true hon haddr, if_pos rfl, hp]
  exact if_neg (mt (canTake_iff _).mp (Nat.not_lt.mpr hfull))

end

theorem findRecord_eq_none {o : StationNo} {q : Seq} {st : List Proposal} (h : findRecord o q st = none) :
    ∀ p ∈ st, p.origin = o → p.seq ≠ q := by
  intro p hp ho hq
  refine absurd ?_ (List.find?_eq_none.mp h p hp)
  rw [isRecord, ho, hq, beq_self_eq_true, beq_self_eq_true, Bool.and_self]

/-- What makes room is a retained record, and none is older. -/
theorem Entered.evicted {cur : Frame} {st st' : List Proposal} {new p : Proposal} (h : Entered cur st st' new) (hp : p ∈ st)
    (hgone : p ∉ st') :
    ∃ e, p.state = .applied e ∧ ∀ x ∈ st, ∀ f, x.state = .applied f → (cur - f).toNat ≤ (cur - e).toNat := by
  obtain ⟨hshort, hlong⟩ := h
  rcases Nat.lt_or_ge st.length 12 with hlt | hfull
  · rw [hshort hlt] at hgone
    exact absurd (List.mem_append_left _ hp) hgone
  · obtain ⟨g, _, e, hstate, hst', holdest⟩ := hlong hfull
    have hpg : p = g := by
      by_contra hne
      rw [hst'] at hgone
      exact hgone (List.mem_append_left _ (List.mem_filter.mpr ⟨hp, decide_eq_true hne⟩))
    subst hpg
    refine ⟨e, hstate, fun x hx f hf => ?_⟩
    by_cases hxp : x = p
    · rw [hxp, hstate] at hf
      rw [RecordState.applied.inj hf]
    · rcases holdest x hx hxp f hf with hlt | ⟨heq, _⟩
      · exact Nat.le_of_lt hlt
      · rw [heq]

/-- Settles O45. -/
theorem proposeStored : Obligations.ProposeStored := by
  intro s h b hp
  refine answers_of_passes hp ?_
  have hforward := forwarded_passed { header := h, body := .propose b } s
  have hpassed := passed_writes { header := h, body := .propose b } s
  have hoffer := offerPropose_writes { h with hop := h.hop + 1 } b s
  have hstore : (passed { header := h, body := .propose b } s).store = (offerPropose { h with hop := h.hop + 1 } b s).2.store :=
    hpassed.at .store
  have hbody : (consume (raiseHop (parcelNorm { header := h, body := .propose b })) s).1
      = .propose (offerPropose { h with hop := h.hop + 1 } b s).1 := rfl
  rw [hbody] at hforward
  have hw : Writes [.insertion, .store] s (passed { header := h, body := .propose b } s) := hoffer.mono.trans hpassed.mono
  refine ⟨hw, fun hon haddr => ⟨fun p hfound => ?_, fun hnone hroom => ?_, fun hnone hfull => ?_⟩, fun hoff => ?_⟩
  · have heq := offerPropose_of_found (h := { h with hop := h.hop + 1 }) hon haddr hfound
    rw [heq] at hforward hstore
    exact ⟨hforward, hstore⟩
  · have heq := offerPropose_of_room (h := { h with hop := h.hop + 1 }) hon haddr hnone hroom
    rw [heq] at hforward hstore
    rw [hstore]
    have hentered := fun hu : UpdatesOk s => entered_insertHeld (now s) h.origin b.seq b.edits hu.storeKeys hroom
    refine ⟨hforward, findRecord_insertHeld (now s) b.edits (findRecord_eq_none hnone), fun hlt p hmem => ?_, hentered,
      fun hu p hmem hgone => ?_⟩
    · show p ∈ insertHeld _ _ _ _ _
      rw [insertHeld, if_pos hlt]
      exact List.mem_append_left _ hmem
    · exact (hentered hu).evicted hmem hgone
  · have heq := offerPropose_of_full (h := { h with hop := h.hop + 1 }) hon haddr hnone hfull
    rw [heq] at hforward hstore
    exact ⟨hforward, hstore⟩
  · have heq := offerPropose_of_off (h := { h with hop := h.hop + 1 }) (b := b) hoff
    rw [heq] at hforward hstore
    exact ⟨hforward, hstore⟩

/-! ## COMMIT and WITHDRAW at the store (R117, R118, R120) -/

section

variable {h : Header} {q : Seq} {F : Frame} {s : State}

theorem offerCommit_of_off (hoff : onRing s.member.state = false ∨ (h.target ≠ 0 ∧ h.target ≠ own s)) : offerCommit h q F s = s := by
  rw [offerCommit, offered_eq_false hoff, if_neg Bool.false_ne_true]

theorem offerCommit_of_found (hon : onRing s.member.state = true) (haddr : h.target = 0 ∨ h.target = own s)
    (hp : findRecord h.origin q s.store ≠ none) :
    offerCommit h q F s = { s with store := setHeld h.origin q (.scheduled F) s.store } := by
  obtain ⟨p, hp⟩ := Option.ne_none_iff_exists'.mp hp
  rw [offerCommit, offered_eq_true hon haddr, if_pos rfl, hp]

theorem offerCommit_of_missed (hon : onRing s.member.state = true) (hstate : s.member.state ≠ .joining)
    (haddr : h.target = 0 ∨ h.target = own s) (hp : findRecord h.origin q s.store = none) :
    offerCommit h q F s = { s with member.mark := some (markAfter s.member.mark F) } := by
  have htakes : takesMissedCommit s.member.state = true := by
    revert hon hstate
    cases s.member.state <;> decide
  rw [offerCommit, offered_eq_true hon haddr, if_pos rfl, hp]
  exact if_pos htakes

theorem offerCommit_of_joining (hstate : s.member.state = .joining) (hp : findRecord h.origin q s.store = none) :
    offerCommit h q F s = s := by
  rw [offerCommit, hp, hstate]
  exact ite_self _

theorem offerWithdraw_of_addressed (haddr : h.target = 0 ∨ h.target = own s) :
    offerWithdraw h q s = { s with store := removeHeld h.origin q s.store } := if_pos (addressed_iff.mpr haddr)

theorem offerWithdraw_of_off (h1 : h.target ≠ 0) (h2 : h.target ≠ own s) : offerWithdraw h q s = s := by
  rw [offerWithdraw, addressed_eq_false_iff.mpr ⟨h1, h2⟩, if_neg Bool.false_ne_true]

end

theorem markAfter_of_not_later {M F : Frame} (h : later F M = false) : markAfter (some M) F = M := by
  rw [markAfter, h, if_neg Bool.false_ne_true]

theorem markAfter_of_later {M F : Frame} (h1 : later F M = true) (h2 : later M F = false) : markAfter (some M) F = F := by
  rw [markAfter, if_pos h1, h2, if_neg Bool.false_ne_true]

theorem markAfter_or (M F : Frame) : markAfter (some M) F = F ∨ markAfter (some M) F = M := by
  unfold markAfter
  dsimp only
  split
  · split
    · split
      · exact Or.inl rfl
      · exact Or.inr rfl
    · exact Or.inl rfl
  · exact Or.inr rfl

theorem mark_writes (m : Option Frame) (s : State) : Writes [.mark] s { s with member.mark := m } := by
  intro f hf
  cases f with
  | mark => exact absurd hf (by decide)
  | _ => rfl

/-- A COMMIT or WITHDRAW passes the check where the other does. -/
theorem Passes.commit {s : State} {h : Header} {q : Seq} (F : Frame) (hp : Passes s { header := h, body := .withdraw q }) :
    Passes s { header := h, body := .commit q F } := hp

/-- Settles O46. -/
theorem commitAndWithdrawTaken : Obligations.CommitAndWithdrawTaken := by
  intro s h q F hp
  constructor
  · refine answers_of_passes (hp.commit F) ?_
    have hforward := forwarded_passed { header := h, body := .commit q F } s
    have hpassed : Writes [.insertion] (offerCommit { h with hop := h.hop + 1 } q F s) (passed { header := h, body := .commit q F } s) :=
      passed_writes _ _
    generalize passed { header := h, body := .commit q F } s = t at *
    refine ⟨hforward, fun hon haddr hfound => ?_, fun hon hstate haddr hnone => ?_, fun hoff => ?_⟩
    · rw [offerCommit_of_found (h := { h with hop := h.hop + 1 }) hon haddr hfound] at hpassed
      exact ⟨hpassed.at .store, (store_writes s _).mono.trans hpassed.mono⟩
    · rw [offerCommit_of_missed (h := { h with hop := h.hop + 1 }) hon hstate haddr hnone] at hpassed
      have hmark : t.member.mark = some (markAfter s.member.mark F) := hpassed.at .mark
      refine ⟨fun hm => ?_, fun M hm h1 => ?_, fun M hm h1 h2 => ?_, fun M hm _ _ => ?_, (mark_writes _ s).mono.trans hpassed.mono⟩
      · rw [hmark, hm]
        rfl
      · rw [hmark, hm, markAfter_of_not_later h1]
      · rw [hmark, hm, markAfter_of_later h1 h2]
      · rw [hmark, hm]
        exact (markAfter_or M F).imp (congrArg some) (congrArg some)
    · have hstay : offerCommit { h with hop := h.hop + 1 } q F s = s := by
        rcases hoff with hoff | ⟨hstate, hnone⟩ | hoff
        · exact offerCommit_of_off (Or.inl hoff)
        · exact offerCommit_of_joining hstate hnone
        · exact offerCommit_of_off (Or.inr hoff)
      rw [hstay] at hpassed
      exact hpassed
  · refine answers_of_passes hp ?_
    have hforward := forwarded_passed { header := h, body := .withdraw q } s
    have hpassed : Writes [.insertion] (offerWithdraw { h with hop := h.hop + 1 } q s) (passed { header := h, body := .withdraw q } s) :=
      passed_writes _ _
    generalize passed { header := h, body := .withdraw q } s = t at *
    refine ⟨hforward, fun haddr => ?_, fun h1 h2 => ?_, (offerWithdraw_writes _ q s).mono.trans hpassed.mono⟩
    · rw [offerWithdraw_of_addressed (h := { h with hop := h.hop + 1 }) haddr] at hpassed
      exact hpassed.at .store
    · rw [offerWithdraw_of_off (h := { h with hop := h.hop + 1 }) h1 h2] at hpassed
      exact hpassed.at .store

/-! ## SNAPSHOT_REQ at the responder (R129) -/

/-- What admits a requester (R129). -/
def Admitted (h : Header) (s : State) : Prop :=
  s.member.state = .inService ∧ h.target = own s ∧ isPresent h.origin s = true ∧ h.origin ∉ s.snap.queue ∧ s.snap.queue.length < 4

theorem offerSnapshotReq_of_admitted {h : Header} {s : State} (ha : Admitted h s) :
    offerSnapshotReq h s = { s with
      snap.queue := s.snap.queue ++ [h.origin], snap.progress := if s.snap.queue = [] then some 0 else s.snap.progress } := by
  obtain ⟨hstate, htarget, hpresent, hnew, hroom⟩ := ha
  rw [offerSnapshotReq, if_pos ⟨hstate, htarget⟩, if_neg (by rw [hpresent]; exact Bool.true_eq_false_eq_False),
    if_neg (by rw [List.contains_iff_mem]; exact hnew), if_neg (Nat.not_le.mpr hroom)]

theorem offerSnapshotReq_of_not_admitted {h : Header} {s : State} (ha : ¬ Admitted h s) : offerSnapshotReq h s = s := by
  unfold offerSnapshotReq
  split
  case isFalse => rfl
  case isTrue hserves =>
    split
    · rfl
    · split
      · rfl
      · split
        · rfl
        case isFalse hpresent hnew hroom =>
          exact absurd ⟨hserves.1, hserves.2, Bool.eq_true_of_not_eq_false hpresent, by rwa [List.contains_iff_mem] at hnew,
            Nat.lt_of_not_le hroom⟩ ha

theorem responder_writes (q : List StationNo) (p : Option Nat) (s : State) :
    Writes [.responder, .progress] s { s with snap.queue := q, snap.progress := p } := by
  intro f hf
  cases f with
  | responder | progress => exact absurd hf (by decide)
  | _ => rfl

/-- Settles O47. -/
theorem snapshotReqAdmitted : Obligations.SnapshotReqAdmitted := by
  intro s h hp
  refine answers_of_passes hp ?_
  have hforward := forwarded_passed { header := h, body := .snapshotReq } s
  have hpassed : Writes [.insertion] (offerSnapshotReq { h with hop := h.hop + 1 } s) (passed { header := h, body := .snapshotReq } s) :=
    passed_writes _ _
  generalize passed { header := h, body := .snapshotReq } s = t at *
  refine ⟨hforward, fun hstate htarget hpresent hnew hroom => ?_, fun hnot => ?_⟩
  · rw [offerSnapshotReq_of_admitted (h := { h with hop := h.hop + 1 }) ⟨hstate, htarget, hpresent, hnew, hroom⟩] at hpassed
    exact ⟨hpassed.at .responder, hpassed.at .progress, (responder_writes _ _ s).mono.trans hpassed.mono⟩
  · rw [offerSnapshotReq_of_not_admitted (h := { h with hop := h.hop + 1 }) hnot] at hpassed
    exact hpassed

/-! ## SNAPSHOT at the collector (R136, R137) -/

theorem mayStage_iff {h : Header} {b : SnapshotBody} {c : Collector} {s : State} :
    mayStage h b c s = true ↔ h.target = own s ∧ c.target = some h.origin ∧ (∀ x ∈ c.parts, x.number ≠ b.part.toNat)
      ∧ b.entries.map (·.index.toNat) = partIndices b.part.toNat := by
  rw [mayStage, Bool.and_eq_true, Bool.and_eq_true, Bool.and_eq_true, decide_eq_true_iff, decide_eq_true_iff, decide_eq_true_iff,
    Bool.not_eq_true', staged, List.any_eq_false, and_assoc, and_assoc]
  simp only [beq_iff_eq, ne_eq]

theorem offerSnapshot_of_idle {h : Header} {b : SnapshotBody} {s : State} (hc : s.snap.collector = none) : offerSnapshot h b s = s := by
  rw [offerSnapshot, hc]

theorem offerSnapshot_of_unfit {h : Header} {b : SnapshotBody} {s : State} {c : Collector} (hc : s.snap.collector = some c)
    (hno : ¬ mayStage h b c s = true) : offerSnapshot h b s = s := by
  rw [offerSnapshot, hc]
  exact if_neg hno

/-- The part that a body stages. -/
def partIn (b : SnapshotBody) : Part := { number := b.part.toNat, build := b.build, entries := b.entries }

theorem offerSnapshot_of_ninth {h : Header} {b : SnapshotBody} {s : State} {c : Collector} (hc : s.snap.collector = some c)
    (hmay : mayStage h b c s = true) (hlast : (addPart (partIn b) c.parts).length = 9) :
    offerSnapshot h b s = { s with snap.collector := none, table.slot := some (addPart (partIn b) c.parts) } := by
  rw [offerSnapshot, hc]
  dsimp only
  rw [if_pos hmay]
  exact if_pos hlast

theorem offerSnapshot_of_part {h : Header} {b : SnapshotBody} {s : State} {c : Collector} (hc : s.snap.collector = some c)
    (hmay : mayStage h b c s = true) (hmore : (addPart (partIn b) c.parts).length ≠ 9) :
    offerSnapshot h b s = { s with snap.collector := some { c with parts := addPart (partIn b) c.parts } } := by
  rw [offerSnapshot, hc]
  dsimp only
  rw [if_pos hmay]
  exact if_neg hmore

theorem addPart_perm (x : Part) (ps : List Part) : (addPart x ps).Perm (x :: ps) := insertBefore_perm _ _ _

theorem collected_writes (c : Option Collector) (ps : Option (List Part)) (s : State) :
    Writes [.collector, .slot] s { s with snap.collector := c, table.slot := ps } := by
  intro f hf
  cases f with
  | collector | slot => exact absurd hf (by decide)
  | _ => rfl

/-- A body with its stamps of origin 0 held as null (R177). -/
def normalised (b : SnapshotBody) : SnapshotBody := { b with entries := b.entries.map (fun e => { e with stamp := stampNorm e.stamp }) }

theorem normalised_indices (b : SnapshotBody) : (normalised b).entries.map (·.index.toNat) = b.entries.map (·.index.toNat) := by
  rw [normalised, List.map_map]
  rfl

/-- Settles O48. -/
theorem snapshotPartStaged : Obligations.SnapshotPartStaged := by
  intro s h b hp
  refine answers_of_passes hp ?_
  have hforward := forwarded_passed { header := h, body := .snapshot b } s
  have hpassed : Writes [.insertion] (offerSnapshot { h with hop := h.hop + 1 } (normalised b) s)
      (passed { header := h, body := .snapshot b } s) := passed_writes _ _
  generalize passed { header := h, body := .snapshot b } s = t at *
  have hmay : ∀ c, mayStage { h with hop := h.hop + 1 } (normalised b) c s = true ↔ h.target = own s ∧ c.target = some h.origin
      ∧ (∀ x ∈ c.parts, x.number ≠ b.part.toNat) ∧ b.entries.map (·.index.toNat) = partIndices b.part.toNat := by
    intro c
    rw [mayStage_iff, normalised_indices]
    exact Iff.rfl
  refine ⟨hforward, fun hc => ?_, fun c hc hno => ?_, fun c hc htarget hfrom hnew hindices => ?_⟩
  · rw [offerSnapshot_of_idle hc] at hpassed
    exact hpassed
  · rw [offerSnapshot_of_unfit hc (mt (hmay c).mp hno)] at hpassed
    exact hpassed
  · have hstages := (hmay c).mpr ⟨htarget, hfrom, hnew, hindices⟩
    have hperm := addPart_perm (partIn (normalised b)) c.parts
    have hlength : (addPart (partIn (normalised b)) c.parts).length = c.parts.length + 1 := hperm.length_eq
    by_cases hlast : c.parts.length + 1 = 9
    · rw [offerSnapshot_of_ninth hc hstages (hlength.trans hlast)] at hpassed
      exact ⟨_, hperm, fun _ => ⟨hpassed.at .collector, hpassed.at .slot⟩, fun h => absurd hlast h,
        (collected_writes none _ s).mono.trans hpassed.mono⟩
    · rw [offerSnapshot_of_part hc hstages (by rw [hlength]; exact hlast)] at hpassed
      exact ⟨_, hperm, fun h => absurd h hlast, fun _ => ⟨hpassed.at .collector, hpassed.at .slot⟩,
        (collected_writes (some _) s.table.slot s).mono.trans hpassed.mono⟩

end Sys2Proof.Machine
end

