-- ==== Sys2Proof/Proofs/BadParcels.lean ====
section
/-! SUPPORT. Proofs/BadParcels.lean: the parcels that are counted and not forwarded, and those of the own number that a listening station
meets (R36, R37, R40, R41, R43). No consumer reads the insertion buffer. -/

namespace Sys2Proof.Machine

set_option Elab.async false

/-! ## The insertion buffer is not read by a consumer -/

/-- The state with these parcels in the insertion buffer. -/
def setInsertion (ws : List Waiting) (s : State) : State := { s with ring.insertion := ws }

/-- What f does to the rest does not depend on the insertion buffer. -/
def InsertionBlind (f : State → State) : Prop := ∀ ws s, f (setInsertion ws s) = setInsertion ws (f s)

/-- The same of an operation with a result beside the state. -/
def PairBlind {α : Type} (f : State → State × α) : Prop := ∀ ws s, f (setInsertion ws s) = (setInsertion ws (f s).1, (f s).2)

theorem InsertionBlind.comp {f g : State → State} (hf : InsertionBlind f) (hg : InsertionBlind g) : InsertionBlind (fun s => f (g s)) :=
  fun ws s => (congrArg f (hg ws s)).trans (hf ws (g s))

/-- A choice by a condition that does not read the insertion buffer. -/
theorem InsertionBlind.ite {c : State → Prop} [∀ s, Decidable (c s)] {f g : State → State} (hc : ∀ ws s, c (setInsertion ws s) ↔ c s)
    (hf : InsertionBlind f) (hg : InsertionBlind g) : InsertionBlind (fun s => if c s then f s else g s) :=
  fun ws s => (if_congr (hc ws s) (hf ws s) (hg ws s)).trans (apply_ite (setInsertion ws) (c s) (f s) (g s)).symm

theorem blind_id : InsertionBlind id := fun _ _ => rfl

theorem blind_report (r : Report) : InsertionBlind (report r) := fun _ _ => rfl

theorem blind_event (e : Event) : InsertionBlind (event e) := fun _ _ => rfl

theorem blind_clearResponder : InsertionBlind clearResponder := fun _ _ => rfl

theorem blind_dropRequester (n : StationNo) : InsertionBlind (dropRequester n) := fun _ _ => rfl

/-- The transmit queue after a parcel is offered to it. -/
def joined (p : Parcel) (s : State) : State := { s with ring.transmit := (transmitJoin p s.ring.transmit).getD s.ring.transmit }

theorem queueParcel_eq_ite (p : Parcel) (s : State) : queueParcel p s = if bypass s then s else joined p s := by
  unfold queueParcel joined
  cases transmitJoin p s.ring.transmit <;> rfl

theorem blind_queueParcel (p : Parcel) : InsertionBlind (queueParcel p) := by
  intro ws s
  rw [queueParcel_eq_ite, queueParcel_eq_ite]
  exact InsertionBlind.ite (c := fun s => bypass s = true) (g := joined p) (fun _ _ => Iff.rfl) blind_id (fun _ _ => rfl) ws s

theorem blind_queueBody (n : StationNo) (b : Body) : InsertionBlind (queueBody n b) := fun ws s => blind_queueParcel (ownParcel s n b) ws s

theorem blind_requestSnapshot (target : Option StationNo) : InsertionBlind (requestSnapshot target) := by
  intro ws s
  cases target with
  | none => rfl
  | some n => exact blind_queueBody n .snapshotReq ws s

/-- The collector in this state. -/
def withCollector (c : Option Collector) (s : State) : State := { s with snap.collector := c }

theorem blind_beginCollection : InsertionBlind beginCollection := fun ws s => blind_requestSnapshot s.member.tableRef ws
  (withCollector (some { target := s.member.tableRef, attempt := 1, deadline := now s + 6, parts := [] }) s)

theorem blind_failAttempt (c : Collector) (ref : Option StationNo) : PairBlind (failAttempt c ref) := by
  intro ws s
  unfold failAttempt
  split
  · exact congrArg (·, false) (blind_requestSnapshot ref ws
      (withCollector (some { target := ref, attempt := c.attempt + 1, deadline := now s + 6, parts := [] }) s))
  · rfl

/-- The collector told of a change of table reference, while it is idle, while it waits for one, and while it asks one (R139). -/
theorem collectorRefChange_of_idle {ref : Option StationNo} {s : State} (h : s.snap.collector = none) :
    collectorRefChange ref s = (s, false) := by rw [collectorRefChange, h]

theorem collectorRefChange_of_waiting {ref : Option StationNo} {s : State} {c : Collector} (h : s.snap.collector = some c)
    (ht : c.target = none) : collectorRefChange ref s = match ref with
      | none => (s, false)
      | some r => (requestSnapshot (some r) (withCollector (some { c with target := some r, deadline := now s + 6 }) s), false) := by
  rw [collectorRefChange, h]
  dsimp only
  rw [ht]
  cases ref <;> rfl

theorem collectorRefChange_of_asking {ref : Option StationNo} {s : State} {c : Collector} {t : StationNo} (h : s.snap.collector = some c)
    (ht : c.target = some t) : collectorRefChange ref s = if some t = ref then (s, false) else failAttempt c ref s := by
  rw [collectorRefChange, h]
  dsimp only
  rw [ht]
  cases ref with
  | none => rfl
  | some r => exact if_congr (Option.some_inj).symm rfl rfl

theorem blind_collectorRefChange (ref : Option StationNo) : PairBlind (collectorRefChange ref) := by
  intro ws s
  cases h : s.snap.collector with
  | none => rw [collectorRefChange_of_idle h, collectorRefChange_of_idle (s := setInsertion ws s) h]
  | some c =>
    cases ht : c.target with
    | none =>
      rw [collectorRefChange_of_waiting h ht, collectorRefChange_of_waiting (s := setInsertion ws s) h ht]
      cases ref with
      | none => rfl
      | some r => exact congrArg (·, false) (blind_requestSnapshot (some r) ws
          (withCollector (some { c with target := some r, deadline := now s + 6 }) s))
    | some t =>
      rw [collectorRefChange_of_asking h ht, collectorRefChange_of_asking (s := setInsertion ws s) h ht]
      split
      · rfl
      · exact blind_failAttempt c ref ws s

theorem blind_lockRefChange (ref : Option StationNo) : InsertionBlind (lockRefChange ref) :=
  InsertionBlind.ite (c := fun s => ref = some (own s))
    (f := fun s => requestBlanking (nominal s) { s with lock := { state := .reference, ref := ref, offset := none } })
    (g := fun s => { s with lock := { state := .free, ref := ref, offset := none } })
    (fun _ _ => Iff.rfl) (fun _ _ => rfl) (fun _ _ => rfl)

/-- The references computed, and the mismatch streak with them. -/
def refsTaken (s : State) : State :=
  { s with member.tableRef := computeTableRef s, member.timingRef := computeTimingRef s,
           member.mismatch := if computeTableRef s = s.member.tableRef then s.member.mismatch else 0 }

theorem blind_refsSet : InsertionBlind refsSet :=
  InsertionBlind.ite (c := fun s => computeTimingRef s = s.member.timingRef) (f := refsTaken)
    (g := fun s => lockRefChange (computeTimingRef s) (refsTaken s)) (fun _ _ => Iff.rfl) (fun _ _ => rfl)
    (fun ws s => blind_lockRefChange (computeTimingRef s) ws (refsTaken s))

theorem recomputeOnce_setInsertion (ws : List Waiting) (s : State) :
    recomputeOnce (setInsertion ws s) = { recomputeOnce s with state := setInsertion ws (recomputeOnce s).state } := by
  have hset := blind_refsSet ws s
  have htold := blind_collectorRefChange (computeTableRef s) ws (refsSet s)
  have htable : computeTableRef (setInsertion ws s) = computeTableRef s := rfl
  have hmember : (setInsertion ws s).member = s.member := rfl
  rw [recomputeOnce_eq, recomputeOnce_eq, hset, htable, hmember, htold]
  split <;> rfl

theorem blind_enterInService : InsertionBlind enterInService := by
  intro ws s
  rw [enterInService_eq, enterInService_eq]
  show (recomputeOnce (setInsertion ws (inServiceWith s))).state = _
  rw [recomputeOnce_setInsertion]

theorem blind_testService : InsertionBlind testService :=
  InsertionBlind.ite (c := fun s => s.member.state = .catchingUp ∧ installDone s = true ∧ lockServes s.lock.state = true) (f := served)
    (fun _ _ => Iff.rfl) ((blind_event _).comp (blind_enterInService.comp fun _ _ => rfl)) blind_id

theorem blind_thirdFailure : InsertionBlind thirdFailure := by
  have hbackoff : InsertionBlind (fun s => { s with member.backoff := 16 }) := fun _ _ => rfl
  intro ws s
  have hstate : (setInsertion ws s).member.state = s.member.state := rfl
  cases h : s.member.state with
  | catchingUp => rw [thirdFailure_catchingUp h, thirdFailure_catchingUp (hstate.trans h)]; rfl
  | resync =>
    rw [thirdFailure_resync h, thirdFailure_resync (hstate.trans h)]
    exact (blind_event _).comp (blind_enterInService.comp hbackoff) ws s
  | ringHold => rw [thirdFailure_ringHold h, thirdFailure_ringHold (hstate.trans h)]; rfl
  | offRing | listening | joining | inService | isolated =>
    rw [thirdFailure, thirdFailure, hstate, h]

theorem blind_recompute : InsertionBlind recompute := by
  intro ws s
  unfold recompute
  rw [recomputeOnce_setInsertion]
  dsimp only
  have htest : (if (recomputeOnce s).lockChanged = true then testService (setInsertion ws (recomputeOnce s).state)
      else setInsertion ws (recomputeOnce s).state)
      = setInsertion ws (if (recomputeOnce s).lockChanged = true then testService (recomputeOnce s).state else (recomputeOnce s).state) := by
    rw [blind_testService, apply_ite (setInsertion ws)]
  rw [htest, blind_thirdFailure]
  exact (apply_ite (setInsertion ws) _ _ _).symm

theorem blind_enterResync (cause : ResyncCause) : InsertionBlind (enterResync cause) :=
  blind_beginCollection.comp (blind_recompute.comp ((blind_event _).comp (blind_clearResponder.comp fun _ _ => rfl)))

/-- A re-adoption of the frame number (R84). -/
def slipped (E : Frame) (d : Int) (s : State) : State :=
  if s.member.state = .inService then event (.frameSlip (now s) E d) (countFrameSlip { s with raster.frame := E })
  else countFrameSlip { s with raster.frame := E }

theorem blind_slipped (E : Frame) (d : Int) : InsertionBlind (slipped E d) :=
  InsertionBlind.ite (c := fun s => s.member.state = .inService)
    (f := fun s => event (.frameSlip (now s) E d) (countFrameSlip { s with raster.frame := E }))
    (g := fun s => countFrameSlip { s with raster.frame := E }) (fun _ _ => Iff.rfl) (fun _ _ => rfl) (fun _ _ => rfl)

theorem adopt_of_free {F : Frame} {d : Int} {s : State} (h : s.lock.state = .free) :
    adopt F d s = { s with raster.frame := ownFrameOf F d } := by rw [adopt, h]

theorem adopt_of_measured {F : Frame} {d : Int} {s : State} (h : s.lock.state = .slewing ∨ s.lock.state = .locked) :
    adopt F d s = if ownFrameOf F d = now s then s else slipped (ownFrameOf F d) d s := by
  rcases h with h | h <;> rw [adopt, h] <;> rfl

theorem adopt_of_reference {F : Frame} {d : Int} {s : State} (h : s.lock.state = .reference) : adopt F d s = s := by rw [adopt, h]

theorem blind_adopt (F : Frame) (d : Int) : InsertionBlind (adopt F d) := by
  have hmeasured : InsertionBlind (fun s => if ownFrameOf F d = now s then s else slipped (ownFrameOf F d) d s) :=
    InsertionBlind.ite (c := fun s => ownFrameOf F d = now s) (f := id) (fun _ _ => Iff.rfl) blind_id (blind_slipped _ d)
  intro ws s
  have hlock : (setInsertion ws s).lock.state = s.lock.state := rfl
  cases h : s.lock.state with
  | free => rw [adopt_of_free h, adopt_of_free (hlock.trans h)]; rfl
  | slewing =>
    rw [adopt_of_measured (Or.inl h), adopt_of_measured (Or.inl (hlock.trans h))]
    exact hmeasured ws s
  | locked =>
    rw [adopt_of_measured (Or.inr h), adopt_of_measured (Or.inr (hlock.trans h))]
    exact hmeasured ws s
  | reference => rw [adopt_of_reference h, adopt_of_reference (hlock.trans h)]

/-- The Lock Unit's part of a measurement (R82 to R85). -/
def lockMeasured (F : Frame) (s : State) : State :=
  let d := offsetOf s.raster.line (totalLines s)
  requestBlanking (blankingOf (nominal s) d) { adopt F d { s with lock.offset := some d } with lock.state := lockOf d }

theorem measure_of_reference {F : Frame} {s : State} (h : s.lock.state = .reference) : measure F s = s := if_pos h

theorem measure_of_other {F : Frame} {s : State} (h : s.lock.state ≠ .reference) :
    measure F s = if (lockMeasured F s).lock.state = s.lock.state then lockMeasured F s else testService (lockMeasured F s) := if_neg h

theorem blind_lockMeasured (F : Frame) : InsertionBlind (lockMeasured F) := by
  intro ws s
  have hadopt := blind_adopt F (offsetOf s.raster.line (totalLines s)) ws
    { s with lock.offset := some (offsetOf s.raster.line (totalLines s)) }
  exact congrArg (fun u : State => requestBlanking (blankingOf (nominal s) (offsetOf s.raster.line (totalLines s)))
    { u with lock.state := lockOf (offsetOf s.raster.line (totalLines s)) }) hadopt

theorem blind_measure (F : Frame) : InsertionBlind (measure F) := by
  intro ws s
  have hlock : (setInsertion ws s).lock.state = s.lock.state := rfl
  by_cases h : s.lock.state = .reference
  · rw [measure_of_reference h, measure_of_reference (hlock.trans h)]
  · rw [measure_of_other h, measure_of_other (s := setInsertion ws s) h, blind_lockMeasured, blind_testService,
      apply_ite (setInsertion ws)]
    rfl

theorem compareDigest_of_off {dg : Option (Frame × Digest)} {s : State}
    (h : s.member.state ≠ .inService ∨ s.member.tableRef = some (own s) ∨ 0 < s.member.backoff) : compareDigest dg s = s := if_pos h

/-- The comparison of the beacon's digest with the own one of its frame (R75). -/
def comparedDigests (differ : Bool) (s : State) : State :=
  if differ = false then { s with member.mismatch := 0 }
  else if s.member.mismatch + 1 < 2 then { s with member.mismatch := s.member.mismatch + 1 }
  else enterResync .digest s

theorem compareDigest_of_none {dg : Option (Frame × Digest)} {s : State}
    (h : dg.bind (fun x => digestFor x.1 s) = none) : compareDigest dg s = s := by
  unfold compareDigest
  split
  · rfl
  · cases dg with
    | none => rfl
    | some x =>
      obtain ⟨F, d⟩ := x
      dsimp only
      rw [show digestFor F s = none from h]

theorem compareDigest_of_some {F : Frame} {d mine : Digest} {s : State}
    (h : ¬ (s.member.state ≠ .inService ∨ s.member.tableRef = some (own s) ∨ 0 < s.member.backoff)) (hmine : digestFor F s = some mine) :
    compareDigest (some (F, d)) s = comparedDigests (decide (d ≠ mine)) s := by
  rw [compareDigest, if_neg h]
  dsimp only
  rw [hmine, comparedDigests]
  dsimp only
  exact if_congr (by rw [decide_eq_false_iff_not, not_not]) rfl rfl

theorem blind_comparedDigests (differ : Bool) : InsertionBlind (comparedDigests differ) :=
  InsertionBlind.ite (c := fun _ => differ = false) (f := fun s => { s with member.mismatch := 0 })
    (g := fun s => if s.member.mismatch + 1 < 2 then { s with member.mismatch := s.member.mismatch + 1 } else enterResync .digest s)
    (fun _ _ => Iff.rfl) (fun _ _ => rfl)
    (InsertionBlind.ite (c := fun s => s.member.mismatch + 1 < 2) (f := fun s => { s with member.mismatch := s.member.mismatch + 1 })
      (fun _ _ => Iff.rfl) (fun _ _ => rfl) (blind_enterResync .digest))

theorem blind_compareDigest (dg : Option (Frame × Digest)) : InsertionBlind (compareDigest dg) := by
  intro ws s
  by_cases hoff : s.member.state ≠ .inService ∨ s.member.tableRef = some (own s) ∨ 0 < s.member.backoff
  · rw [compareDigest_of_off hoff, compareDigest_of_off (s := setInsertion ws s) hoff]
  · cases hmine : dg.bind (fun x => digestFor x.1 s) with
    | none => rw [compareDigest_of_none hmine, compareDigest_of_none (s := setInsertion ws s) hmine]
    | some mine =>
      obtain ⟨⟨F, d⟩, rfl, hdigest⟩ := Option.bind_eq_some_iff.mp hmine
      rw [compareDigest_of_some hoff hdigest, compareDigest_of_some (s := setInsertion ws s) hoff hdigest]
      exact blind_comparedDigests _ ws s

/-! ## The consumers -/

/-- The measurement on a beacon of the timing reference. -/
def measuredFrom (n : StationNo) (F : Frame) (s : State) : State := if s.member.timingRef = some n then measure F s else s

/-- The comparison on a beacon of the table reference. -/
def comparedWith (n : StationNo) (dg : Option (Frame × Digest)) (s : State) : State :=
  if s.member.tableRef = some n then compareDigest dg s else s

theorem offerBeacon_of_off {h : Header} {b : BeaconBody} {s : State} (hoff : addressed h.target s = false ∨ h.origin = own s) :
    offerBeacon h b s = s := if_pos hoff

theorem offerBeacon_of {h : Header} {b : BeaconBody} {s : State} (hoff : ¬ (addressed h.target s = false ∨ h.origin = own s)) :
    offerBeacon h b s = comparedWith h.origin b.digest (measuredFrom h.origin b.frame (recompute (heardFrom h b s))) := if_neg hoff

theorem blind_measuredFrom (n : StationNo) (F : Frame) : InsertionBlind (measuredFrom n F) :=
  InsertionBlind.ite (c := fun s => s.member.timingRef = some n) (fun _ _ => Iff.rfl) (blind_measure F) blind_id

theorem blind_comparedWith (n : StationNo) (dg : Option (Frame × Digest)) : InsertionBlind (comparedWith n dg) :=
  InsertionBlind.ite (c := fun s => s.member.tableRef = some n) (fun _ _ => Iff.rfl) (blind_compareDigest dg) blind_id

theorem blind_offerBeacon (h : Header) (b : BeaconBody) : InsertionBlind (offerBeacon h b) := by
  intro ws s
  by_cases hoff : addressed h.target s = false ∨ h.origin = own s
  · rw [offerBeacon_of_off hoff, offerBeacon_of_off (s := setInsertion ws s) hoff]
  · rw [offerBeacon_of hoff, offerBeacon_of (s := setInsertion ws s) hoff]
    have hheard : heardFrom h b (setInsertion ws s) = setInsertion ws (heardFrom h b s) := rfl
    rw [hheard, blind_recompute, blind_measuredFrom, blind_comparedWith]

/-- A consumer gives the body that goes on, and the state. -/
def ConsumerBlind {α : Type} (f : State → α × State) : Prop := ∀ ws s, f (setInsertion ws s) = ((f s).1, setInsertion ws (f s).2)

/-- The entry of a joiner, its last digest kept (R60). -/
def joinEntry (n : StationNo) (s : State) : StationEntry :=
  { state := .joining, missed := 0, heard := true, digest := (findStation n s.member.stations).bind (·.digest) }

/-- A joiner heard (R60). -/
def joinHeard (n : StationNo) (s : State) : State := { s with member.stations := putStation n (joinEntry n s) s.member.stations }

/-- The body of a JOIN as it goes on (R60). -/
def joinMarked (b : JoinBody) (s : State) : JoinBody :=
  { b with mismatch := b.mismatch || (decide (b.profile ≠ s.straps.profile) || decide (b.lead ≠ s.straps.lead)) }

theorem offerJoin_of {h : Header} {b : JoinBody} {s : State} (hon : (onRing s.member.state && addressed h.target s) = true) :
    offerJoin h b s = (joinMarked b s, recompute (dropRequester h.origin (joinHeard h.origin s))) := if_pos hon

theorem offerJoin_of_off {h : Header} {b : JoinBody} {s : State} (hoff : ¬ (onRing s.member.state && addressed h.target s) = true) :
    offerJoin h b s = (b, s) := if_neg hoff

theorem blind_offerJoin (h : Header) (b : JoinBody) : ConsumerBlind (offerJoin h b) := by
  intro ws s
  by_cases hon : (onRing s.member.state && addressed h.target s) = true
  · rw [offerJoin_of hon, offerJoin_of (s := setInsertion ws s) hon]
    exact congrArg (Prod.mk _) (blind_recompute ws (dropRequester h.origin (joinHeard h.origin s)))
  · rw [offerJoin_of_off hon, offerJoin_of_off (s := setInsertion ws s) hon]

theorem blind_offerPropose (h : Header) (b : ProposeBody) : ConsumerBlind (offerPropose h b) := by
  intro ws s
  by_cases hon : onRing s.member.state = true
  · by_cases haddr : h.target = 0 ∨ h.target = own s
    · cases hfound : findRecord h.origin b.seq s.store with
      | some p => rw [offerPropose_of_found hon haddr hfound, offerPropose_of_found (s := setInsertion ws s) hon haddr hfound]; rfl
      | none =>
        rcases Nat.lt_or_ge (openCount s.store) 12 with hroom | hfull
        · rw [offerPropose_of_room hon haddr hfound hroom, offerPropose_of_room (s := setInsertion ws s) hon haddr hfound hroom]
          rfl
        · rw [offerPropose_of_full hon haddr hfound hfull, offerPropose_of_full (s := setInsertion ws s) hon haddr hfound hfull]
    · have hoff := Or.inr (a := onRing s.member.state = false) (not_or.mp haddr)
      rw [offerPropose_of_off hoff, offerPropose_of_off (s := setInsertion ws s) hoff]
  · have hoff := Or.inl (b := h.target ≠ 0 ∧ h.target ≠ own s) (Bool.eq_false_iff.mpr hon)
    rw [offerPropose_of_off hoff, offerPropose_of_off (s := setInsertion ws s) hoff]

theorem blind_offerCommit (h : Header) (q : Seq) (F : Frame) : InsertionBlind (offerCommit h q F) := by
  have hmissed : InsertionBlind (fun s => if takesMissedCommit s.member.state = true then
      { s with member.mark := some (markAfter s.member.mark F) } else s) :=
    InsertionBlind.ite (c := fun s => takesMissedCommit s.member.state = true)
      (f := fun s => { s with member.mark := some (markAfter s.member.mark F) }) (fun _ _ => Iff.rfl) (fun _ _ => rfl) blind_id
  intro ws s
  by_cases hon : (onRing s.member.state && addressed h.target s) = true
  · cases hfound : findRecord h.origin q s.store with
    | none =>
      have heq : ∀ u : State, (onRing u.member.state && addressed h.target u) = true → findRecord h.origin q u.store = none →
          offerCommit h q F u = if takesMissedCommit u.member.state = true then
            { u with member.mark := some (markAfter u.member.mark F) } else u := by
        intro u hu hn
        rw [offerCommit, if_pos hu, hn]
      rw [heq s hon hfound, heq (setInsertion ws s) hon hfound]
      exact hmissed ws s
    | some p =>
      have heq : ∀ u : State, (onRing u.member.state && addressed h.target u) = true → findRecord h.origin q u.store = some p →
          offerCommit h q F u = { u with store := setHeld h.origin q (.scheduled F) u.store } := by
        intro u hu hp
        rw [offerCommit, if_pos hu, hp]
      rw [heq s hon hfound, heq (setInsertion ws s) hon hfound]
      rfl
  · exact (if_neg (c := (onRing (setInsertion ws s).member.state && addressed h.target (setInsertion ws s)) = true) hon).trans
      (congrArg (setInsertion ws) (if_neg hon)).symm

theorem blind_offerWithdraw (h : Header) (q : Seq) : InsertionBlind (offerWithdraw h q) :=
  InsertionBlind.ite (c := fun s => addressed h.target s = true) (f := fun s => { s with store := removeHeld h.origin q s.store })
    (fun _ _ => Iff.rfl) (fun _ _ => rfl) blind_id

theorem blind_offerSnapshotReq (h : Header) : InsertionBlind (offerSnapshotReq h) := by
  intro ws s
  by_cases ha : Admitted h s
  · rw [offerSnapshotReq_of_admitted ha, offerSnapshotReq_of_admitted (s := setInsertion ws s) ha]
    rfl
  · rw [offerSnapshotReq_of_not_admitted ha, offerSnapshotReq_of_not_admitted (s := setInsertion ws s) ha]

theorem blind_offerSnapshot (h : Header) (b : SnapshotBody) : InsertionBlind (offerSnapshot h b) := by
  intro ws s
  cases hc : s.snap.collector with
  | none => rw [offerSnapshot_of_idle hc, offerSnapshot_of_idle (s := setInsertion ws s) hc]
  | some c =>
    by_cases hmay : mayStage h b c s = true
    · by_cases hlast : (addPart (partIn b) c.parts).length = 9
      · rw [offerSnapshot_of_ninth hc hmay hlast, offerSnapshot_of_ninth (s := setInsertion ws s) hc hmay hlast]
        rfl
      · rw [offerSnapshot_of_part hc hmay hlast, offerSnapshot_of_part (s := setInsertion ws s) hc hmay hlast]
        rfl
    · rw [offerSnapshot_of_unfit hc hmay, offerSnapshot_of_unfit (s := setInsertion ws s) hc hmay]

theorem blind_consume (p : Parcel) : ConsumerBlind (consume p) := by
  intro ws s
  obtain ⟨h, body⟩ := p
  cases body with
  | beacon b => exact congrArg (Prod.mk _) (blind_offerBeacon h b ws s)
  | join b => exact congrArg (fun r : JoinBody × State => (Body.join r.1, r.2)) (blind_offerJoin h b ws s)
  | propose b => exact congrArg (fun r : ProposeBody × State => (Body.propose r.1, r.2)) (blind_offerPropose h b ws s)
  | commit q F => exact congrArg (Prod.mk _) (blind_offerCommit h q F ws s)
  | withdraw q => exact congrArg (Prod.mk _) (blind_offerWithdraw h q ws s)
  | snapshotReq => exact congrArg (Prod.mk _) (blind_offerSnapshotReq h ws s)
  | snapshot b => exact congrArg (Prod.mk _) (blind_offerSnapshot h b ws s)

/-! ## The parcels that are counted (R36, R37, R40, R41, R43) -/

theorem arriveRun_of_bypass {run : List Byte} {s : State} (h : bypass s = true) : arriveRun run s = s := if_pos h

theorem arriveRun_of_cut {run : List Byte} {s : State} (h : bypass s = false) (hcut : s.ring.cut = true) : arriveRun run s = endCut s := by
  rw [arriveRun, if_neg (Bool.eq_false_iff.mp h), if_pos hcut]

theorem arriveRun_of_bad {run : List Byte} {s : State} (h : Receives s) (hrun : readRun run = none) : arriveRun run s = countCrc s := by
  rw [arriveRun, if_neg (Bool.eq_false_iff.mp (bypass_of_receives h)), if_neg (Bool.eq_false_iff.mp h.2.2), hrun]

theorem answers_arrival {p : Parcel} {s : State} {P : State → Prop} {t : State} (h : arrive p s = t) (hP : P t) :
    Answers (arrivalOf p) s P := ⟨t, (exec_arrivalOf p s).trans (congrArg _ h), hP⟩

theorem Isolated.of_same {s u t : State} (h : Isolated u t) (hr : u.member.timingRef = s.member.timingRef) (hl : u.lock = s.lock) :
    Isolated s t := by
  rw [Isolated, ← hr, ← hl]
  exact h

/-- What a parcel of the own number leaves of a listening station before its notice. -/
abbrev Field.ofListened : List Field := [.overflow, .stray, .duplicateSeen, .store, .collector, .slot]

theorem duplicateNotice_of_listening {s : State} (h : s.member.state = .listening) : duplicateNotice s = enterIsolated .duplicate s :=
  if_pos (Or.inl h)

theorem isolated_duplicateNotice {s u : State} (hstate : s.member.state = .listening) (w : Writes Field.ofListened s u) :
    Isolated s (duplicateNotice u)
      ∧ (duplicateNotice u).report = reportJoin (.event (.stateChange .isolated (some .duplicate))) (now s) u.report := by
  have hlock : u.lock = s.lock := w.lock_eq
  have hframe : now u = now s := w.at .frame
  obtain ⟨hisolated, hraised, _⟩ := isolated_enterIsolated .duplicate u
  rw [duplicateNotice_of_listening ((w.at .stationState).trans hstate), ← hframe]
  exact ⟨hisolated.of_same (w.at .timingRef) hlock, hraised⟩

theorem duplicateSeen_writes (b : Bool) (s : State) : Writes [.duplicateSeen] s { s with ring.duplicateSeen := b } := by
  intro f hf
  cases f with
  | duplicateSeen => exact absurd hf (by decide)
  | _ => rfl

theorem Writes.of_eq {fs : List Field} {s t : State} (h : t = s) : Writes fs s t := by
  rw [h]
  exact .refl s

/-- A listening station takes no parcel of its own number but for a WITHDRAW and a snapshot part. -/
theorem consume_of_listening {p : Parcel} {s : State} (hstate : s.member.state = .listening) (ho : p.header.origin = own s) :
    (consume p s).1 = p.body ∧ Writes [.store, .collector, .slot] s (consume p s).2 := by
  obtain ⟨h, body⟩ := p
  have hon : onRing s.member.state = false := by rw [hstate]; rfl
  cases body with
  | beacon b =>
    have heq : offerBeacon h b s = s := offerBeacon_of_off (Or.inr ho)
    exact ⟨rfl, .of_eq heq⟩
  | join b =>
    have heq : offerJoin h b s = (b, s) := offerJoin_of_off (by rw [hon]; exact Bool.false_ne_true)
    exact ⟨congrArg (fun r : JoinBody × State => Body.join r.1) heq, .of_eq (congrArg Prod.snd heq)⟩
  | propose b =>
    have heq : offerPropose h b s = (b, s) := offerPropose_of_off (Or.inl hon)
    exact ⟨congrArg (fun r : ProposeBody × State => Body.propose r.1) heq, .of_eq (congrArg Prod.snd heq)⟩
  | commit q F =>
    have heq : offerCommit h q F s = s := offerCommit_of_off (Or.inl hon)
    exact ⟨rfl, .of_eq heq⟩
  | withdraw q => exact ⟨rfl, (offerWithdraw_writes h q s).mono⟩
  | snapshotReq =>
    have heq : offerSnapshotReq h s = s := offerSnapshotReq_of_not_admitted fun ha => by
      have hserves := ha.1
      rw [hstate] at hserves
      exact absurd hserves (by decide)
    exact ⟨rfl, .of_eq heq⟩
  | snapshot b => exact ⟨rfl, (offerSnapshot_writes h b s).mono⟩

/-- An overflow leaves the consumer's state but for its count. -/
theorem countOverflow_eq {s u : State} (hi : u.ring.insertion = s.ring.insertion)
    (hc : u.report.counts.overflow = s.report.counts.overflow) (ws : List Waiting) :
    countOverflow u = { setInsertion ws u with
      ring.insertion := s.ring.insertion, report.counts.overflow := countUp s.report.counts.overflow } := by
  rw [← hi, ← hc]
  rfl

theorem ownWhileListening_of_guard {p : Parcel} {s : State} (h : s.ring.guard = true) : ownWhileListening p s = s := if_pos h

theorem ownWhileListening_of_clear {p : Parcel} {s : State} (h : s.ring.guard = false) :
    ownWhileListening p s = forward p (!s.ring.duplicateSeen) { s with ring.duplicateSeen := true } := if_neg (Bool.eq_false_iff.mp h)

/-- A parcel of the own number meets a listening station whose guard is down (R40). -/
theorem own_listening_answers {p : Parcel} {s : State} (hr : Receives s) (hstate : s.member.state = .listening) (hok : parcelOk p = true)
    (ho : p.header.origin = own s) (hguard : s.ring.guard = false) : Answers (arrivalOf p) s fun t =>
      (p.header.hop.toNat < 29 → s.ring.insertion.length < 4 →
        t.ring.duplicateSeen = true ∧ t.member.state = .listening
          ∧ t.ring.insertion = s.ring.insertion ++
              [{ parcel := { header := { p.header with hop := p.header.hop + 1 }, body := (parcelNorm p).body },
                 notice := !s.ring.duplicateSeen }])
      ∧ (29 ≤ p.header.hop.toNat → s.ring.duplicateSeen = true →
        t.report.counts.stray = countUp s.report.counts.stray ∧ Writes [.stray] s t)
      ∧ (29 ≤ p.header.hop.toNat → s.ring.duplicateSeen = false → Isolated s t
        ∧ t.report = reportJoin (.event (.stateChange .isolated (some .duplicate))) (now s)
            { s.report with counts.stray := countUp s.report.counts.stray })
      ∧ (p.header.hop.toNat < 29 → 4 ≤ s.ring.insertion.length → s.ring.duplicateSeen = true →
        t.member.state = .listening ∧ t.ring.insertion = s.ring.insertion
          ∧ t.report = { s.report with counts.overflow := countUp s.report.counts.overflow })
      ∧ (p.header.hop.toNat < 29 → 4 ≤ s.ring.insertion.length → s.ring.duplicateSeen = false →
        Isolated s t
          ∧ t.report = reportJoin (.event (.stateChange .isolated (some .duplicate))) (now s)
            { s.report with counts.overflow := countUp s.report.counts.overflow }) := by
  have harrive := (arrive_of_listening hr hok ho hstate).trans (ownWhileListening_of_clear hguard)
  have hseen := duplicateSeen_writes true s
  rcases Nat.lt_or_ge p.header.hop.toNat 29 with hhop | hhop
  · obtain ⟨hbody, hw⟩ := consume_of_listening (p := raiseHop (parcelNorm p)) (s := { s with ring.duplicateSeen := true }) hstate
      (by rw [raiseHop, parcelNorm_header]; exact ho)
    have hparcel : ({ raiseHop (parcelNorm p) with body := (raiseHop (parcelNorm p)).body } : Parcel)
        = { header := { p.header with hop := p.header.hop + 1 }, body := (parcelNorm p).body } := by
      rw [raiseHop, parcelNorm_header]
    have hnot : ∀ {P : Prop}, 29 ≤ p.header.hop.toNat → P := fun h => absurd h (Nat.not_le.mpr hhop)
    rw [forward_of_hop (by rw [parcelNorm_header]; exact hhop), hbody, hparcel] at harrive
    generalize (consume (raiseHop (parcelNorm p)) { s with ring.duplicateSeen := true }).2 = u at *
    have hins : u.ring.insertion = s.ring.insertion := hw.at .insertion
    have hlistens : u.member.state = .listening := (hw.at .stationState).trans hstate
    have hreport : u.report = s.report := hw.report_eq
    rcases Nat.lt_or_ge s.ring.insertion.length 4 with hroom | hfull
    · have hno : ∀ {P : Prop}, 4 ≤ s.ring.insertion.length → P := fun h => absurd h (Nat.not_le.mpr hroom)
      rw [insertionJoin_of_room (by rw [hins]; exact hroom), hins] at harrive
      exact answers_arrival harrive ⟨fun _ _ => ⟨hw.at .duplicateSeen, hlistens, rfl⟩, fun h => hnot h, fun h => hnot h,
        fun _ h => hno h, fun _ h => hno h⟩
    · have hno : ∀ {P : Prop}, s.ring.insertion.length < 4 → P := fun h => absurd h (Nat.not_lt.mpr hfull)
      rw [insertionJoin_of_full (by rw [hins]; exact hfull)] at harrive
      have hlistened : Writes Field.ofListened s (countOverflow u) := (hseen.mono.trans hw.mono).trans (countOverflow_writes u).mono
      have hcounted : (countOverflow u).report = { s.report with counts.overflow := countUp s.report.counts.overflow } := by
        rw [← hreport]
        rfl
      obtain ⟨hisolated, hraised⟩ := isolated_duplicateNotice hstate hlistened
      cases hd : s.ring.duplicateSeen with
      | true =>
        rw [hd] at harrive
        exact answers_arrival harrive ⟨fun _ h => hno h, fun h => hnot h, fun h => hnot h, fun _ _ _ => ⟨hlistens, hins, hcounted⟩,
          fun _ _ h => absurd h (by decide)⟩
      | false =>
        rw [hd] at harrive
        exact answers_arrival harrive ⟨fun _ h => hno h, fun h => hnot h, fun h => hnot h, fun _ _ h => absurd h (by decide),
          fun _ _ _ => ⟨hisolated, hraised.trans (congrArg _ hcounted)⟩⟩
  · have hnot : ∀ {P : Prop}, p.header.hop.toNat < 29 → P := fun h => absurd h (Nat.not_lt.mpr hhop)
    rw [forward_of_stray (by rw [parcelNorm_header]; exact hhop)] at harrive
    have hlistened : Writes Field.ofListened s (countStray { s with ring.duplicateSeen := true }) :=
      hseen.mono.trans (countStray_writes _).mono
    obtain ⟨hisolated, hraised⟩ := isolated_duplicateNotice hstate hlistened
    cases hd : s.ring.duplicateSeen with
    | true =>
      rw [hd] at harrive
      refine answers_arrival harrive ⟨fun h => hnot h, fun _ _ => ⟨rfl, ?_⟩, fun _ h => absurd h (by decide), fun h => hnot h,
        fun h => hnot h⟩
      have hsame : { s with ring.duplicateSeen := true } = s := by rw [← hd]
      exact (congrArg countStray hsame).symm ▸ countStray_writes s
    | false =>
      rw [hd] at harrive
      exact answers_arrival harrive ⟨fun h => hnot h, fun _ h => absurd h (by decide), fun _ _ => ⟨hisolated, hraised⟩, fun h => hnot h,
        fun h => hnot h⟩

/-- Settles O49. -/
theorem badParcelsCounted : Obligations.BadParcelsCounted := by
  refine ⟨fun s p run => ⟨fun hb => ?_, fun hb hcut => ?_⟩, fun s hr => ⟨fun run hrun => ?_, fun p hbad => ?_, fun p hok ho hhop => ?_,
    fun p hok ho hhop hfull => ?_, fun p hstate hok ho => ⟨fun hguard => ?_, fun hguard => ?_⟩⟩⟩
  · exact ⟨(exec_arrivalOf p s).trans (congrArg _ (arrive_of_bypass hb)), congrArg Host.Outcome.next (arriveRun_of_bypass hb)⟩
  · exact ⟨answers_arrival (arrive_of_cut hb hcut) ⟨rfl, endCut_writes s⟩,
      endCut s, congrArg Host.Outcome.next (arriveRun_of_cut hb hcut), rfl, endCut_writes s⟩
  · exact ⟨countCrc s, congrArg Host.Outcome.next (arriveRun_of_bad hr hrun), rfl, countCrc_writes s⟩
  · exact answers_arrival (arrive_of_bad hr hbad) ⟨rfl, countCrc_writes s⟩
  · refine answers_arrival (t := countStray s) ?_ ⟨rfl, countStray_writes s⟩
    rw [arrive_of_other hr hok ho, forward_of_stray (by rw [parcelNorm_header]; exact hhop), if_neg Bool.false_ne_true]
  · have hcount := countOverflow_eq (consume_insertion (raiseHop (parcelNorm p)) s)
      ((consume_writes (raiseHop (parcelNorm p)) s).at .overflow)
    have harrive := arrive_of_other hr hok ho
    have hhop' : (parcelNorm p).header.hop.toNat < 29 := by rw [parcelNorm_header]; exact hhop
    rw [forward_of_hop hhop', insertionJoin_of_full (by rw [consume_insertion]; exact hfull), if_neg Bool.false_ne_true] at harrive
    refine answers_arrival harrive ⟨(consume_writes _ s).at .overflow ▸ rfl, consume_insertion _ s, passed p (setInsertion [] s), ?_, ?_⟩
    · exact (exec_arrivalOf p _).trans (congrArg _ (arrive_of_passes ⟨hr, hok, ho, hhop, Nat.zero_lt_succ 3⟩))
    · rw [passed, blind_consume]
      exact hcount _
  · exact (exec_arrivalOf p s).trans (congrArg _ ((arrive_of_listening hr hok ho hstate).trans (ownWhileListening_of_guard hguard)))
  · exact own_listening_answers hr hstate hok ho hguard

end Sys2Proof.Machine
end

