-- ==== Sys2Proof/Proofs/UpdateReturns.lean ====
section
/-! SUPPORT. Proofs/UpdateReturns.lean: an own parcel comes back and is stripped, and what a returned PROPOSE or COMMIT brings the Origin Engine
(R38, R96 to R99, R103). -/

namespace Sys2Proof.Machine

set_option Elab.async false

/-! ## The return (R38) -/

/-- The state with the returned parcel's in-flight entry gone. -/
def stripped (p : Parcel) (s : State) : State := { s with ring.inFlight := s.ring.inFlight.eraseP (matchesFlight p) }

theorem stripped_writes (p : Parcel) (s : State) : Writes [.inFlight] s (stripped p s) := by
  intro f hf
  cases f with
  | inFlight => exact absurd hf (by decide)
  | _ => rfl

@[simp] theorem kind_parcelNorm (p : Parcel) : Body.kind (parcelNorm p).body = Body.kind p.body := by
  obtain ⟨h, body⟩ := p
  cases body <;> rfl

theorem matchesFlight_parcelNorm (p : Parcel) : matchesFlight (parcelNorm p) = matchesFlight p := by
  obtain ⟨h, body⟩ := p
  cases body <;> rfl

theorem strip_of_returned {p : Parcel} {s : State} (h : s.ring.inFlight.any (matchesFlight p) = true) :
    strip (parcelNorm p) s = deliver (parcelNorm p).body (stripped p s) := by
  rw [strip, matchesFlight_parcelNorm, if_pos h]
  rfl

theorem strip_of_foreign {p : Parcel} {s : State} (h : s.ring.inFlight.any (matchesFlight p) = false) :
    strip (parcelNorm p) s = foreignParcel (parcelNorm p) s := by
  rw [strip, matchesFlight_parcelNorm, if_neg (Bool.eq_false_iff.mp h)]

theorem arrive_of_returns {p : Parcel} {s : State} (h : Returns s p) : arrive p s = deliver (parcelNorm p).body (stripped p s) := by
  obtain ⟨hon, hok, ho, hreturned⟩ := h
  rw [arrive_of_own hon hok ho, strip_of_returned hreturned]

/-! ## The delivery by kind -/

/-- An update's parcel comes back to the Origin Engine, and no other does (R38). -/
theorem deliver_writes_origin {b : Body} (h1 : Body.kind b ≠ .beacon) (h2 : Body.kind b ≠ .join) (s : State) :
    Writes Field.ofOrigin s (deliver b s) := by
  cases b with
  | beacon b => exact absurd rfl h1
  | join b => exact absurd rfl h2
  | propose b => exact proposeReturn_writes b s
  | commit q F => exact (commitReturn_writes q F s).mono
  | withdraw q | snapshotReq | snapshot b => exact .refl s

theorem deliver_of_rest {b : Body} (h : Body.kind b = .withdraw ∨ Body.kind b = .snapshotReq ∨ Body.kind b = .snapshot) (s : State) :
    deliver b s = s := by
  cases b with
  | withdraw q | snapshotReq | snapshot b => rfl
  | beacon b | join b | propose b | commit q F => rcases h with h | h | h <;> cases h

theorem parcelNorm_of_kind {p : Parcel} (h : Body.kind p.body ≠ .snapshot) : parcelNorm p = p := by
  obtain ⟨hd, body⟩ := p
  cases body with
  | snapshot b => exact absurd rfl h
  | _ => rfl

theorem arrive_of_propose_returned {p : Parcel} {b : ProposeBody} {s : State} (h : Returns s p) (hb : p.body = .propose b) :
    arrive p s = proposeReturn b (stripped p s) := by
  rw [arrive_of_returns h, parcelNorm_of_kind (by rw [hb]; exact show Kind.propose ≠ .snapshot by decide), hb]
  rfl

theorem arrive_of_commit_returned {p : Parcel} {q : Seq} {F : Frame} {s : State} (h : Returns s p) (hb : p.body = .commit q F) :
    arrive p s = commitReturn q F (stripped p s) := by
  rw [arrive_of_returns h, parcelNorm_of_kind (by rw [hb]; exact show Kind.commit ≠ .snapshot by decide), hb]
  rfl

/-! ## The returned PROPOSE (R96 to R99) -/

theorem proposeReturn_of_other {b : ProposeBody} {s : State} (h : ∀ r, findOrigin b.seq s = some r → r.phase ≠ .proposing) :
    proposeReturn b s = s := by
  rw [proposeReturn]
  cases hq : findOrigin b.seq s with
  | none => rfl
  | some r => exact if_neg (h r hq)

theorem proposeReturn_of_accepted {b : ProposeBody} {s : State} {r : OriginRecord} (hq : findOrigin b.seq s = some r)
    (hphase : r.phase = .proposing) (hrefusals : b.refusals = 0) : proposeReturn b s = commitRound b.seq b.holders s := by
  rw [proposeReturn, hq]
  dsimp only
  rw [if_pos hphase, if_pos hrefusals]

theorem proposeReturn_of_refused {b : ProposeBody} {s : State} {r : OriginRecord} (hq : findOrigin b.seq s = some r)
    (hphase : r.phase = .proposing) (hrefusals : b.refusals ≠ 0) : proposeReturn b s = withdrawRound b.seq s := by
  rw [proposeReturn, hq]
  dsimp only
  rw [if_pos hphase, if_neg hrefusals]

/-- The record committing for frame F, from frame N on (R97). -/
def committed (F N : Frame) (holders : Byte) (r : OriginRecord) : OriginRecord :=
  { r with phase := .committing F holders, attempt := 1, deadline := N + 2 }

/-- The record withdrawn at frame N (R98). -/
def withdrawnAt (N : Frame) (r : OriginRecord) : OriginRecord := { r with phase := .withdrawn false, deadline := N + 2 }

theorem commitRound_of_held {q : Seq} {n : Byte} {s : State} (h : hasHeld (own s) q s.store = true) :
    commitRound q n s = setOrigin q (committed (now s + s.straps.lead.frames) (now s) n)
      (queueBody 0 (.commit q (now s + s.straps.lead.frames))
        (withStore (setHeld (own s) q (.scheduled (now s + s.straps.lead.frames)) s.store) s)) := by
  have hnow := now_queueBody 0 (.commit q (now s + s.straps.lead.frames))
    (withStore (setHeld (own s) q (.scheduled (now s + s.straps.lead.frames)) s.store) s)
  have hset : ∀ u : State, now u = now s → setOrigin q (committed (now s + s.straps.lead.frames) (now u) n) u
      = setOrigin q (committed (now s + s.straps.lead.frames) (now s) n) u := fun u hu => by rw [hu]
  rw [commitRound, if_pos h]
  exact hset _ hnow

theorem commitRound_of_lost {q : Seq} {n : Byte} {s : State} (h : hasHeld (own s) q s.store = false) : commitRound q n s = abandon q s :=
  if_neg (Bool.eq_false_iff.mp h)

theorem withdrawRound_eq (q : Seq) (s : State) : withdrawRound q s = setOrigin q (withdrawnAt (now s))
    (withStore (removeHeld (own s) q s.store) (queueBody 0 (.withdraw q) s)) := by
  rw [← own_queueBody 0 (.withdraw q) s, ← queueBody_store 0 (.withdraw q) s, ← now_queueBody 0 (.withdraw q) s]
  rfl

theorem removeHeld_of_not_held {o : StationNo} {q : Seq} {st : List Proposal} (h : hasHeld o q st = false) : removeHeld o q st = st := by
  refine List.filter_eq_self.mpr fun p hp => ?_
  rw [Bool.not_eq_true', ← Bool.not_eq_true]
  exact List.any_eq_false.mp h p hp

/-- The update commits (R97). -/
theorem commitRound_spec {q : Seq} {n : Byte} {s : State} {r : OriginRecord} (hq : findOrigin q s = some r)
    (h : hasHeld (own s) q s.store = true) :
    findOrigin q (commitRound q n s) = some (committed (now s + s.straps.lead.frames) (now s) n r)
      ∧ (commitRound q n s).store = setHeld (own s) q (.scheduled (now s + s.straps.lead.frames)) s.store
      ∧ Queued s (commitRound q n s) 0 (.commit q (now s + s.straps.lead.frames))
      ∧ (∀ x, x ≠ q → findOrigin x (commitRound q n s) = findOrigin x s)
      ∧ Writes [.originList, .store, .transmit] s (commitRound q n s) := by
  have hstore := withStore_writes (setHeld (own s) q (.scheduled (now s + s.straps.lead.frames)) s.store) s
  have hset : (withStore (setHeld (own s) q (.scheduled (now s + s.straps.lead.frames)) s.store) s).store
      = setHeld (own s) q (.scheduled (now s + s.straps.lead.frames)) s.store := rfl
  rw [commitRound_of_held h]
  generalize withStore (setHeld (own s) q (.scheduled (now s + s.straps.lead.frames)) s.store) s = u at *
  have hqueue := queueBody_writes 0 (.commit q (now s + s.straps.lead.frames)) u
  have hw : Writes [.store, .transmit] s (queueBody 0 (.commit q (now s + s.straps.lead.frames)) u) := hstore.comp hqueue
  have hqueued := (queued_queueBody (n := 0) (b := .commit q (now s + s.straps.lead.frames)) u rfl).of_same
    (.of_writes hstore.symm) (t' := queueBody 0 (.commit q (now s + s.straps.lead.frames)) u) rfl
  have hsame : findOrigin q (queueBody 0 (.commit q (now s + s.straps.lead.frames)) u) = some r := (findOrigin_of_writes hw q).trans hq
  refine ⟨findOrigin_setOrigin (fun _ hy => hy) (Or.inl rfl) hsame, (hqueue.at .store).trans hset, hqueued, fun x hx => ?_,
    hw.mono.trans (setOrigin_writes q _ _).mono⟩
  exact (findOrigin_setOrigin_ne _ (fun _ hy => hy ▸ Ne.symm hx) hx).trans (findOrigin_of_writes hw x)

/-- The round is withdrawn (R98). -/
theorem withdrawRound_spec {q : Seq} {s : State} {r : OriginRecord} (hq : findOrigin q s = some r) :
    findOrigin q (withdrawRound q s) = some (withdrawnAt (now s) r)
      ∧ (withdrawRound q s).store = removeHeld (own s) q s.store
      ∧ Queued s (withdrawRound q s) 0 (.withdraw q)
      ∧ (∀ x, x ≠ q → findOrigin x (withdrawRound q s) = findOrigin x s)
      ∧ Writes [.originList, .store, .transmit] s (withdrawRound q s) := by
  have hw := withStore_queueBody_writes (removeHeld (own s) q s.store) 0 (.withdraw q) s
  have hqueued : Queued s (withStore (removeHeld (own s) q s.store) (queueBody 0 (.withdraw q) s)) 0 (.withdraw q) :=
    queued_queueBody s rfl
  have hset : (withStore (removeHeld (own s) q s.store) (queueBody 0 (.withdraw q) s)).store = removeHeld (own s) q s.store := rfl
  rw [withdrawRound_eq]
  generalize withStore (removeHeld (own s) q s.store) (queueBody 0 (.withdraw q) s) = u at *
  have hsame : findOrigin q u = some r := (findOrigin_of_writes hw q).trans hq
  refine ⟨findOrigin_setOrigin (fun _ hy => hy) (Or.inl rfl) hsame, hset, hqueued, fun x hx => ?_,
    hw.mono.trans (setOrigin_writes q _ _).mono⟩
  exact (findOrigin_setOrigin_ne _ (fun _ hy => hy ▸ Ne.symm hx) hx).trans (findOrigin_of_writes hw x)

/-! ## The returned COMMIT (R103) -/

theorem commitReturn_of_other {q : Seq} {F : Frame} {s : State}
    (h : ∀ r E n, findOrigin q s = some r → r.phase ≠ .committing E n) : commitReturn q F s = s := by
  rw [commitReturn]
  cases hq : findOrigin q s with
  | none => rfl
  | some r =>
    dsimp only
    cases hphase : r.phase with
    | committing E n => exact absurd hphase (h r E n hq)
    | _ => rfl

theorem commitReturn_of_committing {q : Seq} {F E : Frame} {n : Byte} {s : State} {r : OriginRecord} (hq : findOrigin q s = some r)
    (hphase : r.phase = .committing E n) : commitReturn q F s = dropOrigin q (report (.updateCommitted q F n) s) := by
  rw [commitReturn, hq]
  dsimp only
  rw [hphase]

/-- Settles O50. -/
theorem updateReturnsTaken : Obligations.UpdateReturnsTaken := by
  intro s p h
  have hstrip := stripped_writes p s
  have hqueue : SameQueue (stripped p s) s := .of_writes hstrip.symm
  have hfind : ∀ x, findOrigin x (stripped p s) = findOrigin x s := fun x => findOrigin_of_writes hstrip x
  have hin : ∀ b : ProposeBody, p.body = .propose b → arrive p s = proposeReturn b (stripped p s) :=
    fun b hb => arrive_of_propose_returned h hb
  refine answers_arrival rfl ⟨fun h1 h2 => ?_, fun hkind => ?_, fun b hb hother => ?_, fun q F hb hother => ?_,
    fun b r hb hq hphase hnone hheld => ?_, fun b r hb hq hphase hnone hlost => ?_, fun b r hb hq hphase hsome => ?_,
    fun q F E n r hb hq hphase => ?_⟩
  · have hw := deliver_writes_origin (by rw [kind_parcelNorm]; exact h1) (by rw [kind_parcelNorm]; exact h2) (stripped p s)
    rw [arrive_of_returns h]
    exact ⟨hw.at .inFlight, hw.at .insertion⟩
  · rw [arrive_of_returns h, deliver_of_rest (by rw [kind_parcelNorm]; exact hkind)]
    exact hstrip
  · rw [hin b hb, proposeReturn_of_other fun r hr => hother r ((hfind _).symm.trans hr)]
    exact hstrip
  · rw [arrive_of_commit_returned h hb, commitReturn_of_other fun r E n hr => hother r E n ((hfind _).symm.trans hr)]
    exact hstrip
  · rw [hin b hb, proposeReturn_of_accepted ((hfind _).trans hq) hphase hnone]
    obtain ⟨hfound, hstore, hqueued, hothers, hw⟩ := commitRound_spec (n := b.holders) ((hfind _).trans hq) hheld
    exact ⟨hfound, hstore, hqueued.of_same hqueue rfl, fun x hx => (hothers x hx).trans (hfind x), hstrip.mono.trans hw.mono⟩
  · rw [hin b hb, proposeReturn_of_accepted ((hfind _).trans hq) hphase hnone, commitRound_of_lost (s := stripped p s) hlost]
    obtain ⟨hgone, hstore, hqueued, hreported, hothers, hw⟩ := abandon_spec b.seq (stripped p s)
    have hkeep : (abandon b.seq (stripped p s)).store = s.store := hstore.trans (removeHeld_of_not_held hlost)
    refine ⟨hgone, hqueued.of_same hqueue rfl, hreported, fun x hx => (hothers x hx).trans (hfind x), fun f hf => ?_⟩
    have hall : Writes (.inFlight :: (Field.ofReport ++ [.originList, .store, .transmit])) s (abandon b.seq (stripped p s)) :=
      hstrip.mono.trans hw.mono
    by_cases hfs : f = .store
    · subst hfs
      exact hkeep
    · refine hall f ?_
      revert hf hfs
      cases f <;> decide
  · rw [hin b hb, proposeReturn_of_refused ((hfind _).trans hq) hphase hsome]
    obtain ⟨hfound, hstore, hqueued, hothers, hw⟩ := withdrawRound_spec ((hfind _).trans hq)
    exact ⟨hfound, hstore, hqueued.of_same hqueue rfl, fun x hx => (hothers x hx).trans (hfind x), hstrip.mono.trans hw.mono⟩
  · rw [arrive_of_commit_returned h hb, commitReturn_of_committing ((hfind _).trans hq) hphase]
    obtain ⟨hgone, hreported, hothers, hw⟩ := dropOrigin_of_report q (.updateCommitted q F n) (stripped p s)
    exact ⟨hgone, hreported, fun x hx => (hothers x hx).trans (hfind x), hstrip.mono.trans hw.mono⟩

end Sys2Proof.Machine
end

