-- ==== Sys2Proof/Proofs/JoinParcels.lean ====
section
/-! SUPPORT. Proofs/JoinParcels.lean: a JOIN of another station, and what the own JOIN, the own BEACON or a foreign parcel of the own number
brings when it comes back (R38, R39, R60, R61, R63, R67, R135). -/

namespace Sys2Proof.Machine

set_option Elab.async false

/-! ## A JOIN of another station (R60) -/

theorem joinHeard_writes (n : StationNo) (s : State) : Writes [.stations] s (joinHeard n s) := stations_writes s _

theorem joinDropped_writes (n : StationNo) (s : State) : Writes [.stations, .responder, .progress] s (dropRequester n (joinHeard n s)) :=
  (joinHeard_writes n s).mono.trans (dropRequester_writes n _).mono

theorem MemberOk.foreign {s : State} (h : MemberOk s) : ∀ e ∈ s.member.stations, e.1 ≠ own s := fun e he => (h.peers e he).2.1

/-- Settles O44. -/
theorem joinRecorded : Obligations.JoinRecorded := by
  intro s h b hp
  refine answers_of_passes hp ?_
  have hforward := forwarded_passed { header := h, body := .join b } s
  have hpassed : Writes [.insertion] (offerJoin { h with hop := h.hop + 1 } b s).2 (passed { header := h, body := .join b } s) :=
    passed_writes _ _
  have hbody : (consume (raiseHop (parcelNorm { header := h, body := .join b })) s).1
      = .join (offerJoin { h with hop := h.hop + 1 } b s).1 := rfl
  rw [hbody] at hforward
  refine ⟨fun hon haddr => ?_, fun hoff => ?_⟩
  · have heq : offerJoin { h with hop := h.hop + 1 } b s = (joinMarked b s, recompute (dropRequester h.origin (joinHeard h.origin s))) :=
      offerJoin_of (offered_eq_true hon haddr)
    have hfollow : LockOk s → MemberOk s → ReferencesFollow s (offerJoin { h with hop := h.hop + 1 } b s).2 := fun hlock hmember => by
      rw [heq]
      exact referencesFollow_recompute (joinDropped_writes _ s).mono hlock hmember.foreign
    have hkeeps : LockOk s → MemberOk s → ReferencesFollow s (passed { header := h, body := .join b } s) := hfollow
    have hw := joinDropped_writes h.origin s
    have hstations : (dropRequester h.origin (joinHeard h.origin s)).member.stations
        = putStation h.origin (joinEntry h.origin s) s.member.stations := rfl
    obtain ⟨hqueue, hprogress⟩ := foldl_dropRequester [h.origin] (joinHeard h.origin s)
    rw [List.foldl_cons, List.foldl_nil] at hqueue hprogress
    have hmarked : (joinMarked b s).mismatch = (b.mismatch || decide (b.profile ≠ s.straps.profile) || decide (b.lead ≠ s.straps.lead)) :=
      (Bool.or_assoc _ _ _).symm
    rw [heq] at hforward hpassed
    generalize passed { header := h, body := .join b } s = t at *
    generalize dropRequester h.origin (joinHeard h.origin s) = u at *
    have hrec := recompute_writes u
    have hrefs := (refsOk_recompute u).of_writes hpassed
    have htable : t.member.stations = putStation h.origin (joinEntry h.origin s) s.member.stations :=
      (hpassed.at .stations).trans ((hrec.at .stations).trans hstations)
    have hq : t.snap.queue = u.snap.queue := (hpassed.at .responder).trans (hrec.at .responder)
    refine ⟨?_, ?_, fun n hn => ?_, ?_, fun n hn => ?_, hrefs.1, hrefs.2, hkeeps, ?_⟩
    · rw [← hmarked]
      exact hforward
    · rw [htable, findStation_putStation]
      rfl
    · rw [htable, findStation_putStation_ne hn]
    · rw [hq, hqueue]
      exact List.filter_congr fun x _ => by simp [beq_eq_decide]
    · rw [hq]
      exact (hpassed.at .progress).trans ((hrec.at .progress).trans (hprogress n hn))
    · exact (hw.mono.trans hrec.mono).trans hpassed.mono
  · have heq : offerJoin { h with hop := h.hop + 1 } b s = (b, s) := offerJoin_of_off (by
      rw [offered_eq_false hoff]
      exact Bool.false_ne_true)
    rw [heq] at hforward hpassed
    exact ⟨hforward, hpassed⟩

/-! ## The own JOIN comes back (R61) -/

theorem joinReturn_of_other {m : Bool} {s : State} (h : s.member.state ≠ .joining) : joinReturn m s = s := if_neg h

theorem joinReturn_of_mismatch {s : State} (h : s.member.state = .joining) : joinReturn true s = enterIsolated .mismatch s := by
  rw [joinReturn, if_pos h, if_pos rfl]

/-- A peer is in service. -/
def peerServes (s : State) : Bool := s.member.stations.any (fun e => e.2.state == .inService)

/-- CATCHING_UP entered, and told of (R61). -/
def catchingUpBegun (s : State) : State :=
  event (.stateChange .catchingUp none)
    { s with member.state := .catchingUp, member.attempt := none, member.joinDeadline := none,
             member.snapshotNeeded := peerServes s, member.installed := false }

theorem catchingUpBegun_writes (s : State) :
    Writes (Field.ofReport ++ [.stationState, .attempt, .joinDeadline, .snapshotNeeded, .installed]) s (catchingUpBegun s) := by
  have hset : Writes [.stationState, .attempt, .joinDeadline, .snapshotNeeded, .installed] s
      { s with member.state := .catchingUp, member.attempt := none, member.joinDeadline := none,
               member.snapshotNeeded := peerServes s, member.installed := false } := by
    intro f hf
    cases f with
    | stationState | attempt | joinDeadline | snapshotNeeded | installed => exact absurd hf (by decide)
    | _ => rfl
  exact hset.mono.trans (event_writes _ _).mono

theorem catchingUpBegun_report (s : State) :
    (catchingUpBegun s).report = reportJoin (.event (.stateChange .catchingUp none)) (now s) s.report := rfl

theorem refsOk_catchingUpBegun {s : State} (h : RefsOk s) (hstate : s.member.state = .joining) : RefsOk (catchingUpBegun s) := by
  have hs : s.member.state ≠ .inService := by rw [hstate]; decide
  have ht : (catchingUpBegun s).member.state ≠ .inService := show StationState.catchingUp ≠ .inService by decide
  exact ⟨h.1.trans (computeTableRef_of_states (s := s) (t := catchingUpBegun s) rfl hs ht).symm,
    h.2.trans (computeTimingRef_of_states (s := s) (t := catchingUpBegun s) rfl rfl hs ht (by rw [hstate]; rfl)).symm⟩

theorem joinReturn_of {s : State} (h : RefsOk s) (hstate : s.member.state = .joining) :
    joinReturn false s = testService (if peerServes s then beginCollection (catchingUpBegun s) else catchingUpBegun s) := by
  have hrefs := recompute_of_refsOk (refsOk_catchingUpBegun h hstate)
  rw [joinReturn, if_pos hstate, if_neg Bool.false_ne_true]
  dsimp only
  rw [show recompute (event (.stateChange .catchingUp none)
    { s with member.state := .catchingUp, member.attempt := none, member.joinDeadline := none,
             member.snapshotNeeded := s.member.stations.any (fun e => e.2.state == .inService), member.installed := false })
      = catchingUpBegun s from hrefs]
  rfl

/-- A snapshot is needed: the collection begins (R61, R128). -/
theorem joinReturn_of_needed {s : State} (h : RefsOk s) (hstate : s.member.state = .joining) (hneeded : peerServes s = true) :
    joinReturn false s = beginCollection (catchingUpBegun s) := by
  rw [joinReturn_of h hstate, if_pos hneeded]
  refine testService_off fun ⟨_, hdone, _⟩ => ?_
  rw [installDone_of_writes (beginCollection_writes _)] at hdone
  have hnot : installDone (catchingUpBegun s) = false := by
    show (!peerServes s || false) = false
    rw [hneeded]
    rfl
  rw [hnot] at hdone
  exact absurd hdone Bool.false_ne_true

theorem joinReturn_of_waiting {s : State} (h : RefsOk s) (hstate : s.member.state = .joining) (hneeded : peerServes s = false)
    (hserves : lockServes s.lock.state = false) : joinReturn false s = catchingUpBegun s := by
  rw [joinReturn_of h hstate, hneeded, if_neg Bool.false_ne_true]
  refine testService_off fun ⟨_, _, hlock⟩ => ?_
  exact absurd (hserves.symm.trans hlock) Bool.false_ne_true

theorem joinReturn_of_serving {s : State} (h : RefsOk s) (hstate : s.member.state = .joining) (hneeded : peerServes s = false)
    (hserves : lockServes s.lock.state = true) : joinReturn false s = served (catchingUpBegun s) := by
  rw [joinReturn_of h hstate, hneeded, if_neg Bool.false_ne_true]
  refine testService_of rfl ?_ hserves
  show (!peerServes s || false) = true
  rw [hneeded]
  rfl

/-- With a peer in service there is a table reference. -/
theorem LockOk.tableRef_of_peerServes {s : State} (h : LockOk s) (hstate : s.member.state ≠ .inService) (hp : peerServes s = true) :
    ∃ n, s.member.tableRef = some n := by
  rw [h.tableRef, computeTableRef_of_other hstate]
  refine Option.ne_none_iff_exists'.mp fun hnone => ?_
  obtain ⟨e, he, hserves⟩ := List.any_eq_true.mp hp
  have hmem : e.1 ∈ servingPeers s := List.mem_map.mpr ⟨e, List.mem_filter.mpr ⟨he, hserves⟩, rfl⟩
  rw [(lowest_eq_none_iff _).mp hnone] at hmem
  exact absurd hmem List.not_mem_nil

/-! ## The return of the own BEACON, and foreign parcels (R39, R67) -/

theorem beaconReturn_of_outstanding {F : Frame} {s : State} (h : s.member.outstanding = some F) :
    beaconReturn F s = { s with member.returned := true } := if_pos h

theorem beaconReturn_of_other {F : Frame} {s : State} (h : s.member.outstanding ≠ some F) : beaconReturn F s = s := if_neg h

theorem returned_writes (b : Bool) (s : State) : Writes [.returned] s { s with member.returned := b } := by
  intro f hf
  cases f with
  | returned => exact absurd hf (by decide)
  | _ => rfl

theorem arrive_of_join_returned {p : Parcel} {b : JoinBody} {s : State} (h : Returns s p) (hb : p.body = .join b) :
    arrive p s = joinReturn b.mismatch (stripped p s) := by
  rw [arrive_of_returns h, parcelNorm_of_kind (by rw [hb]; exact show Kind.join ≠ .snapshot by decide), hb]
  rfl

theorem arrive_of_beacon_returned {p : Parcel} {b : BeaconBody} {s : State} (h : Returns s p) (hb : p.body = .beacon b) :
    arrive p s = beaconReturn b.frame (stripped p s) := by
  rw [arrive_of_returns h, parcelNorm_of_kind (by rw [hb]; exact show Kind.beacon ≠ .snapshot by decide), hb]
  rfl

theorem foreignParcel_of_joining {p : Parcel} {s : State} (h : s.member.state = .joining) :
    foreignParcel p s = enterIsolated .duplicate s := by
  rw [foreignParcel, if_pos h, duplicateNotice, if_pos (Or.inr h)]

theorem foreignParcel_of_other {p : Parcel} {s : State} (h : s.member.state ≠ .joining) :
    foreignParcel p s = event (.duplicateStation (Body.kind p.body) p.header.tag) s := if_neg h

/-- Settles O51. -/
theorem joinReturnsTaken : Obligations.JoinReturnsTaken := by
  intro s p hon hok ho
  have hstrip := stripped_writes p s
  have hqueue : SameQueue (stripped p s) s := .of_writes hstrip.symm
  have hstate : (stripped p s).member.state = s.member.state := rfl
  have hrefs : LockOk s → RefsOk (stripped p s) := fun h => h.refs.of_writes hstrip
  have hnow : now (stripped p s) = now s := rfl
  have hreport : (stripped p s).report = s.report := rfl
  have hlock : (stripped p s).lock = s.lock := rfl
  have hforeign : s.ring.inFlight.any (matchesFlight p) = false → arrive p s = foreignParcel (parcelNorm p) s := fun h => by
    rw [arrive_of_own hon hok ho, strip_of_foreign h]
  refine answers_arrival rfl ⟨fun b hr hb hother => ?_, fun b hr hb hjoin hm => ?_, fun b hr hb hjoin hm hlockok hwait => ?_,
    fun b hr hb hjoin hm hlockok hserves hnone => ?_, fun b hr hb hout => ?_, fun b hr hb hout => ?_, fun hno hjoin => ?_,
    fun hno hother => ?_⟩
  · rw [arrive_of_join_returned hr hb, joinReturn_of_other (s := stripped p s) hother]
    exact ⟨rfl, hstrip⟩
  · rw [arrive_of_join_returned hr hb, hm, joinReturn_of_mismatch (s := stripped p s) hjoin]
    obtain ⟨hisolated, hraised, hw⟩ := isolated_enterIsolated .mismatch (stripped p s)
    exact ⟨hisolated, hraised, hstrip.mono.trans hw.mono⟩
  · have hrefs' := hrefs hlockok
    have hbegun := catchingUpBegun_writes (stripped p s)
    have hw := hstrip.mono.trans hbegun.mono
      (fs := Field.ofReport ++ [.inFlight, .stationState, .attempt, .joinDeadline, .snapshotNeeded, .installed])
    rw [arrive_of_join_returned hr hb, hm]
    cases hneeded : peerServes s with
    | true =>
      obtain ⟨n, hn⟩ := hlockok.tableRef_of_peerServes (by rw [hjoin]; decide) hneeded
      have hcollect := beginCollection_writes (catchingUpBegun (stripped p s))
      obtain ⟨hcollector, hqueued⟩ := beginCollection_spec (s := catchingUpBegun (stripped p s)) hn
      have hsame : SameQueue (catchingUpBegun (stripped p s)) s := ⟨rfl, rfl, by rw [bypass, bypass, hjoin]; rfl, rfl⟩
      have hraised : (beginCollection (catchingUpBegun (stripped p s))).report = _ := hcollect.report_eq
      have hsnapshot : (beginCollection (catchingUpBegun (stripped p s))).member.snapshotNeeded = peerServes s := hcollect.at .snapshotNeeded
      rw [joinReturn_of_needed hrefs' hjoin hneeded]
      refine ⟨hcollect.at .stationState, hcollect.at .attempt, hcollect.at .joinDeadline, hcollect.at .installed, hsnapshot,
        hcollect.at .inFlight, fun _ => ⟨n, hn, hcollector, hqueued.of_same hsame rfl, ?_⟩, fun h => ?_, hraised⟩
      · exact hw.mono.trans hcollect.mono
      · rw [hsnapshot, hneeded] at h
        exact absurd h (by decide)
    | false =>
      have hserves : lockServes s.lock.state = false := hwait.resolve_right (Bool.eq_false_iff.mp hneeded)
      rw [joinReturn_of_waiting hrefs' hjoin hneeded hserves]
      exact ⟨rfl, rfl, rfl, rfl, rfl, rfl, fun h => absurd (hneeded.symm.trans h) (by decide), fun _ => hw, rfl⟩
  · have hrefs' := hrefs hlockok
    have hbegun := catchingUpBegun_writes (stripped p s)
    have hw := hstrip.mono.trans hbegun.mono
      (fs := Field.ofReport ++ [.inFlight, .stationState, .attempt, .joinDeadline, .snapshotNeeded, .installed])
    have hx : Writes (Field.ofReport ++ [.inFlight, .stationState, .attempt, .joinDeadline, .snapshotNeeded, .installed, .seeded]) s
        { catchingUpBegun (stripped p s) with table.seeded := true } :=
      hw.mono.trans (seeded_writes true (catchingUpBegun (stripped p s))).mono
    have hsame : SameCollection { catchingUpBegun (stripped p s) with table.seeded := true } s :=
      ⟨⟨rfl, rfl, by rw [bypass, bypass, hjoin]; rfl, rfl⟩, rfl, rfl⟩
    have henter := enterInService_writes { catchingUpBegun (stripped p s) with table.seeded := true }
    have hevent := event_writes (.stateChange .inService none)
      (enterInService { catchingUpBegun (stripped p s) with table.seeded := true })
    have hkeep := henter.mono.trans hevent.mono (fs := .stationState :: Field.ofRefs ++ Field.ofReport)
    have hmoves := collectorMoves_enterInService (s := { catchingUpBegun (stripped p s) with table.seeded := true }) rfl
    have hneeded : (served (catchingUpBegun (stripped p s))).member.snapshotNeeded = peerServes s := hkeep.at .snapshotNeeded
    rw [arrive_of_join_returned hr hb, hm, joinReturn_of_serving hrefs' hjoin hnone hserves]
    refine ⟨served_state _, served_seeded _, hkeep.at .attempt, hkeep.at .joinDeadline, hneeded.trans hnone, hkeep.at .installed,
      (hevent.at .mismatch).trans (enterInService_mismatch _), hkeep.at .inFlight, ((refsOk_enterInService _).of_writes hevent).1,
      ((refsOk_enterInService _).of_writes hevent).2, ?_, ?_, served_report _, hx.mono.trans hkeep.mono⟩
    · exact (lockFollows_enterInService _).of_same (.of_writes hx.symm) (.of_writes hevent)
    · exact hmoves.of_same hsame rfl rfl
  · rw [arrive_of_beacon_returned hr hb, beaconReturn_of_outstanding (s := stripped p s) hout]
    exact ⟨rfl, rfl, hstrip.mono.trans (returned_writes true _).mono⟩
  · rw [arrive_of_beacon_returned hr hb, beaconReturn_of_other (s := stripped p s) hout]
    exact ⟨rfl, hstrip⟩
  · rw [hforeign hno, foreignParcel_of_joining hjoin]
    exact isolated_enterIsolated .duplicate s
  · rw [hforeign hno, foreignParcel_of_other hother, kind_parcelNorm, parcelNorm_header]
    exact ⟨rfl, event_writes _ s⟩

end Sys2Proof.Machine
end

