-- ==== Sys2Proof/Proofs/PacketsTaken.lean ====
section
/-! SUPPORT. Proofs/PacketsTaken.lean: the loads that are accepted and the READBACKs that are served (R20, R91 to R94, R155 to R158). -/

namespace Sys2Proof.Machine

set_option Elab.async false

/-! ## READBACK (R20, R158) -/

theorem acceptReadback_of_idle {k : Byte} {r : ReadbackReq} {s : State} (h : s.table.apply.phase = .idle) :
    acceptReadback k r s = serveReadback s r := by
  rw [acceptReadback, applyInProgress, h]
  rfl

theorem applyInProgress_of_ne {s : State} (h : s.table.apply.phase ≠ .idle) : applyInProgress s = true := by
  rw [applyInProgress, beq_eq_false_iff_ne.mpr h]
  rfl

theorem acceptReadback_of_room {k : Byte} {r : ReadbackReq} {s : State} (h : s.table.apply.phase ≠ .idle)
    (hroom : s.pixel.readbacks.length < 4) :
    acceptReadback k r s = { s with pixel.readbacks := s.pixel.readbacks ++ [r] } := by
  rw [acceptReadback, if_pos (applyInProgress_of_ne h), if_pos hroom]

theorem acceptReadback_of_full {k : Byte} {r : ReadbackReq} {s : State} (h : s.table.apply.phase ≠ .idle)
    (hfull : 4 ≤ s.pixel.readbacks.length) : acceptReadback k r s = packetError .busy (some k) s := by
  rw [acceptReadback, if_pos (applyInProgress_of_ne h), if_neg (Nat.not_lt.mpr hfull)]

theorem readbacks_writes (rs : List ReadbackReq) (s : State) : Writes [.readbacks] s { s with pixel.readbacks := rs } := by
  intro f hf
  cases f with
  | readbacks => exact absurd hf (by decide)
  | _ => rfl

theorem readbackIndices_eq (r : ReadbackReq) : readbackIndices r = List.range' r.start (min r.count (260 - r.start)) := by
  rw [readbackIndices, List.range'_eq_map_range]

/-- Settles O39. -/
theorem readbackServed : Obligations.ReadbackServed := by
  intro s start n h0 hstart hlo hhi
  have hexec : exec (.readback start n) s = .next (acceptReadback 3 { start := start.toNat, count := n.toNat } s) := by
    rw [exec_readback, whenReleased_of h0, judgeBody_readback, if_pos ⟨hstart, hlo, hhi⟩]
    rfl
  refine ⟨_, hexec, fun hidle => ?_, fun hbusy hroom => ?_, fun hbusy hfull => ?_⟩
  · rw [acceptReadback_of_idle hidle]
    refine ⟨?_, serveReadback_writes s _⟩
    rw [serveReadback_eq (s := s) rfl, report_foldl, readbackIndices_eq]
    rfl
  · rw [acceptReadback_of_room hbusy hroom]
    exact ⟨rfl, readbacks_writes _ s⟩
  · rw [acceptReadback_of_full hbusy hfull]
    exact ⟨rfl, report_writes _ s⟩

/-! ## The edits of a PARAM_SET (R156) -/

theorem controlIndex_toNat (k : Byte) : (controlIndex k).toNat = 256 + k.toNat := by
  rw [controlIndex]
  bv_omega

theorem index_eq_controlIndex_iff (i : BitVec 16) (k : Byte) : i = controlIndex k ↔ i.toNat = 256 + k.toNat := by
  rw [← controlIndex_toNat]
  exact ⟨fun h => congrArg _ h, BitVec.eq_of_toNat_eq⟩

/-- The place of the first record that names the entry of an edit. -/
def firstPlace (rs : List ParamRecord) (e : Edit) : Nat := rs.findIdx (fun r => decide (e.index.toNat = 256 + r.control.toNat))

/-- One edit for each control number that is named, at the place of its first record, with the colour of its last. -/
structure OneEach (rs : List ParamRecord) (es : List Edit) : Prop where
  distinct : (es.map (·.index)).Nodup
  places : (es.map (firstPlace rs)).Pairwise (· < ·)
  covers : ∀ r ∈ rs, ∃ e ∈ es, e.index.toNat = 256 + r.control.toNat
  last : ∀ e ∈ es, ∃ before r after, rs = before ++ r :: after ∧ e.index.toNat = 256 + r.control.toNat
    ∧ e.colour = r.colour ∧ ∀ x ∈ after, x.control ≠ r.control

theorem OneEach.firstPlace_lt {rs : List ParamRecord} {es : List Edit} (h : OneEach rs es) {e : Edit} (he : e ∈ es) :
    firstPlace rs e < rs.length := by
  obtain ⟨front, r, rest, rfl, hindex, _⟩ := h.last e he
  exact List.findIdx_lt_length_of_exists ⟨r, by simp, decide_eq_true hindex⟩

theorem OneEach.firstPlace_append {rs : List ParamRecord} {es : List Edit} (h : OneEach rs es) {e : Edit} (he : e ∈ es)
    (r : ParamRecord) : firstPlace (rs ++ [r]) e = firstPlace rs e := by
  rw [firstPlace, List.findIdx_append]
  exact if_pos (h.firstPlace_lt he)

/-- A later record leaves the colour of another control number's edit. -/
theorem OneEach.last_append {rs : List ParamRecord} {es : List Edit} (h : OneEach rs es) {e : Edit} (he : e ∈ es) {r : ParamRecord}
    (hne : e.index ≠ controlIndex r.control) : ∃ before x after, rs ++ [r] = before ++ x :: after
      ∧ e.index.toNat = 256 + x.control.toNat ∧ e.colour = x.colour ∧ ∀ y ∈ after, y.control ≠ x.control := by
  obtain ⟨front, x, rest, rfl, hindex, hcolour, hrest⟩ := h.last e he
  refine ⟨front, x, rest ++ [r], by simp, hindex, hcolour, fun y hy => ?_⟩
  rcases List.mem_append.mp hy with hy | hy
  · exact hrest y hy
  · rw [List.mem_singleton.mp hy]
    exact fun hc => hne ((index_eq_controlIndex_iff _ _).mpr (hc ▸ hindex))

/-- The edit recoloured by a later record of its control number. -/
def recoloured (r : ParamRecord) (e : Edit) : Edit := if e.index = controlIndex r.control then { e with colour := r.colour } else e

theorem recoloured_index (r : ParamRecord) (e : Edit) : (recoloured r e).index = e.index := by
  unfold recoloured
  split <;> rfl

theorem OneEach.addControl {rs : List ParamRecord} {es : List Edit} (h : OneEach rs es) (r : ParamRecord) :
    OneEach (rs ++ [r]) (addControl es r) := by
  have hfirst : ∀ e, firstPlace (rs ++ [r]) (recoloured r e) = firstPlace (rs ++ [r]) e := fun e => by
    rw [firstPlace, firstPlace, recoloured_index]
  unfold Machine.addControl
  split
  case isTrue hany =>
    obtain ⟨n, hn, hni⟩ := List.any_eq_true.mp hany
    have hindices : (es.map (recoloured r)).map (·.index) = es.map (·.index) := by
      rw [List.map_map]
      exact List.map_congr_left fun e _ => recoloured_index r e
    have hplaces : (es.map (recoloured r)).map (firstPlace (rs ++ [r])) = es.map (firstPlace rs) := by
      rw [List.map_map]
      exact List.map_congr_left fun e he => (hfirst e).trans (h.firstPlace_append he r)
    refine ⟨hindices ▸ h.distinct, hplaces ▸ h.places, fun x hx => ?_, fun e he => ?_⟩
    · have hcovered : ∃ e ∈ es, e.index.toNat = 256 + x.control.toNat := by
        rcases List.mem_append.mp hx with hx | hx
        · exact h.covers x hx
        · rw [List.mem_singleton.mp hx]
          exact ⟨n, hn, (index_eq_controlIndex_iff _ _).mp (eq_of_beq hni)⟩
      obtain ⟨e, he, hindex⟩ := hcovered
      exact ⟨recoloured r e, List.mem_map_of_mem he, by rw [recoloured_index]; exact hindex⟩
    · obtain ⟨e, hmem, rfl⟩ := List.mem_map.mp he
      show ∃ before x after, _ ∧ (recoloured r e).index.toNat = _ ∧ (recoloured r e).colour = _ ∧ _
      by_cases hi : e.index = controlIndex r.control
      · refine ⟨rs, r, [], rfl, by rw [recoloured_index]; exact (index_eq_controlIndex_iff _ _).mp hi, ?_, fun y hy => absurd hy List.not_mem_nil⟩
        rw [recoloured, if_pos hi]
      · rw [recoloured, if_neg hi]
        exact h.last_append hmem hi
  case isFalse hany =>
    have hnew : ∀ e ∈ es, e.index ≠ controlIndex r.control := fun e he hi => hany (List.any_eq_true.mpr ⟨e, he, beq_iff_eq.mpr hi⟩)
    have hplace : firstPlace (rs ++ [r]) { index := controlIndex r.control, colour := r.colour } = rs.length := by
      have hnone : ∀ x ∈ rs, ¬ (controlIndex r.control).toNat = 256 + x.control.toNat := by
        intro x hx hi
        obtain ⟨e, he, hex⟩ := h.covers x hx
        exact hnew e he (BitVec.eq_of_toNat_eq (hex.trans hi.symm))
      rw [firstPlace, List.findIdx_append, List.findIdx_eq_length_of_false fun x hx => decide_eq_false (hnone x hx), if_neg (lt_irrefl _),
        List.findIdx_cons, decide_eq_true (controlIndex_toNat _)]
      exact Nat.zero_add _
    refine ⟨?_, ?_, fun x hx => ?_, fun e he => ?_⟩
    · rw [List.map_append]
      refine List.nodup_append.mpr ⟨h.distinct, List.nodup_singleton _, fun i hi j hj => ?_⟩
      obtain ⟨e, he, rfl⟩ := List.mem_map.mp hi
      rw [List.mem_singleton.mp hj]
      exact hnew e he
    · rw [List.map_append, List.map_congr_left fun e he => h.firstPlace_append he r]
      refine List.pairwise_append.mpr ⟨h.places, List.pairwise_singleton _ _, fun i hi j hj => ?_⟩
      obtain ⟨e, he, rfl⟩ := List.mem_map.mp hi
      rw [List.mem_singleton.mp hj, hplace]
      exact h.firstPlace_lt he
    · rcases List.mem_append.mp hx with hx | hx
      · obtain ⟨e, he, hi⟩ := h.covers x hx
        exact ⟨e, List.mem_append_left _ he, hi⟩
      · rw [List.mem_singleton.mp hx]
        exact ⟨_, List.mem_append_right _ (List.mem_singleton.mpr rfl), controlIndex_toNat _⟩
    · rcases List.mem_append.mp he with he | he
      · exact h.last_append he (hnew e he)
      · rw [List.mem_singleton.mp he]
        exact ⟨rs, r, [], rfl, controlIndex_toNat _, rfl, fun y hy => absurd hy List.not_mem_nil⟩

theorem oneEach_controlEdits (rs : List ParamRecord) : OneEach rs (controlEdits rs) := by
  induction rs using List.reverseRecOn with
  | nil =>
    exact ⟨List.nodup_nil, List.Pairwise.nil, fun r hr => absurd hr List.not_mem_nil, fun e he => absurd he List.not_mem_nil⟩
  | append_singleton rs r ih =>
    have happend : controlEdits (rs ++ [r]) = addControl (controlEdits rs) r := by rw [controlEdits, List.foldl_append]; rfl
    rw [happend]
    exact ih.addControl r

/-! ## The edits of a TABLE_LOAD (R155) -/

theorem tripletEdits_getElem : ∀ (start : Byte) (comps : List Byte) (i : Nat) (h : i < (tripletEdits start comps).length),
    (tripletEdits start comps)[i].index = (start + BitVec.ofNat 8 i).setWidth 16
      ∧ some (tripletEdits start comps)[i].colour.red = comps[3 * i]? ∧ some (tripletEdits start comps)[i].colour.green = comps[3 * i + 1]?
      ∧ some (tripletEdits start comps)[i].colour.blue = comps[3 * i + 2]?
  | _, [], _, h | _, [_], _, h | _, [_, _], _, h => absurd h (Nat.not_lt_zero _)
  | start, r :: g :: b :: rest, 0, _ => ⟨by simp [tripletEdits], rfl, rfl, rfl⟩
  | start, r :: g :: b :: rest, i + 1, h => by
    have hstep : start + 1 + BitVec.ofNat 8 i = start + BitVec.ofNat 8 (i + 1) := by
      rw [BitVec.ofNat_add, BitVec.add_assoc, BitVec.add_comm (1 : Byte)]
      rfl
    have hrest := tripletEdits_getElem (start + 1) rest i (Nat.lt_of_succ_lt_succ h)
    rw [hstep] at hrest
    exact hrest

theorem eq_tripletEdits {start : Byte} {comps : List Byte} {es : List Edit} (hlength : es.length = comps.length / 3)
    (h : ∀ i (hi : i < es.length), es[i].index = (start + BitVec.ofNat 8 i).setWidth 16
      ∧ some es[i].colour.red = comps[3 * i]? ∧ some es[i].colour.green = comps[3 * i + 1]? ∧ some es[i].colour.blue = comps[3 * i + 2]?) :
    es = tripletEdits start comps := by
  refine List.ext_getElem (hlength.trans (tripletEdits_length start comps).symm) fun i h1 h2 => ?_
  obtain ⟨hindex, hred, hgreen, hblue⟩ := h i h1
  obtain ⟨hindex', hred', hgreen', hblue'⟩ := tripletEdits_getElem start comps i h2
  generalize es[i] = e at *
  generalize (tripletEdits start comps)[i] = f at *
  obtain ⟨ei, ⟨er, eg, eb⟩⟩ := e
  obtain ⟨fi, ⟨fr, fg, fb⟩⟩ := f
  have h1 : ei = fi := hindex.trans hindex'.symm
  have h2 : er = fr := Option.some.inj (hred.trans hred'.symm)
  have h3 : eg = fg := Option.some.inj (hgreen.trans hgreen'.symm)
  have h4 : eb = fb := Option.some.inj (hblue.trans hblue'.symm)
  rw [h1, h2, h3, h4]

/-! ## The load accepted (R93, R94) -/

/-- The record of a load's first round, begun at frame F (R94). -/
def firstRound (q : Seq) (es : List Edit) (part : Bool) (F : Frame) : OriginRecord :=
  { seq := q, edits := es, phase := .proposing, attempt := 1, round := 1, deadline := F + 2, partialLoad := part }

/-- The state with a record behind the others in the origin list. -/
def listed (r : OriginRecord) (s : State) : State := { s with origin.list := s.origin.list ++ [r] }

theorem listed_writes (r : OriginRecord) (s : State) : Writes [.originList] s (listed r s) := by
  intro f hf
  cases f with
  | originList => exact absurd hf (by decide)
  | _ => rfl

theorem acceptLoad_eq (es : List Edit) (part : Bool) (s : State) : acceptLoad es part s =
    listed (firstRound s.origin.nextSeq es part (now s))
      (report (.updateQueued s.origin.nextSeq es.length part 1 none) (startRound es s)) := by
  rw [← now_startRound es s]
  rfl

theorem loadRefusal_eq_none {s : State} (hstate : s.member.state = .inService) (hlist : s.origin.list.length < 4)
    (hroom : openCount s.store < 12) : loadRefusal s = none := by
  rw [loadRefusal, if_neg (not_not_intro hstate), if_neg (Nat.not_le.mpr hlist), if_pos ((canTake_iff _).mpr hroom)]

theorem judgeLoad_of_none {es : List Edit} {part : Bool} {s : State} (h : loadRefusal s = none) :
    judgeLoad es part s = acceptLoad es part s := by rw [judgeLoad, h]

/-- Settles O37. -/
theorem loadAccepted : Obligations.LoadAccepted := by
  refine ⟨fun rs _ => ?_, fun s c es part h0 hu hstate hlist hroom hc => ?_⟩
  · obtain ⟨h1, h2, h3, h4⟩ := oneEach_controlEdits rs
    exact ⟨h1, h2, h3, h4⟩
  · have hexec : exec c s = .next (acceptLoad es part s) := by
      rw [← judgeLoad_of_none (loadRefusal_eq_none hstate hlist hroom)]
      rcases hc with ⟨start, comps, rfl, h1, h2, hlength, rfl, hes⟩ | ⟨rs, rfl, h1, h2, h3, rfl, rfl⟩
      · rw [exec_tableLoad, whenReleased_of h0, judgeBody_tableLoad_ok start h1 h2, eq_tripletEdits hlength hes]
        rfl
      · rw [exec_paramSet, whenReleased_of h0, judgeBody_paramSet_ok h1 h2 h3]
        rfl
    have hround := startRound_writes es s
    have hreport := report_writes (.updateQueued s.origin.nextSeq es.length part 1 none) (startRound es s)
    have hlisted := listed_writes (firstRound s.origin.nextSeq es part (now s))
      (report (.updateQueued s.origin.nextSeq es.length part 1 none) (startRound es s))
    have hnext : (acceptLoad es part s).origin.nextSeq = (takeSeq s).2.origin.nextSeq := startRound_nextSeq es s
    have hfree := nextFree_takeSeq hu
    have horigin : (acceptLoad es part s).origin.list = s.origin.list ++ [firstRound s.origin.nextSeq es part (now s)] := by
      rw [acceptLoad_eq]
      exact congrArg (· ++ [firstRound s.origin.nextSeq es part (now s)]) (hround.at .originList)
    have hstore : (acceptLoad es part s).store = insertHeld (now s) (own s) s.origin.nextSeq es s.store := startRound_store es s
    refine ⟨_, hexec, horigin, ?_, ?_, ?_, fun hlt p hp => ?_, ?_, ?_, ?_, ?_⟩
    · rw [hnext, horigin, List.map_append]
      intro hmem
      refine hfree.1 (List.mem_append_left _ ?_)
      rcases List.mem_append.mp hmem with hmem | hmem
      · exact List.mem_cons_of_mem _ hmem
      · rw [List.mem_singleton.mp hmem]
        exact List.mem_cons_self
    · rw [hnext]
      exact hfree
    · rw [hstore]
      exact findRecord_insertHeld (now s) es hu.nextFreeStore
    · rw [hstore, insertHeld, if_pos hlt]
      exact List.mem_append_left _ hp
    · rw [hstore]
      exact entered_insertHeld (now s) (own s) s.origin.nextSeq es hu.storeKeys hroom
    · exact queued_startRound es s
    · rw [acceptLoad_eq, Reported, ← now_startRound es s, ← startRound_report es s]
      rfl
    · rw [acceptLoad_eq]
      exact (hround.mono.trans hreport.mono).trans hlisted.mono

end Sys2Proof.Machine
end

