-- ==== Sys2Proof/Proofs/StoreExpiry.lean ====
section
/-! SUPPORT. Proofs/StoreExpiry.lean: the Proposal Store's frame-start work: hold expiry, the hand-over of the apply set, and retention expiry
(R122 to R124). -/

namespace Sys2Proof.Machine

set_option Elab.async false

/-! ## Hold expiry (R122) -/

theorem aged_iff {n : Nat} {x F : Frame} : aged n x F = true ↔ n ≤ (F - x).toNat ∧ (F - x).toNat ≤ 32767 := by
  rw [aged, Bool.and_eq_true, decide_eq_true_iff, decide_eq_true_iff]

/-- A record with its arrival frame, where it is HELD. -/
def heldPair (p : Proposal) : Option (Proposal × Frame) :=
  match p.state with
  | .held a => some (p, a)
  | .scheduled _ | .applied _ => none

theorem heldPair_eq_some {p q : Proposal} {a : Frame} : heldPair q = some (p, a) ↔ q = p ∧ p.state = .held a := by
  unfold heldPair
  cases hq : q.state with
  | held b =>
    constructor
    · intro h
      obtain ⟨rfl, rfl⟩ := Prod.mk.inj (Option.some.inj h)
      exact ⟨rfl, hq⟩
    · rintro ⟨rfl, hp⟩
      rw [RecordState.held.inj (hq.symm.trans hp)]
  | scheduled e | applied e =>
    refine ⟨nofun, ?_⟩
    rintro ⟨rfl, hp⟩
    exact absurd (hq.symm.trans hp) nofun

theorem heldTooLong_iff {F : Frame} {p : Proposal} :
    heldTooLong F p = true ↔ ∃ a, p.state = .held a ∧ 8 ≤ (F - a).toNat ∧ (F - a).toNat ≤ 32767 := by
  unfold heldTooLong
  cases p.state with
  | held a => exact aged_iff.trans ⟨fun h => ⟨a, rfl, h⟩, by rintro ⟨_, ⟨⟩, h⟩; exact h⟩
  | scheduled e | applied e => exact ⟨nofun, fun ⟨_, h, _⟩ => absurd h nofun⟩

/-- The records that expire, in ascending order of origin and seq. -/
def expiring (F : Frame) (st : List Proposal) : List Proposal := sortBy keyBefore (st.filter (heldTooLong F))

/-- The same with their arrival frames. -/
def expiringPairs (F : Frame) (st : List Proposal) : List (Proposal × Frame) := (expiring F st).filterMap heldPair

theorem mem_expiring {F : Frame} {st : List Proposal} {p : Proposal} : p ∈ expiring F st ↔ p ∈ st ∧ heldTooLong F p = true := by
  rw [expiring, mem_sortBy, List.mem_filter]

theorem mem_expiringPairs {F : Frame} {st : List Proposal} {p : Proposal} {a : Frame} :
    (p, a) ∈ expiringPairs F st ↔ p ∈ st ∧ p.state = .held a ∧ 8 ≤ (F - a).toNat ∧ (F - a).toNat ≤ 32767 := by
  rw [expiringPairs, List.mem_filterMap]
  constructor
  · rintro ⟨q, hq, hpair⟩
    obtain ⟨rfl, hstate⟩ := heldPair_eq_some.mp hpair
    obtain ⟨hmem, hlong⟩ := mem_expiring.mp hq
    obtain ⟨b, hb, hage⟩ := heldTooLong_iff.mp hlong
    rw [RecordState.held.inj (hstate.symm.trans hb)]
    exact ⟨hmem, hb, hage⟩
  · rintro ⟨hmem, hstate, hage⟩
    exact ⟨p, mem_expiring.mpr ⟨hmem, heldTooLong_iff.mpr ⟨a, hstate, hage⟩⟩, heldPair_eq_some.mpr ⟨rfl, hstate⟩⟩

theorem mem_expiringPairs_fst {F : Frame} {st : List Proposal} {p : Proposal} (hp : p ∈ st) :
    p ∈ (expiringPairs F st).map (·.1) ↔ heldTooLong F p = true := by
  rw [List.mem_map]
  constructor
  · rintro ⟨⟨q, a⟩, hmem, rfl⟩
    obtain ⟨_, hstate, hage⟩ := mem_expiringPairs.mp hmem
    exact heldTooLong_iff.mpr ⟨a, hstate, hage⟩
  · intro h
    obtain ⟨a, hstate, hage⟩ := heldTooLong_iff.mp h
    exact ⟨(p, a), mem_expiringPairs.mpr ⟨hp, hstate, hage⟩, rfl⟩

/-- The ascending order of origin, then of seq. -/
def KeyLess (x y : Proposal) : Prop := x.origin.toNat < y.origin.toNat ∨ (x.origin = y.origin ∧ x.seq.toNat < y.seq.toNat)

theorem keyBefore_iff {x y : Proposal} : keyBefore x y = true ↔ KeyLess x y := by
  rw [keyBefore, Bool.or_eq_true, Bool.and_eq_true, decide_eq_true_iff, decide_eq_true_iff, beq_iff_eq]
  exact Iff.rfl

theorem keyLess_trans {x y z : Proposal} (h1 : KeyLess x y) (h2 : KeyLess y z) : KeyLess x z := by
  rcases h1 with h1 | ⟨e1, h1⟩ <;> rcases h2 with h2 | ⟨e2, h2⟩
  · exact Or.inl (Nat.lt_trans h1 h2)
  · exact Or.inl (e2 ▸ h1)
  · exact Or.inl (e1 ▸ h2)
  · exact Or.inr ⟨e1.trans e2, Nat.lt_trans h1 h2⟩

theorem keyLess_of_not {x y : Proposal} (hne : (x.origin, x.seq) ≠ (y.origin, y.seq)) (h : keyBefore x y = false) : KeyLess y x := by
  have hnot : ¬ KeyLess x y := fun hl => by
    rw [keyBefore_iff.mpr hl] at h
    exact absurd h (by decide)
  obtain ⟨h1, h2⟩ := not_or.mp hnot
  by_cases ho : x.origin = y.origin
  · have hq : x.seq.toNat ≠ y.seq.toNat := fun hq => hne (by rw [ho, BitVec.eq_of_toNat_eq hq])
    have hle : ¬ x.seq.toNat < y.seq.toNat := fun hl => h2 ⟨ho, hl⟩
    exact Or.inr ⟨ho.symm, by omega⟩
  · have ho' : x.origin.toNat ≠ y.origin.toNat := fun he => ho (BitVec.eq_of_toNat_eq he)
    exact Or.inl (by omega)

theorem expiring_sorted {F : Frame} {st : List Proposal} (h : (st.map (fun p => (p.origin, p.seq))).Nodup) :
    (expiring F st).Pairwise KeyLess :=
  sortBy_sorted ((List.pairwise_map.mp h).filter _) (fun _ _ _ _ _ => keyBefore_iff.mp) (fun _ _ _ _ hne => keyLess_of_not hne)
    fun _ _ _ _ _ _ => keyLess_trans

theorem expiringPairs_sorted {F : Frame} {st : List Proposal} (h : (st.map (fun p => (p.origin, p.seq))).Nodup) :
    (expiringPairs F st).Pairwise (fun x y => KeyLess x.1 y.1) := by
  refine List.Pairwise.filterMap _ (fun p q hpq x hx y hy => ?_) (expiring_sorted h)
  obtain ⟨rfl, _⟩ := heldPair_eq_some.mp hx
  obtain ⟨rfl, _⟩ := heldPair_eq_some.mp hy
  exact hpq

/-- The report of an expired record. -/
def expiryReport (F : Frame) (x : Proposal × Frame) : Report := .event (.holdExpired x.1.origin x.1.seq x.2 F)

theorem expiryEvents_eq (F : Frame) (ps : List Proposal) :
    (ps.flatMap (expiryEvent F)).map Report.event = (ps.filterMap heldPair).map (expiryReport F) := by
  induction ps with
  | nil => rfl
  | cons p ps ih =>
    rw [List.flatMap_cons, List.map_append, ih, List.filterMap_cons]
    unfold expiryEvent heldPair
    cases p.state <;> rfl

/-- The expired records removed. -/
def unexpired (F : Frame) (s : State) : State := { s with store := s.store.filter (fun p => !heldTooLong F p) }

theorem expireHeld_report (F : Frame) (s : State) :
    (expireHeld F s).report = handOver ((expiringPairs F s.store).map (expiryReport F)) (now s) s.report := by
  rw [expiringPairs, ← expiryEvents_eq]
  exact report_foldl Report.event ((expiring F s.store).flatMap (expiryEvent F)) (unexpired F s)

theorem expireHeld_store (F : Frame) (s : State) : (expireHeld F s).store = s.store.filter (fun p => !heldTooLong F p) :=
  (report_foldl_writes Report.event ((expiring F s.store).flatMap (expiryEvent F)) (unexpired F s)).at .store

/-! ## The hand-over (R123) -/

theorem mem_unexpired {F : Frame} {st : List Proposal} {p : Proposal} (h : heldTooLong F p = false) :
    p ∈ st.filter (fun p => !heldTooLong F p) ↔ p ∈ st := by
  rw [List.mem_filter, h]
  exact and_iff_left rfl

theorem heldTooLong_of_not_held {F : Frame} {p : Proposal} (h : ∀ a, p.state ≠ .held a) : heldTooLong F p = false :=
  Bool.eq_false_iff.mpr fun hl => by
    obtain ⟨a, hstate, _⟩ := heldTooLong_iff.mp hl
    exact h a hstate

theorem giveApplySet_phase {s : State} (h : s.raster.active = false) : (giveApplySet s).table.apply.phase
    = if s.table.apply.staged = none ∧ s.store.filterMap (dueAt s.table.apply.frame) = [] then .idle else .taken := by
  show (if (s.raster.active || (s.table.apply.staged.isNone && (s.store.filterMap (dueAt s.table.apply.frame)).isEmpty)) = true
    then ApplyPhase.idle else .taken) = _
  rw [h, Bool.false_or]
  refine if_congr ?_ rfl rfl
  rw [Bool.and_eq_true, Option.isNone_iff_eq_none, List.isEmpty_iff]

/-! ## Retention expiry (R124) -/

theorem retainedTooLong_iff {F : Frame} {p : Proposal} :
    retainedTooLong F p = true ↔ ∃ e, p.state = .applied e ∧ 8 ≤ (F - e).toNat ∧ (F - e).toNat ≤ 32767 := by
  unfold retainedTooLong
  cases p.state with
  | applied a => exact aged_iff.trans ⟨fun h => ⟨a, rfl, h⟩, by rintro ⟨_, ⟨⟩, h⟩; exact h⟩
  | scheduled e | held e => exact ⟨nofun, fun ⟨_, h, _⟩ => absurd h nofun⟩

theorem mem_expireRetained_store {F : Frame} {s : State} {p : Proposal} :
    p ∈ (expireRetained F s).store ↔ p ∈ s.store ∧ ¬ ∃ e, p.state = .applied e ∧ 8 ≤ (F - e).toNat ∧ (F - e).toNat ≤ 32767 := by
  show p ∈ s.store.filter _ ↔ _
  rw [List.mem_filter, ← retainedTooLong_iff, Bool.not_eq_true', Bool.not_eq_true]

theorem mem_expireRetained_reapply {F : Frame} {s : State} {d : DueRecord} :
    d ∈ (expireRetained F s).table.apply.reapply ↔ d ∈ s.table.apply.reapply
      ∧ ∃ p ∈ (expireRetained F s).store, ∃ e, p.state = .applied e ∧ d = dueOf e p := by
  show d ∈ s.table.apply.reapply.filter _ ↔ _
  rw [List.mem_filter, List.contains_iff_mem, mem_retainedDue]
  rfl

/-! ## The rows -/

theorem exec_holdExpiry (s : State) : exec .holdExpiry s = .next (whenReleased (takeWork .holdExpiry) s) := rfl

theorem exec_retentionExpiry (s : State) :
    exec .retentionExpiry s = .next (whenReleased (fun s => takeWork .retentionExpiry (takeWork .holdExpiry s)) s) := rfl

theorem holdExpiry_taken {s : State} (h : FrameWork.holdExpiry ∈ s.startWork.due) :
    takeWork .holdExpiry s = giveApplySet (expireHeld s.startWork.frame (settleWork .holdExpiry s)) := takeWork_of_mem h

theorem holdExpiry_not_due {s : State} (h : FrameWork.holdExpiry ∈ s.startWork.due) :
    FrameWork.holdExpiry ∉ (takeWork .holdExpiry s).startWork.due := by
  have hw := (expireHeld_writes s.startWork.frame (settleWork .holdExpiry s)).mono.trans
    (giveApplySet_writes (expireHeld s.startWork.frame (settleWork .holdExpiry s))).mono
    (fs := [.store, .reports, .sending, .sendEnds, .lost, .applyPhase, .applyReapply, .applyDue])
  rw [holdExpiry_taken h, hw.at .startWork, settleWork_due, List.mem_filter, beq_self_eq_true]
  exact fun h => absurd h.2 (by decide)

/-- Settles O13. -/
theorem storeRecordsExpire : Obligations.StoreRecordsExpire := by
  intro s h0 hu
  refine ⟨fun hdue => ?_, fun hdue hnot => ?_, fun hdue => ?_⟩
  · refine answers_takeWork (exec_holdExpiry s) h0 hdue ?_
    have hset := settleWork_writes .holdExpiry s
    have hheld := expireHeld_writes s.startWork.frame (settleWork .holdExpiry s)
    have hgive := giveApplySet_writes (expireHeld s.startWork.frame (settleWork .holdExpiry s))
    have hstore : (expireHeld s.startWork.frame (settleWork .holdExpiry s)).store
        = s.store.filter (fun p => !heldTooLong s.startWork.frame p) := expireHeld_store _ _
    have hreport : (expireHeld s.startWork.frame (settleWork .holdExpiry s)).report
        = handOver ((expiringPairs s.startWork.frame s.store).map (expiryReport s.startWork.frame)) (now s) s.report :=
      expireHeld_report _ _
    have hw : Writes (Field.ofReport ++ [.store, .startWork]) s (expireHeld s.startWork.frame (settleWork .holdExpiry s)) :=
      hset.mono.trans hheld.mono
    have hwork : doWork s.startWork.frame .holdExpiry (settleWork .holdExpiry s)
        = giveApplySet (expireHeld s.startWork.frame (settleWork .holdExpiry s)) := rfl
    rw [hwork]
    generalize expireHeld s.startWork.frame (settleWork .holdExpiry s) = u at *
    have hframe : u.table.apply.frame = s.table.apply.frame := hw.at .applyFrame
    refine ⟨expiringPairs s.startWork.frame s.store, fun p a => mem_expiringPairs, expiringPairs_sorted hu.storeKeys, hreport, ?_, fun d => ?_,
      fun d => ?_, fun hactive => ?_, hw.mono.trans hgive.mono⟩
    · rw [giveApplySet_store, hstore, hframe]
      have hkept : s.store.filter (fun p => decide (p ∉ (expiringPairs s.startWork.frame s.store).map (·.1)))
          = s.store.filter (fun p => !heldTooLong s.startWork.frame p) := by
        refine List.filter_congr fun p hp => ?_
        rw [decide_not, Bool.eq_iff_iff.mpr (decide_eq_true_iff.trans (mem_expiringPairs_fst hp))]
      rw [hkept]
      refine List.map_congr_left fun p _ => ?_
      unfold handedOver
      cases p.state <;> rfl
    · rw [giveApplySet_due, mem_filterMap_dueAt, hframe, hstore]
      refine exists_congr fun p => ⟨fun ⟨hp, e, hstate, h⟩ => ⟨List.mem_of_mem_filter hp, e, hstate, h⟩, fun ⟨hp, e, hstate, h⟩ => ?_⟩
      exact ⟨(mem_unexpired (heldTooLong_of_not_held fun a ha => absurd (hstate.symm.trans ha) nofun)).mpr hp, e, hstate, h⟩
    · rw [giveApplySet_reapply, mem_retainedDue, hstore]
      refine exists_congr fun p => ⟨fun ⟨hp, e, hstate, h⟩ => ⟨List.mem_of_mem_filter hp, e, hstate, h⟩, fun ⟨hp, e, hstate, h⟩ => ?_⟩
      exact ⟨(mem_unexpired (heldTooLong_of_not_held fun a ha => absurd (hstate.symm.trans ha) nofun)).mpr hp, e, hstate, h⟩
    · rw [giveApplySet_phase ((hw.at .active).trans hactive), hw.at .applyStaged]
      rfl
  · refine ⟨expireRetained s.startWork.frame (settleWork .retentionExpiry s), ?_, fun p => mem_expireRetained_store,
      fun d => mem_expireRetained_reapply, (settleWork_writes .retentionExpiry s).mono.trans (expireRetained_writes _ _).mono⟩
    rw [exec_retentionExpiry, whenReleased_of h0, takeWork_of_not_mem hnot, takeWork_of_mem hdue]
    rfl
  · refine ⟨takeWork .holdExpiry s, by rw [exec_holdExpiry, whenReleased_of h0], ?_⟩
    have hreset : (takeWork .holdExpiry s).inReset = false := ((takeWork_writes .holdExpiry s).at .inReset).trans h0
    rw [exec_retentionExpiry, exec_retentionExpiry, whenReleased_of h0, whenReleased_of hreset,
      takeWork_of_not_mem (s := takeWork .holdExpiry s) (holdExpiry_not_due hdue)]

end Sys2Proof.Machine
end

