-- ==== Sys2Proof/Proofs/LinesShown.lean ====
section
/-! SUPPORT. Proofs/LinesShown.lean: an active line shown from its slot or as an underrun (R150, R160 to R163), and what a PMARK begins (R145,
R147, R149, R151, R153). -/

namespace Sys2Proof.Machine

set_option Elab.async false

/-! ## The active line's pixels (R160 to R163) -/

/-- The panel drives W pixels in an active line, and black behind them. -/
theorem shown_of_linePixels {s t : State} {indices : List Byte} (h : t.panel.pixels = linePixels s indices)
    (hl : indices.length ≤ lineWidth s) :
    (∀ x, panelDE t x = decide (x < lineWidth s)) ∧ (∀ x, x < lineWidth s → t.panel.pixels[x]? = some (panelRGB t x))
      ∧ (∀ x, lineWidth s ≤ x → panelRGB t x = ⟨0, 0, 0⟩)
      ∧ (s.panel.black = true → t.panel.pixels = List.replicate (lineWidth s) ⟨0, 0, 0⟩) := by
  have hlength : t.panel.pixels.length = lineWidth s := by rw [h, linePixels_length hl]
  refine ⟨fun x => by rw [panelDE, hlength], fun x hx => ?_, fun x hx => ?_, fun hblack => ?_⟩
  · rw [panelRGB, List.getElem?_eq_getElem (hlength.symm ▸ hx)]
    rfl
  · rw [panelRGB, List.getElem?_eq_none (hlength.symm ▸ hx)]
    rfl
  · rw [h, linePixels, if_pos hblack]

theorem linePixels_of_lit {s : State} (h : s.panel.black = false) (indices : List Byte) : linePixels s indices
    = indices.map (fun i => (Memory.read s.table.entries
        ((i + (Memory.read s.table.entries 259).value.red) &&& (Memory.read s.table.entries 257).value.red).toNat).value)
      ++ List.replicate (lineWidth s - indices.length) (Memory.read s.table.entries 256).value := by
  rw [linePixels, if_neg (Bool.eq_false_iff.mp h)]
  rfl

/-! ## The active line (R150) -/

theorem exec_activeLine (j : Nat) (s : State) : exec (.activeLine j) s = .next (whenReleased (beginLine j) s) := rfl

/-- Line j taken as begun. -/
def lineBegun (j : Nat) (s : State) : State := { s with pixel.begun := j + 1 }

theorem lineBegun_writes (j : Nat) (s : State) : Writes [.begun] s (lineBegun j s) := by
  intro f hf
  cases f with
  | begun => exact absurd hf (by decide)
  | _ => rfl

section

variable {j : Nat} {s : State} (hbegun : s.pixel.begun = j) (hj : j < activeLines s)

include hbegun hj

theorem consumeLine_of_whole {x : Slot} (hx : findSlot j s = some x) (hstate : x.state = .complete ∨ x.state = .short) :
    consumeLine j s = freeSlot j (driveLine x.bytes (lineBegun j s)) := by
  rw [consumeLine, if_pos ⟨hj, Nat.le_of_eq hbegun⟩]
  dsimp only
  rw [hx]
  dsimp only
  rcases hstate with hstate | hstate <;> rw [hstate] <;> rfl

theorem consumeLine_of_underrun (hx : ∀ x, findSlot j s = some x → x.state ≠ .complete ∧ x.state ≠ .short) :
    consumeLine j s = underrun j (lineBegun j s) := by
  rw [consumeLine, if_pos ⟨hj, Nat.le_of_eq hbegun⟩]
  dsimp only
  cases hfound : findSlot j s with
  | none => rfl
  | some x =>
    dsimp only
    obtain ⟨h1, h2⟩ := hx x hfound
    cases hstate : x.state with
    | complete => exact absurd hstate h1
    | short => exact absurd hstate h2
    | awaiting | receiving | abandoned => rfl

end

/-- A whole or short line holds no more than W bytes. -/
theorem PixelOk.bytes_le {s : State} (h : PixelOk s) {k : Nat} {x : Slot} (hx : findSlot k s = some x)
    (hstate : x.state = .complete ∨ x.state = .short) : x.bytes.length ≤ lineWidth s := by
  have hform := h.form x (findSlot_line hx).2
  rcases hstate with hstate | hstate
  · simp only [SlotOk, hstate] at hform
    exact Nat.le_of_eq hform
  · simp only [SlotOk, hstate] at hform
    exact Nat.le_of_lt hform

theorem PixelOk.lineBegun {s : State} (h : PixelOk s) {j : Nat} (hj : j < activeLines s) : PixelOk (lineBegun j s) := { h with begun := hj }

/-- Settles O33. -/
theorem activeLineShown : Obligations.ActiveLineShown := by
  refine ⟨fun s j h0 hline => ?_, fun s j h0 hline hactive hbegun hj hok => ?_⟩
  · rw [exec_activeLine, whenReleased_of h0, beginLine, if_neg hline]
  · have hexec : exec (.activeLine j) s = .next (consumeLine j s) := by
      rw [exec_activeLine, whenReleased_of h0, beginLine, if_pos hline, beginActive_off (Or.inr hactive)]
    have hset := lineBegun_writes j s
    by_cases hwhole : ∃ x, findSlot j s = some x ∧ (x.state = .complete ∨ x.state = .short)
    · obtain ⟨x, hx, hstate⟩ := hwhole
      have hbytes := hok.bytes_le hx hstate
      have hdriven : PixelOk (driveLine x.bytes (lineBegun j s)) := (hok.lineBegun hj).driveLine hbytes
      have hfree := freeSlot_writes j (driveLine x.bytes (lineBegun j s))
      have hpixels : (freeSlot j (driveLine x.bytes (lineBegun j s))).panel.pixels = linePixels s x.bytes := hfree.at .pixels
      have hunique : ∀ y, findSlot j s = some y → y = x := fun y hy => Option.some.inj (hy.symm.trans hx)
      obtain ⟨hde, hrgb, hbeyond, hblack⟩ := shown_of_linePixels hpixels hbytes
      refine ⟨_, hexec.trans (congrArg _ (consumeLine_of_whole hbegun hj hx hstate)), hfree.at .begun, hde, hrgb, hbeyond, hblack,
        fun y hy _ => ?_, fun hnot => ?_⟩
      · rw [hunique y hy]
        refine ⟨fun hlit => hpixels.trans (linePixels_of_lit hlit _), findSlot_freeSlot j _, fun m h1 h2 => findSlot_freeSlot_ne _ h1 h2,
          fun hnext => ?_, (hset.mono.trans (driveLine_writes _ _).mono).trans hfree.mono⟩
        obtain ⟨_, _, hbound⟩ := freeSlot_requests_next hdriven (x := x) hx hnext
        refine ⟨_, hbound, if_neg ?_⟩
        show ¬ j + 2 < j + 1
        omega
      · obtain ⟨h1, h2⟩ := hnot x hx
        exact absurd hstate (not_or.mpr ⟨h1, h2⟩)
    · have hnot : ∀ x, findSlot j s = some x → x.state ≠ .complete ∧ x.state ≠ .short := fun x hx =>
        not_or.mp fun hstate => hwhole ⟨x, hx, hstate⟩
      have hpixels : (underrun j (lineBegun j s)).panel.pixels = linePixels s [] := rfl
      obtain ⟨hde, hrgb, hbeyond, hblack⟩ := shown_of_linePixels hpixels (Nat.zero_le _)
      refine ⟨_, hexec.trans (congrArg _ (consumeLine_of_underrun hbegun hj hnot)), rfl, hde, hrgb, hbeyond, hblack,
        fun x hx hstate => absurd ⟨x, hx, hstate⟩ hwhole, fun _ => ⟨fun hlit => ?_, rfl, fun x hx => ?_, fun m hm => ?_, ?_⟩⟩
      · exact hpixels.trans (linePixels_of_lit hlit [])
      · exact ⟨_, findSlot_setSlot (s := lineBegun j s) (fun _ => rfl) hx, rfl, rfl⟩
      · exact findSlot_setSlot_ne (lineBegun j s) (fun _ => rfl) hm
      · exact hset.mono.trans ((setSlot_writes _ _ _).mono.trans ((driveLine_writes _ _).mono.trans (countUnderrun_writes _).mono))

/-! ## PMARK (R147, R149, R151, R153) -/

theorem exec_pmark (s : State) : exec .pmark s = .next (whenReleased takeMark s) := rfl

theorem markPacket_of_packet {bytes : List Byte} {s : State} (h : s.pixel.rx = .packet bytes) :
    markPacket s = packetError .truncated bytes.head? { s with pixel.rx := .packet [] } := by
  rw [markPacket, h]
  rfl

theorem markPacket_of_other {s : State} (h : ∀ bytes, s.pixel.rx ≠ .packet bytes) :
    markPacket s = { s with pixel.rx := .packet [] } := by
  unfold markPacket
  split
  case h_1 bytes hb => exact absurd hb (h bytes)
  all_goals rfl

/-- What the end of the reception in progress leaves, from s to u. -/
structure ReceptionEnded (s u : State) : Prop where
  outstanding : u.pixel.outstanding = s.pixel.outstanding ++ reopened s
  requested : u.pixel.requested = s.pixel.requested + (reopened s).length
  others : ∀ n, s.pixel.rx ≠ .line n → n ∉ reopened s → findSlot n u = findSlot n s
  short : ∀ m x, s.pixel.rx = .line m → findSlot m s = some x → x.state = .receiving → findSlot m u = some { x with state := .short }
  freed : ∀ m x, s.pixel.rx = .line m → findSlot m s = some x → x.state = .abandoned → findSlot m u = none
    ∧ (m + 2 < activeLines s → reopened s = [m + 2] ∧ findSlot (m + 2) u = some (boundSlot (m + 2) s))
  writes : Writes [.slots, .requests, .requested] s u

theorem reopened_of_other {s : State} (h : ∀ m, s.pixel.rx ≠ .line m) : reopened s = [] := by
  unfold reopened
  split
  case h_1 m hm => exact absurd hm (h m)
  all_goals rfl

theorem reopened_of_line {s : State} {m : Nat} {x : Slot} (hrx : s.pixel.rx = .line m) (hx : findSlot m s = some x) :
    reopened s = if x.state = .abandoned ∧ m + 2 < activeLines s then [m + 2] else [] := by
  rw [reopened, hrx]
  dsimp only
  rw [hx]

theorem received_of_other {s : State} (h : ∀ m, s.pixel.rx ≠ .line m) : received s = s := by
  unfold received
  split
  case h_1 m hm => exact absurd hm (h m)
  all_goals rfl

theorem received_of_receiving {s : State} {m : Nat} {x : Slot} (hrx : s.pixel.rx = .line m) (hx : findSlot m s = some x)
    (hstate : x.state = .receiving) : received s = setSlot m (fun x => { x with state := .short }) s := by
  rw [received, hrx]
  dsimp only
  rw [endReception, hx]
  dsimp only
  rw [hstate]

theorem received_of_abandoned {s : State} {m : Nat} {x : Slot} (hrx : s.pixel.rx = .line m) (hx : findSlot m s = some x)
    (hstate : x.state = .abandoned) : received s = freeSlot m s := by
  rw [received, hrx]
  dsimp only
  rw [endReception, hx]
  dsimp only
  rw [hstate]

/-- Past the frame's last line a freed slot stays empty (R145). -/
theorem freeSlot_of_last {k : Nat} {s : State} (hk : ¬ k + 2 < activeLines s) :
    freeSlot k s = { s with pixel.slots := s.pixel.slots.filter (fun x => !(x.line == k)) } := if_neg fun h => hk h.1

theorem receptionEnded_of_receiving {s : State} {m : Nat} {x : Slot} (hrx : s.pixel.rx = .line m) (hx : findSlot m s = some x)
    (hstate : x.state = .receiving) : ReceptionEnded s (received s) := by
  have hnone : reopened s = [] := by
    rw [reopened_of_line hrx hx, if_neg]
    rw [hstate]
    exact fun h => absurd h.1 (by decide)
  have hline : ∀ n, s.pixel.rx = .line n → n = m := fun n hn => Rx.line.inj (hn.symm.trans hrx)
  rw [received_of_receiving hrx hx hstate]
  refine ⟨by rw [hnone, List.append_nil]; rfl, by rw [hnone]; rfl, fun n hn _ => ?_, fun n y hn hy _ => ?_, fun n y hn hy hab => ?_,
    (setSlot_writes _ _ _).mono⟩
  · exact findSlot_setSlot_ne s (fun _ => rfl) fun he => hn (he ▸ hrx)
  · obtain rfl := hline n hn
    exact findSlot_setSlot (fun _ => rfl) hy
  · obtain rfl := hline n hn
    obtain rfl : x = y := Option.some.inj (hx.symm.trans hy)
    exact absurd (hstate.symm.trans hab) (by decide)

theorem receptionEnded_of_abandoned {s : State} (hok : PixelOk s) {m : Nat} {x : Slot} (hrx : s.pixel.rx = .line m)
    (hx : findSlot m s = some x) (hstate : x.state = .abandoned) : ReceptionEnded s (received s) := by
  have hline : ∀ n, s.pixel.rx = .line n → n = m := fun n hn => Rx.line.inj (hn.symm.trans hrx)
  have hshort : ∀ n y, s.pixel.rx = .line n → findSlot n s = some y → y.state = .receiving → ∀ {P : Prop}, P := by
    intro n y hn hy hreceiving
    obtain rfl := hline n hn
    obtain rfl : x = y := Option.some.inj (hx.symm.trans hy)
    exact absurd (hstate.symm.trans hreceiving) (by decide)
  rw [received_of_abandoned hrx hx hstate]
  by_cases hnext : m + 2 < activeLines s
  · have hopen : reopened s = [m + 2] := by rw [reopened_of_line hrx hx, if_pos ⟨hstate, hnext⟩]
    obtain ⟨houtstanding, hrequested, hbound⟩ := freeSlot_requests_next hok hx hnext
    refine ⟨hopen ▸ houtstanding, hopen ▸ hrequested, fun n hn hno => ?_, fun n y hn hy hr => hshort n y hn hy hr,
      fun n y hn hy _ => ?_, freeSlot_writes m s⟩
    · rw [hopen, List.mem_singleton] at hno
      exact findSlot_freeSlot_ne s (fun he => hn (he ▸ hrx)) hno
    · obtain rfl := hline n hn
      exact ⟨findSlot_freeSlot n s, fun _ => ⟨hopen, hbound⟩⟩
  · have hopen : reopened s = [] := by rw [reopened_of_line hrx hx, if_neg fun h => hnext h.2]
    have hfreed := freeSlot_of_last hnext
    refine ⟨by rw [hopen, List.append_nil, hfreed], by rw [hopen, hfreed]; rfl, fun n hn _ => ?_,
      fun n y hn hy hr => hshort n y hn hy hr, fun n y hn hy _ => ?_, freeSlot_writes m s⟩
    · rw [hfreed]
      exact find?_filter_of_imp fun y _ hy => by
        have hyn : y.line = n := beq_iff_eq.mp hy
        have hne : n ≠ m := fun he => hn (he ▸ hrx)
        simp [hyn, hne]
    · obtain rfl := hline n hn
      exact ⟨findSlot_freeSlot n s, fun h => absurd h hnext⟩

/-- The reception in progress ends as R149 and R151 say. -/
theorem receptionEnded {s : State} (hok : PixelOk s) : ReceptionEnded s (received s) := by
  by_cases hline : ∃ m, s.pixel.rx = .line m
  · obtain ⟨m, hrx⟩ := hline
    obtain ⟨_, x, hmem, hm, hstate⟩ := hok.reception m hrx
    have hx : findSlot m s = some x := by
      obtain ⟨y, hy⟩ : ∃ y, findSlot m s = some y := Option.isSome_iff_exists.mp (List.find?_isSome.mpr ⟨x, hmem, beq_iff_eq.mpr hm⟩)
      rw [hy, hok.findSlot_eq hy hmem hm]
    rcases hstate with hstate | hstate
    · exact receptionEnded_of_receiving hrx hx hstate
    · exact receptionEnded_of_abandoned hok hrx hx hstate
  · have hother : ∀ m, s.pixel.rx ≠ .line m := fun m hm => hline ⟨m, hm⟩
    have hnone := reopened_of_other hother
    rw [received_of_other hother]
    exact ⟨by rw [hnone, List.append_nil], by rw [hnone]; rfl, fun _ _ _ => rfl, fun m _ hm => absurd hm (hother m),
      fun m _ hm => absurd hm (hother m), .refl s⟩

/-- The slot of a taken request: it waits no longer (R147). -/
def requestTaken (x : Slot) : Slot := { x with state := if x.state = .awaiting then .receiving else x.state }

theorem takeRequest_eq (k : Nat) (u : State) : takeRequest k u =
    setSlot k requestTaken { u with pixel.outstanding := u.pixel.outstanding.tail, pixel.rx := .line k } := rfl

theorem requestTaken_of_abandoned {x : Slot} (h : x.state = .abandoned) : requestTaken x = x := by
  have hne : x.state ≠ .awaiting := by rw [h]; decide
  rw [requestTaken, if_neg hne]

theorem takeRequest_writes (k : Nat) (u : State) : Writes [.slots, .requests, .rx] u (takeRequest k u) := by
  have hset : Writes [.requests, .rx] u { u with pixel.outstanding := u.pixel.outstanding.tail, pixel.rx := .line k } := by
    intro f hf
    cases f with
    | requests | rx => exact absurd hf (by decide)
    | _ => rfl
  exact hset.mono.trans (setSlot_writes _ _ _).mono

theorem discard_writes (u : State) : Writes [.rx, .overflow] u (countOverflow { u with pixel.rx := .discard }) :=
  (rx_writes u .discard).mono.trans (countOverflow_writes _).mono

/-- The line two on that a freed slot goes to is not the oldest request. -/
theorem PixelOk.not_reopened {s : State} (h : PixelOk s) {k : Nat} (hk : k ∈ s.pixel.outstanding) : k ∉ reopened s := by
  intro hmem
  unfold reopened at hmem
  split at hmem
  case h_1 m hrx =>
    split at hmem
    case h_1 x hx =>
      split at hmem
      case isTrue =>
        obtain ⟨y, hy, hyk, _⟩ := h.outstandingBound k hk
        exact h.next_unbound hx y hy (hyk.trans (List.mem_singleton.mp hmem))
      case isFalse => exact List.not_mem_nil hmem
    case h_2 => exact List.not_mem_nil hmem
  all_goals exact List.not_mem_nil hmem

/-- A PMARK outside the control window takes the oldest request (R147). -/
theorem markLine_of_asked {s : State} {k : Nat} (h : s.pixel.outstanding.head? = some k) : markLine s = takeRequest k (received s) := by
  rw [markLine_eq, h]

theorem markLine_of_unasked {s : State} (h : s.pixel.outstanding = []) :
    markLine s = countOverflow { received s with pixel.rx := .discard } := by
  rw [markLine_eq, h]
  rfl

/-- Settles O35. -/
theorem pmarkBegins : Obligations.PmarkBegins := by
  intro s h0 hok
  refine ⟨fun hcwin => ?_, fun hcwin => ?_⟩
  · have hexec : exec .pmark s = .next (markPacket s) := by rw [exec_pmark, whenReleased_of h0, takeMark, if_pos hcwin]
    by_cases hpacket : ∃ bytes, s.pixel.rx = .packet bytes
    · obtain ⟨bytes, hb⟩ := hpacket
      have hsame : ∀ other, s.pixel.rx = .packet other → other = bytes := fun other ho => Rx.packet.inj (ho.symm.trans hb)
      refine ⟨_, hexec.trans (congrArg _ (markPacket_of_packet hb)), rfl, fun other ho => ?_, fun hno => absurd hb (hno bytes)⟩
      rw [hsame other ho]
      exact ⟨rfl, (rx_writes s (.packet [])).mono.trans (report_writes _ _).mono⟩
    · have hno : ∀ bytes, s.pixel.rx ≠ .packet bytes := fun bytes hb => hpacket ⟨bytes, hb⟩
      exact ⟨_, hexec.trans (congrArg _ (markPacket_of_other hno)), rfl, fun bytes hb => absurd hb (hno bytes),
        fun _ => rx_writes s (.packet [])⟩
  · have hexec : exec .pmark s = .next (markLine s) := by
      rw [exec_pmark, whenReleased_of h0, takeMark, if_neg (Bool.eq_false_iff.mp hcwin)]
    have hended := receptionEnded hok
    have hboundState : ∀ m, (boundSlot (m + 2) s).state = if m + 2 < s.pixel.begun then .abandoned else .awaiting := fun _ => rfl
    cases hout : s.pixel.outstanding with
    | nil =>
      rw [markLine_of_unasked hout] at hexec
      have hdiscard := discard_writes (received s)
      have hempty : (received s).pixel.outstanding = [].tail ++ reopened s := by rw [hended.outstanding, hout]; rfl
      refine ⟨_, hexec, fun k rest h => absurd h nofun, fun _ => ⟨rfl, congrArg countUp (hended.writes.at .overflow)⟩, hempty, hended.requested,
        fun n _ hn hno => hended.others n hn hno, hended.short, fun m x hrx hx hstate => ?_, hended.writes.mono.trans hdiscard.mono⟩
      obtain ⟨hfree, hnext⟩ := hended.freed m x hrx hx hstate
      refine ⟨hfree, fun hm => ?_⟩
      obtain ⟨hopen, hbound⟩ := hnext hm
      refine ⟨?_, ?_, _, hbound, hboundState m⟩
      · show m + 2 ∈ (received s).pixel.outstanding
        rw [hempty, hopen]
        exact List.mem_cons_self
      · exact hended.requested.trans (by rw [hopen]; rfl)
    | cons k rest =>
      rw [markLine_of_asked (by rw [hout]; rfl)] at hexec
      have hk : k ∈ s.pixel.outstanding := by rw [hout]; exact List.mem_cons_self
      have hreopened := hok.not_reopened hk
      have hrx : s.pixel.rx ≠ .line k := fun h => (hok.reception k h).1 hk
      have hsame := hended.others k hrx hreopened
      have htaken : ∀ x, findSlot k s = some x → findSlot k (takeRequest k (received s)) = some (requestTaken x) := fun x hx =>
        findSlot_setSlot (fun _ => rfl) (hsame.trans hx)
      have hother : ∀ n, n ≠ k → findSlot n (takeRequest k (received s)) = findSlot n (received s) := fun n hn =>
        findSlot_setSlot_ne _ (fun _ => rfl) hn
      have htail : (takeRequest k (received s)).pixel.outstanding = rest ++ reopened s := by
        show (received s).pixel.outstanding.tail = _
        rw [hended.outstanding, hout]
        rfl
      have hwrites := hended.writes.mono.trans (takeRequest_writes k (received s)).mono (fs := [.slots, .requests, .requested, .rx])
      have hnodup := hok.outstandingOnce
      rw [hout] at hnodup
      have hne : ∀ m, s.pixel.rx = .line m → m ≠ k := fun m hm he => hrx (he ▸ hm)
      refine ⟨_, hexec, fun k' rest' h => ?_, fun h => absurd h nofun, htail, hended.requested, fun n hhead hn hno => ?_,
        fun m x hm hx hstate => (hother m (hne m hm)).trans (hended.short m x hm hx hstate), fun m x hm hx hstate => ?_, hwrites.mono⟩
      · obtain ⟨rfl, rfl⟩ := List.cons.inj h
        refine ⟨rfl, ?_, fun x hx hstate => ⟨_, htaken x hx, ?_, ?_⟩, fun x hx hstate => ?_, hwrites.at .overflow⟩
        · rw [htail, List.mem_append]
          exact fun h => h.elim (List.nodup_cons.mp hnodup).1 hreopened
        · exact if_pos hstate
        · have hform := hok.form x (findSlot_line hx).2
          simp only [SlotOk, hstate] at hform
          exact hform.2
        · rw [htaken x hx, requestTaken_of_abandoned hstate]
      · have hnk : n ≠ k := fun he => hhead (he ▸ rfl)
        exact (hother n hnk).trans (hended.others n hn hno)
      · obtain ⟨hfree, hnext⟩ := hended.freed m x hm hx hstate
        refine ⟨(hother m (hne m hm)).trans hfree, fun hm2 => ?_⟩
        obtain ⟨hopen, hbound⟩ := hnext hm2
        rw [hopen] at hreopened
        have hnk : m + 2 ≠ k := fun he => hreopened (List.mem_singleton.mpr he.symm)
        refine ⟨?_, ?_, _, (hother (m + 2) hnk).trans hbound, hboundState m⟩
        · rw [htail, hopen]
          exact List.mem_append_right _ (List.mem_singleton.mpr rfl)
        · exact hended.requested.trans (by rw [hopen]; rfl)

end Sys2Proof.Machine
end

