-- ==== Sys2Proof/Proofs/ParcelCodec.lean ====
section
/-! SUPPORT. Proofs/ParcelCodec.lean: a parcel's run of bytes, and the bits of it on a link, read back as the parcel (R35, R37, R175, R177). -/

namespace Sys2Proof.Machine

set_option Elab.async false

/-! ## Words and coded fields -/

theorem word32_bytes (d : Digest) : word32 (d.extractLsb' 24 8) (d.extractLsb' 16 8) (d.extractLsb' 8 8) (d.extractLsb' 0 8) = d := by
  have h1 : d.extractLsb' 24 8 ++ d.extractLsb' 16 8 = d.extractLsb' 16 16 := BitVec.extractLsb'_append_extractLsb'_eq_extractLsb' rfl
  have h2 : d.extractLsb' 16 16 ++ d.extractLsb' 8 8 = d.extractLsb' 8 24 := BitVec.extractLsb'_append_extractLsb'_eq_extractLsb' rfl
  have h3 : d.extractLsb' 8 24 ++ d.extractLsb' 0 8 = d.extractLsb' 0 32 := BitVec.extractLsb'_append_extractLsb'_eq_extractLsb' rfl
  rw [word32, h1, h2, h3]
  exact BitVec.extractLsb'_eq_self

theorem stationState_ofCode (x : StationState) : StationState.ofCode (StationState.code x) = some x := by cases x <;> rfl

theorem lockState_ofCode (x : LockState) : LockState.ofCode (LockState.code x) = some x := by cases x <;> rfl

theorem profile_ofCode (x : Profile) : Profile.ofCode (Profile.code x) = some x := by cases x <;> rfl

theorem lead_ofCode (x : Lead) : Lead.ofCode (Lead.code x) = some x := by cases x <;> rfl

theorem flagOfCode_flagCode (x : Bool) : flagOfCode (flagCode x) = some x := by cases x <;> rfl

/-! ## Lists of edits and of entries -/

theorem readEdits_editBytes (es : List Edit) : readEdits es.length (es.flatMap editBytes) = some es := by
  induction es with
  | nil => rfl
  | cons e es ih =>
    show (readEdits es.length (es.flatMap editBytes)).map _ = _
    rw [ih, word16_bytes]
    rfl

/-- An entry with a stamp of origin 0 held as null (R177). -/
def entryNorm (e : SnapEntry) : SnapEntry := { e with stamp := stampNorm e.stamp }

theorem readEntries_entryBytes (es : List SnapEntry) : readEntries es.length (es.flatMap snapEntryBytes) = some (es.map entryNorm) := by
  induction es with
  | nil => rfl
  | cons e es ih =>
    obtain ⟨index, value, stamp⟩ := e
    cases stamp with
    | null =>
      show (readEntries es.length (es.flatMap snapEntryBytes)).map _ = _
      rw [ih, word16_bytes]
      rfl
    | mark f o q =>
      show (readEntries es.length (es.flatMap snapEntryBytes)).map _ = _
      rw [ih, word16_bytes, readStamp, word16_bytes]
      rfl

theorem byteCount_toNat {n : Nat} (h : n ≤ 32) : (BitVec.ofNat 8 n).toNat = n := by
  rw [BitVec.toNat_ofNat]
  exact Nat.mod_eq_of_lt (by omega)

/-! ## The body (R177) -/

theorem readBody_beacon (b : BeaconBody) : readBody 1 (bodyBytes (.beacon b)) = some (.beacon b) := by
  obtain ⟨frame, state, lock, digest, room⟩ := b
  cases digest with
  | none =>
    show (StationState.ofCode (StationState.code state)).bind (fun st => (LockState.ofCode (LockState.code lock)).bind fun lk =>
      some (Body.beacon { frame := word16 (hiByte frame) (loByte frame), state := st, lock := lk, digest := none, room := room })) = _
    rw [stationState_ofCode, lockState_ofCode, word16_bytes]
    rfl
  | some x =>
    obtain ⟨f, d⟩ := x
    show (StationState.ofCode (StationState.code state)).bind (fun st => (LockState.ofCode (LockState.code lock)).bind fun lk =>
      some (Body.beacon ⟨word16 (hiByte frame) (loByte frame), st, lk, some (word16 (hiByte f) (loByte f),
        word32 (d.extractLsb' 24 8) (d.extractLsb' 16 8) (d.extractLsb' 8 8) (d.extractLsb' 0 8)), room⟩)) = _
    rw [stationState_ofCode, lockState_ofCode, word16_bytes, word16_bytes, word32_bytes]
    rfl

theorem readBody_join (b : JoinBody) : readBody 2 (bodyBytes (.join b)) = some (.join b) := by
  show (Profile.ofCode (Profile.code b.profile)).bind (fun pf => (Lead.ofCode (Lead.code b.lead)).bind fun ld =>
    (flagOfCode (flagCode b.mismatch)).bind fun mm => some (Body.join { profile := pf, lead := ld, attempt := b.attempt, mismatch := mm })) = _
  rw [profile_ofCode, lead_ofCode, flagOfCode_flagCode]
  rfl

theorem readBody_propose {b : ProposeBody} (h : b.edits.length ≤ 32) : readBody 3 (bodyBytes (.propose b)) = some (.propose b) := by
  show (readEdits (BitVec.ofNat 8 b.edits.length).toNat (b.edits.flatMap editBytes)).bind
    (fun es => some (Body.propose { seq := b.seq, edits := es, holders := b.holders, refusals := b.refusals })) = _
  rw [byteCount_toNat h, readEdits_editBytes]
  rfl

theorem readBody_commit (q : Seq) (f : Frame) : readBody 4 (bodyBytes (.commit q f)) = some (.commit q f) := by
  show some (Body.commit q (word16 (hiByte f) (loByte f))) = _
  rw [word16_bytes]

theorem readBody_snapshot {b : SnapshotBody} (h : b.entries.length ≤ 32) :
    readBody 7 (bodyBytes (.snapshot b)) = some (.snapshot (normalised b)) := by
  show (readEntries (BitVec.ofNat 8 b.entries.length).toNat (b.entries.flatMap snapEntryBytes)).bind
    (fun es => some (Body.snapshot { part := b.part, build := word16 (hiByte b.build) (loByte b.build), entries := es })) = _
  rw [byteCount_toNat h, readEntries_entryBytes, word16_bytes]
  rfl

theorem snapshot_length {b : SnapshotBody} (h : bodyOk (.snapshot b) = true) : b.entries.length ≤ 32 := by
  simp only [bodyOk, Bool.and_eq_true, decide_eq_true_iff] at h
  rw [h.1.2, partSize]
  split <;> decide

theorem readBody_bodyBytes {p : Parcel} (hok : bodyOk p.body = true) :
    readBody (Kind.code (Body.kind p.body)) (bodyBytes p.body) = some (parcelNorm p).body := by
  obtain ⟨h, body⟩ := p
  cases body with
  | beacon b => exact readBody_beacon b
  | join b => exact readBody_join b
  | propose b =>
    simp only [bodyOk, Bool.and_eq_true, decide_eq_true_iff] at hok
    exact readBody_propose hok.2
  | commit q f => exact readBody_commit q f
  | withdraw q => rfl
  | snapshotReq => rfl
  | snapshot b => exact readBody_snapshot (snapshot_length hok)

/-! ## The parcel (R37) -/

theorem stampOk_stampNorm {x : Stamp} (h : stampOk x = true) : stampOk (stampNorm x) = true := by
  cases x with
  | null => rfl
  | mark f o q =>
    show stampOk (if o = 0 then .null else .mark f o q) = true
    split
    · rfl
    · exact h

/-- A parcel that passes the check passes it as the part holds it. -/
theorem parcelOk_parcelNorm {p : Parcel} (h : parcelOk p = true) : parcelOk (parcelNorm p) = true := by
  obtain ⟨hd, body⟩ := p
  cases body with
  | snapshot b =>
    simp only [parcelOk, bodyOk, Bool.and_eq_true, List.all_eq_true] at h
    obtain ⟨hheader, ⟨hpart, hlength⟩, hstamps⟩ := h
    simp only [parcelOk, parcelNorm, bodyOk, Bool.and_eq_true, List.all_eq_true]
    refine ⟨hheader, ⟨hpart, ?_⟩, fun e he => ?_⟩
    · rw [List.length_map]
      exact hlength
    · obtain ⟨x, hx, rfl⟩ := List.mem_map.mp he
      exact stampOk_stampNorm (hstamps x hx)
  | _ => exact h

theorem parcel_eq_of_header {p : Parcel} : ({ header := p.header, body := (parcelNorm p).body } : Parcel) = parcelNorm p := by
  rw [← parcelNorm_header p]

theorem readRun_runOf {p : Parcel} (h : parcelOk p = true) : readRun (runOf p) = some (parcelNorm p) := by
  have hbody : bodyOk p.body = true := by
    rw [parcelOk, Bool.and_eq_true] at h
    exact h.2
  have hlength : (runOf p).length - 2 = (parcelBytes p).length := by
    rw [runOf, List.length_append]
    rfl
  have htake : (runOf p).take ((runOf p).length - 2) = parcelBytes p := by rw [hlength, runOf, List.take_left]
  have hdrop : (runOf p).drop ((runOf p).length - 2) = [hiByte (crc16 (parcelBytes p)), loByte (crc16 (parcelBytes p))] := by
    rw [hlength, runOf, List.drop_left]
  have hread : readBody (Kind.code (Body.kind p.body)) (bodyBytes p.body) = some (parcelNorm p).body := readBody_bodyBytes hbody
  rw [readRun, htake, hdrop]
  dsimp only
  rw [if_pos rfl]
  show (match readBody (Kind.code (Body.kind p.body)) (bodyBytes p.body) with
    | some b => if parcelOk ⟨p.header, b⟩ then some (Parcel.mk p.header b) else none
    | none => none) = _
  rw [hread]
  dsimp only
  rw [parcel_eq_of_header, if_pos (parcelOk_parcelNorm h)]

/-! ## The bits of a link (R175) -/

theorem byteOfBits_bitsLsb (b : Byte) : byteOfBits b[0] b[1] b[2] b[3] b[4] b[5] b[6] b[7] = b := by
  revert b
  decide +kernel

theorem bytesOfBits_linkBits (run : List Byte) : bytesOfBits (linkBits run) = run := by
  induction run with
  | nil => rfl
  | cons b run ih =>
    show byteOfBits b[0] b[1] b[2] b[3] b[4] b[5] b[6] b[7] :: bytesOfBits (linkBits run) = _
    rw [byteOfBits_bitsLsb, ih]

/-- Settles O55. -/
theorem parcelsReadBack : Obligations.ParcelsReadBack := by
  intro p h
  rw [bytesOfBits_linkBits]
  exact ⟨readRun_runOf h, readRun_runOf h⟩

end Sys2Proof.Machine
end

