-- ==== Sys2Proof/Proofs/Measurements.lean ====
section
/-! SUPPORT. Proofs/Measurements.lean: the measurement of a beacon's arrival and the comparison of its digest, and the digests of a station
in service compared (R66, R75, R82 to R86). -/

namespace Sys2Proof.Machine

set_option Elab.async false

/-! ## The measurement (R82 to R85) -/

theorem slipped_frame (E : Frame) (d : Int) (s : State) : (slipped E d s).raster.frame = E := by
  unfold slipped
  split <;> rfl

theorem slipReport_of_kept {s : State} {E : Frame} {d : Int} (h : s.lock.state = .free ∨ E = now s) : slipReport s E d = s.report :=
  if_pos h

theorem slipped_report {s : State} {E : Frame} {d : Int} (hfree : s.lock.state ≠ .free) (hE : E ≠ now s) :
    (slipped E d s).report = slipReport s E d := by
  rw [slipReport, if_neg (not_or.mpr ⟨hfree, hE⟩), slipped]
  exact apply_ite State.report _ _ _

theorem slipReport_counts {s : State} {E : Frame} {d : Int} (hfree : s.lock.state ≠ .free) (hE : E ≠ now s) :
    (slipReport s E d).counts.frameSlip = countUp s.report.counts.frameSlip := by
  rw [slipReport, if_neg (not_or.mpr ⟨hfree, hE⟩)]
  split
  · rw [reportJoin_counts]
  · rfl

/-- Re-adopted or not, the own frame has the number of the beacon's measurement. -/
theorem adopt_spec {F : Frame} {d : Int} {s : State} (h : s.lock.state ≠ .reference) :
    (adopt F d s).raster.frame = ownFrameOf F d ∧ (adopt F d s).report = slipReport s (ownFrameOf F d) d := by
  have hmeasured : s.lock.state ≠ .free → s.lock.state = .slewing ∨ s.lock.state = .locked →
      (adopt F d s).raster.frame = ownFrameOf F d ∧ (adopt F d s).report = slipReport s (ownFrameOf F d) d := by
    intro hfree hl
    rw [adopt_of_measured hl]
    by_cases hE : ownFrameOf F d = now s
    · rw [if_pos hE]
      exact ⟨hE.symm, (slipReport_of_kept (Or.inr hE)).symm⟩
    · rw [if_neg hE]
      exact ⟨slipped_frame _ _ _, slipped_report hfree hE⟩
  cases hl : s.lock.state with
  | reference => exact absurd hl h
  | free =>
    rw [adopt_of_free hl]
    exact ⟨rfl, (slipReport_of_kept (Or.inl hl)).symm⟩
  | slewing => exact hmeasured (by rw [hl]; decide) (Or.inl hl)
  | locked => exact hmeasured (by rw [hl]; decide) (Or.inr hl)

theorem lockOf_eq_locked {d : Int} : lockOf d = .locked ↔ -2 ≤ d ∧ d ≤ 2 := by
  unfold lockOf
  split
  case isTrue h => exact ⟨fun _ => h, fun _ => rfl⟩
  case isFalse h => exact ⟨nofun, fun hd => absurd hd h⟩

theorem measured_of_lockOf {s t : State} {d : Int} (ho : t.lock.offset = some d) (hl : t.lock.state = lockOf d)
    (hr : t.raster.request = blankingOf (nominal s) d) : Measured s t d := by
  rw [Measured, hl, hr, lockOf, blankingOf]
  refine ⟨ho, fun h1 h2 => ?_, fun h => ?_, fun h => ?_⟩
  · rw [if_pos ⟨h1, h2⟩, if_pos ⟨h1, h2⟩]
    exact ⟨rfl, rfl⟩
  · rw [if_neg (by omega), if_neg (by omega)]
    refine ⟨rfl, ?_⟩
    split
    · omega
    · split <;> omega
  · rw [if_neg (by omega), if_neg (by omega)]
    refine ⟨rfl, ?_⟩
    split
    · omega
    · split <;> omega

theorem Measured.of_same {s t t' : State} {d : Int} (h : Measured s t d) (ht : SameLock t t') : Measured s t' d := by
  rw [Measured, ht.lock, ht.request]
  exact h

/-- The fields that the Lock Unit's part of a measurement can write. -/
abbrev Field.ofLockMeasured : List Field := Field.ofReport ++ [.frame, .frameSlip, .request, .lockState, .offset]

/-- The arrival's offset in the own frame (R82). -/
def offsetNow (s : State) : Int := offsetOf s.raster.line (totalLines s)

theorem lockMeasured_writes (F : Frame) (s : State) : Writes Field.ofLockMeasured s (lockMeasured F s) := by
  have hoffset : Writes [.offset] s { s with lock.offset := some (offsetNow s) } := by
    intro f hf
    cases f with
    | offset => exact absurd hf (by decide)
    | _ => rfl
  have hset : ∀ (t : State) (l : LockState) (n : Nat), Writes [.lockState, .request] t (requestBlanking n { t with lock.state := l }) := by
    intro t l n f hf
    cases f with
    | lockState | request => exact absurd hf (by decide)
    | _ => rfl
  exact hoffset.mono.trans ((adopt_writes F (offsetNow s) { s with lock.offset := some (offsetNow s) }).mono.trans (hset _ _ _).mono)

theorem lockMeasured_spec {F : Frame} {s : State} (h : s.lock.state ≠ .reference) :
    (lockMeasured F s).raster.frame = ownFrameOf F (offsetNow s)
      ∧ (lockMeasured F s).report = slipReport s (ownFrameOf F (offsetNow s)) (offsetNow s)
      ∧ (lockMeasured F s).lock.state = lockOf (offsetNow s) ∧ Measured s (lockMeasured F s) (offsetNow s) := by
  obtain ⟨hframe, hreport⟩ := adopt_spec (F := F) (d := offsetNow s) (s := { s with lock.offset := some (offsetNow s) }) h
  have hoffset : (adopt F (offsetNow s) { s with lock.offset := some (offsetNow s) }).lock.offset = some (offsetNow s) :=
    (adopt_writes _ _ _).at .offset
  exact ⟨hframe, hreport, rfl, measured_of_lockOf hoffset rfl rfl⟩

/-- The lock state becomes one that lets the station into service (R86). -/
def ServesByLock (s : State) : Prop :=
  s.member.state = .catchingUp ∧ installDone s = true ∧ s.lock.state ≠ .locked ∧ -2 ≤ offsetNow s ∧ offsetNow s ≤ 2

theorem measure_of_serves {F : Frame} {s : State} (h : s.lock.state ≠ .reference) (hs : ServesByLock s) :
    measure F s = served (lockMeasured F s) := by
  obtain ⟨hstate, hdone, hlock, hd⟩ := hs
  have hw := lockMeasured_writes F s
  have hlocked : (lockMeasured F s).lock.state = .locked := lockOf_eq_locked.mpr hd
  rw [measure_of_other h, if_neg (by rw [hlocked]; exact hlock.symm)]
  exact testService_of ((hw.at .stationState).trans hstate) ((installDone_of_writes hw).trans hdone) (by rw [hlocked]; rfl)

theorem measure_of_stays {F : Frame} {s : State} (h : s.lock.state ≠ .reference) (hs : ¬ ServesByLock s) :
    measure F s = lockMeasured F s := by
  have hw := lockMeasured_writes F s
  rw [measure_of_other h]
  split
  case isTrue => rfl
  case isFalse hne =>
    refine testService_off fun ⟨hstate, hdone, hserves⟩ => hs ?_
    have hlocked : lockOf (offsetNow s) = .locked := by
      change lockServes (lockOf (offsetNow s)) = true at hserves
      by_contra hno
      unfold lockOf at hserves hno
      split at hserves
      case isTrue hd => exact hno (if_pos hd)
      case isFalse => exact absurd hserves (by decide)
    exact ⟨(hw.at .stationState).symm.trans hstate, (installDone_of_writes hw).symm.trans hdone, fun he => hne (hlocked.trans he.symm),
      lockOf_eq_locked.mp hlocked⟩

/-! ## The comparison (R75) -/

theorem mismatch_writes (k : Nat) (s : State) : Writes [.mismatch] s { s with member.mismatch := k } := by
  intro f hf
  cases f with
  | mismatch => exact absurd hf (by decide)
  | _ => rfl

theorem comparedDigests_of_first {s : State} (h : s.member.mismatch = 0) : comparedDigests true s = { s with member.mismatch := 1 } := by
  rw [comparedDigests, if_neg (by decide), h, if_pos (by decide)]

theorem comparedDigests_of_second {s : State} (h : 1 ≤ s.member.mismatch) : comparedDigests true s = enterResync .digest s := by
  rw [comparedDigests, if_neg (by decide), if_neg (by omega)]

theorem comparedWith_of_other {n : StationNo} {dg : Option (Frame × Digest)} {s : State} (h : s.member.tableRef ≠ some n) :
    comparedWith n dg s = s := if_neg h

theorem comparedWith_of_off {n : StationNo} {dg : Option (Frame × Digest)} {s : State}
    (h : s.member.state ≠ .inService ∨ 0 < s.member.backoff) : comparedWith n dg s = s := by
  rw [comparedWith, compareDigest_of_off (h.imp_right Or.inr), ite_self]

theorem comparedWith_of_unknown {n : StationNo} {dg : Option (Frame × Digest)} {s : State}
    (h : dg.bind (fun x => digestFor x.1 s) = none) : comparedWith n dg s = s := by
  rw [comparedWith, compareDigest_of_none h, ite_self]

theorem comparedWith_of_known {n : StationNo} {F : Frame} {d mine : Digest} {s : State} (href : s.member.tableRef = some n)
    (hn : n ≠ own s) (hstate : s.member.state = .inService) (hbackoff : s.member.backoff = 0) (hmine : digestFor F s = some mine) :
    comparedWith n (some (F, d)) s = comparedDigests (decide (d ≠ mine)) s := by
  rw [comparedWith, if_pos href, compareDigest_of_some (fun hoff => ?_) hmine]
  rcases hoff with h | h | h
  · exact h hstate
  · exact hn (Option.some.inj (href.symm.trans h))
  · omega

/-- The comparison does nothing, or compares. -/
theorem comparedWith_cases {n : StationNo} {dg : Option (Frame × Digest)} {s : State} (hn : n ≠ own s) : comparedWith n dg s = s
    ∨ s.member.tableRef = some n ∧ s.member.state = .inService ∧ s.member.backoff = 0 ∧ ∃ F d mine, dg = some (F, d)
      ∧ digestFor F s = some mine ∧ comparedWith n dg s = comparedDigests (decide (d ≠ mine)) s := by
  by_cases href : s.member.tableRef = some n
  · by_cases hstate : s.member.state = .inService
    · rcases Nat.eq_zero_or_pos s.member.backoff with hb | hb
      · cases hmine : dg.bind (fun x => digestFor x.1 s) with
        | none => exact Or.inl (comparedWith_of_unknown hmine)
        | some mine =>
          obtain ⟨⟨F, d⟩, rfl, hdigest⟩ := Option.bind_eq_some_iff.mp hmine
          exact Or.inr ⟨href, hstate, hb, F, d, mine, rfl, hdigest, comparedWith_of_known href hn hstate hb hdigest⟩
      · exact Or.inl (comparedWith_of_off (Or.inr hb))
    · exact Or.inl (comparedWith_of_off (Or.inl hstate))
  · exact Or.inl (comparedWith_of_other href)

/-- The fields that the comparison can write where a peer is the table reference. -/
abbrev Field.ofCompare : List Field := Field.ofReport ++ [.mismatch, .stationState, .responder, .progress, .collector, .transmit]

/-- The comparison moves no reference and counts nothing. -/
theorem comparedWith_spec {n : StationNo} (dg : Option (Frame × Digest)) {s : State} (h : RefsOk s) (hn : n ≠ own s) :
    Writes Field.ofCompare s (comparedWith n dg s) ∧ (comparedWith n dg s).report.counts = s.report.counts := by
  rcases comparedWith_cases (dg := dg) hn with hsame | ⟨href, hstate, _, F, d, mine, _, _, heq⟩
  · rw [hsame]
    exact ⟨.refl s, rfl⟩
  · rw [heq]
    cases decide (d ≠ mine) with
    | false => exact ⟨(mismatch_writes 0 s).mono, rfl⟩
    | true =>
      rcases Nat.eq_zero_or_pos s.member.mismatch with h0 | h1
      · rw [comparedDigests_of_first h0]
        exact ⟨(mismatch_writes 1 s).mono, rfl⟩
      · obtain ⟨_, _, _, _, _, _, hraised, hw⟩ := enterResync_spec (cause := .digest) h hstate href hn
        rw [comparedDigests_of_second h1]
        exact ⟨hw.mono, (congrArg ReportUnit.counts hraised).trans (reportJoin_counts _ _ _)⟩

/-- With the streak at 0 a differing digest begins it. -/
theorem comparedWith_of_calm {n : StationNo} {b : BeaconBody} {s : State} (hn : n ≠ own s) (h0 : s.member.mismatch = 0) :
    Writes [.mismatch] s (comparedWith n b.digest s)
      ∧ (s.member.tableRef = some n → s.member.state = .inService → DigestDiffers b s → (comparedWith n b.digest s).member.mismatch = 1)
      ∧ (¬ (s.member.tableRef = some n ∧ s.member.state = .inService ∧ DigestDiffers b s) →
          (comparedWith n b.digest s).member.mismatch = 0) := by
  rcases comparedWith_cases (dg := b.digest) hn with hsame | ⟨href, hstate, hb, F, d, mine, hdg, hmine, heq⟩
  · rw [hsame]
    refine ⟨.refl s, fun href hstate ⟨hb, F, d, mine, hdg, hmine, hne⟩ => ?_, fun _ => h0⟩
    rw [hdg, comparedWith_of_known href hn hstate hb hmine, decide_eq_true hne, comparedDigests_of_first h0] at hsame
    exact absurd ((congrArg (fun t : State => t.member.mismatch) hsame).trans h0) (show (1 : Nat) ≠ 0 by decide)
  · rw [heq]
    by_cases hne : d ≠ mine
    · rw [decide_eq_true hne, comparedDigests_of_first h0]
      exact ⟨mismatch_writes 1 s, fun _ _ _ => rfl, fun hno => absurd ⟨href, hstate, hb, F, d, mine, hdg, hmine, hne⟩ hno⟩
    · rw [decide_eq_false hne]
      refine ⟨mismatch_writes 0 s, fun _ _ ⟨_, F', d', mine', hdg', hmine', hne'⟩ => ?_, fun _ => rfl⟩
      cases hdg.symm.trans hdg'
      cases hmine.symm.trans hmine'
      exact absurd hne' hne

theorem DigestDiffers.congr {b : BeaconBody} {s t : State} (hb : t.member.backoff = s.member.backoff)
    (hh : t.table.history = s.table.history) : DigestDiffers b t ↔ DigestDiffers b s := by
  rw [DigestDiffers, DigestDiffers, hb]
  simp only [digestFor, hh]

theorem DigestDiffers.of_writes {b : BeaconBody} {fs : List Field} {s t : State} (w : Writes fs s t)
    (hf : [Field.backoff, .history].all (fun f => !fs.contains f) = true := by decide +kernel) : DigestDiffers b t ↔ DigestDiffers b s := by
  simp only [List.all_cons, List.all_nil, Bool.and_true, Bool.and_eq_true, Bool.not_eq_true'] at hf
  exact DigestDiffers.congr (w.at .backoff hf.1) (w.at .history hf.2)

/-! ## The table with the beacon's sender (R66, R70) -/

theorem lowest_le {m : StationNo} : ∀ {l : List StationNo}, lowest l = some m → ∀ x ∈ l, m.toNat ≤ x.toNat
  | [], h => absurd h nofun
  | n :: rest, h => by
    unfold lowest at h
    cases hk : lowest rest with
    | none =>
      rw [hk] at h
      cases h
      rw [(lowest_eq_none_iff rest).mp hk]
      exact fun x hx => Nat.le_of_eq (congrArg BitVec.toNat (List.mem_singleton.mp hx).symm)
    | some k =>
      rw [hk] at h
      have ih := lowest_le hk
      have hfirst : m.toNat ≤ n.toNat ∧ m.toNat ≤ k.toNat := by
        dsimp only at h
        split at h
        case isTrue hle => exact Option.some.inj h ▸ ⟨Nat.le_refl _, hle⟩
        case isFalse hlt => exact Option.some.inj h ▸ ⟨Nat.le_of_not_le hlt, Nat.le_refl _⟩
      intro x hx
      rcases List.mem_cons.mp hx with rfl | hx
      · exact hfirst.1
      · exact Nat.le_trans hfirst.2 (ih x hx)

theorem lowest_of_le {m : StationNo} {l : List StationNo} (hm : m ∈ l) (hle : ∀ x ∈ l, m.toNat ≤ x.toNat) : lowest l = some m := by
  cases hk : lowest l with
  | none =>
    rw [(lowest_eq_none_iff l).mp hk] at hm
    exact absurd hm List.not_mem_nil
  | some k => exact congrArg some (BitVec.eq_of_toNat_eq (Nat.le_antisymm (lowest_le hk m hm) (hle k (mem_of_lowest hk))))

theorem heardFrom_writes (h : Header) (b : BeaconBody) (s : State) : Writes Field.ofPeers s (heardFrom h b s) := (stations_writes s _).mono

theorem mem_of_findStation {n : StationNo} {e : StationEntry} {l : List (StationNo × StationEntry)} (h : findStation n l = some e) :
    (n, e) ∈ l := by
  obtain ⟨x, hx, rfl⟩ := Option.map_eq_some_iff.mp h
  have hn : x.1 = n := by simpa using List.find?_some hx
  exact hn ▸ List.mem_of_find?_eq_some hx

/-- A beacon in service of the table reference leaves it the table reference. -/
theorem computeTableRef_heardFrom {h : Header} {b : BeaconBody} {s : State} (hs : s.member.state = .inService)
    (hb : b.state = .inService) (href : computeTableRef s = some h.origin) : computeTableRef (heardFrom h b s) = some h.origin := by
  rw [computeTableRef_of_inService hs] at href
  rw [computeTableRef_of_inService (s := heardFrom h b s) hs]
  have hlow := lowest_le href
  have hmem := mem_of_findStation (findStation_putStation h.origin
    { state := b.state, missed := 0, heard := true, digest := b.digest } s.member.stations)
  refine lowest_of_le (List.mem_append_left _ (List.mem_map.mpr ⟨_, List.mem_filter.mpr ⟨hmem, by rw [hb]; rfl⟩, rfl⟩)) fun x hx => ?_
  rcases List.mem_append.mp hx with hx | hx
  · obtain ⟨e, he, rfl⟩ := List.mem_map.mp hx
    obtain ⟨he, hserves⟩ := List.mem_filter.mp he
    rcases mem_putStation he with rfl | he
    · exact Nat.le_refl _
    · exact hlow _ (List.mem_append_left _ (List.mem_map.mpr ⟨e, List.mem_filter.mpr ⟨he, hserves⟩, rfl⟩))
  · exact hlow x (List.mem_append_right _ hx)

/-! ## A beacon that passes -/

/-- The beacon measured. -/
abbrev beaconMeasured (h : Header) (b : BeaconBody) (s : State) : State := measuredFrom h.origin b.frame (recompute (heardFrom h b s))

/-- The beacon's digest compared. -/
abbrev beaconTaken (h : Header) (b : BeaconBody) (s : State) : State := comparedWith h.origin b.digest (beaconMeasured h b s)

theorem passed_beacon {h : Header} {b : BeaconBody} {s : State} (ho : h.origin ≠ own s) (haddr : h.target = 0 ∨ h.target = own s) :
    Writes [.insertion] (beaconTaken h b s) (passed { header := h, body := .beacon b } s) := by
  have hoff : ¬ (addressed h.target s = false ∨ h.origin = own s) := fun hoff => hoff.elim
    (fun hno => absurd ((addressed_iff.mpr haddr).symm.trans hno) (by decide)) ho
  have hpassed : Writes [.insertion] (offerBeacon { h with hop := h.hop + 1 } b s) (passed { header := h, body := .beacon b } s) :=
    passed_writes _ _
  rw [offerBeacon_of (h := { h with hop := h.hop + 1 }) hoff] at hpassed
  exact hpassed

theorem passed_beacon_off {h : Header} {b : BeaconBody} {s : State} (h0 : h.target ≠ 0) (h1 : h.target ≠ own s) :
    Writes [.insertion] s (passed { header := h, body := .beacon b } s) := by
  have hoff : addressed h.target s = false ∨ h.origin = own s :=
    Or.inl (Bool.eq_false_iff.mpr fun ha => (addressed_iff.mp ha).elim h0 h1)
  have hpassed : Writes [.insertion] (offerBeacon { h with hop := h.hop + 1 } b s) (passed { header := h, body := .beacon b } s) :=
    passed_writes _ _
  rw [offerBeacon_of_off (h := { h with hop := h.hop + 1 }) hoff] at hpassed
  exact hpassed

/-- A station whose timing reference is a peer measures. -/
theorem LockOk.not_reference {s : State} {n : StationNo} (h : LockOk s) (href : s.member.timingRef = some n) (hn : n ≠ own s) :
    s.lock.state ≠ .reference := fun hl =>
  hn (Option.some.inj (href.symm.trans (h.copy.symm.trans (h.reference.mp hl))))

/-! ## The digests compared (R75) -/

/-- In service a beacon in service of the table reference moves no reference, and is measured. -/
theorem beaconMeasured_of_reference {h : Header} {b : BeaconBody} {s : State} (ho : h.origin ≠ own s) (hlock : LockOk s)
    (hstate : s.member.state = .inService) (href : s.member.tableRef = some h.origin) (hb : b.state = .inService) :
    beaconMeasured h b s = lockMeasured b.frame (heardFrom h b s) := by
  have htable : computeTableRef s = some h.origin := hlock.tableRef.symm.trans href
  have htiming : s.member.timingRef = some h.origin := hlock.timingRef.trans (computeTimingRef_of_tableRef htable)
  have hnew := computeTableRef_heardFrom hstate hb htable
  have hrefs : RefsOk (heardFrom h b s) := ⟨href.trans hnew.symm, htiming.trans (computeTimingRef_of_tableRef hnew).symm⟩
  rw [beaconMeasured, recompute_of_refsOk hrefs, measuredFrom, if_pos (show (heardFrom h b s).member.timingRef = _ from htiming)]
  refine measure_of_stays (s := heardFrom h b s) (hlock.not_reference htiming ho) fun hs => ?_
  have hcatching : s.member.state = .catchingUp := hs.1
  rw [hstate] at hcatching
  exact absurd hcatching (by decide)

/-- Settles O43. -/
theorem digestsCompared : Obligations.DigestsCompared := by
  intro s h b dl E hp htarget hlock hmember hstate href hb hdl hE
  have ho : h.origin ≠ own s := hp.2.2.1
  have hpassed := passed_beacon (b := b) ho (Or.inl htarget)
  have htable : computeTableRef s = some h.origin := hlock.tableRef.symm.trans href
  have htiming : s.member.timingRef = some h.origin := hlock.timingRef.trans (computeTimingRef_of_tableRef htable)
  have hnew := computeTableRef_heardFrom hstate hb htable
  have hrefs : RefsOk (heardFrom h b s) := ⟨href.trans hnew.symm, htiming.trans (computeTimingRef_of_tableRef hnew).symm⟩
  have hw := lockMeasured_writes b.frame (heardFrom h b s)
  have hd : offsetNow (heardFrom h b s) = dl := hdl.symm
  have hnumber : ownFrameOf b.frame dl = E := hE.symm
  obtain ⟨hframe, hreport, _, hmeasured⟩ := lockMeasured_spec (F := b.frame) (s := heardFrom h b s) (hlock.not_reference htiming ho)
  rw [hd, hnumber] at hframe hreport
  rw [hd] at hmeasured
  have hkept : Writes (.stations :: Field.ofLockMeasured) s (lockMeasured b.frame (heardFrom h b s)) := (stations_writes s _).mono.trans hw.mono
  have hrefsm := hrefs.of_writes hw
  rw [beaconTaken, beaconMeasured_of_reference ho hlock hstate href hb] at hpassed
  replace hreport : _ = slipReport s E dl := hreport
  replace hmeasured : Measured s _ dl := hmeasured
  refine answers_of_passes hp ?_
  generalize lockMeasured b.frame (heardFrom h b s) = m at *
  generalize passed { header := h, body := .beacon b } s = t at *
  have hown : own m = own s := congrArg Straps.station (hkept.at .straps)
  have hn : h.origin ≠ own m := hown.symm ▸ ho
  have hstatem : m.member.state = .inService := (hkept.at .stationState).trans hstate
  have hrefm : m.member.tableRef = some h.origin := (hkept.at .tableRef).trans href
  obtain ⟨hwc, hcounts⟩ := comparedWith_spec (n := h.origin) b.digest hrefsm hn
  have hslips : t.report.counts.frameSlip = (slipReport s E dl).counts.frameSlip :=
    (hpassed.at .frameSlip).trans (congrArg Counts.frameSlip (hcounts.trans (congrArg ReportUnit.counts hreport)))
  have hunchanged : comparedWith h.origin b.digest m = m →
      t.member.mismatch = s.member.mismatch ∧ t.member.state = .inService ∧ t.report = slipReport s E dl := fun heq => by
    rw [heq] at hpassed
    exact ⟨(hpassed.at .mismatch).trans (hkept.at .mismatch), (hpassed.at .stationState).trans hstatem, hpassed.report_eq.trans hreport⟩
  have hcompared : ∀ F d mine, s.member.backoff = 0 → b.digest = some (F, d) → digestFor F s = some mine →
      Writes [.insertion] (comparedDigests (decide (d ≠ mine)) m) t := fun F d mine hbackoff hdigest hmine => by
    have hminem : digestFor F m = some mine := by
      rw [digestFor, (hkept.at .history : _ = _)]
      exact hmine
    rw [hdigest, comparedWith_of_known hrefm hn hstatem ((hkept.at .backoff).trans hbackoff) hminem] at hpassed
    exact hpassed
  refine ⟨(hpassed.at .frame).trans ((hwc.at .frame).trans hframe), hmeasured.of_same (.of_writes hwc) |>.of_same (.of_writes hpassed),
    fun hfree hne => hslips.trans (slipReport_counts hfree hne), fun hkeep => hslips.trans (by rw [slipReport_of_kept hkeep]),
    hkept.mono.trans (hwc.mono.trans hpassed.mono), fun F d mine hbackoff hdigest hmine => ?_, fun hoff => ?_⟩
  · have hto := hcompared F d mine hbackoff hdigest hmine
    refine ⟨fun hsame => ?_, fun hne h0 => ?_, fun hne h1 => ?_⟩
    · rw [decide_eq_false (not_not_intro hsame)] at hto
      exact ⟨hto.at .mismatch, (hto.at .stationState).trans hstatem, hto.report_eq.trans hreport⟩
    · rw [decide_eq_true hne, comparedDigests_of_first ((hkept.at .mismatch).trans h0)] at hto
      exact ⟨hto.at .mismatch, (hto.at .stationState).trans hstatem, hto.report_eq.trans hreport⟩
    · have hkeptm : m.member.mismatch = s.member.mismatch := hkept.at .mismatch
      obtain ⟨hresync, hstreak, hqueue, hprogress, hcollector, hqueued, hraised, _⟩ :=
        enterResync_spec (cause := .digest) hrefsm hstatem hrefm hn
      have hnow : now m = E := hframe
      have hbypass : bypass s = bypass m := by
        rw [bypass, bypass, hstate, hstatem, (hkept.at .inReset : _ = _)]
      rw [decide_eq_true hne, comparedDigests_of_second (hkeptm.symm ▸ h1)] at hto
      rw [hnow] at hcollector
      refine ⟨(hto.at .mismatch).trans hstreak, (hto.at .stationState).trans hresync, (hto.at .responder).trans hqueue,
        (hto.at .progress).trans hprogress, (hto.at .collector).trans hcollector, ?_, hto.report_eq.trans (hraised.trans ?_)⟩
      · exact Queued.of_same (s := { m with raster.frame := now s }) hqueued ⟨(hkept.at .transmit).symm, rfl, hbypass, hown.symm⟩
          (hto.at .transmit)
      · rw [hnow, hreport]
  · refine hunchanged ?_
    rcases hoff with hbackoff | hnone | ⟨F, d, hdigest, hnone⟩
    · exact comparedWith_of_off (Or.inr ((hkept.at .backoff : m.member.backoff = _).symm ▸ hbackoff))
    · exact comparedWith_of_unknown (by rw [hnone]; rfl)
    · refine comparedWith_of_unknown (hdigest ▸ ?_)
      show digestFor F m = none
      rw [digestFor, (hkept.at .history : _ = _)]
      exact hnone

end Sys2Proof.Machine
end

