-- ==== Sys2Proof/Proofs/BeaconsMeasured.lean ====
section
/-! SUPPORT. Proofs/BeaconsMeasured.lean: what the references become with a beacon's sender, and the beacon of the timing reference measured
(R64, R66, R70, R75, R81 to R86). -/

namespace Sys2Proof.Machine

set_option Elab.async false

/-! ## The references with the own station in service (R64, R70, R81) -/

/-- One station more in service is the timing reference, or the timing reference stays. -/
theorem enterInService_reference {s : State} (hr : RefsOk s) (hstate : s.member.state ≠ .inService) :
    (enterInService s).member.timingRef = some (own s) ∨ (enterInService s).member.timingRef = s.member.timingRef := by
  have htable : computeTableRef (inServiceWith s) = lowest (servingPeers s ++ [own s]) := computeTableRef_of_inService rfl
  rw [enterInService_timingRef]
  cases hm : lowest (servingPeers s ++ [own s]) with
  | none => exact absurd ((lowest_eq_none_iff _).mp hm) (by simp)
  | some m =>
    rw [computeTimingRef_of_tableRef (htable.trans hm)]
    by_cases hown : m = own s
    · exact Or.inl (congrArg some hown)
    · have hpeer : computeTableRef s = some m := (computeTableRef_of_other hstate).trans (lowest_of_append_singleton hm hown)
      exact Or.inr ((computeTimingRef_of_tableRef hpeer).symm.trans hr.2.symm)

/-- The Lock Unit once the test of R64 is passed. -/
theorem served_lock {s : State} (hr : RefsOk s) (hstate : s.member.state ≠ .inService) :
    ((served s).member.timingRef = s.member.timingRef ∧ (served s).lock = s.lock ∧ (served s).raster.request = s.raster.request)
      ∨ ((served s).member.timingRef = some (own s) ∧ (served s).lock = { state := .reference, ref := some (own s), offset := none }
        ∧ (served s).raster.request = nominal s) := by
  have hrefs : RefsOk { s with table.seeded := true } := hr.of_writes (seeded_writes true s)
  have hevent := event_writes (.stateChange .inService none) (enterInService { s with table.seeded := true })
  have hlock : (served s).lock = (enterInService { s with table.seeded := true }).lock := hevent.lock_eq
  have htiming : (served s).member.timingRef = (enterInService { s with table.seeded := true }).member.timingRef := hevent.at .timingRef
  have hrequest : (served s).raster.request = (enterInService { s with table.seeded := true }).raster.request := hevent.at .request
  obtain ⟨hsame, hnew⟩ := lockFollows_enterInService { s with table.seeded := true }
  rw [hlock, htiming, hrequest]
  by_cases hold : (enterInService { s with table.seeded := true }).member.timingRef = s.member.timingRef
  · exact Or.inl ⟨hold, hsame hold⟩
  · have hown : (enterInService { s with table.seeded := true }).member.timingRef = some (own s) :=
      (enterInService_reference hrefs hstate).resolve_right hold
    obtain ⟨hl, hq⟩ := hnew hold
    rw [hown] at hl hq
    exact Or.inr ⟨hown, hl.trans (by rw [if_pos (show some (own s) = some (own { s with table.seeded := true }) from rfl)]),
      hq.trans (if_pos rfl)⟩

theorem served_writes (s : State) : Writes (.stationState :: .seeded :: Field.ofRefs ++ Field.ofReport) s (served s) :=
  (seeded_writes true s).mono.trans ((enterInService_writes _).mono.trans (event_writes _ _).mono)

theorem served_refsOk (s : State) : RefsOk (served s) := (refsOk_enterInService _).of_writes (event_writes _ _)

theorem served_mismatch (s : State) : (served s).member.mismatch = 0 := ((event_writes _ _).at .mismatch).trans (enterInService_mismatch _)

theorem served_counts (s : State) : (served s).report.counts = s.report.counts :=
  (congrArg ReportUnit.counts (served_report s)).trans (reportJoin_counts _ _ _)

/-- An idle collector stays idle. -/
theorem served_idle {s : State} (h : s.snap.collector = none) :
    (served s).snap.collector = none ∧ (served s).ring.transmit = s.ring.transmit :=
  enterInService_idle (s := { s with table.seeded := true }) h

theorem served_lockServes {s : State} (hr : RefsOk s) (hstate : s.member.state ≠ .inService) (hl : s.lock.state = .locked) :
    lockServes (served s).lock.state = true := by
  rcases served_lock hr hstate with ⟨_, hlock, _⟩ | ⟨_, hlock, _⟩
  · rw [hlock, hl]
    rfl
  · rw [hlock]
    rfl

/-! ## A station that stays in its state (R70, R140) -/

theorem rejoinPending_writes (x : Bool) (s : State) : Writes [.rejoinPending] s { s with member.rejoinPending := x } := by
  intro f hf
  cases f with
  | rejoinPending => exact absurd hf (by decide)
  | _ => rfl

theorem backoff_writes (n : Nat) (s : State) : Writes [.backoff] s { s with member.backoff := n } := by
  intro f hf
  cases f with
  | backoff => exact absurd hf (by decide)
  | _ => rfl

section

variable {u : State} (hserves : ¬ ServesByReference u)

include hserves

theorem recompute_of_catchingUp (hstate : u.member.state = .catchingUp) (hthird : ThirdFailed (computeTableRef u) u) :
    recompute u = { (recomputeOnce u).state with member.rejoinPending := true } := by
  rw [recompute_eq_failed hserves hthird, thirdFailure_catchingUp (((recomputeOnce_writes u).at .stationState).trans hstate)]

theorem recompute_of_ringHold (hstate : u.member.state = .ringHold) (hthird : ThirdFailed (computeTableRef u) u) :
    recompute u = event .resyncFailed { (recomputeOnce u).state with member.backoff := 16 } := by
  rw [recompute_eq_failed hserves hthird, thirdFailure_ringHold (((recomputeOnce_writes u).at .stationState).trans hstate)]

theorem recompute_of_quiet (h : ThirdFailed (computeTableRef u) u →
    u.member.state ≠ .catchingUp ∧ u.member.state ≠ .resync ∧ u.member.state ≠ .ringHold) : recompute u = (recomputeOnce u).state := by
  have hstate : (recomputeOnce u).state.member.state = u.member.state := (recomputeOnce_writes u).at .stationState
  by_cases hthird : ThirdFailed (computeTableRef u) u
  · obtain ⟨h1, h2, h3⟩ := h hthird
    rw [recompute_eq_failed hserves hthird, thirdFailure_other (hstate ▸ h1) (hstate ▸ h2) (hstate ▸ h3)]
  · exact recompute_eq_once hserves hthird

/-- What follows from the references but for the end of a resynchronisation. -/
theorem recompute_of_stays (h : ¬ (u.member.state = .resync ∧ ThirdFailed (computeTableRef u) u)) :
    Writes (Field.ofReport ++ [.rejoinPending, .backoff]) (recomputeOnce u).state (recompute u) := by
  by_cases hthird : ThirdFailed (computeTableRef u) u
  · rw [recompute_eq_failed hserves hthird]
    exact thirdFailure_refs fun hs => h ⟨((recomputeOnce_writes u).at .stationState).symm.trans hs, hthird⟩
  · rw [recompute_eq_once hserves hthird]
    exact .refl _

theorem recompute_of_catchingUp_writes (hstate : u.member.state = .catchingUp) :
    Writes [.rejoinPending] (recomputeOnce u).state (recompute u) := by
  by_cases hthird : ThirdFailed (computeTableRef u) u
  · rw [recompute_of_catchingUp hserves hstate hthird]
    exact rejoinPending_writes true _
  · rw [recompute_eq_once hserves hthird]
    exact .refl _

/-- What the third failure changes besides, in each station state (R140). -/
theorem failure_fields {s : State} (w : Writes Field.ofPeers s u) :
    (¬ (s.member.state = .resync ∧ ThirdFailed (computeTableRef u) s) →
        ¬ (s.member.state = .ringHold ∧ ThirdFailed (computeTableRef u) s) →
        (recompute u).report = s.report ∧ (recompute u).member.backoff = s.member.backoff)
      ∧ (s.member.state = .ringHold → ThirdFailed (computeTableRef u) s → (recompute u).member.backoff = 16
        ∧ (recompute u).report = reportJoin (.event .resyncFailed) (now s) s.report)
      ∧ (s.member.state = .catchingUp → ThirdFailed (computeTableRef u) s → (recompute u).member.rejoinPending = true)
      ∧ (¬ (s.member.state = .resync ∧ ThirdFailed (computeTableRef u) s) →
        ¬ (s.member.state = .catchingUp ∧ ThirdFailed (computeTableRef u) s) →
        (recompute u).member.rejoinPending = s.member.rejoinPending) := by
  have honce := recomputeOnce_writes u
  have hw : Writes (Field.ofRefs ++ Field.ofPeers) s (recomputeOnce u).state := w.mono.trans honce.mono
  have hstate : u.member.state = s.member.state := w.at .stationState
  have hthird := thirdFailed_peers w (computeTableRef u)
  refine ⟨fun hresync hhold => ?_, fun hs hf => ?_, fun hs hf => ?_, fun hresync hcatch => ?_⟩
  · by_cases hc : s.member.state = .catchingUp
    · have hr := recompute_of_catchingUp_writes hserves (hstate.trans hc)
      exact ⟨hr.report_eq.trans hw.report_eq, (hr.at .backoff).trans (hw.at .backoff)⟩
    · rw [recompute_of_quiet hserves fun hf => ⟨hstate ▸ hc, fun hs => hresync ⟨hstate.symm.trans hs, hthird.mp hf⟩,
        fun hs => hhold ⟨hstate.symm.trans hs, hthird.mp hf⟩⟩]
      exact ⟨hw.report_eq, hw.at .backoff⟩
  · rw [recompute_of_ringHold hserves (hstate.trans hs) (hthird.mpr hf)]
    refine ⟨rfl, ?_⟩
    show reportJoin _ (now (recomputeOnce u).state) (recomputeOnce u).state.report = _
    rw [hw.report_eq, now, (hw.at .frame : _ = _)]
    rfl
  · rw [recompute_of_catchingUp hserves (hstate.trans hs) (hthird.mpr hf)]
  · by_cases hh : s.member.state = .ringHold ∧ ThirdFailed (computeTableRef u) s
    · rw [recompute_of_ringHold hserves (hstate.trans hh.1) (hthird.mpr hh.2)]
      exact hw.at .rejoinPending
    · rw [recompute_of_quiet hserves fun hf => ⟨fun hs => hcatch ⟨hstate.symm.trans hs, hthird.mp hf⟩,
        fun hs => hresync ⟨hstate.symm.trans hs, hthird.mp hf⟩, fun hs => hh ⟨hstate.symm.trans hs, hthird.mp hf⟩⟩]
      exact hw.at .rejoinPending

end

/-- The timing reference unchanged: the Lock Unit is left alone. -/
theorem recomputeOnce_writes_timing {s : State} (h : computeTimingRef s = s.member.timingRef) :
    Writes [.tableRef, .mismatch, .transmit, .collector] s (recomputeOnce s).state := by
  have hw := recomputeOnce_writes s
  have htiming : (recomputeOnce s).state.member.timingRef = s.member.timingRef := (recomputeOnce_timingRef s).trans h
  obtain ⟨hlock, hrequest⟩ := (lockFollows_recomputeOnce s).1 htiming
  intro f hf
  have hsame := hw f
  cases f with
  | timingRef => exact htiming
  | request => exact hrequest
  | lockState => exact congrArg Lock.state hlock
  | lockRef => exact congrArg Lock.ref hlock
  | offset => exact congrArg Lock.offset hlock
  | _ => first | exact absurd hf (by decide) | exact hsame (by decide)

/-! ## What a measurement reads -/

theorem offsetNow_of_writes {fs : List Field} {s t : State} (w : Writes fs s t)
    (hf : [Field.straps, .line, .blanking].all (fun f => !fs.contains f) = true := by decide +kernel) : offsetNow t = offsetNow s := by
  simp only [List.all_cons, List.all_nil, Bool.and_true, Bool.and_eq_true, Bool.not_eq_true'] at hf
  obtain ⟨h1, h2, h3⟩ := hf
  have e1 : t.straps = s.straps := w.at .straps h1
  have e2 : t.raster.line = s.raster.line := w.at .line h2
  have e3 : t.raster.blanking = s.raster.blanking := w.at .blanking h3
  rw [offsetNow, offsetNow, totalLines, totalLines, e1, e2, e3]

theorem Measured.of_straps {s u t : State} {d : Int} (h : Measured u t d) (hs : u.straps = s.straps) : Measured s t d := by
  rw [Measured, nominal, ← hs]
  exact h

theorem slipReport_congr {s u : State} {E : Frame} {d : Int} (hl : u.lock.state = s.lock.state) (hf : now u = now s)
    (hs : u.member.state = s.member.state) (hr : u.report = s.report) : slipReport u E d = slipReport s E d := by
  rw [slipReport, slipReport, hl, hf, hs, hr]

end Sys2Proof.Machine
end

