-- ==== Sys2Proof/Proofs/ReferenceBeacon.lean ====
section
/-! SUPPORT. Proofs/ReferenceBeacon.lean: a beacon of the timing reference that stays it (R66, R82 to R86). -/

namespace Sys2Proof.Machine

set_option Elab.async false

/-! ## A beacon measured and compared -/

theorem refsOk_measuredFrom {n : StationNo} {F : Frame} {s : State} (h : RefsOk s) : RefsOk (measuredFrom n F s) := by
  have hm : RefsOk (lockMeasured F s) := h.of_writes (lockMeasured_writes F s)
  unfold measuredFrom
  split
  case isFalse => exact h
  case isTrue =>
    by_cases hl : s.lock.state = .reference
    · rw [measure_of_reference hl]
      exact h
    · rw [measure_of_other hl]
      split
      · exact hm
      · exact refsOk_testService hm

theorem measuredFrom_own (n : StationNo) (F : Frame) (s : State) : own (measuredFrom n F s) = own s := by
  unfold measuredFrom
  split
  · exact congrArg Straps.station ((measure_writes F s).at .straps)
  · rfl

/-- Whatever follows from a measurement, the frame number is that of the beacon, and the counts are those of the re-adoption. -/
theorem taken_frame_counts {n : StationNo} {F : Frame} (dg : Option (Frame × Digest)) {s : State} (h : RefsOk s)
    (htiming : s.member.timingRef = some n) (hn : n ≠ own s) (hl : s.lock.state ≠ .reference) :
    (comparedWith n dg (measuredFrom n F s)).raster.frame = ownFrameOf F (offsetNow s)
      ∧ (comparedWith n dg (measuredFrom n F s)).report.counts = (slipReport s (ownFrameOf F (offsetNow s)) (offsetNow s)).counts := by
  obtain ⟨hw, hcounts⟩ := comparedWith_spec dg (refsOk_measuredFrom (n := n) (F := F) h) (by rw [measuredFrom_own]; exact hn)
  obtain ⟨hframe, hreport, _⟩ := lockMeasured_spec (F := F) hl
  rw [(hw.at .frame : _ = _), hcounts, measuredFrom, if_pos htiming]
  by_cases hs : ServesByLock s
  · rw [measure_of_serves hl hs, ((served_writes _).at .frame : _ = _), served_counts, hreport]
    exact ⟨hframe, rfl⟩
  · rw [measure_of_stays hl hs, hreport]
    exact ⟨hframe, rfl⟩

/-! ## The timing reference unchanged -/

/-- The references with the sender's entry, the timing reference the same peer, and then the measurement: what the state r before the
measurement has of the state s before the beacon. -/
structure SameReference (n : StationNo) (s r : State) : Prop where
  writes : Writes (Field.ofReport ++ [.stations, .tableRef, .mismatch, .transmit, .collector, .rejoinPending, .backoff]) s r
  refs : RefsOk r
  timingRef : r.member.timingRef = some n
  peer : n ≠ own s
  notReference : s.lock.state ≠ .reference

theorem sameReference_recompute {h : Header} {b : BeaconBody} {s : State} (ho : h.origin ≠ own s) (hlock : LockOk s)
    (htiming : s.member.timingRef = some h.origin) (hnew : computeTimingRef (heardFrom h b s) = some h.origin)
    (hresync : ¬ (s.member.state = .resync ∧ ThirdFailed (computeTableRef (heardFrom h b s)) s)) :
    SameReference h.origin s (recompute (heardFrom h b s)) := by
  have hserves : ¬ ServesByReference (heardFrom h b s) := fun ⟨_, _, _, hown, _⟩ => ho (Option.some.inj (hnew.symm.trans hown))
  have honce := recomputeOnce_writes_timing (s := heardFrom h b s) (hnew.trans htiming.symm)
  have hstays := recompute_of_stays hserves hresync
  have hr : Writes (Field.ofReport ++ [.stations, .tableRef, .mismatch, .transmit, .collector, .rejoinPending, .backoff]) s
      (recompute (heardFrom h b s)) := (stations_writes s _).mono.trans (honce.mono.trans hstays.mono)
  exact ⟨hr, refsOk_recompute _, (hr.at .timingRef).trans htiming, ho, hlock.not_reference htiming ho⟩

section

variable {n : StationNo} {s r : State} {b : BeaconBody} (hsame : SameReference n s r)

include hsame

theorem SameReference.lock : r.lock = s.lock := hsame.writes.lock_eq

theorem SameReference.own : own r = own s := congrArg Straps.station (hsame.writes.at .straps)

/-- The Lock Unit's part of the measurement, told of s. -/
theorem SameReference.lockMeasured (F : Frame) :
    (lockMeasured F r).raster.frame = ownFrameOf F (offsetNow s)
      ∧ (lockMeasured F r).report = slipReport { s with report := r.report } (ownFrameOf F (offsetNow s)) (offsetNow s)
      ∧ (lockMeasured F r).lock.state = lockOf (offsetNow s) ∧ Measured s (lockMeasured F r) (offsetNow s) := by
  have hoffset : offsetNow r = offsetNow s := offsetNow_of_writes hsame.writes
  obtain ⟨hframe, hreport, hlock, hmeasured⟩ := lockMeasured_spec (F := F) (s := r) (hsame.lock ▸ hsame.notReference)
  rw [hoffset] at hframe hreport hlock hmeasured
  have hslip := slipReport_congr (s := { s with report := r.report }) (u := r) (E := ownFrameOf F (offsetNow s)) (d := offsetNow s)
    (congrArg Lock.state hsame.lock) (hsame.writes.at .frame) (hsame.writes.at .stationState) rfl
  exact ⟨hframe, hreport.trans hslip, hlock, hmeasured.of_straps (hsame.writes.at .straps)⟩

theorem SameReference.serves_iff : ServesByLock r ↔
    s.member.state = .catchingUp ∧ installDone s = true ∧ s.lock.state ≠ .locked ∧ -2 ≤ offsetNow s ∧ offsetNow s ≤ 2 := by
  rw [ServesByLock, (hsame.writes.at .stationState : r.member.state = _), installDone_of_writes hsame.writes, hsame.lock,
    offsetNow_of_writes hsame.writes]

/-- Where the lock state does not bring the station into service, the beacon is measured and nothing else: in service it has no digest. -/
theorem SameReference.taken_of_stays (hdigest : s.member.state = .inService → b.digest = none) (hstays : ¬ ServesByLock r) :
    comparedWith n b.digest (measuredFrom n b.frame r) = Machine.lockMeasured b.frame r := by
  rw [measuredFrom, if_pos hsame.timingRef, measure_of_stays (hsame.lock ▸ hsame.notReference) hstays]
  by_cases hstate : s.member.state = .inService
  · exact comparedWith_of_unknown (by rw [hdigest hstate]; rfl)
  · have hw := (hsame.writes.at .stationState : r.member.state = _)
    exact comparedWith_of_off (Or.inl fun hs => hstate (hw.symm.trans (((lockMeasured_writes b.frame r).at .stationState).symm.trans hs)))

theorem SameReference.taken_of_serves (hserves : ServesByLock r) :
    comparedWith n b.digest (measuredFrom n b.frame r) = comparedWith n b.digest (served (Machine.lockMeasured b.frame r)) := by
  rw [measuredFrom, if_pos hsame.timingRef, measure_of_serves (hsame.lock ▸ hsame.notReference) hserves]

/-- The frame-slip count, in either case. -/
theorem SameReference.counts {t : State} {E : Frame} {d : Int} (ht : t.report.counts = (slipReport r E d).counts) :
    (s.lock.state ≠ .free → E ≠ now s → t.report.counts.frameSlip = countUp s.report.counts.frameSlip)
      ∧ (s.lock.state = .free ∨ E = now s → t.report.counts.frameSlip = s.report.counts.frameSlip) := by
  have hcount : r.report.counts.frameSlip = s.report.counts.frameSlip := hsame.writes.at .frameSlip
  have hnow : now r = now s := hsame.writes.at .frame
  rw [ht, ← hcount, ← hnow, ← hsame.lock]
  exact ⟨fun hfree hE => slipReport_counts hfree hE,
    fun hkept => congrArg (fun x : ReportUnit => x.counts.frameSlip) (slipReport_of_kept hkept)⟩

/-- The station enters service with the lock: the references, the Lock Unit and the digest. -/
theorem SameReference.served_spec (hserves : ServesByLock r) {t : State}
    (ht : Writes [.insertion] (comparedWith n b.digest (served (Machine.lockMeasured b.frame r))) t)
    (hdiffers : DigestDiffers b r ↔ DigestDiffers b s) :
    Writes [.mismatch, .insertion] (served (Machine.lockMeasured b.frame r)) t
      ∧ t.member.state = .inService ∧ t.table.seeded = true ∧ lockServes t.lock.state = true ∧ t.raster.request = nominal s
      ∧ (t.member.tableRef = some n → DigestDiffers b s → t.member.mismatch = 1)
      ∧ (¬ (t.member.tableRef = some n ∧ DigestDiffers b s) → t.member.mismatch = 0)
      ∧ t.member.tableRef = computeTableRef t ∧ t.member.timingRef = computeTimingRef t
      ∧ (t.member.timingRef = some n → Measured s t (offsetNow s))
      ∧ (t.member.timingRef ≠ some n →
          t.lock = { state := .reference, ref := some (Machine.own s), offset := none } ∧ t.member.timingRef = some (Machine.own s)) := by
  obtain ⟨hstate, hdone, _, hd1, hd2⟩ := hsame.serves_iff.mp hserves
  obtain ⟨_, _, hlocked, hmeasured⟩ := hsame.lockMeasured b.frame
  rw [lockOf_eq_locked.mpr ⟨hd1, hd2⟩] at hlocked
  have hw := lockMeasured_writes b.frame r
  have hrefs := hsame.refs.of_writes hw
  have hstatem : (Machine.lockMeasured b.frame r).member.state ≠ .inService := by
    rw [(hw.at .stationState : _ = _), (hsame.writes.at .stationState : r.member.state = _), hstate]
    decide
  have htimingm : (Machine.lockMeasured b.frame r).member.timingRef = some n := (hw.at .timingRef).trans hsame.timingRef
  have hstraps : (Machine.lockMeasured b.frame r).straps = s.straps := (hw.at .straps).trans (hsame.writes.at .straps)
  have hserved := served_writes (Machine.lockMeasured b.frame r)
  have hlock := served_lock hrefs hstatem
  have hdiffers' : DigestDiffers b (served (Machine.lockMeasured b.frame r)) ↔ DigestDiffers b s :=
    (DigestDiffers.of_writes hserved).trans ((DigestDiffers.of_writes hw).trans hdiffers)
  have hserviced := served_state (Machine.lockMeasured b.frame r)
  have hseeded := served_seeded (Machine.lockMeasured b.frame r)
  have hlockServes := served_lockServes hrefs hstatem hlocked
  have hown : Machine.own (Machine.lockMeasured b.frame r) = Machine.own s := congrArg Straps.station hstraps
  have hnominal : nominal (Machine.lockMeasured b.frame r) = nominal s := congrArg (fun x : Straps => x.profile.blanking) hstraps
  have hownv : Machine.own (served (Machine.lockMeasured b.frame r)) = Machine.own s :=
    (congrArg Straps.station (hserved.at .straps)).trans hown
  have hrefsv := served_refsOk (Machine.lockMeasured b.frame r)
  have h0 := served_mismatch (Machine.lockMeasured b.frame r)
  rw [hown, hnominal, htimingm] at hlock
  generalize Machine.lockMeasured b.frame r = m at *
  generalize served m = v at *
  obtain ⟨hc, hdiffer, hagree⟩ := comparedWith_of_calm (b := b) (hownv.symm ▸ hsame.peer) h0
  have hto := hc.mono.trans ht.mono (fs := [.mismatch, .insertion])
  have htable : t.member.tableRef = v.member.tableRef := hto.at .tableRef
  have htiming : t.member.timingRef = v.member.timingRef := hto.at .timingRef
  have hlockt : t.lock = v.lock := hto.lock_eq
  have hrefst := hrefsv.of_writes hto
  have hmismatch : t.member.mismatch = _ := ht.at .mismatch
  have hrequest : t.raster.request = v.raster.request := hto.at .request
  have hstatet : t.member.state = v.member.state := hto.at .stationState
  have hseededt : t.table.seeded = v.table.seeded := hto.at .seeded
  refine ⟨hto, hstatet.trans hserviced, hseededt.trans hseeded, hlockt ▸ hlockServes, ?_, fun href hdd => ?_, fun hno => ?_, hrefst.1, hrefst.2,
    fun hn => ?_, fun hn => ?_⟩
  · obtain ⟨_, hfour, _⟩ := hmeasured
    rcases hlock with ⟨_, _, hq⟩ | ⟨_, _, hq⟩
    · exact hrequest.trans (hq.trans (hfour hd1 hd2).2)
    · exact hrequest.trans hq
  · exact hmismatch.trans (hdiffer (htable.symm.trans href) hserviced (hdiffers'.mpr hdd))
  · exact hmismatch.trans (hagree fun ⟨href, _, hdd⟩ => hno ⟨htable.trans href, hdiffers'.mp hdd⟩)
  · rcases hlock with ⟨_, hl, hq⟩ | ⟨hv, _, _⟩
    · rw [Measured, hlockt, hrequest, hl, hq]
      exact hmeasured
    · exact absurd (Option.some.inj (hn.symm.trans (htiming.trans hv))) hsame.peer
  · rcases hlock with ⟨hv, _, _⟩ | ⟨hv, hl, _⟩
    · exact absurd (htiming.trans hv) hn
    · exact ⟨hlockt.trans hl, htiming.trans hv⟩

end

/-- Settles O42. -/
theorem referenceBeaconMeasured : Obligations.ReferenceBeaconMeasured := by
  intro s h b ref d E hp htarget hlock hmember htiming hnew href hresync hdigest hd hE
  subst href
  have ho : h.origin ≠ own s := hp.2.2.1
  have hpassed := passed_beacon (b := b) ho (Or.inl htarget)
  have hw := heardFrom_writes h b s
  have hoffset : offsetNow s = d := hd.symm
  have hnumber : ownFrameOf b.frame d = E := hE.symm
  have hsame := sameReference_recompute ho hlock htiming hnew hresync
  have hserves : ¬ ServesByReference (heardFrom h b s) := fun ⟨_, _, _, hown, _⟩ => ho (Option.some.inj (hnew.symm.trans hown))
  have hstays := recompute_of_stays hserves hresync
  have htable : (recompute (heardFrom h b s)).member.tableRef = computeTableRef (heardFrom h b s) :=
    (hstays.at .tableRef).trans (recomputeOnce_tableRef _)
  obtain ⟨hmismatch, hmoves⟩ := mismatch_collector_follow hw hserves
  obtain ⟨hcalm, hheld, hpending, hnotPending⟩ := failure_fields hserves hw
  have hcaught : s.member.state = .catchingUp → Writes (.stations :: .rejoinPending :: Field.ofRefs) s (recompute (heardFrom h b s)) := fun hs =>
    (stations_writes s _).mono.trans ((recomputeOnce_writes _).mono.trans (recompute_of_catchingUp_writes hserves hs).mono)
  have hunmoved : computeTableRef (heardFrom h b s) = s.member.tableRef → Writes [.stations] s (recompute (heardFrom h b s)) := fun he => by
    have hrefs : RefsOk (heardFrom h b s) := ⟨he.symm, htiming.trans hnew.symm⟩
    rw [recompute_of_refsOk hrefs]
    exact stations_writes s _
  obtain ⟨hframe, hcounts⟩ := taken_frame_counts (F := b.frame) b.digest hsame.refs hsame.timingRef (hsame.own.symm ▸ ho)
    (hsame.lock ▸ hsame.notReference)
  have hoffsetr : offsetNow (recompute (heardFrom h b s)) = d := (offsetNow_of_writes hsame.writes).trans hoffset
  rw [hoffsetr, hnumber] at hframe hcounts
  have hiff := hsame.serves_iff
  obtain ⟨_, hreport, hlocked, hmeasured⟩ := hsame.lockMeasured b.frame
  rw [hoffset] at hlocked hmeasured hiff
  rw [hoffset, hnumber] at hreport
  refine answers_of_passes hp ?_
  rw [beaconTaken, beaconMeasured] at hpassed
  generalize recompute (heardFrom h b s) = r at *
  generalize passed { header := h, body := .beacon b } s = t at *
  obtain ⟨hslips, hkept⟩ := hsame.counts (t := t) ((congrArg ReportUnit.counts hpassed.report_eq).trans hcounts)
  have hlw := lockMeasured_writes b.frame r
  refine ⟨(hpassed.at .frame).trans hframe, hslips, hkept, fun hno => ?_, fun hs hdone hl hd1 hd2 => ?_⟩
  · rw [hsame.taken_of_stays hdigest (hiff.not.mpr hno)] at hpassed
    have hrt : Writes (.insertion :: Field.ofLockMeasured) r t := hlw.mono.trans hpassed.mono
    have hreportt := hpassed.report_eq.trans hreport
    refine ⟨(hrt.at .stationState).trans (hsame.writes.at .stationState), (hrt.at .tableRef).trans htable,
      (hrt.at .timingRef).trans hsame.timingRef, hmeasured.of_same (.of_writes hpassed), hmismatch.of_same rfl rfl (hrt.at .mismatch),
      hmoves.of_same ⟨⟨rfl, rfl, rfl, rfl⟩, rfl, rfl⟩ (hrt.at .collector) (hrt.at .transmit), fun hnh => ?_, fun hh hf => ?_,
      fun hs hf => (hrt.at .rejoinPending).trans (hpending hs hf), fun hnc => (hrt.at .rejoinPending).trans (hnotPending hresync hnc),
      fun he => (hunmoved he).mono.trans hrt.mono, hsame.writes.mono.trans hrt.mono⟩
    · obtain ⟨hr, hb⟩ := hcalm hresync hnh
      rw [hr] at hreportt
      exact ⟨hreportt, (hrt.at .backoff).trans hb⟩
    · obtain ⟨hb, hr⟩ := hheld hh hf
      rw [hr] at hreportt
      exact ⟨(hrt.at .backoff).trans hb, hreportt⟩
  · have hserve := hiff.mpr ⟨hs, hdone, hl, hd1, hd2⟩
    have hcaught := hcaught hs
    rw [hsame.taken_of_serves hserve] at hpassed
    obtain ⟨hto, hstatet, hseeded, hserving, hrequest, hdiffer, hagree, hreft, htimingt, hmeasuredt, hownt⟩ :=
      hsame.served_spec hserve hpassed (DigestDiffers.of_writes hcaught)
    rw [hoffset] at hmeasuredt
    have hr : r.report = s.report := hcaught.report_eq
    rw [hr] at hreport
    have hframe' : now (lockMeasured b.frame r) = E := by
      obtain ⟨hf, _⟩ := hsame.lockMeasured b.frame
      rw [hoffset, hnumber] at hf
      exact hf
    refine ⟨hstatet, hseeded, hserving, hrequest, hdiffer, hagree, hreft, htimingt, hmeasuredt, hownt, fun hidle => ?_, ?_, ?_⟩
    · obtain ⟨hc, hq⟩ := hmoves.1 (Or.inl hidle)
      obtain ⟨hc', hq'⟩ := served_idle (s := lockMeasured b.frame r) ((hlw.at .collector).trans (hc.trans hidle))
      exact ⟨(hto.at .collector).trans hc', (hto.at .transmit).trans (hq'.trans ((hlw.at .transmit).trans hq))⟩
    · exact hto.report_eq.trans ((served_report _).trans (by rw [hframe', hreport]))
    · exact hcaught.mono.trans (hlw.mono.trans ((served_writes _).mono.trans hto.mono))

end Sys2Proof.Machine
end

