-- ==== Sys2Proof/Proofs/BeaconsTaken.lean ====
section
/-! SUPPORT. Proofs/BeaconsTaken.lean: a beacon taken: the station table, the references, and the measurement of a new timing reference
(R64, R66, R70, R75, R81 to R86). -/

namespace Sys2Proof.Machine

set_option Elab.async false

/-! ## The references after a beacon (R70, R81) -/

/-- After everything that follows, the timing reference is the one computed first, or the own station. -/
theorem recompute_timingRef (u : State) :
    (recompute u).member.timingRef = some (own u) ∨ (recompute u).member.timingRef = computeTimingRef u := by
  have hw := recomputeOnce_writes u
  have hown : own (recomputeOnce u).state = own u := congrArg Straps.station (hw.at .straps)
  have hrefs := refsOk_recomputeOnce u
  have hstate : (recomputeOnce u).state.member.state = u.member.state := hw.at .stationState
  by_cases hserves : ServesByReference u
  · obtain ⟨hcatching, _⟩ := id hserves
    rw [recompute_of_serves hserves, ← hown, ← recomputeOnce_timingRef u]
    rcases served_lock hrefs (by rw [hstate, hcatching]; decide) with ⟨hsame, _⟩ | ⟨hnew, _⟩
    · exact Or.inr hsame
    · exact Or.inl hnew
  · by_cases hresync : u.member.state = .resync ∧ ThirdFailed (computeTableRef u) u
    · rw [recompute_of_resyncFailed hresync.1 hresync.2, ← hown, ← recomputeOnce_timingRef u]
      exact enterInService_reference (s := { (recomputeOnce u).state with member.backoff := 16 })
        (hrefs.of_writes (backoff_writes 16 _)) (show (recomputeOnce u).state.member.state ≠ .inService by rw [hstate, hresync.1]; decide)
    · exact Or.inr (((recompute_of_stays hserves hresync).at .timingRef).trans (recomputeOnce_timingRef u))

theorem LockFollows.freed {s t : State} {n : StationNo} (h : LockFollows s t) (ht : t.member.timingRef = some n) (hn : n ≠ own s)
    (hold : s.member.timingRef ≠ some n) : t.lock = { state := .free, ref := some n, offset := none } := by
  obtain ⟨_, hnew⟩ := h
  rw [ht] at hnew
  rw [(hnew hold.symm).1, if_neg fun he => hn (Option.some.inj he)]

/-- The same by way of a second change. -/
theorem LockFollows.freed_twice {s u t : State} {n : StationNo} (h1 : LockFollows s u) (h2 : LockFollows u t) (hstraps : u.straps = s.straps)
    (ht : t.member.timingRef = some n) (hn : n ≠ own s) (hold : s.member.timingRef ≠ some n) :
    t.lock = { state := .free, ref := some n, offset := none } := by
  have hown : own u = own s := congrArg Straps.station hstraps
  by_cases hu : u.member.timingRef = some n
  · exact (h2.1 (ht.trans hu.symm)).1.trans (h1.freed hu hn hold)
  · exact h2.freed ht (hown.symm ▸ hn) hu

/-- A peer that becomes the timing reference leaves the lock free. -/
theorem recompute_freed {u : State} {n : StationNo} (ht : (recompute u).member.timingRef = some n) (hn : n ≠ own u)
    (hold : u.member.timingRef ≠ some n) : (recompute u).lock = { state := .free, ref := some n, offset := none } := by
  have hw := recomputeOnce_writes u
  have hown : own (recomputeOnce u).state = own u := congrArg Straps.station (hw.at .straps)
  have honce := lockFollows_recomputeOnce u
  by_cases hserves : ServesByReference u
  · obtain ⟨hcatching, _, _, htiming, _⟩ := id hserves
    rw [recompute_of_serves hserves] at ht
    have hreference : (recomputeOnce u).state.member.timingRef = some (own u) := (recomputeOnce_timingRef u).trans htiming
    have hstate : (recomputeOnce u).state.member.state ≠ .inService := by
      rw [(hw.at .stationState : _ = _), hcatching]
      decide
    rcases served_lock (refsOk_recomputeOnce u) hstate with ⟨hsame, _⟩ | ⟨hnew, _⟩
    · exact absurd (Option.some.inj (ht.symm.trans (hsame.trans hreference))) hn
    · exact absurd (Option.some.inj (ht.symm.trans (hnew.trans (congrArg some hown)))) hn
  · by_cases hresync : u.member.state = .resync ∧ ThirdFailed (computeTableRef u) u
    · have hbackoff := backoff_writes 16 (recomputeOnce u).state
      have hthen := lockFollows_enterInService { (recomputeOnce u).state with member.backoff := 16 }
      have hevent := event_writes .resyncFailed (enterInService { (recomputeOnce u).state with member.backoff := 16 })
      have hfirst : LockFollows u { (recomputeOnce u).state with member.backoff := 16 } :=
        honce.of_same (.of_writes (.refl (fs := []) u)) (.of_writes hbackoff)
      have hstraps : ({ (recomputeOnce u).state with member.backoff := 16 } : State).straps = u.straps := hw.at .straps
      rw [recompute_of_resyncFailed hresync.1 hresync.2] at ht ⊢
      generalize ({ (recomputeOnce u).state with member.backoff := 16 } : State) = v at *
      generalize enterInService v = x at *
      exact (hevent.lock_eq : _ = x.lock).trans (hfirst.freed_twice hthen hstraps ((hevent.at .timingRef).symm.trans ht) hn hold)
    · have hstays := recompute_of_stays hserves hresync
      have hlock : (recompute u).lock = (recomputeOnce u).state.lock := hstays.lock_eq
      rw [hlock]
      exact honce.freed ((hstays.at .timingRef).symm.trans ht) hn hold

theorem RefsOk.tableRef_of_timingRef {s : State} {n : StationNo} (h : RefsOk s) (hne : s.member.timingRef ≠ some n) :
    s.member.tableRef ≠ some n := fun he =>
  hne (h.2.trans (computeTimingRef_of_tableRef (h.1.symm.trans he)))

/-- In service the timing reference is the table reference. -/
theorem RefsOk.tableRef_of_inService {s : State} {n : StationNo} (h : RefsOk s) (hs : s.member.state = .inService)
    (ht : s.member.timingRef = some n) : s.member.tableRef = some n := by
  cases hm : computeTableRef s with
  | none =>
    rw [computeTableRef_of_inService hs, lowest_append_singleton] at hm
    exact absurd hm nofun
  | some m =>
    have htiming : s.member.timingRef = some m := h.2.trans (computeTimingRef_of_tableRef hm)
    exact (h.1.trans hm).trans (htiming.symm.trans ht)

theorem refsOk_enterResync (cause : ResyncCause) (s : State) : RefsOk (enterResync cause s) :=
  (refsOk_recompute _).of_writes (beginCollection_writes _)

theorem refsOk_comparedWith {n : StationNo} {dg : Option (Frame × Digest)} {s : State} (h : RefsOk s) (hn : n ≠ own s) :
    RefsOk (comparedWith n dg s) := by
  rcases comparedWith_cases (dg := dg) hn with hsame | ⟨_, _, _, F, d, mine, _, _, heq⟩
  · rw [hsame]
    exact h
  · rw [heq]
    unfold comparedDigests
    split
    · exact h.of_writes (mismatch_writes _ s)
    · split
      · exact h.of_writes (mismatch_writes _ s)
      · exact refsOk_enterResync _ s

/-! ## A beacon measured and compared -/

theorem measuredFrom_writes (n : StationNo) (F : Frame) (s : State) : Writes Field.ofMeasure s (measuredFrom n F s) := by
  unfold measuredFrom
  split
  · exact measure_writes F s
  · exact .refl s

theorem comparedWith_writes (n : StationNo) (dg : Option (Frame × Digest)) (s : State) :
    Writes (Field.ofChange ++ [.responder, .progress]) s (comparedWith n dg s) := by
  unfold comparedWith
  split
  · exact compareDigest_writes dg s
  · exact .refl s

/-- A beacon of no reference is neither measured nor compared. -/
theorem taken_of_unreferenced {n : StationNo} {F : Frame} {dg : Option (Frame × Digest)} {s : State} (h : RefsOk s)
    (hne : s.member.timingRef ≠ some n) : comparedWith n dg (measuredFrom n F s) = s := by
  rw [measuredFrom, if_neg hne, comparedWith_of_other (h.tableRef_of_timingRef hne)]

/-- The measurement stands wherever the beacon's sender is still the timing reference after it. -/
theorem taken_measured {n : StationNo} {F : Frame} {dg : Option (Frame × Digest)} {s : State} (h : RefsOk s)
    (htiming : s.member.timingRef = some n) (hn : n ≠ own s) (hl : s.lock.state ≠ .reference)
    (hstill : (comparedWith n dg (measuredFrom n F s)).member.timingRef = some n) :
    Measured s (comparedWith n dg (measuredFrom n F s)) (offsetNow s)
      ∧ (comparedWith n dg (measuredFrom n F s)).lock.ref = s.lock.ref := by
  obtain ⟨hw, _⟩ := comparedWith_spec dg (refsOk_measuredFrom (n := n) (F := F) h) (by rw [measuredFrom_own]; exact hn)
  obtain ⟨_, _, _, hmeasured⟩ := lockMeasured_spec (F := F) hl
  have hlw := lockMeasured_writes F s
  have hsame : SameLock (measuredFrom n F s) (comparedWith n dg (measuredFrom n F s)) := .of_writes hw
  refine And.imp (fun hm => hm.of_same hsame) (fun hr => (congrArg Lock.ref hsame.lock).trans hr)
    (show Measured s (measuredFrom n F s) (offsetNow s) ∧ (measuredFrom n F s).lock.ref = s.lock.ref from ?_)
  rw [hsame.timingRef] at hstill
  rw [measuredFrom, if_pos htiming] at hstill ⊢
  by_cases hs : ServesByLock s
  · have hcatching : s.member.state = .catchingUp := hs.1
    rw [measure_of_serves hl hs] at hstill ⊢
    have hstate : (lockMeasured F s).member.state ≠ .inService := by
      rw [(hlw.at .stationState : _ = _), hcatching]
      decide
    rcases served_lock (h.of_writes hlw) hstate with ⟨_, hlock, hrequest⟩ | ⟨hown, _⟩
    · rw [Measured, hlock, hrequest]
      exact ⟨hmeasured, hlw.at .lockRef⟩
    · have hownm : own (lockMeasured F s) = own s := congrArg Straps.station (hlw.at .straps)
      exact absurd (Option.some.inj (hstill.symm.trans (hown.trans (congrArg some hownm)))) hn
  · rw [measure_of_stays hl hs]
    exact ⟨hmeasured, hlw.at .lockRef⟩

theorem Writes.counts_eq {fs : List Field} {s t : State} (w : Writes fs s t)
    (hf : [Field.crc, .overflow, .stray, .underrun, .late, .frameSlip].all (fun f => !fs.contains f) = true := by decide +kernel) :
    t.report.counts = s.report.counts := by
  simp only [List.all_cons, List.all_nil, Bool.and_true, Bool.and_eq_true, Bool.not_eq_true'] at hf
  obtain ⟨h1, h2, h3, h4, h5, h6⟩ := hf
  have e1 : t.report.counts.crc = s.report.counts.crc := w.at .crc h1
  have e2 : t.report.counts.overflow = s.report.counts.overflow := w.at .overflow h2
  have e3 : t.report.counts.stray = s.report.counts.stray := w.at .stray h3
  have e4 : t.report.counts.underrun = s.report.counts.underrun := w.at .underrun h4
  have e5 : t.report.counts.late = s.report.counts.late := w.at .late h5
  have e6 : t.report.counts.frameSlip = s.report.counts.frameSlip := w.at .frameSlip h6
  cases ht : t.report.counts
  cases hs : s.report.counts
  simp_all

/-! ## A new timing reference -/

/-- The peer n has become the timing reference. -/
structure NewReference (n : StationNo) (r : State) : Prop where
  refs : RefsOk r
  timingRef : r.member.timingRef = some n
  peer : n ≠ own r
  lock : r.lock = { state := .free, ref := some n, offset := none }

section

variable {n : StationNo} {r : State} (hnew : NewReference n r)

include hnew

theorem NewReference.free : r.lock.state = .free := congrArg Lock.state hnew.lock

theorem NewReference.notReference : r.lock.state ≠ .reference := by
  rw [hnew.free]
  decide

/-- The adoption of a free lock is no slip. -/
theorem NewReference.frame_counts (F : Frame) (dg : Option (Frame × Digest)) :
    (comparedWith n dg (measuredFrom n F r)).raster.frame = ownFrameOf F (offsetNow r)
      ∧ (comparedWith n dg (measuredFrom n F r)).report.counts = r.report.counts := by
  obtain ⟨hframe, hcounts⟩ := taken_frame_counts (F := F) dg hnew.refs hnew.timingRef hnew.peer hnew.notReference
  exact ⟨hframe, hcounts.trans (by rw [slipReport_of_kept (Or.inl hnew.free)])⟩

theorem NewReference.lockMeasured_report (F : Frame) : (lockMeasured F r).report = r.report := by
  obtain ⟨_, hreport, _⟩ := lockMeasured_spec (F := F) hnew.notReference
  rw [hreport, slipReport_of_kept (Or.inl hnew.free)]

theorem NewReference.lockMeasured_frame (F : Frame) : (lockMeasured F r).raster.frame = ownFrameOf F (offsetNow r) := by
  obtain ⟨hframe, _⟩ := lockMeasured_spec (F := F) hnew.notReference
  exact hframe

theorem NewReference.measured_of_stays {F : Frame} (hs : ¬ ServesByLock r) : measuredFrom n F r = lockMeasured F r := by
  rw [measuredFrom, if_pos hnew.timingRef, measure_of_stays hnew.notReference hs]

theorem NewReference.measured_of_serves {F : Frame} (hs : ServesByLock r) : measuredFrom n F r = served (lockMeasured F r) := by
  rw [measuredFrom, if_pos hnew.timingRef, measure_of_serves hnew.notReference hs]

/-- In CATCHING_UP with the install done: into service, or not (R64, R86). -/
theorem NewReference.catchingUp {b : BeaconBody} {t : State}
    (ht : Writes [.insertion] (comparedWith n b.digest (measuredFrom n b.frame r)) t)
    (hstate : r.member.state = .catchingUp) (hdone : installDone r = true) :
    (-2 ≤ offsetNow r → offsetNow r ≤ 2 → t.member.state = .inService ∧ t.table.seeded = true ∧ lockServes t.lock.state = true
        ∧ t.report = reportJoin (.event (.stateChange .inService none)) (ownFrameOf b.frame (offsetNow r)) r.report)
      ∧ (offsetNow r < -2 ∨ 2 < offsetNow r → t.member.state = .catchingUp ∧ t.report = r.report) := by
  have hlw := lockMeasured_writes b.frame r
  have hstatem : (lockMeasured b.frame r).member.state = .catchingUp := (hlw.at .stationState).trans hstate
  refine ⟨fun hd1 hd2 => ?_, fun hd => ?_⟩
  · have hserves : ServesByLock r := ⟨hstate, hdone, by rw [hnew.free]; decide, hd1, hd2⟩
    obtain ⟨_, _, hlocked, _⟩ := lockMeasured_spec (F := b.frame) hnew.notReference
    rw [lockOf_eq_locked.mpr ⟨hd1, hd2⟩] at hlocked
    have hservice := served_lockServes (hnew.refs.of_writes hlw) (by rw [hstatem]; decide) hlocked
    have hown : own (served (lockMeasured b.frame r)) = own r :=
      congrArg Straps.station (((served_writes _).at .straps).trans (hlw.at .straps))
    obtain ⟨hc, _⟩ := comparedWith_of_calm (b := b) (hown.symm ▸ hnew.peer) (served_mismatch (lockMeasured b.frame r))
    rw [hnew.measured_of_serves hserves] at ht
    have hto := hc.mono.trans ht.mono (fs := [.mismatch, .insertion])
    have hlock : t.lock = _ := hto.lock_eq
    refine ⟨(hto.at .stationState).trans (served_state _), (hto.at .seeded).trans (served_seeded _), hlock ▸ hservice, ?_⟩
    rw [hto.report_eq, served_report, now, hnew.lockMeasured_frame, hnew.lockMeasured_report]
  · have hstays : ¬ ServesByLock r := fun ⟨_, _, _, hd1, hd2⟩ => by omega
    rw [hnew.measured_of_stays hstays, comparedWith_of_off (Or.inl (by rw [hstatem]; decide))] at ht
    exact ⟨(ht.at .stationState).trans hstatem, ht.report_eq.trans (hnew.lockMeasured_report _)⟩

end

theorem FailureFollows.of_same {ref : Option StationNo} {s t t' : State} (h : FailureFollows ref s t)
    (hs : t'.member.state = t.member.state) (hr : t'.report = t.report) (hb : t'.member.backoff = t.member.backoff)
    (hp : t'.member.rejoinPending = t.member.rejoinPending) : FailureFollows ref s t' := by
  unfold FailureFollows Raised Reported at h ⊢
  rw [hs, hr, hb, hp]
  exact h

end Sys2Proof.Machine
end

