-- ==== Sys2Proof/Proofs/BeaconTable.lean ====
section
/-! SUPPORT. Proofs/BeaconTable.lean: what a BEACON of another station brings the station table and the references (R60, R66, R70). -/

namespace Sys2Proof.Machine

set_option Elab.async false

/-- The station state stays, or a resynchronisation ends. -/
theorem FailureFollows.cases {ref : Option StationNo} {s t : State} (h : FailureFollows ref s t) :
    t.member.state = s.member.state ∨ (s.member.state = .resync ∧ t.member.state = .inService ∧ t.member.backoff = 16) := by
  obtain ⟨hquiet, hcatching, hresync, hhold⟩ := h
  by_cases hthird : ThirdFailed ref s
  · by_cases h1 : s.member.state = .catchingUp
    · exact Or.inl ((hcatching hthird h1).1.trans h1.symm)
    · by_cases h2 : s.member.state = .resync
      · exact Or.inr ⟨h2, (hresync hthird h2).1, (hresync hthird h2).2.1⟩
      · by_cases h3 : s.member.state = .ringHold
        · exact Or.inl ((hhold hthird h3).1.trans h3.symm)
        · exact Or.inl (hquiet (Or.inr ⟨h1, h2, h3⟩)).1
  · exact Or.inl (hquiet (Or.inl hthird)).1

section

variable {n : StationNo} {s u t : State} {b : BeaconBody} (w : Writes Field.ofPeers s u) (hnew : NewReference n (recompute u))

include w hnew

theorem NewReference.not_serves : ¬ ServesByReference u := fun hs => by
  have hcatching : u.member.state = .catchingUp := hs.1
  have hown : computeTimingRef u = some (own u) := hs.2.2.2.1
  have howns : own u = own s := congrArg Straps.station (w.at .straps)
  have hrecomputed : own (recompute u) = own u := congrArg Straps.station ((recompute_writes u).at .straps)
  rcases recompute_timingRef u with ht | ht
  · exact hnew.peer (Option.some.inj (hnew.timingRef.symm.trans (ht.trans (congrArg some hrecomputed.symm))))
  · exact hnew.peer (Option.some.inj (hnew.timingRef.symm.trans (ht.trans (hown.trans (congrArg some hrecomputed.symm)))))

/-- In service a new timing reference is a new table reference: the streak is at 0 before the comparison. -/
theorem NewReference.inService (hlock : LockOk s) (hold : s.member.timingRef ≠ some n) (hstate : s.member.state = .inService) :
    computeTableRef u ≠ s.member.tableRef ∧ (recompute u).member.tableRef = some n ∧ (recompute u).member.mismatch = 0
      ∧ (recompute u).member.state = .inService ∧ (recompute u).member.backoff = s.member.backoff := by
  have honce := recomputeOnce_writes u
  have hstateu : u.member.state = .inService := (w.at .stationState).trans hstate
  have hserves := hnew.not_serves w
  have heq : recompute u = (recomputeOnce u).state := recompute_of_quiet hserves fun _ => by
    rw [hstateu]
    decide
  have hstater : (recompute u).member.state = .inService := by
    rw [heq]
    exact (honce.at .stationState).trans hstateu
  have href := hnew.refs.tableRef_of_inService hstater hnew.timingRef
  have hcompute : computeTableRef u = some n := by
    rw [← recomputeOnce_tableRef, ← heq]
    exact href
  have hne : computeTableRef u ≠ s.member.tableRef := fun he => hlock.refs.tableRef_of_timingRef hold (he.symm.trans hcompute)
  obtain ⟨⟨_, hmismatch⟩, _⟩ := mismatch_collector_follow w hserves
  refine ⟨hne, href, hmismatch hne, hstater, ?_⟩
  rw [heq]
  exact (honce.at .backoff).trans (w.at .backoff)

/-- The measurement changes no mismatch streak, and the comparison begins one in service. -/
theorem NewReference.compared (hlock : LockOk s) (hold : s.member.timingRef ≠ some n)
    (ht : Writes [.insertion] (comparedWith n b.digest (lockMeasured b.frame (recompute u))) t) :
    Writes [.mismatch, .insertion] (lockMeasured b.frame (recompute u)) t
      ∧ (s.member.state = .inService → DigestDiffers b s → t.member.mismatch = 1)
      ∧ (¬ (s.member.state = .inService ∧ DigestDiffers b s) → t.member.mismatch = (recompute u).member.mismatch) := by
  have hlw := lockMeasured_writes b.frame (recompute u)
  have hrec := recompute_writes u
  have hstate : (lockMeasured b.frame (recompute u)).member.state = (recompute u).member.state := hlw.at .stationState
  have hbackoff : (lockMeasured b.frame (recompute u)).member.backoff = (recompute u).member.backoff := hlw.at .backoff
  have hstreak : (lockMeasured b.frame (recompute u)).member.mismatch = (recompute u).member.mismatch := hlw.at .mismatch
  by_cases hs : s.member.state = .inService
  · obtain ⟨_, href, h0, hstater, hbackoffr⟩ := hnew.inService w hlock hold hs
    have hown : own (lockMeasured b.frame (recompute u)) = own (recompute u) := congrArg Straps.station (hlw.at .straps)
    have hhistory : (lockMeasured b.frame (recompute u)).table.history = s.table.history :=
      (hlw.at .history).trans ((hrec.at .history).trans (w.at .history))
    have hdiffers : DigestDiffers b (lockMeasured b.frame (recompute u)) ↔ DigestDiffers b s :=
      DigestDiffers.congr (hbackoff.trans hbackoffr) hhistory
    obtain ⟨hc, hdiffer, hagree⟩ := comparedWith_of_calm (b := b) (hown.symm ▸ hnew.peer) (hstreak.trans h0)
    refine ⟨hc.mono.trans ht.mono, fun _ hdd => ?_, fun hno => ?_⟩
    · exact (ht.at .mismatch).trans (hdiffer ((hlw.at .tableRef).trans href) (hstate.trans hstater) (hdiffers.mpr hdd))
    · exact ((ht.at .mismatch).trans (hagree fun ⟨_, _, hdd⟩ => hno ⟨hs, hdiffers.mp hdd⟩)).trans h0.symm
  · have hoff : (lockMeasured b.frame (recompute u)).member.state ≠ .inService
        ∨ 0 < (lockMeasured b.frame (recompute u)).member.backoff := by
      rw [hstate, hbackoff]
      rcases (failureFollows_recompute w (hnew.not_serves w)).cases with hsame | ⟨_, _, h16⟩
      · exact Or.inl (hsame.symm ▸ hs)
      · exact Or.inr (by rw [h16]; decide)
    rw [comparedWith_of_off hoff] at ht
    exact ⟨ht.mono, fun hin => absurd hin hs, fun _ => (ht.at .mismatch).trans hstreak⟩

/-- The measurement of a new reference changes nothing of what its being the reference brings; the comparison begins the streak. -/
theorem NewReference.follows (hlock : LockOk s) (hold : s.member.timingRef ≠ some n)
    (ht : Writes [.insertion] (comparedWith n b.digest (measuredFrom n b.frame (recompute u))) t)
    (hno : ¬ (s.member.state = .catchingUp ∧ installDone s = true)) :
    CollectorMoves (computeTableRef u) s t ∧ FailureFollows (computeTableRef u) s t
      ∧ (s.member.state = .inService → DigestDiffers b s → t.member.mismatch = 1)
      ∧ (¬ (s.member.state = .inService ∧ DigestDiffers b s) → MismatchFollows (computeTableRef u) s t) := by
  have hserves := hnew.not_serves w
  obtain ⟨hmismatch, hmoves⟩ := mismatch_collector_follow w hserves
  have hfails := failureFollows_recompute w hserves
  have hrec := recompute_writes u
  have hlw := lockMeasured_writes b.frame (recompute u)
  have hstays : ¬ ServesByLock (recompute u) := fun ⟨hs, hdone, _⟩ => by
    have hdones : installDone s = true := (installDone_of_writes w).symm.trans ((installDone_of_writes hrec).symm.trans hdone)
    rcases hfails.cases with hsame | ⟨_, hin, _⟩
    · exact hno ⟨hsame.symm.trans hs, hdones⟩
    · rw [hin] at hs
      exact absurd hs (by decide)
  rw [hnew.measured_of_stays hstays] at ht
  obtain ⟨hto, hdiffer, hagree⟩ := hnew.compared w hlock hold ht
  have hall : Writes (.mismatch :: .insertion :: Field.ofLockMeasured) (recompute u) t := hlw.mono.trans hto.mono
  have hreport : t.report = (recompute u).report := hto.report_eq.trans (hnew.lockMeasured_report _)
  exact ⟨hmoves.of_same ⟨⟨rfl, rfl, rfl, rfl⟩, rfl, rfl⟩ (hall.at .collector) (hall.at .transmit),
    hfails.of_same (hall.at .stationState) hreport (hall.at .backoff) (hall.at .rejoinPending), hdiffer,
    fun hno => hmismatch.of_same rfl rfl (hagree hno)⟩

end

/-! ## A beacon taken (R66) -/

/-- Outside CATCHING_UP no measurement moves a reference. -/
theorem measuredFrom_timingRef {n : StationNo} {F : Frame} {s : State} (h : s.member.state ≠ .catchingUp) :
    (measuredFrom n F s).member.timingRef = s.member.timingRef := by
  unfold measuredFrom
  split
  case isFalse => rfl
  case isTrue =>
    by_cases hl : s.lock.state = .reference
    · rw [measure_of_reference hl]
    · rw [measure_of_stays hl fun hs => h hs.1]
      exact (lockMeasured_writes F s).at .timingRef

theorem referencesFollow_passed_beacon {h : Header} {b : BeaconBody} {s : State} (ho : h.origin ≠ own s)
    (haddr : h.target = 0 ∨ h.target = own s) (hf : ReferencesFollow s (beaconTaken h b s)) :
    ReferencesFollow s (passed { header := h, body := .beacon b } s) := by
  have hoff : ¬ (addressed h.target s = false ∨ h.origin = own s) := fun hoff => hoff.elim
    (fun hno => absurd ((addressed_iff.mpr haddr).symm.trans hno) (by decide)) ho
  have heq : offerBeacon { h with hop := h.hop + 1 } b s = beaconTaken h b s := offerBeacon_of hoff
  rw [← heq] at hf
  exact hf

/-- The end of a resynchronisation makes the sender the timing reference only for good: the measurement then keeps it. -/
theorem beaconTaken_timingRef_of_resync {h : Header} {b : BeaconBody} {s : State} (ho : h.origin ≠ own s)
    (hstate : s.member.state = .resync) (hthird : ThirdFailed (computeTableRef (heardFrom h b s)) s) :
    (beaconTaken h b s).member.timingRef = (recompute (heardFrom h b s)).member.timingRef := by
  have hserves : ¬ ServesByReference (heardFrom h b s) :=
    not_serves_of_state (show s.member.state ≠ .catchingUp by rw [hstate]; decide)
  obtain ⟨_, _, hresync, _⟩ := failureFollows_recompute (heardFrom_writes h b s) hserves
  obtain ⟨hin, _⟩ := hresync hthird hstate
  have hown : own (recompute (heardFrom h b s)) = own s := congrArg Straps.station ((recompute_writes (heardFrom h b s)).at .straps)
  obtain ⟨hw, _⟩ := comparedWith_spec (n := h.origin) b.digest (refsOk_measuredFrom (n := h.origin) (F := b.frame)
    (refsOk_recompute (heardFrom h b s))) (by rw [measuredFrom_own, hown]; exact ho)
  exact (hw.at .timingRef).trans (measuredFrom_timingRef (by rw [hin]; decide))

/-- Settles O41. -/
theorem beaconUpdatesTable : Obligations.BeaconUpdatesTable := by
  intro s h b ref d E hp href hd hE
  subst href
  have ho : h.origin ≠ own s := hp.2.2.1
  have hu := heardFrom_writes h b s
  refine answers_of_passes hp ⟨forwarded_passed { header := h, body := .beacon b } s, fun haddr => ?_, passed_beacon_off⟩
  have hpassed := passed_beacon (b := b) ho haddr
  have hfollow := referencesFollow_passed_beacon (b := b) ho haddr
  have hended := beaconTaken_timingRef_of_resync (b := b) ho
  have hrec := recompute_writes (heardFrom h b s)
  have hrefs := refsOk_recompute (heardFrom h b s)
  have hchosen := recompute_timingRef (heardFrom h b s)
  have hpre : Writes (.stations :: Field.ofChange) s (recompute (heardFrom h b s)) := (stations_writes s _).mono.trans hrec.mono
  have hownr : own (recompute (heardFrom h b s)) = own s := congrArg Straps.station (hpre.at .straps)
  have hn : h.origin ≠ own (recompute (heardFrom h b s)) := hownr.symm ▸ ho
  have hnew : s.member.timingRef ≠ some h.origin → (recompute (heardFrom h b s)).member.timingRef = some h.origin →
      NewReference h.origin (recompute (heardFrom h b s)) := fun hold ht => ⟨hrefs, ht, hn, recompute_freed ht ho hold⟩
  have hoffset : offsetNow (recompute (heardFrom h b s)) = d := (offsetNow_of_writes hpre).trans hd.symm
  have hnumber : ownFrameOf b.frame d = E := hE.symm
  have hstable : (passed { header := h, body := .beacon b } s).member.stations = (recompute (heardFrom h b s)).member.stations :=
    (hpassed.at .stations).trans (((comparedWith_writes _ _ _).at .stations).trans ((measuredFrom_writes _ _ _).at .stations))
  have hrefst := (refsOk_comparedWith (dg := b.digest) (refsOk_measuredFrom (F := b.frame) hrefs)
    (by rw [measuredFrom_own]; exact hn)).of_writes hpassed
  have hunreferenced : (recompute (heardFrom h b s)).member.timingRef ≠ some h.origin →
      beaconTaken h b s = recompute (heardFrom h b s) := taken_of_unreferenced hrefs
  have hcounted : s.member.timingRef ≠ some h.origin → (recompute (heardFrom h b s)).member.timingRef = some h.origin →
      (passed { header := h, body := .beacon b } s).raster.frame = E
        ∧ (passed { header := h, body := .beacon b } s).report.counts = s.report.counts := fun hold ht => by
    obtain ⟨hframe, hcounts⟩ := (hnew hold ht).frame_counts b.frame b.digest
    rw [hoffset, hnumber] at hframe
    exact ⟨(hpassed.at .frame).trans hframe, hpassed.counts_eq.trans (hcounts.trans hpre.counts_eq)⟩
  have hbecame : (passed { header := h, body := .beacon b } s).member.timingRef = some h.origin →
      (recompute (heardFrom h b s)).member.timingRef = some h.origin := fun ht => by
    by_contra hne
    rw [hunreferenced hne] at hpassed
    exact hne ((hpassed.at .timingRef).symm.trans ht)
  refine ⟨hstable.trans (hrec.at .stations), ?_, fun m hm => ?_, hrefst.1, hrefst.2, fun hlock hmember hcase => ?_,
    fun hlock hmember hcompute hold hno => ?_, fun ht hold => ?_, ?_⟩
  · rw [hstable, (hrec.at .stations : _ = _)]
    exact findStation_putStation _ _ _
  · rw [hstable, (hrec.at .stations : _ = _)]
    exact findStation_putStation_ne hm _ _
  · have hne : (recompute (heardFrom h b s)).member.timingRef ≠ some h.origin := by
      rcases hcase with hne | ⟨hs, hf, hne⟩
      · rcases hchosen with hr | hr
        · exact fun he => ho (Option.some.inj (he.symm.trans hr))
        · exact hr ▸ hne
      · exact fun he => hne ((hpassed.at .timingRef).trans ((hended hs hf).trans he))
    rw [hunreferenced hne] at hpassed hfollow
    exact ⟨hfollow (referencesFollow_recompute hu hlock hmember.foreign), (hpassed.at .frame).trans (hpre.at .frame)⟩
  · have hserves : ¬ ServesByReference (heardFrom h b s) := fun ⟨_, _, _, hown, _⟩ => ho (Option.some.inj (hcompute.symm.trans hown))
    have hr : (recompute (heardFrom h b s)).member.timingRef = some h.origin := by
      by_cases hresync : s.member.state = .resync ∧ ThirdFailed (computeTableRef (heardFrom h b s)) s
      · by_contra hne
        exact hno ⟨hresync.1, hresync.2, fun ht => hne (hbecame ht)⟩
      · exact ((recompute_of_stays hserves hresync).at .timingRef).trans ((recomputeOnce_timingRef _).trans hcompute)
    obtain ⟨hframe, hcounts⟩ := hcounted hold hr
    have hcatching : s.member.state = .catchingUp →
        Writes (.stations :: .rejoinPending :: Field.ofRefs) s (recompute (heardFrom h b s)) := fun hs =>
      (stations_writes s _).mono.trans ((recomputeOnce_writes _).mono.trans (recompute_of_catchingUp_writes hserves hs).mono)
    have hcaught : s.member.state = .catchingUp → installDone s = true → _ := fun hs hdone =>
      (hnew hold hr).catchingUp hpassed (((hcatching hs).at .stationState).trans hs) ((installDone_of_writes (hcatching hs)).trans hdone)
    rw [hoffset, hnumber] at hcaught
    refine ⟨hframe, hcounts, fun hnc => ?_, fun hs hdone hd1 hd2 => ?_, fun hs hdone hd' => ?_⟩
    · obtain ⟨hmoves, hfails, hdiffer, hagree⟩ := (hnew hold hr).follows hu hlock hold hpassed hnc
      exact ⟨hmoves, hfails, hdiffer, hagree⟩
    · obtain ⟨hserve, _⟩ := hcaught hs hdone
      rw [← (hcatching hs).report_eq]
      exact hserve hd1 hd2
    · obtain ⟨_, hstay⟩ := hcaught hs hdone
      rw [← (hcatching hs).report_eq]
      exact hstay hd'
  · have hr := hbecame ht
    have hreference := hnew hold hr
    obtain ⟨hmeasured, hlockRef⟩ := taken_measured (F := b.frame) (dg := b.digest) hrefs hr hn hreference.notReference
      ((hpassed.at .timingRef).symm.trans ht)
    rw [hoffset] at hmeasured
    have hlock : (passed { header := h, body := .beacon b } s).lock = (beaconTaken h b s).lock := hpassed.lock_eq
    refine ⟨(hmeasured.of_straps (hpre.at .straps)).of_same (.of_writes hpassed), ?_, hcounted hold hr⟩
    rw [hlock]
    exact hlockRef.trans (congrArg Lock.ref hreference.lock)
  · exact hpre.mono.trans ((measuredFrom_writes _ _ _).mono.trans ((comparedWith_writes _ _ _).mono.trans hpassed.mono))

end Sys2Proof.Machine
end
